-- ==== Sys2Proof/Word.lean ====
section
/-!
DEFINITION. The word types of I2CM (spec/00_scope.md R9, R16): a register access moves one 32-bit word, a data byte is
8 bits, the five status bits are one 5-bit word. Every quantity is unsigned.
-/
namespace Sys2Proof

/-- A 32-bit register word (R9). -/
abbrev Word := BitVec 32

/-- A data byte (R9). -/
abbrev Byte := BitVec 8

/-- The five status bits XRDY(4), RRDY(3), ARDY(2), NACK(1), AL(0) (10_state R32). -/
abbrev Status := BitVec 5

end Sys2Proof
end

