-- ==== Sys2Proof/Syntax.lean ====
section
/-!
DEFINITION. The operations of I2CM: one constructor per row of spec/opcode_table.json (30_encoding R100 to R107), with
the operands the table gives each. There is no instruction stream; an operation is something an agent performs.
-/
namespace Sys2Proof

/-- The direction of a transaction: Tx sends the buffer, Rx fills it (10_state R44, 30 R101). -/
inductive Dir where
  | tx
  | rx
deriving DecidableEq, Repr

/-- The two register blocks (20_memory R70). -/
inductive Block where
  | i2c
  | clk
deriving DecidableEq, Repr

/-- The twelve registers of 10_state R31. -/
inductive Reg where
  | irqstatusRaw
  | irqstatus
  | irqenableSet
  | irqenableClr
  | cnt
  | data
  | con
  | sa
  | psc
  | scll
  | sclh
  | clkctrl
deriving DecidableEq, Repr

/-- Every register once. -/
def Reg.all : List Reg :=
  [.irqstatusRaw, .irqstatus, .irqenableSet, .irqenableClr, .cnt, .data, .con, .sa, .psc, .scll, .sclh, .clkctrl]

/-- The block of a register (10_state R31). -/
def Reg.block : Reg → Block
  | .clkctrl => .clk
  | _ => .i2c

/-- The four formats that name an operation by a number (30 R101, R102, R103, R107). -/
inductive Format where
  | cmd8
  | regacc
  | conw
  | evt8
deriving DecidableEq, Repr

/-- The operations. `address` is held in 8 bits so that the values above 0x7F, which the API refuses (30 R108), can be
written; `buffer` is the base address of a byte array in the caller's memory, `none` a null buffer (44 R270). The spec gives
`bus_speed_khz`, `interrupt_line` and `length` no operand width (30 R101); they are 32 bits each (DESIGN CHOICE, log 40). -/
inductive Instr where
  -- CMD8: consumer operations (44, 45)
  | init (busSpeedKhz interruptLine : Word)
  | deinit
  | writeBytes (address : Byte) (buffer : Option Word) (length : Word)
  | readBytes (address : Byte) (buffer : Option Word) (length : Word)
  | writeRegister (address register value : Byte)
  | readRegister (address register : Byte)
  | readBlock (address register : Byte) (buffer : Option Word) (length : Word)
  -- CMD8: clock operations (41)
  | clkEnsureEnabled
  | clkIsEnabled
  | clkDisable
  -- CMD8: sequencer operations (43, 44)
  | startWrite (address : Byte) (buffer length : Word)
  | startRead (address : Byte) (buffer length : Word)
  | isrService
  | waitComplete
  | lockAcquire
  | lockRelease
  | xferLocked (dir : Dir) (address : Byte) (buffer length : Word)
  -- REGACC (40)
  | rdIrqstatusRaw
  | wrIrqstatusRaw (v : Word)
  | rdIrqstatus
  | wrIrqstatus (v : Word)
  | rdIrqenableSet
  | wrIrqenableSet (v : Word)
  | rdIrqenableClr
  | wrIrqenableClr (v : Word)
  | rdCnt
  | wrCnt (v : Word)
  | rdData
  | wrData (v : Word)
  | rdCon
  | wrCon (v : Word)
  | rdSa
  | wrSa (v : Word)
  | rdPsc
  | wrPsc (v : Word)
  | rdScll
  | wrScll (v : Word)
  | rdSclh
  | wrSclh (v : Word)
  | rdClkctrl
  | wrClkctrl (v : Word)
  -- CONW: the words written to CON, each with all its 32 bits (30 R103)
  | conStartTx (v : Word)
  | conStartRx (v : Word)
  | conEnable (v : Word)
  | conDisable (v : Word)
  -- EVT8: engine (42)
  | engStart (dir : Dir)
  | engAddrAck
  | engAddrNack
  | engTxByteAck
  | engTxByteNack
  | engRxByte
  | engStopDone
  | engArbLost
  | engExtraReady
  | engLateArdy
  -- EVT8: power manager (41) and time (43)
  | pmUngate
  | pmGate
  | pmIdle
  | xferTimeoutFires
deriving DecidableEq, Repr

/-- The format of an operation (30 R100). -/
def Instr.format : Instr → Format
  | .init .. | .deinit | .writeBytes .. | .readBytes .. | .writeRegister .. | .readRegister .. | .readBlock ..
  | .clkEnsureEnabled | .clkIsEnabled | .clkDisable | .startWrite .. | .startRead .. | .isrService | .waitComplete
  | .lockAcquire | .lockRelease | .xferLocked .. => .cmd8
  | .rdIrqstatusRaw | .wrIrqstatusRaw _ | .rdIrqstatus | .wrIrqstatus _ | .rdIrqenableSet | .wrIrqenableSet _
  | .rdIrqenableClr | .wrIrqenableClr _ | .rdCnt | .wrCnt _ | .rdData | .wrData _ | .rdCon | .wrCon _ | .rdSa
  | .wrSa _ | .rdPsc | .wrPsc _ | .rdScll | .wrScll _ | .rdSclh | .wrSclh _ | .rdClkctrl | .wrClkctrl _ => .regacc
  | .conStartTx _ | .conStartRx _ | .conEnable _ | .conDisable _ => .conw
  | .engStart _ | .engAddrAck | .engAddrNack | .engTxByteAck | .engTxByteNack | .engRxByte | .engStopDone
  | .engArbLost | .engExtraReady | .engLateArdy | .pmUngate | .pmGate | .pmIdle | .xferTimeoutFires => .evt8

/-- Whether a caller thread performs the operation (30 R100, "who performs them"): all but ISR_SERVICE and the events. -/
def Instr.byCaller : Instr → Bool
  | .isrService => false
  | i => i.format != .evt8

end Sys2Proof
end

