-- ==== Sys2Proof/Config.lean ====
section
/-!
DEFINITION. What the spec leaves to the implementation or to the environment: the parameters and options of
92_eei_decisions.md section 7, each an argument of the model (a record that State carries and no step changes, log 9), and
the free values, which are opaque, so that no proof can see what they are.
-/
namespace Sys2Proof

/-- The two errors an interrupt service can record in the descriptor (10_state R22). -/
inductive XferError where
  | noAcknowledge
  | arbitrationLost
deriving DecidableEq, Repr

/-- `ISR_ERR_ACK` (43 R236(b), D14): which bits step 1 acknowledges. -/
inductive ErrAck where
  /-- The error bits of the snapshot, `st & STAT_ERR` (the default). -/
  | errorBits
  /-- Every bit of the snapshot (`AllSnapshot`). -/
  | allSnapshot
deriving DecidableEq, Repr

/-- The parameters `OFF_*` (10_state R31, D5): the byte offset of each register in its block. -/
structure Offsets where
  irqstatusRaw : BitVec 12
  irqstatus : BitVec 12
  irqenableSet : BitVec 12
  irqenableClr : BitVec 12
  cnt : BitVec 12
  data : BitVec 12
  con : BitVec 12
  sa : BitVec 12
  psc : BitVec 12
  scll : BitVec 12
  sclh : BitVec 12
  clkctrl : BitVec 12
deriving DecidableEq, Repr

/-- The offset of a register. -/
def Offsets.of (m : Offsets) : Reg → BitVec 12
  | .irqstatusRaw => m.irqstatusRaw
  | .irqstatus => m.irqstatus
  | .irqenableSet => m.irqenableSet
  | .irqenableClr => m.irqenableClr
  | .cnt => m.cnt
  | .data => m.data
  | .con => m.con
  | .sa => m.sa
  | .psc => m.psc
  | .scll => m.scll
  | .sclh => m.sclh
  | .clkctrl => m.clkctrl

/-- A register map: offsets that are multiples of 4 (20 R75) and tell the registers of a block apart (log 9). -/
structure RegMap where
  offsets : Offsets
  aligned : ∀ r ∈ Reg.all, (offsets.of r).toNat % 4 = 0
  distinct : ∀ r ∈ Reg.all, ∀ q ∈ Reg.all, r.block = q.block → offsets.of r = offsets.of q → r = q
deriving DecidableEq, Repr

/-- The positions of the five status bits (10_state R32, D6), of the five control bits (10_state R37, D7), and of the lowest
bit of each of the two 2-bit fields of CLKCTRL (10_state R42, D9; 93 U37). Within each word no two share a bit (log 9). -/
structure BitMap where
  al : Fin 32
  nack : Fin 32
  ardy : Fin 32
  rrdy : Fin 32
  xrdy : Fin 32
  en : Fin 32
  mst : Fin 32
  trx : Fin 32
  stp : Fin 32
  stt : Fin 32
  modulemode : Fin 31
  idlest : Fin 31
  statusDistinct : [al, nack, ardy, rrdy, xrdy].Nodup
  controlDistinct : [en, mst, trx, stp, stt].Nodup
  fieldsApart : modulemode.val + 2 ≤ idlest.val ∨ idlest.val + 2 ≤ modulemode.val
deriving DecidableEq, Repr

/-- The width of the byte count and the longest transaction (10_state R24, R35, D8, D28; 93 U38): the count is a field of a
32-bit register, and every length can be written to it (log 9). -/
structure CountField where
  /-- `CNT_W`. -/
  width : Nat
  /-- `MAX_LEN`. -/
  maxLen : Nat
  inWord : width ≤ 32
  fits : maxLen < 2 ^ width
deriving DecidableEq, Repr

/-- The timing constants of one bus speed (45 R301, D10). -/
structure Profile where
  psc : Byte
  scll : Byte
  sclh : Byte
deriving DecidableEq, Repr

/-- The parameters of 92 section 7 and the options of 00_scope R14. State carries one record of them; no step changes it
(log 9). -/
structure Options where
  /-- `I2C_BASE` (00 R10, 20 R71, D4). The width of the two bases is no rule's: 32 bits (DESIGN CHOICE, log 32). -/
  i2cBase : Word
  /-- `CLK_BASE` (00 R10, 20 R71, D4). -/
  clkBase : Word
  /-- `OFF_*` (10_state R31, D5). -/
  map : RegMap
  /-- The bit positions of D6, D7 and D9. -/
  bits : BitMap
  /-- `CNT_W` and `MAX_LEN` (10_state R24, R35, D8, D28). -/
  count : CountField
  /-- `F_FCLK_HZ` (42 R210, D10). -/
  fclkHz : Nat
  /-- `PSC_STD`, `SCLL_STD`, `SCLH_STD` (45 R301, D10). -/
  std : Profile
  /-- `PSC_FAST`, `SCLL_FAST`, `SCLH_FAST` (45 R301, D10). -/
  fast : Profile
  /-- `T_XFER` in milliseconds (00 R12, D24): no step reads it (60 R341; log 28). -/
  tXferMs : Nat
  /-- `T_CLK_TOTAL` in microseconds (00 R12): no step reads it; the poll counts `N_CLK_POLL` reads (41 R171; log 28). -/
  tClkTotalUs : Nat
  /-- `T_CLK_STEP` in microseconds (00 R12, D45): no step reads it (60 R341; log 28). -/
  tClkStepUs : Nat
  /-- `N_CLK_POLL` (00 R12, 41 R171, D45): the reads of the clock poll. -/
  nClkPoll : Nat
  /-- `ISR_ATOMIC` (43 R234): one invocation of the interrupt service is one step. -/
  isrAtomic : Bool
  /-- `ISR_ERR_ACK` (43 R236). -/
  isrErrAck : ErrAck
  /-- `ERR_TIE` (43 R236): the error recorded when NACK and AL are both in the snapshot; `none` draws it. -/
  errTie : Option XferError
  /-- `ENG_EXTRA_READY` (42 R203): the bound K on extra ready events of one transaction; `none` is unbounded. -/
  engExtraReady : Option Nat
  /-- `ENG_ARDY_AFTER_ERR` (42 R204): whether an error termination is followed by ARDY; `none` draws it each time. -/
  engArdyAfterErr : Option Bool
deriving DecidableEq, Repr

/-- `CNT_W`. -/
abbrev Options.cntW (o : Options) : Nat := o.count.width

/-- `MAX_LEN`. -/
abbrev Options.maxLen (o : Options) : Nat := o.count.maxLen

namespace Config

/-- The default offsets of 10_state R31. -/
def defaultOffsets : Offsets where
  irqstatusRaw := 0x024
  irqstatus := 0x028
  irqenableSet := 0x02C
  irqenableClr := 0x030
  cnt := 0x098
  data := 0x09C
  con := 0x0A4
  sa := 0x0AC
  psc := 0x0B0
  scll := 0x0B4
  sclh := 0x0B8
  clkctrl := 0x044

/-- The default bit positions of 10_state R32, R37 and R42. -/
def defaultBits : BitMap where
  al := 0
  nack := 1
  ardy := 2
  rrdy := 3
  xrdy := 4
  en := 15
  mst := 10
  trx := 9
  stp := 1
  stt := 0
  modulemode := 0
  idlest := 16
  statusDistinct := by decide
  controlDistinct := by decide
  fieldsApart := by decide

/-- The defaults of 92_eei_decisions.md section 7. -/
def defaultOptions : Options where
  i2cBase := 0x4819C000
  clkBase := 0x44E00000
  map := { offsets := defaultOffsets, aligned := by decide, distinct := by decide }
  bits := defaultBits
  count := { width := 16, maxLen := 65535, inWord := by decide, fits := by decide }
  fclkHz := 48000000
  std := { psc := 3, scll := 53, sclh := 55 }
  fast := { psc := 3, scll := 8, sclh := 10 }
  tXferMs := 100
  tClkTotalUs := 2000
  tClkStepUs := 10
  nClkPoll := 200
  isrAtomic := true
  isrErrAck := .errorBits
  errTie := some .noAcknowledge
  engExtraReady := some 0
  engArdyAfterErr := some false

/-- `draw(T)` of 00_scope R17 for a value of `w` bits: the free value of draw number `k`. Nothing constrains it
(93 section 3; log 7). -/
opaque draw (k w : Nat) : BitVec w

/-- `Env.addr_ack(addr7, rw)` of 42 R192, asked when `k` free values have been used (log 8). -/
opaque envAddrAck (k : Nat) (addr : BitVec 7) (rw : Bool) : Bool

/-- `Env.data_ack(byte)` of 42 R192 (log 8). -/
opaque envDataAck (k : Nat) (b : Byte) : Bool

/-- `Env.read_byte()` of 42 R192 (log 8). -/
opaque envReadByte (k : Nat) : Byte

/-- `Env.arb_lost()` of 42 R192 (log 8). -/
opaque envArbLost (k : Nat) : Bool

end Config
end Sys2Proof
end

