-- ==== Sys2Proof/Decode.lean ====
section
/-!
DEFINITION. Decoding and encoding (30_encoding R101 to R117). An operation is a format and a list of bytes: the number
of its format (one byte for CMD8 and EVT8, two for REGACC, four for CONW, least significant byte first), then its typed
operands. The numbers are the spec's, those of REGACC and CONW made of the offset and position parameters (R102: "If the
model changes an offset parameter, the access code changes with it"); how numbers of several bytes and operands are laid
out in bytes is the model's choice (log 3).
-/
namespace Sys2Proof

/-- Why a list of bytes is no operation (30 R113). -/
inductive DecodeError where
  /-- R113(a): a CMD8 number not in R101. -/
  | reservedCommand
  /-- R113(b), 40 R156: an offset that is not one of the documented ones of the block. -/
  | undocumentedOffset (blk : Block)
  /-- R113(b): `acc[13:12]` not zero. -/
  | reservedAccessCode
  /-- R113(i): an EVT8 number not in R107. -/
  | reservedEvent
  /-- The operand bytes are not of the form of log 3. -/
  | badOperand
deriving DecidableEq, Repr

/-- What decoding answers: an operation and the bytes after it, or the reason there is none. -/
abbrev Decoded := Except DecodeError (Instr × List Byte)

-- Registers and their access codes (10_state R31, 30 R102)

/-- The byte offset of a register in its block (10_state R31). -/
def Reg.offset (o : Options) (r : Reg) : BitVec 12 := o.map.offsets.of r

/-- The register of a block at an offset; none for an undocumented one (20 R75, 40 R156). -/
def Reg.ofOffset (o : Options) (blk : Block) (off : BitVec 12) : Option Reg :=
  Reg.all.find? fun r => r.block == blk && r.offset o == off

/-- The absolute address of a register (20 R71): no step uses it. Base and sum are 32 bits, the sum modulo 2^32, of which no
rule says anything (91 N11; DESIGN CHOICE, log 32). -/
def Reg.address (o : Options) (r : Reg) : Word :=
  (match r.block with | .i2c => o.i2cBase | .clk => o.clkBase) + (r.offset o).setWidth 32

/-- The access code of format REGACC (30 R102): direction, block, two zero bits, offset. -/
def accessCode (o : Options) (write : Bool) (r : Reg) : BitVec 16 :=
  BitVec.ofBool write ++ BitVec.ofBool (r.block == .clk) ++ (0#2 ++ r.offset o : BitVec 14)

/-- The read access of a register. -/
def readInstr : Reg → Instr
  | .irqstatusRaw => .rdIrqstatusRaw
  | .irqstatus => .rdIrqstatus
  | .irqenableSet => .rdIrqenableSet
  | .irqenableClr => .rdIrqenableClr
  | .cnt => .rdCnt
  | .data => .rdData
  | .con => .rdCon
  | .sa => .rdSa
  | .psc => .rdPsc
  | .scll => .rdScll
  | .sclh => .rdSclh
  | .clkctrl => .rdClkctrl

/-- The write access of a register. -/
def writeInstr (v : Word) : Reg → Instr
  | .irqstatusRaw => .wrIrqstatusRaw v
  | .irqstatus => .wrIrqstatus v
  | .irqenableSet => .wrIrqenableSet v
  | .irqenableClr => .wrIrqenableClr v
  | .cnt => .wrCnt v
  | .data => .wrData v
  | .con => .wrCon v
  | .sa => .wrSa v
  | .psc => .wrPsc v
  | .scll => .wrScll v
  | .sclh => .wrSclh v
  | .clkctrl => .wrClkctrl v

-- The control word (10_state R37, 30 R103)

/-- The five defined bits of a control word. -/
structure ControlBits where
  en : Bool
  mst : Bool
  trx : Bool
  stp : Bool
  stt : Bool
deriving DecidableEq, Repr

/-- One bit of a word at a position. -/
def bitAt (k : Fin 32) (b : Bool) : Word := if b then 1#32 <<< k.val else 0

/-- The five bits of a word written to CON; all others are ignored (30 R113(g)). -/
def ControlBits.ofWord (m : BitMap) (v : Word) : ControlBits where
  en := v.getLsbD m.en
  mst := v.getLsbD m.mst
  trx := v.getLsbD m.trx
  stp := v.getLsbD m.stp
  stt := v.getLsbD m.stt

/-- The word of five control bits, all others 0. -/
def ControlBits.toWord (m : BitMap) (c : ControlBits) : Word :=
  bitAt m.en c.en ||| bitAt m.mst c.mst ||| bitAt m.trx c.trx ||| bitAt m.stp c.stp ||| bitAt m.stt c.stt

/-- The bits of `CON_START_TX` and `CON_START_RX`: the receive word is the transmit word without the direction bit. -/
def ControlBits.start (d : Dir) : ControlBits where
  en := true
  mst := true
  trx := d == .tx
  stp := true
  stt := true

/-- The bits of `CON_ENABLE`. -/
def ControlBits.enable : ControlBits where
  en := true
  mst := false
  trx := false
  stp := false
  stt := false

/-- The bits of `CON_DISABLE` as a word to write. -/
def ControlBits.disable : ControlBits where
  en := false
  mst := false
  trx := false
  stp := false
  stt := false

-- Operand bytes (log 3)

/-- A 32-bit value as four bytes, least significant first (log 3). -/
def wordBytes (w : Word) : List Byte :=
  [w.extractLsb' 0 8, w.extractLsb' 8 8, w.extractLsb' 16 8, w.extractLsb' 24 8]

/-- A direction as one byte: 0 is Tx, 1 is Rx, as the `rw` bit of the wire (30 R106; log 3). -/
def dirByte : Dir → Byte
  | .tx => 0
  | .rx => 1

/-- A buffer operand: 0 for null; 1 and a base address for a byte array of the caller's memory (log 3). -/
def bufferBytes : Option Word → List Byte
  | none => [0]
  | some w => 1 :: wordBytes w

/-- Take one byte and go on. -/
def withByte (bs : List Byte) (k : Byte → List Byte → Decoded) : Decoded :=
  match bs with
  | b :: rest => k b rest
  | [] => .error .badOperand

/-- Take a 32-bit value and go on. -/
def withWord (bs : List Byte) (k : Word → List Byte → Decoded) : Decoded :=
  match bs with
  | a :: b :: c :: d :: rest => k (d ++ (c ++ (b ++ a : BitVec 16) : BitVec 24)) rest
  | _ => .error .badOperand

/-- Take a direction and go on. -/
def withDir (bs : List Byte) (k : Dir → List Byte → Decoded) : Decoded :=
  withByte bs fun b rest => if b = 0 then k .tx rest else if b = 1 then k .rx rest else .error .badOperand

/-- Take a buffer operand and go on. -/
def withBuffer (bs : List Byte) (k : Option Word → List Byte → Decoded) : Decoded :=
  withByte bs fun b rest =>
    if b = 0 then k none rest
    else if b = 1 then withWord rest fun w rest => k (some w) rest
    else .error .badOperand

-- Operand ranges (R108, R109)

/-- `address ≤ 0x7F` and `1 ≤ length ≤ MAX_LEN`. -/
def transferOperandsOk (o : Options) (address : Byte) (length : Word) : Bool :=
  address.toNat ≤ 0x7F && 1 ≤ length.toNat && length.toNat ≤ o.maxLen

-- The four formats

/-- Format CMD8 (30 R101). -/
def decodeCmd8 (bs : List Byte) : Decoded :=
  withByte bs fun op r =>
    match op.toNat with
    | 0x00 => withWord r fun speed r => withWord r fun line r => .ok (.init speed line, r)
    | 0x01 => .ok (.deinit, r)
    | 0x02 => withByte r fun a r => withBuffer r fun b r => withWord r fun n r => .ok (.writeBytes a b n, r)
    | 0x03 => withByte r fun a r => withBuffer r fun b r => withWord r fun n r => .ok (.readBytes a b n, r)
    | 0x04 => withByte r fun a r => withByte r fun g r => withByte r fun v r => .ok (.writeRegister a g v, r)
    | 0x05 => withByte r fun a r => withByte r fun g r => .ok (.readRegister a g, r)
    | 0x06 => withByte r fun a r => withByte r fun g r => withBuffer r fun b r => withWord r fun n r =>
        .ok (.readBlock a g b n, r)
    | 0x08 => .ok (.clkEnsureEnabled, r)
    | 0x09 => .ok (.clkIsEnabled, r)
    | 0x0A => .ok (.clkDisable, r)
    | 0x0C => withByte r fun a r => withWord r fun b r => withWord r fun n r => .ok (.startWrite a b n, r)
    | 0x0D => withByte r fun a r => withWord r fun b r => withWord r fun n r => .ok (.startRead a b n, r)
    | 0x0E => .ok (.isrService, r)
    | 0x0F => .ok (.waitComplete, r)
    | 0x10 => .ok (.lockAcquire, r)
    | 0x11 => .ok (.lockRelease, r)
    | 0x12 => withDir r fun d r => withByte r fun a r => withWord r fun b r => withWord r fun n r =>
        .ok (.xferLocked d a b n, r)
    | _ => .error .reservedCommand

/-- Format REGACC (30 R102): `acc[15]` direction, `acc[14]` block, `acc[13:12]` zero, `acc[11:0]` offset; a write is
followed by its 32-bit value. -/
def decodeRegacc (o : Options) (bs : List Byte) : Decoded :=
  withByte bs fun lo r => withByte r fun hi r =>
    let acc : BitVec 16 := hi ++ lo
    if acc.extractLsb' 12 2 ≠ 0 then .error .reservedAccessCode
    else
      let blk : Block := if acc.getLsbD 14 then .clk else .i2c
      match Reg.ofOffset o blk (acc.extractLsb' 0 12) with
      | none => .error (.undocumentedOffset blk)
      | some g =>
        if acc.getLsbD 15 then withWord r fun v r => .ok (writeInstr v g, r) else .ok (readInstr g, r)

/-- Format CONW (30 R103): only the five defined bits are looked at, and for CON_DISABLE only EN. A reserved word is a
value operand of WR_CON like any other (R100), which refuses it or stores it as R113(d) and R113(e) say. -/
def decodeConw (o : Options) (bs : List Byte) : Decoded :=
  withWord bs fun v r =>
    let c := ControlBits.ofWord o.bits v
    if c.en = false then .ok (.conDisable v, r)
    else if c = .start .tx then .ok (.conStartTx v, r)
    else if c = .start .rx then .ok (.conStartRx v, r)
    else if c = .enable then .ok (.conEnable v, r)
    else .ok (.wrCon v, r)

/-- Format EVT8 (30 R107). ENG_START has its direction as operand (42 R193). -/
def decodeEvt8 (bs : List Byte) : Decoded :=
  withByte bs fun ev r =>
    match ev.toNat with
    | 0x20 => withDir r fun d r => .ok (.engStart d, r)
    | 0x21 => .ok (.engAddrAck, r)
    | 0x22 => .ok (.engAddrNack, r)
    | 0x23 => .ok (.engTxByteAck, r)
    | 0x24 => .ok (.engTxByteNack, r)
    | 0x25 => .ok (.engRxByte, r)
    | 0x26 => .ok (.engStopDone, r)
    | 0x27 => .ok (.engArbLost, r)
    | 0x28 => .ok (.engExtraReady, r)
    | 0x29 => .ok (.engLateArdy, r)
    | 0x30 => .ok (.pmUngate, r)
    | 0x31 => .ok (.pmGate, r)
    | 0x32 => .ok (.pmIdle, r)
    | 0x38 => .ok (.xferTimeoutFires, r)
    | _ => .error .reservedEvent

/-- Decoding an operation (30 R117): look the number up in the table of its format. -/
def decode (o : Options) : Format → List Byte → Decoded
  | .cmd8 => decodeCmd8
  | .regacc => decodeRegacc o
  | .conw => decodeConw o
  | .evt8 => decodeEvt8

-- Encoding

/-- The bytes of a register access (30 R102). -/
def accessBytes (o : Options) (write : Bool) (g : Reg) : List Byte :=
  [(accessCode o write g).extractLsb' 0 8, (accessCode o write g).extractLsb' 8 8]

/-- The bytes of an operation, in its format. -/
def encode (o : Options) : Instr → List Byte
  | .init speed line => 0x00 :: (wordBytes speed ++ wordBytes line)
  | .deinit => [0x01]
  | .writeBytes a b n => 0x02 :: a :: (bufferBytes b ++ wordBytes n)
  | .readBytes a b n => 0x03 :: a :: (bufferBytes b ++ wordBytes n)
  | .writeRegister a g v => [0x04, a, g, v]
  | .readRegister a g => [0x05, a, g]
  | .readBlock a g b n => 0x06 :: a :: g :: (bufferBytes b ++ wordBytes n)
  | .clkEnsureEnabled => [0x08]
  | .clkIsEnabled => [0x09]
  | .clkDisable => [0x0A]
  | .startWrite a b n => 0x0C :: a :: (wordBytes b ++ wordBytes n)
  | .startRead a b n => 0x0D :: a :: (wordBytes b ++ wordBytes n)
  | .isrService => [0x0E]
  | .waitComplete => [0x0F]
  | .lockAcquire => [0x10]
  | .lockRelease => [0x11]
  | .xferLocked d a b n => 0x12 :: dirByte d :: a :: (wordBytes b ++ wordBytes n)
  | .rdIrqstatusRaw => accessBytes o false .irqstatusRaw
  | .wrIrqstatusRaw v => accessBytes o true .irqstatusRaw ++ wordBytes v
  | .rdIrqstatus => accessBytes o false .irqstatus
  | .wrIrqstatus v => accessBytes o true .irqstatus ++ wordBytes v
  | .rdIrqenableSet => accessBytes o false .irqenableSet
  | .wrIrqenableSet v => accessBytes o true .irqenableSet ++ wordBytes v
  | .rdIrqenableClr => accessBytes o false .irqenableClr
  | .wrIrqenableClr v => accessBytes o true .irqenableClr ++ wordBytes v
  | .rdCnt => accessBytes o false .cnt
  | .wrCnt v => accessBytes o true .cnt ++ wordBytes v
  | .rdData => accessBytes o false .data
  | .wrData v => accessBytes o true .data ++ wordBytes v
  | .rdCon => accessBytes o false .con
  | .wrCon v => accessBytes o true .con ++ wordBytes v
  | .rdSa => accessBytes o false .sa
  | .wrSa v => accessBytes o true .sa ++ wordBytes v
  | .rdPsc => accessBytes o false .psc
  | .wrPsc v => accessBytes o true .psc ++ wordBytes v
  | .rdScll => accessBytes o false .scll
  | .wrScll v => accessBytes o true .scll ++ wordBytes v
  | .rdSclh => accessBytes o false .sclh
  | .wrSclh v => accessBytes o true .sclh ++ wordBytes v
  | .rdClkctrl => accessBytes o false .clkctrl
  | .wrClkctrl v => accessBytes o true .clkctrl ++ wordBytes v
  | .conStartTx v => wordBytes v
  | .conStartRx v => wordBytes v
  | .conEnable v => wordBytes v
  | .conDisable v => wordBytes v
  | .engStart d => [0x20, dirByte d]
  | .engAddrAck => [0x21]
  | .engAddrNack => [0x22]
  | .engTxByteAck => [0x23]
  | .engTxByteNack => [0x24]
  | .engRxByte => [0x25]
  | .engStopDone => [0x26]
  | .engArbLost => [0x27]
  | .engExtraReady => [0x28]
  | .engLateArdy => [0x29]
  | .pmUngate => [0x30]
  | .pmGate => [0x31]
  | .pmIdle => [0x32]
  | .xferTimeoutFires => [0x38]

-- Words numbered as the opcode table numbers them

/-- The first `n` bytes of a number, least significant first. -/
def littleEndian : Nat → Nat → List Byte
  | 0, _ => []
  | n + 1, w => BitVec.ofNat 8 w :: littleEndian n (w / 256)

/-- A table word as bytes, with zeros up to the longest operation (12 bytes, READ_BLOCK). -/
def tableBytes (w : Nat) : List Byte := littleEndian 12 w

/-- Whether the bytes decode in a format. -/
def decodesAs (o : Options) (f : Format) (bs : List Byte) : Bool :=
  match decode o f bs with
  | .ok _ => true
  | .error _ => false

/-- The format a table row of `nbits` bits is read in: the number spaces CMD8 and EVT8 are disjoint, and so are the
REGACC codes and the low halves of the four control words (log 4). -/
def tableFormat (o : Options) (nbits w : Nat) : Format :=
  if nbits ≤ 8 then (if decodesAs o .cmd8 (tableBytes w) then .cmd8 else .evt8)
  else if nbits ≤ 16 then (if decodesAs o .regacc (tableBytes w) then .regacc else .conw)
  else .conw

/-- The operation the decoder reads from a table word; the table is the one of the default parameters. -/
def decodeTableWord (nbits w : Nat) : Option Instr :=
  match decode Config.defaultOptions (tableFormat Config.defaultOptions nbits w) (tableBytes w) with
  | .ok (i, _) => some i
  | .error _ => none

end Sys2Proof
end

