-- ==== Sys2Proof/WellFormed.lean ====
section
/-!
DEFINITION. Which operations are well formed: a control word is of the class its mnemonic names (30_encoding R103), and
the internal operations START_WRITE, START_READ and XFER_LOCKED have operands in the ranges of spec/opcode_table.json
(`address` 7 bits, `length` 1 to `MAX_LEN`; R109, R113(h)). The consumer operations check their own operands, with results
the spec gives (44 R270), so every value of theirs is well formed.
-/
namespace Sys2Proof

/-- Well-formedness of an operation, the bit positions of the control word given. -/
def Instr.wf (o : Options) : Instr → Bool
  | .startWrite a _ n | .startRead a _ n | .xferLocked _ a _ n => transferOperandsOk o a n
  | .conStartTx v => ControlBits.ofWord o.bits v == .start .tx
  | .conStartRx v => ControlBits.ofWord o.bits v == .start .rx
  | .conEnable v => ControlBits.ofWord o.bits v == .enable
  | .conDisable v => !(ControlBits.ofWord o.bits v).en
  | _ => true

end Sys2Proof
end

