-- ==== Sys2Proof/Machine/State.lean ====
section
/-!
DEFINITION. The state of I2CM as plain data (10_state R20 to R53), the ways a step can stop, and the state at power-on.
INVENTORY.md lists every field with its rule and reset value.
-/
namespace Sys2Proof.Machine

-- Stops

/-- The one fault of the model (60 R328). -/
inductive Fault where
  /-- Raised by any access to a register of the I2C block while the clock is not live (40 R130, 20 R78). It stops the
  accessing agent and the run; it records the block and the offset. SAFE: the source's "risk" is taken as "always"
  (D21), and a claim that an operation completes must exclude it. -/
  | busFault (blk : Block) (off : BitVec 12)
deriving DecidableEq, Repr

/-- The situations the spec gives no meaning to (60 R329, 93 section 1); the model never picks an outcome there. All are
SAFE: the run stops where the hardware may go on. -/
inductive Refusal where
  /-- Raised by exec's arms only, for an operation without a meaning; SAFE. -/
  | notModelled (mnemonic : String)
  /-- U1: raised by an access to a block that is not mapped, at any offset (40 R130); SAFE. -/
  | unmapped
  /-- U2: raised by step for an access code of an undocumented offset in a mapped block (40 R130, R156); SAFE. -/
  | undocumentedOffset
  /-- U4: raised by WR_IRQSTATUS_RAW after the prologue (40 R132, log 18); SAFE. -/
  | rawStatusWrite
  /-- U5: raised by WR_CLKCTRL with MODULEMODE 1 or 3 (40 R155); SAFE. -/
  | reservedModulemode
  /-- U6: raised by WR_PSC, WR_SCLL, WR_SCLH while CON.EN = 1 (40 R151); SAFE. -/
  | timingWriteWhileEnabled
  /-- U7: raised by WR_CON with EN and STT but without MST or STP (40 R144); SAFE. -/
  | startFormNotInSource
  /-- U8: raised by a START form of WR_CON while CNT is 0 or was never written (40 R144); and by ENG_START alone where CNT
  has no value (log 5); SAFE. -/
  | zeroCount
  /-- U9: raised by a START form of WR_CON while SA is above 0x7F or was never written (40 R144); and by ENG_START alone
  where SA has no value (log 5); SAFE. -/
  | addressOutOfRange
  /-- U10: raised by a DATA write the engine did not ask for (40 R141); SAFE. -/
  | dataWriteUnexpected
  /-- U11: raised by a transfer operation with an operand out of range (44 R270, 30 R108, R109; log 20); SAFE. -/
  | operandOutOfRange
  /-- U12, U15, U19: raised by START_WRITE, START_READ, XFER_LOCKED, LOCK_RELEASE and WAIT_COMPLETE of a caller that does
  not hold the lock (43 R231, R246, 44 R271; log 19 for WAIT_COMPLETE); SAFE. -/
  | notLockHolder
  /-- U13: raised by arming while the phase is not Idle (43 R231); SAFE. -/
  | armWhileActive
  /-- U14: raised by a caller that touches the descriptor between arming and the observed outcome (20 R86(c), R87, 43 R248):
  by arming again, by the end of the descriptor in DEINIT (log 37), and by WAIT_COMPLETE of a caller that does not hold the
  lock (log 19); SAFE. -/
  | descriptorTouchedWhileArmed
  /-- U16: raised by DEINIT while the lock is held or the phase is not Idle (45 R304); SAFE. -/
  | deinitWhileBusy
  /-- U17: raised by INIT and DEINIT that overlap another caller's, or a transfer call in its prologue, and by the transfer
  call that is in its prologue then (45 R300(b), 60 R340; log 21); SAFE. -/
  | concurrentLifecycle
  /-- U18, U49: raised by step for bytes that are no operation for another reason than the offset (30 R113); SAFE. -/
  | noSuchOperation (e : DecodeError)
  /-- Raised by a use of the descriptor while it does not exist (10 R27: "no rule reads it then"; log 22); SAFE. -/
  | noDescriptor
deriving DecidableEq, Repr

/-- What a partial computation answers: a value, a fault or a refusal. -/
abbrev Res (α : Type) := Host.Outcome α Fault Refusal

-- Values

/-- The error results of 60 R320. -/
inductive Error where
  | timeout
  | noAcknowledge
  | arbitrationLost
  | notInitialized
  | invalidArgument
  | allocationFailure
deriving DecidableEq, Repr

/-- What an operation hands its caller (30 R101): nothing yet, no value, `Ok(())`, `Ok(byte)`, a Boolean, the word of a
register read, or an error. -/
inductive Result where
  | pending
  | unit
  | ok
  | okByte (b : Byte)
  | bool (b : Bool)
  | word (w : Word)
  | err (e : Error)
deriving DecidableEq, Repr

/-- `ctl.speed` (10_state R28). -/
inductive Speed where
  | std100
  | fast400
deriving DecidableEq, Repr

/-- `txn.phase` (10_state R21). -/
inductive Phase where
  | idle
  | writing
  | reading
deriving DecidableEq, Repr

/-- `eng.st` (10_state R44). -/
inductive EngSt where
  | idle
  | addr
  | txWait
  | txShift
  | rxShift
  | rxWait
  | stop
deriving DecidableEq, Repr

/-- An event of the wire history (10_state R47). -/
inductive WireEvent where
  | start
  | addr (addr7 : BitVec 7) (rw : Bool)
  | ack
  | nack
  | byte (b : Byte)
  | stop
  | lost
deriving DecidableEq, Repr

/-- What `txn.buffer` refers to (10_state R23, 60 R343): a byte array of the caller's memory, or a local buffer of
operation number `serial` of caller `owner` (log 14). -/
inductive BufRef where
  | mem (base : Word)
  | tmp (owner serial : Nat)
  | staging (owner serial : Nat)
deriving DecidableEq, Repr

/-- Byte memory: the listed bytes, addresses rising, none equal to what an unlisted address reads as (log 13). -/
abbrev Memory := List Host.Cell

-- Parts of the state

/-- What CON stores (10_state R37): STT and STP read back as 0 and the other bits are reserved. -/
structure Con where
  en : Bool
  mst : Bool
  trx : Bool
deriving DecidableEq, Repr

/-- `ctl` (10_state R28). -/
structure Ctl where
  ready : Bool
  i2cMapped : Bool
  clkMapped : Bool
  irqRegistered : Bool
  irqLine : Option Word
  speed : Option Speed
deriving DecidableEq, Repr

/-- The Transaction Descriptor (10_state R21 to R25), and `awaited`: it was armed and the outcome has not been observed yet,
by a wait or by the timeout path (20 R86(c), R87, 43 R248; log 37). -/
structure Txn where
  phase : Phase
  error : Option XferError
  buffer : Option BufRef
  length : Nat
  index : Nat
  completion : Bool
  awaited : Bool
deriving DecidableEq, Repr

/-- The descriptor INIT creates (10_state R50, 45 R300). -/
def Txn.fresh : Txn where
  phase := .idle
  error := none
  buffer := none
  length := 0
  index := 0
  completion := false
  awaited := false

/-- The hidden state of the bus engine (10_state R44), with the number of extra ready events used since START, which
the bound of 42 R203 counts (log 26). -/
structure Engine where
  st : EngSt
  dir : Dir
  sa : BitVec 7
  cnt : Nat
  rem : Nat
  loaded : Nat
  hold : Option Byte
  window : Bool
  lateArdy : Bool
  extra : Nat
deriving DecidableEq, Repr

/-- The reference slave (42 R212): its address, its 256-byte register file, its pointer, and whether the next byte of
the current write transaction is its first. -/
structure RefSlave where
  addr : BitVec 7
  mem : Memory
  ptr : Byte
  first : Bool
deriving DecidableEq, Repr

/-- What the environment answers to the question put to it next, whichever of the four it is (42 R192). -/
structure Answer where
  addrAck : Bool
  dataAck : Bool
  byte : Byte
  arbLost : Bool
deriving DecidableEq, Repr

/-- The bus environment (42 R192): any environment at all, whose answers are first those listed (none at power-on) and
then free values; or the reference slave (log 8). -/
inductive Env where
  | oracle (known : List Answer)
  | refSlave (r : RefSlave)
deriving DecidableEq, Repr

/-- How an API operation hands its outcome over when it returns (44 R272 to R276). -/
inductive Deliver where
  /-- The result as it stands. -/
  | plain
  /-- `Ok(out[0])` (READ_REGISTER). -/
  | byte
  /-- The staging buffer copied to `length` bytes at `base` (READ_BLOCK). -/
  | block (base : Word) (length : Nat)
deriving DecidableEq, Repr

/-- One line of an operation that a caller still has to perform: the position of a caller inside an operation
(10_state R30(c)). Each is performed in one step of the machine (log 15). -/
inductive Act where
  /-- LOCK_ACQUIRE's line (43 R245). -/
  | acquire
  /-- LOCK_RELEASE's line (43 R246); also where an error result of the transfer before it goes on. -/
  | release
  /-- The first read of CLK_ENSURE_ENABLED (41 R171). -/
  | clkEnsure
  /-- Its request, after `c` was read. -/
  | clkRequest (c : Word)
  /-- Its poll loop, with `left` reads to go. -/
  | clkPoll (left : Nat)
  /-- The read of CLK_DISABLE (41 R173). -/
  | clkDrop
  /-- Its write, after `c` was read. -/
  | clkRelease (c : Word)
  /-- The requirements of arming and its reset of error, buffer, length and index (43 R231). -/
  | armFields (buf : BufRef) (length : Nat)
  /-- Arming's `completion <- false`. -/
  | armCompletion
  /-- Arming's phase write. -/
  | armPhase (d : Dir)
  /-- A register write. -/
  | write (r : Reg) (v : Word)
  /-- Blocked in WAIT_COMPLETE (43 R243). -/
  | wait
  /-- The clock check of the diagnostic dump (43 R244). -/
  | diagnose
  /-- One read of the diagnostic dump, its value logged outside the state. -/
  | probe (r : Reg)
  /-- Timeout recovery's `phase <- Idle`. -/
  | forceIdle
  /-- Return an error. -/
  | fail (e : Error)
  /-- INIT's registration of the interrupt service (45 R300). -/
  | registerIsr (line : Word)
  /-- The end of INIT: the controller ready, or after an error both blocks unmapped again. -/
  | initEnd (speed : Speed)
  /-- The end of DEINIT: both blocks unmapped, not ready, no descriptor (45 R304). -/
  | deinitEnd
  /-- The return of an API operation. -/
  | finish (how : Deliver)
deriving DecidableEq, Repr

/-- What an invocation of the interrupt service still has to do (43 R236 to R239; log 16). -/
inductive IsrAct where
  /-- Step 1: record the error of the snapshot. -/
  | recordError (st : Status)
  /-- `phase <- Idle`. -/
  | forceIdle
  /-- `RegWrite(I2C, OFF_IRQSTATUS, mask)`. -/
  | ack (mask : Status)
  /-- `completion <- true`. -/
  | signal
  /-- Step 2's phase guard. -/
  | txGuard
  /-- Step 2's data write and index. -/
  | txData
  /-- Step 3's phase guard. -/
  | rxGuard
  /-- Step 3's data read, store and index. -/
  | rxData
deriving DecidableEq, Repr

/-- A caller thread (60 R343): the lines left of the operation it executes, what its last operation returned, its local
buffers, and the number of the operation they belong to, which counts the transfer operations it has begun (log 14). -/
structure Caller where
  task : List Act
  result : Result
  tmp : List Byte
  staging : List Byte
  serial : Nat
deriving DecidableEq, Repr

/-- A caller that has issued nothing. -/
def Caller.fresh : Caller where
  task := []
  result := .pending
  tmp := []
  staging := []
  serial := 0

/-- One entry of the schedule: which agent moves (93 U29; log 1). -/
inductive Slot where
  /-- An operation: caller `caller` issues it, or it is an event or an interrupt. -/
  | op (caller : Nat) (fmt : Format) (bytes : List Byte)
  /-- The caller performs the next line of the operation it is in. -/
  | turn (caller : Nat)
  /-- The interrupt service performs the next line of the invocation in progress. -/
  | isrTurn
deriving DecidableEq, Repr

/-- The state of I2CM. -/
structure State where
  ctl : Ctl
  txn : Option Txn
  lock : Option Nat
  raw : Status
  ie : Status
  cnt : Option Word
  con : Con
  sa : Option (BitVec 10)
  psc : Option Byte
  scll : Option Byte
  sclh : Option Byte
  modulemode : BitVec 2
  idlest : BitVec 2
  eng : Engine
  wire : List WireEvent
  env : Env
  mem : Memory
  callers : List (Nat × Caller)
  isr : List IsrAct
  actor : Nat
  sched : List Slot
  draws : Nat
  opts : Options
deriving DecidableEq, Repr

/-- Power-on, before INIT has ever run (10_state R49). The values R49 leaves open: CLKCTRL (log 10), the engine's unread
fields (log 11), memory (log 13). -/
def State.reset : State where
  ctl :=
    { ready := false, i2cMapped := false, clkMapped := false, irqRegistered := false, irqLine := none, speed := none }
  txn := none
  lock := none
  raw := 0
  ie := 0
  cnt := none
  con := { en := false, mst := false, trx := false }
  sa := none
  psc := none
  scll := none
  sclh := none
  modulemode := 0
  idlest := 3
  eng :=
    { st := .idle, dir := .tx, sa := 0, cnt := 0, rem := 0, loaded := 0, hold := none, window := false,
      lateArdy := false, extra := 0 }
  wire := []
  env := .oracle []
  mem := []
  callers := []
  isr := []
  actor := 0
  sched := []
  draws := 0
  opts := Config.defaultOptions

end Sys2Proof.Machine
end

