-- ==== Sys2Proof/Machine/Flags.lean ====
section
/-!
DEFINITION. The status flags (10_state R32, R43), the words of format STATW (30_encoding R104), the level conditions of
the two ready flags (42 R205), the acknowledgement of status bits (40 R134), the interrupt line (10 R45), and the two
predicates over CLKCTRL (41 R170).
-/
namespace Sys2Proof.Machine

/-- All five status bits (`STAT_ALL`). -/
def statAll : Status := 0x1F
/-- The two error bits, AL and NACK (`STAT_ERR`). -/
def statErr : Status := 0x03
/-- Arbitration lost (`STAT_AL`). -/
def statAl : Status := 0x01
/-- Not acknowledged (`STAT_NACK`). -/
def statNack : Status := 0x02
/-- Transfer acknowledged (`STAT_ARDY`). -/
def statArdy : Status := 0x04
/-- Receive ready (`STAT_RRDY`). -/
def statRrdy : Status := 0x08
/-- Transmit ready (`STAT_XRDY`). -/
def statXrdy : Status := 0x10

/-- Whether a status word has one of the bits of a mask. -/
def hasBits (st mask : Status) : Bool := st &&& mask != 0

/-- A STATW word as status bits: the five bits at their positions, all others ignored (30 R104). -/
def statw (m : BitMap) (v : Word) : Status :=
  BitVec.ofBool (v.getLsbD m.xrdy) ++ (BitVec.ofBool (v.getLsbD m.rrdy) ++ (BitVec.ofBool (v.getLsbD m.ardy)
    ++ (BitVec.ofBool (v.getLsbD m.nack) ++ BitVec.ofBool (v.getLsbD m.al) : BitVec 2) : BitVec 3) : BitVec 4)

/-- The word of status bits: each at its position, all other bits 0 (30 R104). -/
def statWord (m : BitMap) (st : Status) : Word :=
  bitAt m.al (st.getLsbD 0) ||| bitAt m.nack (st.getLsbD 1) ||| bitAt m.ardy (st.getLsbD 2)
    ||| bitAt m.rrdy (st.getLsbD 3) ||| bitAt m.xrdy (st.getLsbD 4)

/-- `cond_rrdy` (42 R205). -/
def condRrdy (e : Engine) : Bool := e.window && e.dir == .rx && e.hold.isSome

/-- `cond_xrdy` (42 R205). -/
def condXrdy (e : Engine) : Bool := e.window && e.st == .txWait

/-- The ready flags whose level condition holds; AL, NACK and ARDY have none (42 R205). -/
def levels (e : Engine) : Status :=
  (if condRrdy e then statRrdy else 0) ||| (if condXrdy e then statXrdy else 0)

/-- The engine after an acknowledgement of `v`: acknowledging AL, NACK or ARDY closes the window (40 R134). -/
def ackWindow (v : Status) (e : Engine) : Engine :=
  if v &&& 0x07 ≠ 0 then { e with window := false } else e

/-- The effect of WR_IRQSTATUS (40 R134): the window first, then each bit of `v` that is 1 is cleared, but for a ready
bit whose level condition holds after the line above. -/
def ackStatus (v : Status) (s : State) : State :=
  let e := ackWindow v s.eng
  { s with eng := e, raw := (s.raw &&& ~~~v) ||| (v &&& levels e) }

/-- Latch the status bits of a mask (10_state R32). -/
def State.latch (s : State) (mask : Status) : State := { s with raw := s.raw ||| mask }

/-- The interrupt line (10_state R45). -/
def State.irq (s : State) : Bool := s.raw &&& s.ie != 0

/-- A 2-bit field placed with its lowest bit at a position (30 R105). -/
def fieldAt (k : Fin 31) (x : BitVec 2) : Word := x.setWidth 32 <<< k.val

/-- The 2-bit field of a word whose lowest bit is at a position. -/
def fieldOf (k : Fin 31) (w : Word) : BitVec 2 := w.extractLsb' k.val 2

/-- The word of the two fields of CLKCTRL (30 R105): each at its position, all other bits 0. -/
def clkWord (m : BitMap) (idlest modulemode : BitVec 2) : Word := fieldAt m.idlest idlest ||| fieldAt m.modulemode modulemode

/-- The value of CLKCTRL (40 R154). -/
def State.clkctrl (s : State) : Word := clkWord s.opts.bits s.idlest s.modulemode

/-- `clk_live(c)` (41 R170). -/
def clkLive (m : BitMap) (c : Word) : Bool := fieldOf m.idlest c == 0

/-- `functional(c)` (41 R170). -/
def functional (m : BitMap) (c : Word) : Bool := fieldOf m.modulemode c == 2 && clkLive m c

end Sys2Proof.Machine
end

