-- ==== Sys2Proof/Machine/Ops.lean ====
section
/-!
DEFINITION. The shared operations: sequencing, byte memory and the caller table (both kept in one canonical form), free
values, the environment's answers (42 R192, R212), the prologue of a register access with its BusFault (40 R130), the
START of the engine (42 R193), and the entry of the interrupt service (43 R233, R234; 60 R334, R335).
-/
namespace Sys2Proof.Machine

/-- Go on with the value, or stop as the first computation stopped. -/
def andThen {α β : Type} (x : Res α) (f : α → Res β) : Res β :=
  match x with
  | .next a => f a
  | .fault r => .fault r
  | .refused r => .refused r

-- Sparse tables in canonical form: keys rising, no entry equal to the default

/-- The value at a key; the default where nothing is listed. -/
def sparseRead {β : Type} (d : β) : List (Nat × β) → Nat → β
  | [], _ => d
  | (k, v) :: rest, a => if k = a then v else sparseRead d rest a

/-- Set the value at a key; the default value removes the entry. -/
def sparseWrite {β : Type} [DecidableEq β] (d : β) : List (Nat × β) → Nat → β → List (Nat × β)
  | [], a, v => if v = d then [] else [(a, v)]
  | (k, w) :: rest, a, v =>
    if a < k then (if v = d then (k, w) :: rest else (a, v) :: (k, w) :: rest)
    else if a = k then (if v = d then rest else (a, v) :: rest)
    else (k, w) :: sparseWrite d rest a v

/-- The canonical form. -/
abbrev sparseWf {β : Type} [DecidableEq β] (d : β) (m : List (Nat × β)) : Prop :=
  m.Pairwise (fun x y => x.1 < y.1) ∧ ∀ x ∈ m, x.2 ≠ d

/-- What an unlisted byte of memory reads as (log 13). -/
def Memory.unlisted : Byte := 0

/-- Read one byte. -/
def Memory.read (m : Memory) (a : Nat) : Byte := sparseRead Memory.unlisted m a

/-- Write one byte. -/
def Memory.write (m : Memory) (a : Nat) (b : Byte) : Memory := sparseWrite Memory.unlisted m a b

/-- The canonical form of memory. -/
abbrev Memory.wf (m : Memory) : Prop := sparseWf Memory.unlisted m

/-- Write a list of bytes from an address on, lowest address first. -/
def Memory.writeBytes (m : Memory) (a : Nat) : List Byte → Memory
  | [] => m
  | b :: rest => (m.write a b).writeBytes (a + 1) rest

-- Callers

/-- Caller number `id` (60 R343). -/
def State.caller (s : State) (id : Nat) : Caller := sparseRead Caller.fresh s.callers id

/-- Replace caller number `id`. -/
def State.putCaller (s : State) (id : Nat) (c : Caller) : State :=
  { s with callers := sparseWrite Caller.fresh s.callers id c }

/-- "This caller": the one on whose behalf an operation runs (log 27). -/
def State.self (s : State) : Caller := s.caller s.actor

/-- Replace this caller. -/
def State.putSelf (s : State) (c : Caller) : State := s.putCaller s.actor c

/-- This caller has these lines left to perform. -/
def State.setTask (s : State) (l : List Act) : State := s.putSelf { s.self with task := l }

/-- This caller's operation has this result. -/
def State.ret (s : State) (r : Result) : State := s.putSelf { s.self with result := r }

/-- This caller's operation has this result, and these lines are left. -/
def State.goOn (s : State) (r : Result) (l : List Act) : State := s.putSelf { s.self with result := r, task := l }

/-- The start of an operation of several lines, which stand before whatever the caller has left. -/
def State.begin (s : State) (l : List Act) : State := s.goOn .pending (l ++ s.self.task)

/-- Whether this caller holds the lock (10_state R29). -/
def State.holdsLock (s : State) : Bool := s.lock == some s.actor

-- Free values

/-- `draw(T)` for a value of `w` bits (00 R17; log 7). -/
def State.draw (s : State) (w : Nat) : BitVec w := Config.draw s.draws w

/-- A drawn Boolean. -/
def State.drawBool (s : State) : Bool := s.draw 1 == 1

/-- The next free value is a fresh one. -/
def State.tick (s : State) : State := { s with draws := s.draws + 1 }

/-- `n` drawn bytes. -/
def State.drawBytes (s : State) (n : Nat) : List Byte := (List.range n).map fun i => Config.draw (s.draws + i) 8

/-- `n` free values have been used. -/
def State.ticks (s : State) (n : Nat) : State := { s with draws := s.draws + n }

-- The environment (42 R192, R212)

/-- The `rw` bit of a direction: 0 write, 1 read (42 R195, 30 R106). -/
def dirRw : Dir → Bool
  | .tx => false
  | .rx => true

/-- The address byte on the wire, `(addr7 << 1) | rw` (30 R106). -/
def addressByte (addr7 : BitVec 7) (rw : Bool) : Byte := addr7 ++ BitVec.ofBool rw

/-- `Env.addr_ack(eng.sa, rw)`. -/
def State.addrAck (s : State) : Bool :=
  match s.env with
  | .oracle (a :: _) => a.addrAck
  | .oracle [] => Config.envAddrAck s.draws s.eng.sa (dirRw s.eng.dir)
  | .refSlave r => s.eng.sa == r.addr

/-- `Env.data_ack(b)`; the reference slave acknowledges every byte. -/
def State.dataAck (s : State) (b : Byte) : Bool :=
  match s.env with
  | .oracle (a :: _) => a.dataAck
  | .oracle [] => Config.envDataAck s.draws b
  | .refSlave _ => true

/-- `Env.read_byte()`. -/
def State.readByte (s : State) : Byte :=
  match s.env with
  | .oracle (a :: _) => a.byte
  | .oracle [] => Config.envReadByte s.draws
  | .refSlave r => r.mem.read r.ptr.toNat

/-- `Env.arb_lost()`; never with the reference slave. -/
def State.arbLost (s : State) : Bool :=
  match s.env with
  | .oracle (a :: _) => a.arbLost
  | .oracle [] => Config.envArbLost s.draws
  | .refSlave _ => false

/-- The environment after an answer that changes nothing in a slave: a listed answer is used up. -/
def Env.passed : Env → Env
  | .oracle l => .oracle l.tail
  | .refSlave r => .refSlave r

/-- The reference slave in a write transaction: its address was acknowledged, so the next byte is the first. -/
def Env.addressed (d : Dir) : Env → Env
  | .oracle l => .oracle l.tail
  | .refSlave r => .refSlave (if d = .tx then { r with first := true } else r)

/-- The reference slave takes a data byte: the first sets the pointer, a later one is stored and moves it (42 R212). -/
def Env.take (b : Byte) : Env → Env
  | .oracle l => .oracle l.tail
  | .refSlave r =>
    .refSlave (if r.first then { r with ptr := b, first := false }
      else { r with mem := r.mem.write r.ptr.toNat b, ptr := r.ptr + 1 })

/-- The reference slave has sent the byte at its pointer (42 R212). -/
def Env.given : Env → Env
  | .oracle l => .oracle l.tail
  | .refSlave r => .refSlave { r with ptr := r.ptr + 1 }

/-- The environment has answered: it moves on, and its next answer is a fresh one. -/
def State.answered (s : State) (e : Env) : State := { s with env := e, draws := s.draws + 1 }

-- Register accesses

/-- BusFault (60 R328): the access ends in the model's one fault, which records the block and the offset. -/
def raiseBusFault {α : Type} (r : Reg) (s : State) : Res α := .fault (.busFault r.block (r.offset s.opts))

/-- Whether a block is mapped (20 R73). -/
def State.mapped (s : State) : Block → Bool
  | .i2c => s.ctl.i2cMapped
  | .clk => s.ctl.clkMapped

/-- The prologue of every access to a documented offset (40 R130): only the I2C block needs its clock. -/
def access (r : Reg) (s : State) : Res State :=
  if !s.mapped r.block then .refused .unmapped
  else if r.block == .i2c && !clkLive s.opts.bits s.clkctrl then raiseBusFault r s
  else .next s

/-- The prologue of an access to any other offset of a block (40 R130, R156). -/
def accessUndocumented {α : Type} (blk : Block) (s : State) : Res α :=
  if !s.mapped blk then .refused .unmapped else .refused .undocumentedOffset

-- The engine

/-- The engine may step: module enabled and clock live (42 R191). -/
def State.engLive (s : State) : Bool := s.con.en && clkLive s.opts.bits s.clkctrl

/-- The engine reset by EN = 0 (40 R144(a)). -/
def Engine.disabled (e : Engine) : Engine :=
  { e with st := .idle, hold := none, window := false, lateArdy := false }

/-- The engine as ENG_START leaves it for a count and an address (42 R193). -/
def Engine.started (d : Dir) (n : Nat) (a : BitVec 7) : Engine where
  st := .addr
  dir := d
  sa := a
  cnt := n
  rem := n
  loaded := 0
  hold := none
  window := true
  lateArdy := false
  extra := 0

/-- ENG_START (42 R193): the engine latches CNT and SA[6:0], which must have values (40 R144; log 5). -/
def startEngine (d : Dir) (s : State) : Res State :=
  match s.cnt, s.sa with
  | none, _ => .refused .zeroCount
  | some _, none => .refused .addressOutOfRange
  | some n, some a => .next { s with eng := .started d n.toNat (a.setWidth 7) }

/-- Whether an error termination is followed by a late ARDY (42 R204; log 25). -/
def State.ardyAfterErr (s : State) : Bool :=
  match s.opts.engArdyAfterErr with
  | some b => b
  | none => s.drawBool

-- The interrupt service

/-- When the interrupt service may be entered (43 R233): registered, `irq` asserted, no invocation in progress. Entry and
return save, mask and restore nothing (60 R334, R335). -/
def State.isrEnabled (s : State) : Bool := s.ctl.irqRegistered && s.irq && s.isr.isEmpty

/-- A change of the descriptor, which must exist (10_state R27; log 22). -/
def State.onTxn (s : State) (f : Txn → Txn) : Res State :=
  match s.txn with
  | none => .refused .noDescriptor
  | some t => .next { s with txn := some (f t) }

/-- The phase of the descriptor is this one. With no descriptor the guards of steps 2 and 3 (43 R237, R238) are false, of
which the spec says nothing (10_state R27, 70 R364; DESIGN CHOICE, log 22), and DEINIT's requirement is met (log 35). -/
def inPhase (p : Phase) (s : State) : Bool :=
  match s.txn with
  | some t => t.phase == p
  | none => false

end Sys2Proof.Machine
end

