-- ==== Sys2Proof/Machine/Operands.lean ====
section
/-!
DEFINITION. Operand assembly (30_encoding R108 to R111): addresses, counts, data bytes, the speed profiles, and the
bytes of a borrowed buffer (20_memory R72, R80).
-/
namespace Sys2Proof.Machine

/-- The word written to SA for an address operand (30 R108). -/
def saWord (address : Byte) : Word := address.setWidth 32

/-- The word written to CNT for a length (30 R109). -/
def cntWord (length : Nat) : Word := BitVec.ofNat 32 length

/-- The word written to DATA for a byte (30 R110). -/
def dataWord (b : Byte) : Word := b.setWidth 32

/-- The byte of a DATA word (30 R110, 20 R79). -/
def dataByte (w : Word) : Byte := w.extractLsb' 0 8

/-- The operands R113(h) refuses: `address > 0x7F`, `length > MAX_LEN`. -/
def operandsOutOfRange (o : Options) (address : Byte) (length : Nat) : Bool :=
  0x7F < address.toNat || o.maxLen < length

-- Control words (30 R103)

/-- `CON_START_TX` or `CON_START_RX`. -/
def conStart (m : BitMap) (d : Dir) : Word := (ControlBits.start d).toWord m

/-- `CON_ENABLE`. -/
def conEnableWord (m : BitMap) : Word := ControlBits.enable.toWord m

/-- `CON_DISABLE`. -/
def conDisableWord (m : BitMap) : Word := ControlBits.disable.toWord m

/-- What a written word leaves in CON. -/
def Con.stored (c : ControlBits) : Con where
  en := c.en
  mst := c.mst
  trx := c.trx

/-- The value CON reads as: STT and STP are 0 (40 R143). -/
def Con.word (m : BitMap) (c : Con) : Word :=
  ControlBits.toWord m { en := c.en, mst := c.mst, trx := c.trx, stp := false, stt := false }

-- Clock-control words (30 R105)

/-- The word that releases it: `c & ~MODULEMODE_MASK`. -/
def clkReleaseWord (m : BitMap) (c : Word) : Word := c &&& ~~~(fieldAt m.modulemode 3)

/-- The word that requests the clock: `(c & ~MODULEMODE_MASK) | MODULEMODE_ENABLE`. -/
def clkRequestWord (m : BitMap) (c : Word) : Word := clkReleaseWord m c ||| fieldAt m.modulemode 2

-- Speed profiles (45 R301)

/-- Speed selection (30 R111): 400 is FAST, any other value STD. -/
def profile (busSpeedKhz : Word) : Speed := if busSpeedKhz = 400 then .fast400 else .std100

/-- The timing constants of a speed. -/
def Speed.timing (o : Options) : Speed → Profile
  | .std100 => o.std
  | .fast400 => o.fast

-- Buffers

/-- The address of byte `i` of a buffer at `base` in the caller's memory (log 13). -/
def bufAddr (base : Word) (i : Nat) : Nat := base.toNat + i

/-- The owner of a local buffer is in the operation the buffer belongs to (log 14). -/
def State.inOperation (s : State) (owner serial : Nat) : Bool := (s.caller owner).serial == serial

/-- `buf[i]`; none where the buffer does not hold such a byte (a local buffer after its operation returned; log 14). -/
def State.bufByte (s : State) (buf : Option BufRef) (i : Nat) : Option Byte :=
  match buf with
  | none => none
  | some (.mem base) => some (s.mem.read (bufAddr base i))
  | some (.tmp c n) => if s.inOperation c n then (s.caller c).tmp[i]? else none
  | some (.staging c n) => if s.inOperation c n then (s.caller c).staging[i]? else none

/-- `buf[i]`, a free value where there is no such byte (log 14). -/
def State.bufGet (s : State) (buf : Option BufRef) (i : Nat) : Byte × State :=
  match s.bufByte buf i with
  | some b => (b, s)
  | none => (s.draw 8, s.tick)

/-- `buf[i] <- b`; lost where the buffer is a local one of an operation that returned (log 14). -/
def State.bufSet (s : State) (buf : Option BufRef) (i : Nat) (b : Byte) : State :=
  match buf with
  | none => s
  | some (.mem base) => { s with mem := s.mem.write (bufAddr base i) b }
  | some (.tmp c n) =>
    if s.inOperation c n then s.putCaller c { s.caller c with tmp := (s.caller c).tmp.set i b } else s
  | some (.staging c n) =>
    if s.inOperation c n then s.putCaller c { s.caller c with staging := (s.caller c).staging.set i b } else s

end Sys2Proof.Machine
end

