-- ==== Sys2Proof/Machine/Registers.lean ====
section
/-!
DEFINITION. The Register Interface (40_register_interface R130 to R156): what each of the twelve registers does on a
read and on a write, and the REGACC and CONW operations a caller performs with them.
-/
namespace Sys2Proof.Machine

-- Reads

/-- A register of `w` bits that may never have been written (10_state R49): its value, or a free one (log 12). -/
def readStored {w : Nat} (s : State) (r : Option (BitVec w)) : Word × State :=
  match r with
  | some v => (v.setWidth 32, s)
  | none => ((s.draw w).setWidth 32, s.tick)

/-- RD_IRQSTATUS_RAW (R131). -/
def readIrqstatusRaw (s : State) : Word × State := (statWord s.opts.bits s.raw, s)

/-- RD_IRQSTATUS (R133). -/
def readIrqstatus (s : State) : Word × State := (statWord s.opts.bits (s.raw &&& s.ie), s)

/-- RD_IRQENABLE_SET (R135). -/
def readIrqenableSet (s : State) : Word × State := (statWord s.opts.bits s.ie, s)

/-- RD_IRQENABLE_CLR (R137). -/
def readIrqenableClr (s : State) : Word × State := (statWord s.opts.bits s.ie, s)

/-- RD_CNT (R139): a free value of `CNT_W` bits while the engine is busy or CNT was never written. -/
def readCnt (s : State) : Word × State :=
  match s.eng.st, s.cnt with
  | .idle, some n => (n, s)
  | _, _ => ((s.draw s.opts.cntW).setWidth 32, s.tick)

/-- RD_DATA (R142): the held byte of a receive transaction, else a free value. -/
def readData (s : State) : Word × State :=
  match s.eng.hold with
  | some b =>
    if (s.eng.st ≠ .idle ∨ s.eng.window) ∧ s.eng.dir = .rx then
      (dataWord b,
        { s with
          eng :=
            { s.eng with
              hold := none
              loaded := s.eng.loaded + 1
              st := if s.eng.st = .rxWait then .rxShift else s.eng.st } })
    else (dataWord (s.draw 8), s.tick)
  | none => (dataWord (s.draw 8), s.tick)

/-- RD_CON (R143). -/
def readCon (s : State) : Word × State := (s.con.word s.opts.bits, s)

/-- RD_SA (R145). -/
def readSa (s : State) : Word × State := readStored s s.sa

/-- RD_PSC (R147). -/
def readPsc (s : State) : Word × State := readStored s s.psc

/-- RD_SCLL (R149). -/
def readScll (s : State) : Word × State := readStored s s.scll

/-- RD_SCLH (R152). -/
def readSclh (s : State) : Word × State := readStored s s.sclh

/-- RD_CLKCTRL (R154). -/
def readClkctrl (s : State) : Word × State := (s.clkctrl, s)

/-- The rule of a register's read. -/
def readRule : Reg → State → Word × State
  | .irqstatusRaw => readIrqstatusRaw
  | .irqstatus => readIrqstatus
  | .irqenableSet => readIrqenableSet
  | .irqenableClr => readIrqenableClr
  | .cnt => readCnt
  | .data => readData
  | .con => readCon
  | .sa => readSa
  | .psc => readPsc
  | .scll => readScll
  | .sclh => readSclh
  | .clkctrl => readClkctrl

/-- `RegRead(blk, off)` (00 R17): the prologue, then the register's rule. -/
def regRead (r : Reg) (s : State) : Res (Word × State) :=
  andThen (access r s) fun s => .next (readRule r s)

-- Writes

/-- WR_IRQSTATUS (R134). -/
def writeIrqstatus (v : Word) (s : State) : Res State := .next (ackStatus (statw s.opts.bits v) s)

/-- WR_IRQENABLE_SET (R136). -/
def writeIrqenableSet (v : Word) (s : State) : Res State := .next { s with ie := s.ie ||| statw s.opts.bits v }

/-- WR_IRQENABLE_CLR (R138). -/
def writeIrqenableClr (v : Word) (s : State) : Res State := .next { s with ie := s.ie &&& ~~~(statw s.opts.bits v) }

/-- The low `w` bits of a word. -/
def lowBits (w : Nat) (v : Word) : Word := (v.setWidth w).setWidth 32

/-- WR_CNT (R140): the low `CNT_W` bits are stored. -/
def writeCnt (v : Word) (s : State) : Res State := .next { s with cnt := some (lowBits s.opts.cntW v) }

/-- WR_DATA (R141). -/
def writeData (v : Word) (s : State) : Res State :=
  if s.eng.st = .txWait then
    .next { s with
      eng := { s.eng with hold := some (dataByte v), loaded := s.eng.loaded + 1, st := .txShift } }
  else if s.eng.st = .idle then .next s
  else if s.eng.dir = .tx ∧ s.eng.cnt ≤ s.eng.loaded then .next s
  else .refused .dataWriteUnexpected

/-- The effect of the five defined bits written to CON (R144): the START form performs ENG_START (42 R193). -/
def writeControl (c : ControlBits) (s : State) : Res State :=
  if c.en = false then .next { s with con := Con.stored c, eng := s.eng.disabled }
  else if c.stt = false then .next { s with con := Con.stored c }
  else if c.mst = false ∨ c.stp = false then .refused .startFormNotInSource
  else if s.cnt.getD 0 = 0 then .refused .zeroCount
  else if s.sa.all (fun a => 0x7F < a.toNat) then .refused .addressOutOfRange
  else startEngine (if c.trx then .tx else .rx) { s with con := Con.stored c }

/-- WR_CON (R144): all other bits are ignored. -/
def writeCon (v : Word) (s : State) : Res State := writeControl (ControlBits.ofWord s.opts.bits v) s

/-- WR_SA (R146). -/
def writeSa (v : Word) (s : State) : Res State := .next { s with sa := some (v.extractLsb' 0 10) }

/-- The check of a timing register write (R151). -/
def timingWrite (s t : State) : Res State :=
  if s.con.en then .refused .timingWriteWhileEnabled else .next t

/-- WR_PSC (R148). -/
def writePsc (v : Word) (s : State) : Res State := timingWrite s { s with psc := some (v.extractLsb' 0 8) }

/-- WR_SCLL (R150). -/
def writeScll (v : Word) (s : State) : Res State := timingWrite s { s with scll := some (v.extractLsb' 0 8) }

/-- WR_SCLH (R153). -/
def writeSclh (v : Word) (s : State) : Res State := timingWrite s { s with sclh := some (v.extractLsb' 0 8) }

/-- WR_CLKCTRL (R155): only MODULEMODE is stored. -/
def writeClkctrl (v : Word) (s : State) : Res State :=
  let m := fieldOf s.opts.bits.modulemode v
  if m = 1 ∨ m = 3 then .refused .reservedModulemode else .next { s with modulemode := m }

/-- WR_IRQSTATUS_RAW (R132), after the prologue as every access (R130; log 18). -/
def writeIrqstatusRaw : Res State := .refused .rawStatusWrite

/-- `RegWrite(blk, off, v)` (00 R17): the prologue, then the register's rule. -/
def regWrite (r : Reg) (v : Word) (s : State) : Res State :=
  match r with
  | .irqstatusRaw => andThen (access .irqstatusRaw s) fun _ => writeIrqstatusRaw
  | .irqstatus => andThen (access .irqstatus s) (writeIrqstatus v)
  | .irqenableSet => andThen (access .irqenableSet s) (writeIrqenableSet v)
  | .irqenableClr => andThen (access .irqenableClr s) (writeIrqenableClr v)
  | .cnt => andThen (access .cnt s) (writeCnt v)
  | .data => andThen (access .data s) (writeData v)
  | .con => andThen (access .con s) (writeCon v)
  | .sa => andThen (access .sa s) (writeSa v)
  | .psc => andThen (access .psc s) (writePsc v)
  | .scll => andThen (access .scll s) (writeScll v)
  | .sclh => andThen (access .sclh s) (writeSclh v)
  | .clkctrl => andThen (access .clkctrl s) (writeClkctrl v)

-- The operations a caller performs: the value read is its result (log 27)

/-- A read access of this caller. -/
def callerRead (r : Reg) (s : State) : Res State :=
  andThen (regRead r s) fun p => .next (p.2.ret (.word p.1))

/-- A write access of this caller. -/
def callerWrite (r : Reg) (v : Word) (s : State) : Res State :=
  andThen (regWrite r v s) fun s => .next (s.ret .unit)

/-- RD_IRQSTATUS_RAW (R131). -/
def execRdIrqstatusRaw (s : State) : Res State := callerRead .irqstatusRaw s
/-- WR_IRQSTATUS_RAW (R132). -/
def execWrIrqstatusRaw (v : Word) (s : State) : Res State := callerWrite .irqstatusRaw v s
/-- RD_IRQSTATUS (R133). -/
def execRdIrqstatus (s : State) : Res State := callerRead .irqstatus s
/-- WR_IRQSTATUS (R134). -/
def execWrIrqstatus (v : Word) (s : State) : Res State := callerWrite .irqstatus v s
/-- RD_IRQENABLE_SET (R135). -/
def execRdIrqenableSet (s : State) : Res State := callerRead .irqenableSet s
/-- WR_IRQENABLE_SET (R136). -/
def execWrIrqenableSet (v : Word) (s : State) : Res State := callerWrite .irqenableSet v s
/-- RD_IRQENABLE_CLR (R137). -/
def execRdIrqenableClr (s : State) : Res State := callerRead .irqenableClr s
/-- WR_IRQENABLE_CLR (R138). -/
def execWrIrqenableClr (v : Word) (s : State) : Res State := callerWrite .irqenableClr v s
/-- RD_CNT (R139). -/
def execRdCnt (s : State) : Res State := callerRead .cnt s
/-- WR_CNT (R140). -/
def execWrCnt (v : Word) (s : State) : Res State := callerWrite .cnt v s
/-- RD_DATA (R142). -/
def execRdData (s : State) : Res State := callerRead .data s
/-- WR_DATA (R141). -/
def execWrData (v : Word) (s : State) : Res State := callerWrite .data v s
/-- RD_CON (R143). -/
def execRdCon (s : State) : Res State := callerRead .con s
/-- WR_CON (R144). -/
def execWrCon (v : Word) (s : State) : Res State := callerWrite .con v s
/-- RD_SA (R145). -/
def execRdSa (s : State) : Res State := callerRead .sa s
/-- WR_SA (R146). -/
def execWrSa (v : Word) (s : State) : Res State := callerWrite .sa v s
/-- RD_PSC (R147). -/
def execRdPsc (s : State) : Res State := callerRead .psc s
/-- WR_PSC (R148). -/
def execWrPsc (v : Word) (s : State) : Res State := callerWrite .psc v s
/-- RD_SCLL (R149). -/
def execRdScll (s : State) : Res State := callerRead .scll s
/-- WR_SCLL (R150). -/
def execWrScll (v : Word) (s : State) : Res State := callerWrite .scll v s
/-- RD_SCLH (R152). -/
def execRdSclh (s : State) : Res State := callerRead .sclh s
/-- WR_SCLH (R153). -/
def execWrSclh (v : Word) (s : State) : Res State := callerWrite .sclh v s
/-- RD_CLKCTRL (R154). -/
def execRdClkctrl (s : State) : Res State := callerRead .clkctrl s
/-- WR_CLKCTRL (R155). -/
def execWrClkctrl (v : Word) (s : State) : Res State := callerWrite .clkctrl v s

-- Control words are value operands of WR_CON (30 R100, R103; log 6)

/-- CON_START_TX: the word written to CON (R144). -/
def execConStartTx (v : Word) (s : State) : Res State := callerWrite .con v s
/-- CON_START_RX: the word written to CON (R144). -/
def execConStartRx (v : Word) (s : State) : Res State := callerWrite .con v s
/-- CON_ENABLE: the word written to CON (R144). -/
def execConEnable (v : Word) (s : State) : Res State := callerWrite .con v s
/-- CON_DISABLE: the word written to CON (R144). -/
def execConDisable (v : Word) (s : State) : Res State := callerWrite .con v s

end Sys2Proof.Machine
end

