-- ==== Sys2Proof/Machine/Bus.lean ====
section
/-!
DEFINITION. The steps of the bus engine (42_bus_engine R190 to R208). A step that is not enabled leaves the machine where
it is (log 2); no step is ever forced (R206): the schedule offers them.
-/
namespace Sys2Proof.Machine

/-- The wire gets these events after what it has (10_state R47). -/
def State.emit (s : State) (l : List WireEvent) : State := { s with wire := s.wire ++ l }

/-- The engine ends in error: idle, nothing held, perhaps a late ARDY to come (42 R196, R199, R202). -/
def State.engFail (s : State) : State :=
  { s with eng := { s.eng with st := .idle, hold := none, lateArdy := s.ardyAfterErr } }

/-- ENG_START (R193): the effect of the START form of WR_CON, which performs it. It is not a step of its own: the schedule
never performs it outside a write (`Instr.ownStep`; log 5). -/
def execEngStart (d : Dir) (s : State) : Res State := startEngine d s

/-- ENG_ADDR_ACK (R195). -/
def execEngAddrAck (s : State) : Res State :=
  if s.engLive ∧ s.eng.st = .addr ∧ s.addrAck = true then
    let t := (s.emit [.start, .addr s.eng.sa (dirRw s.eng.dir), .ack]).answered (s.env.addressed s.eng.dir)
    match s.eng.dir with
    | .tx => .next (State.latch { t with eng := { s.eng with st := .txWait } } statXrdy)
    | .rx => .next { t with eng := { s.eng with st := .rxShift } }
  else .next s

/-- ENG_ADDR_NACK (R196). -/
def execEngAddrNack (s : State) : Res State :=
  if s.engLive ∧ s.eng.st = .addr ∧ s.addrAck = false then
    .next (((s.engFail.emit [.start, .addr s.eng.sa (dirRw s.eng.dir), .nack, .stop]).latch statNack).answered s.env.passed)
  else .next s

/-- ENG_TX_BYTE_ACK (R198). -/
def execEngTxByteAck (s : State) : Res State :=
  match s.eng.hold with
  | none => .next s
  | some b =>
    if s.engLive ∧ s.eng.st = .txShift ∧ s.dataAck b = true then
      let t := (s.emit [.byte b, .ack]).answered (s.env.take b)
      let left := s.eng.rem - 1
      if 0 < left then
        .next (State.latch { t with eng := { s.eng with hold := none, rem := left, st := .txWait } } statXrdy)
      else .next { t with eng := { s.eng with hold := none, rem := left, st := .stop } }
    else .next s

/-- ENG_TX_BYTE_NACK (R199). -/
def execEngTxByteNack (s : State) : Res State :=
  match s.eng.hold with
  | none => .next s
  | some b =>
    if s.engLive ∧ s.eng.st = .txShift ∧ s.dataAck b = false then
      .next (((s.engFail.emit [.byte b, .nack, .stop]).latch statNack).answered s.env.passed)
    else .next s

/-- ENG_RX_BYTE (R200). -/
def execEngRxByte (s : State) : Res State :=
  if s.engLive ∧ s.eng.st = .rxShift ∧ s.eng.hold = none then
    let b := s.readByte
    let left := s.eng.rem - 1
    let t := (s.emit [.byte b, if 0 < left then .ack else .nack]).answered s.env.given
    .next (State.latch
      { t with eng := { s.eng with hold := some b, rem := left, st := if 0 < left then .rxWait else .stop } } statRrdy)
  else .next s

/-- ENG_STOP_DONE (R201). -/
def execEngStopDone (s : State) : Res State :=
  if s.engLive ∧ s.eng.st = .stop then
    .next (State.latch { s.emit [.stop] with eng := { s.eng with st := .idle } } statArdy)
  else .next s

/-- ENG_ARB_LOST (R202). -/
def execEngArbLost (s : State) : Res State :=
  if s.engLive ∧ s.eng.st ≠ .idle ∧ s.arbLost = true then
    .next (((s.engFail.emit [.lost]).latch statAl).answered s.env.passed)
  else .next s

/-- Whether the bound K of `ENG_EXTRA_READY` allows one more (R203; log 26). -/
def State.extraAllowed (s : State) : Bool :=
  match s.opts.engExtraReady with
  | none => true
  | some k => s.eng.extra < k

/-- ENG_EXTRA_READY (R203). -/
def execEngExtraReady (s : State) : Res State :=
  if s.engLive ∧ s.eng.window = true ∧ s.eng.cnt ≤ s.eng.loaded ∧ s.extraAllowed = true then
    .next (State.latch { s with eng := { s.eng with extra := s.eng.extra + 1 } }
      (match s.eng.dir with | .tx => statXrdy | .rx => statRrdy))
  else .next s

/-- ENG_LATE_ARDY (R204). -/
def execEngLateArdy (s : State) : Res State :=
  if s.engLive ∧ s.eng.lateArdy = true then
    .next (State.latch { s with eng := { s.eng with lateArdy := false } } statArdy)
  else .next s

end Sys2Proof.Machine
end

