-- ==== Sys2Proof/Machine/Task.lean ====
section
/-!
DEFINITION. The lines of the callers' operations: the sequences of 41_clock_domain, 43_transaction_fsm_isr,
44_blocking_transfer_api and 45_lifecycle written as lists of lines, and what one line does. A caller performs one line
in one step of the machine, so that another agent may act between any two (41 R171(c), 43 R231(c), 70 R366; log 15).
-/
namespace Sys2Proof.Machine

-- The sequences

/-- CLK_ENSURE_ENABLED (41 R171). -/
def clkEnsureLines : List Act := [.clkEnsure]

/-- CLK_DISABLE (41 R173). -/
def clkDisableLines : List Act := [.clkDrop]

/-- START_WRITE and START_READ (43 R231, R232), in the order of the pseudocode. -/
def armLines (o : Options) (d : Dir) (address : Byte) (buf : BufRef) (length : Nat) : List Act :=
  [ .armFields buf length, .armCompletion, .armPhase d, .write .irqstatus (statWord o.bits statAll),
    .write .sa (saWord address), .write .cnt (cntWord length), .write .con (conStart o.bits d) ]

/-- XFER_LOCKED (44 R271): the clock, the arming, the wait. -/
def xferLines (o : Options) (d : Dir) (address : Byte) (buf : BufRef) (length : Nat) : List Act :=
  clkEnsureLines ++ armLines o d address buf length ++ [.wait]

/-- The diagnostic reads of the timeout recovery (43 R244, D47; log 17). -/
def probeLines : List Act :=
  [ .probe .irqstatusRaw, .probe .irqstatus, .probe .irqenableSet, .probe .con, .probe .cnt, .probe .sa ]

/-- The timeout recovery (43 R244). -/
def recoverLines (o : Options) : List Act :=
  [.diagnose, .forceIdle, .write .irqstatus (statWord o.bits statAll), .fail .timeout]

/-- WRITE_BYTES, READ_BYTES and WRITE_REGISTER: one transaction under the lock (44 R272 to R274). -/
def oneTransferLines (o : Options) (d : Dir) (address : Byte) (buf : BufRef) (length : Nat) : List Act :=
  .acquire :: (xferLines o d address buf length ++ [.release, .finish .plain])

/-- READ_REGISTER and READ_BLOCK: the register index written, then the data read, under one held lock (44 R275, R276). -/
def indexedReadLines (o : Options) (me serial : Nat) (address : Byte) (length : Nat) (how : Deliver) : List Act :=
  .acquire :: (xferLines o .tx address (.tmp me serial) 1 ++ xferLines o .rx address (.staging me serial) length
    ++ [.release, .finish how])

/-- INIT after the mapping (45 R300). -/
def initLines (o : Options) (speed : Speed) (line : Word) : List Act :=
  clkEnsureLines ++
    [ .write .psc ((speed.timing o).psc.setWidth 32), .write .scll ((speed.timing o).scll.setWidth 32),
      .write .sclh ((speed.timing o).sclh.setWidth 32),
      .write .irqstatus (statWord o.bits statAll), .write .irqenableSet (statWord o.bits statAll),
      .write .con (conEnableWord o.bits),
      .registerIsr line, .initEnd speed ]

/-- DEINIT after the service is unregistered (45 R304). -/
def deinitLines (o : Options) : List Act := [.write .con (conDisableWord o.bits)] ++ clkDisableLines ++ [.deinitEnd]

/-- Where an error result goes on (44 R272 to R276, 45 R300): at the release of the lock, or at the end of INIT; with
neither, the operation is over. -/
def unwind : List Act → List Act
  | [] => []
  | .release :: rest => .release :: rest
  | .initEnd sp :: rest => .initEnd sp :: rest
  | _ :: rest => unwind rest

-- Which operation a caller is in (log 21)

/-- The lines left are those of an INIT or a DEINIT. -/
def inLifecycle (l : List Act) : Bool :=
  l.any fun a => match a with
    | .initEnd _ => true
    | .deinitEnd => true
    | _ => false

/-- The lines left are those of a transfer call that has not acquired the lock yet. A bare LOCK_ACQUIRE has no return of a
transfer after it and is no transfer call (DESIGN CHOICE, log 21). -/
def inPrologue (l : List Act) : Bool :=
  l.head? == some .acquire && l.any fun a => match a with
    | .finish _ => true
    | _ => false

/-- Another caller is at such a place. -/
def State.otherCaller (s : State) (p : List Act → Bool) : Bool :=
  s.callers.any fun e => e.1 != s.actor && p e.2.task

-- One line

/-- The result of the wait (43 R243) for a descriptor. -/
def Txn.outcome (t : Txn) : Result :=
  match t.error with
  | none => .ok
  | some .noAcknowledge => .err .noAcknowledge
  | some .arbitrationLost => .err .arbitrationLost

/-- Whether a result is an error. -/
def Result.isErr : Result → Bool
  | .err _ => true
  | _ => false

/-- A result handed on: an error goes where `unwind` says, any other result to the next line. -/
def State.deliver (s : State) (r : Result) (rest : List Act) : State :=
  s.goOn r (if r.isErr then unwind rest else rest)

/-- The first line of arming (43 R231): its requirements, then error, buffer, length and index. An arming before the outcome
of the one before it was observed is refused (20 R86(c), R87, 43 R248; log 37). -/
def armFields (buf : BufRef) (length : Nat) (s : State) : Res State :=
  if !s.holdsLock then .refused .notLockHolder
  else
    match s.txn with
    | none => .refused .noDescriptor
    | some t =>
      if t.phase ≠ .idle then .refused .armWhileActive
      else if t.awaited then .refused .descriptorTouchedWhileArmed
      else
        .next { s with
          txn := some { t with error := none, buffer := some buf, length := length, index := 0, awaited := true } }

/-- The phase arming sets (43 R231, R232). -/
def Phase.ofDir : Dir → Phase
  | .tx => .writing
  | .rx => .reading

/-- WAIT_COMPLETE's line (43 R243): blocked until the completion is signalled, which is then observed (20 R86(b)). -/
def waitLine (s : State) (rest : List Act) : Res State :=
  match s.txn with
  | none => .refused .noDescriptor
  | some t =>
    if t.completion then .next (State.deliver { s with txn := some { t with awaited := false } } t.outcome rest)
    else .next (s.setTask (.wait :: rest))

/-- LOCK_ACQUIRE's line (43 R245): blocked while the lock is held, by this caller too. -/
def acquireLine (s : State) (rest : List Act) : State :=
  match s.lock with
  | none => State.setTask { s with lock := some s.actor } rest
  | some _ => s.setTask (.acquire :: rest)

/-- LOCK_RELEASE's line (43 R246). -/
def releaseLine (s : State) (rest : List Act) : Res State :=
  if s.holdsLock then .next (State.setTask { s with lock := none } rest) else .refused .notLockHolder

/-- The end of INIT (45 R300). -/
def initEndLine (speed : Speed) (s : State) (rest : List Act) : State :=
  if s.self.result.isErr then
    State.setTask { s with ctl := { s.ctl with i2cMapped := false, clkMapped := false } } rest
  else State.goOn { s with txn := some Txn.fresh, ctl := { s.ctl with speed := some speed, ready := true } } .ok rest

/-- The descriptor was armed and its outcome has not been observed (20 R87, 43 R248; log 37). -/
def State.outcomeAwaited (s : State) : Bool := s.txn.any (·.awaited)

/-- The end of DEINIT (45 R304). A descriptor armed meanwhile whose outcome nobody has observed is not dropped: that is
refused (43 R248; log 37). -/
def deinitEndLine (s : State) (rest : List Act) : Res State :=
  if s.outcomeAwaited then .refused .descriptorTouchedWhileArmed
  else
    .next (State.goOn
      { s with txn := none, ctl := { s.ctl with i2cMapped := false, clkMapped := false, ready := false } } .unit rest)

/-- The return of an API operation (44 R272 to R276): on success the byte or the block is handed over; the local buffers
are given back. -/
def finishLine (how : Deliver) (s : State) (rest : List Act) : State :=
  let me := s.self
  let freed (s : State) (r : Result) := s.putSelf { me with task := rest, result := r, tmp := [], staging := [] }
  if me.result.isErr then freed s me.result
  else
    match how with
    | .plain => freed s me.result
    | .byte => freed s (.okByte (me.staging.headD 0))
    | .block base length => freed { s with mem := s.mem.writeBytes base.toNat (me.staging.take length) } me.result

/-- One line of this caller's operation, with `rest` the lines after it. Inside a composite the clock step's Ok and the wait's
outcome stand as the caller's result until the composite returns: what it reads meanwhile the spec does not say (DESIGN
CHOICE, log 27). -/
def performLine (a : Act) (rest : List Act) (s : State) : Res State :=
  match a with
  | .acquire => .next (acquireLine s rest)
  | .release => releaseLine s rest
  | .clkEnsure =>
    andThen (regRead .clkctrl s) fun p =>
      .next (if functional s.opts.bits p.1 then p.2.goOn .ok rest else p.2.setTask (.clkRequest p.1 :: rest))
  | .clkRequest c =>
    andThen (regWrite .clkctrl (clkRequestWord s.opts.bits c) s) fun s => .next (s.setTask (.clkPoll s.opts.nClkPoll :: rest))
  | .clkPoll 0 => .next (s.deliver (.err .timeout) rest)
  | .clkPoll (left + 1) =>
    andThen (regRead .clkctrl s) fun p =>
      .next (if clkLive s.opts.bits p.1 then p.2.goOn .ok rest else p.2.setTask (.clkPoll left :: rest))
  | .clkDrop => andThen (regRead .clkctrl s) fun p => .next (p.2.setTask (.clkRelease p.1 :: rest))
  | .clkRelease c =>
    andThen (regWrite .clkctrl (clkReleaseWord s.opts.bits c) s) fun s => .next (s.goOn .unit rest)
  | .armFields buf length => andThen (armFields buf length s) fun s => .next (s.setTask rest)
  | .armCompletion => andThen (s.onTxn fun t => { t with completion := false }) fun s => .next (s.setTask rest)
  | .armPhase d => andThen (s.onTxn fun t => { t with phase := .ofDir d }) fun s => .next (s.setTask rest)
  | .write r v => andThen (regWrite r v s) fun s => .next (s.setTask rest)
  | .wait => waitLine s rest
  | .diagnose =>
    andThen (regRead .clkctrl s) fun p =>
      .next (p.2.setTask (if functional s.opts.bits p.1 then probeLines ++ rest else rest))
  | .probe r => andThen (regRead r s) fun p => .next (p.2.setTask rest)
  | .forceIdle =>
    andThen (s.onTxn fun t => { t with phase := .idle, awaited := false }) fun s => .next (s.setTask rest)
  | .fail e => .next (s.deliver (.err e) rest)
  | .registerIsr line =>
    .next (State.setTask { s with ctl := { s.ctl with irqLine := some line, irqRegistered := true } } rest)
  | .initEnd speed => .next (initEndLine speed s rest)
  | .deinitEnd => deinitEndLine s rest
  | .finish how => .next (finishLine how s rest)

/-- The next line of this caller's operation; nothing where it is in none. -/
def advance (s : State) : Res State :=
  match s.self.task with
  | [] => .next s
  | a :: rest => performLine a rest s

/-- `n` turns of this caller, with no other agent moving. -/
def turns : Nat → State → Res State
  | 0, s => .next s
  | n + 1, s => andThen (advance s) (turns n)

end Sys2Proof.Machine
end

