-- ==== Sys2Proof/Machine/Clock.lean ====
section
/-!
DEFINITION. The three clock operations (41_clock_domain R171 to R173). The meaning performs the first access; the lines
after it are the caller's next turns (log 15).
-/
namespace Sys2Proof.Machine

/-- CLK_ENSURE_ENABLED (41 R171). -/
def execClkEnsureEnabled (s : State) : Res State := advance (s.begin clkEnsureLines)

/-- CLK_IS_ENABLED (41 R172): one read, no write under any value of CLKCTRL. -/
def execClkIsEnabled (s : State) : Res State :=
  andThen (regRead .clkctrl s) fun p => .next (p.2.ret (.bool (functional s.opts.bits p.1)))

/-- CLK_DISABLE (41 R173). -/
def execClkDisable (s : State) : Res State := advance (s.begin clkDisableLines)

end Sys2Proof.Machine
end

