-- ==== Sys2Proof/Machine/Interrupt.lean ====
section
/-!
DEFINITION. The interrupt service (43_transaction_fsm_isr R233 to R242, R251, R252): the snapshot, then the four steps in
strict precedence. With ISR_ATOMIC the invocation is one step of the machine; without it each line is (log 16).
-/
namespace Sys2Proof.Machine

/-- The bits step 1 acknowledges (R236(b)). -/
def errAckMask (o : ErrAck) (st : Status) : Status :=
  match o with
  | .errorBits => st &&& statErr
  | .allSnapshot => st

/-- The error step 1 records (R236(a)), and whether a free value chose it. -/
def recordedError (s : State) (st : Status) : XferError × Bool :=
  if hasBits st statNack && hasBits st statAl then
    match s.opts.errTie with
    | some e => (e, false)
    | none => (if s.drawBool then .noAcknowledge else .arbitrationLost, true)
  else (if hasBits st statNack then .noAcknowledge else .arbitrationLost, false)

/-- The lines an invocation performs for a snapshot (R235, R241): step 1 alone, or steps 2, 3 and 4. -/
def isrPlan (o : ErrAck) (st : Status) : List IsrAct :=
  if hasBits st statErr then [.recordError st, .forceIdle, .ack (errAckMask o st), .signal]
  else
    (if hasBits st statXrdy then [.txGuard] else []) ++ (if hasBits st statRrdy then [.rxGuard] else [])
      ++ (if hasBits st statArdy then [.ack statArdy, .forceIdle, .signal] else [])

/-- Step 2's data write (R237): the next byte, or the dummy zero byte past the end. -/
def isrTxData (s : State) : Res State :=
  match s.txn with
  | none => .refused .noDescriptor
  | some t =>
    if t.index < t.length then
      let p := s.bufGet t.buffer t.index
      andThen (regWrite .data (dataWord p.1) p.2) fun s => s.onTxn fun t => { t with index := t.index + 1 }
    else regWrite .data 0 s

/-- Step 3's data read (R238): into the buffer, or a dummy read past the end. -/
def isrRxData (s : State) : Res State :=
  match s.txn with
  | none => .refused .noDescriptor
  | some t =>
    andThen (regRead .data s) fun p =>
      if t.index < t.length then
        (p.2.bufSet t.buffer t.index (dataByte p.1)).onTxn fun t => { t with index := t.index + 1 }
      else .next p.2

/-- One line of an invocation: the lines it adds in front, and the state after it. -/
def isrLine (a : IsrAct) (s : State) : Res (List IsrAct × State) :=
  let done (x : Res State) : Res (List IsrAct × State) := andThen x fun s => .next ([], s)
  match a with
  | .recordError st =>
    let e := recordedError s st
    done ((if e.2 then s.tick else s).onTxn fun t => { t with error := some e.1 })
  | .forceIdle => done (s.onTxn fun t => { t with phase := .idle })
  | .ack mask => done (regWrite .irqstatus (statWord s.opts.bits mask) s)
  | .signal => done (s.onTxn fun t => { t with completion := true })
  | .txGuard => .next (if inPhase .writing s then [.txData, .ack statXrdy] else [], s)
  | .txData => done (isrTxData s)
  | .rxGuard => .next (if inPhase .reading s then [.rxData, .ack statRrdy] else [], s)
  | .rxData => done (isrRxData s)

/-- The next line of the invocation in progress; nothing where none is. A DEINIT that unregisters the service meanwhile does
not end the invocation: its lines go on until one needs the descriptor or a mapped block (R332 says only that servicing
stops; DESIGN CHOICE, log 38). -/
def isrAdvance (s : State) : Res State :=
  match s.isr with
  | [] => .next s
  | a :: rest => andThen (isrLine a s) fun p => .next { p.2 with isr := p.1 ++ rest }

/-- At most `n` lines of the invocation in progress. -/
def isrRun : Nat → State → Res State
  | 0, s => .next s
  | n + 1, s => if s.isr.isEmpty then .next s else andThen (isrAdvance s) (isrRun n)

/-- More lines than any invocation has (R252: at most nine, `txGuard` to `signal`). -/
def isrMaxLines : Nat := 12

/-- ISR_SERVICE (R240): where it is enabled (R233), the snapshot (R234) and, with ISR_ATOMIC, every line of it. -/
def execIsrService (s : State) : Res State :=
  if s.isrEnabled then
    andThen (regRead .irqstatus s) fun p =>
      let t := { p.2 with isr := isrPlan p.2.opts.isrErrAck (statw p.2.opts.bits p.1) }
      if t.opts.isrAtomic then isrRun isrMaxLines t else .next t
  else .next s

end Sys2Proof.Machine
end

