-- ==== Sys2Proof/Machine/Lifecycle.lean ====
section
/-!
DEFINITION. The lifecycle operations (45_lifecycle R300 to R306). INIT maps both blocks and DEINIT unregisters the
interrupt service; the lines after that are the caller's next turns (log 15).
-/
namespace Sys2Proof.Machine

/-- INIT (R300, R302). Another caller's INIT or DEINIT under way, or its transfer that has not acquired the lock, makes
the calls concurrent, which the spec refuses (60 R340, 93 U17); a caller in a bare LOCK_ACQUIRE does not. That the refusal
stands before R302's answer to a second INIT, the spec does not say (DESIGN CHOICE, log 21). -/
def execInit (busSpeedKhz interruptLine : Word) (s : State) : Res State :=
  if s.otherCaller inLifecycle || s.otherCaller inPrologue then .refused .concurrentLifecycle
  else if s.ctl.ready then .next (s.ret .ok)
  else
    .next (State.begin { s with ctl := { s.ctl with i2cMapped := true, clkMapped := true } }
      (initLines s.opts (profile busSpeedKhz) interruptLine))

/-- DEINIT (R304, R305), refused first, as INIT is, where the calls are concurrent (DESIGN CHOICE, log 21), and
where it would drop a descriptor whose outcome nobody has observed (log 37). It returns nothing. It does not wait for an
invocation of the interrupt service in progress, which with ISR_ATOMIC false can be there with the lock free and the phase
Idle (the spec is silent; DESIGN CHOICE, log 38). -/
def execDeinit (s : State) : Res State :=
  if s.otherCaller inLifecycle || s.otherCaller inPrologue then .refused .concurrentLifecycle
  else if !s.ctl.ready then .next (s.ret .unit)
  else if s.lock.isSome || inPhase .writing s || inPhase .reading s then .refused .deinitWhileBusy
  else if s.outcomeAwaited then .refused .descriptorTouchedWhileArmed
  else .next (State.begin { s with ctl := { s.ctl with irqRegistered := false } } (deinitLines s.opts))

end Sys2Proof.Machine
end

