-- ==== Sys2Proof/Machine/Platform.lean ====
section
/-!
DEFINITION. The steps of the agents outside I2CM: the power manager (41_clock_domain R177 to R179), whose choices are free
values (log 24), and time (43 R243, R244). A step that is not enabled leaves the machine where it is (log 2).
-/
namespace Sys2Proof.Machine

/-- A drawn IDLEST of a gated clock: 1, 2 or 3, whatever the free value is (R177). -/
def gatedIdlest (w : BitVec 2) : BitVec 2 := if w = 0 then 3 else w

/-- PM_UNGATE (R178): from 1 to 0, else to 1 or 0. -/
def execPmUngate (s : State) : Res State :=
  if s.modulemode = 2 ∧ s.idlest ≠ 0 then
    if s.idlest = 1 then .next { s with idlest := 0 }
    else .next (State.tick { s with idlest := if s.drawBool then 1 else 0 })
  else .next s

/-- PM_GATE (R177), always enabled: MODULEMODE cleared or not, IDLEST 1, 2 or 3. -/
def execPmGate (s : State) : Res State :=
  .next
    { s with
      modulemode := if s.drawBool then 0 else s.modulemode
      idlest := gatedIdlest (s.tick.draw 2)
      draws := s.draws + 2 }

/-- PM_IDLE (R179): to 3, possibly through 2 (log 24). -/
def execPmIdle (s : State) : Res State :=
  if s.modulemode = 0 ∧ s.idlest ≠ 3 then
    if s.idlest = 2 then .next { s with idlest := 3 }
    else .next (State.tick { s with idlest := if s.drawBool then 2 else 3 })
  else .next s

/-- XFER_TIMEOUT_FIRES (R243): the lock holder blocked in the wait goes to the timeout recovery (R244); with the
completion signalled, or nobody waiting, it is not enabled (log 23). The firing is the moment the caller is resumed: a
completion signalled later, before the recovery's first line too, no longer wins (R243 with R244(d); DEDUCED, log 23). -/
def execXferTimeoutFires (s : State) : Res State :=
  match s.lock, s.txn with
  | some h, some t =>
    match (s.caller h).task with
    | .wait :: rest =>
      if t.completion then .next s
      else .next (s.putCaller h { s.caller h with task := recoverLines s.opts ++ rest })
    | _ => .next s
  | _, _ => .next s

end Sys2Proof.Machine
end

