-- ==== Sys2Proof/Machine/Sequencer.lean ====
section
/-!
DEFINITION. The sequencer's operations (43_transaction_fsm_isr R231, R232, R243, R245, R246; 44 R271). Each checks what
its rule requires of the caller and performs its first line; the lines after it are the caller's next turns (log 15).
-/
namespace Sys2Proof.Machine

/-- START_WRITE and START_READ (43 R231, R232): the operands (log 20), then the first line of arming. -/
def startArming (d : Dir) (address : Byte) (buffer length : Word) (s : State) : Res State :=
  if !transferOperandsOk s.opts address length then .refused .operandOutOfRange
  else advance (s.goOn .unit (armLines s.opts d address (.mem buffer) length.toNat ++ s.self.task))

/-- START_WRITE (43 R231). -/
def execStartWrite (address : Byte) (buffer length : Word) (s : State) : Res State :=
  startArming .tx address buffer length s

/-- START_READ (43 R232). -/
def execStartRead (address : Byte) (buffer length : Word) (s : State) : Res State :=
  startArming .rx address buffer length s

/-- WAIT_COMPLETE (43 R243), performed by the lock holder; another caller's is refused (R248; log 19). -/
def execWaitComplete (s : State) : Res State :=
  if s.holdsLock then advance (s.begin [.wait])
  else if s.outcomeAwaited then .refused .descriptorTouchedWhileArmed
  else .refused .notLockHolder

/-- LOCK_ACQUIRE (43 R245). -/
def execLockAcquire (s : State) : Res State := advance (s.goOn .unit (.acquire :: s.self.task))

/-- LOCK_RELEASE (43 R246). -/
def execLockRelease (s : State) : Res State := advance (s.goOn .unit (.release :: s.self.task))

/-- XFER_LOCKED (44 R271): with the lock held, the clock, the arming and the wait. -/
def execXferLocked (d : Dir) (address : Byte) (buffer length : Word) (s : State) : Res State :=
  if !s.holdsLock then .refused .notLockHolder
  else if !transferOperandsOk s.opts address length then .refused .operandOutOfRange
  else advance (s.begin (xferLines s.opts d address (.mem buffer) length.toNat))

end Sys2Proof.Machine
end

