-- ==== Sys2Proof/Machine/Transfer.lean ====
section
/-!
DEFINITION. The five transfer operations of the consumer API (44_blocking_transfer_api R270 to R276): refused while another
caller is inside INIT or DEINIT (60 R340), then the checks, which make no register access and change nothing (R270, D27),
then the operation laid out as the caller's next turns (log 15).
-/
namespace Sys2Proof.Machine

/-- A check of R270 failed: the operation returns this error at once. -/
def failsWith (e : Error) (s : State) : Res State := .next (s.ret (.err e))

/-- The number of the operation this caller begins (log 14). -/
def State.nextSerial (s : State) : Nat := s.self.serial + 1

/-- A transfer call: another caller's INIT or DEINIT under way makes the calls concurrent, which the spec refuses (60 R340,
93 U17). That this stands before every check of R270, so that a call which would fail one of them (NotInitialized,
InvalidArgument, AllocationFailure) is refused as well, the spec does not say (DESIGN CHOICE, log 21). Then step 1 of R270;
`rest` is what follows it. -/
def transferCall (rest : State → Res State) (s : State) : Res State :=
  if s.otherCaller inLifecycle then .refused .concurrentLifecycle
  else if !s.ctl.ready then failsWith .notInitialized s
  else rest s

/-- Step 2 of R270, where a buffer is taken. -/
def bufferCall (buffer : Option Word) (length : Word) (rest : Word → Res State) (s : State) : Res State :=
  match buffer with
  | none => failsWith .invalidArgument s
  | some base => if length = 0 then failsWith .invalidArgument s else rest base

/-- The start of a transfer operation after its checks: the operand ranges (R270, log 20), then its number, its local
buffers and its lines. -/
def startTransfer (address : Byte) (length : Nat) (tmp staging : List Byte) (lines : List Act) (s : State) :
    Res State :=
  if operandsOutOfRange s.opts address length then .refused .operandOutOfRange
  else .next (s.putSelf
    { task := lines ++ s.self.task, result := .pending, tmp := tmp, staging := staging, serial := s.nextSerial })

/-- WRITE_BYTES and READ_BYTES: the checks, then one transfer under the lock. -/
def transferBytes (d : Dir) (address : Byte) (buffer : Option Word) (length : Word) (s : State) : Res State :=
  transferCall (fun s => bufferCall buffer length (fun base =>
    startTransfer address length.toNat [] [] (oneTransferLines s.opts d address (.mem base) length.toNat) s) s) s

/-- WRITE_BYTES (R272). -/
def execWriteBytes (address : Byte) (buffer : Option Word) (length : Word) (s : State) : Res State :=
  transferBytes .tx address buffer length s

/-- READ_BYTES (R273). -/
def execReadBytes (address : Byte) (buffer : Option Word) (length : Word) (s : State) : Res State :=
  transferBytes .rx address buffer length s

/-- WRITE_REGISTER (R274): one two-byte write, the register index and the value. -/
def execWriteRegister (address register value : Byte) (s : State) : Res State :=
  transferCall (fun s =>
    startTransfer address 2 [register, value] [] (oneTransferLines s.opts .tx address (.tmp s.actor s.nextSerial) 2) s) s

/-- READ_REGISTER (R275): the register index written, one byte read. -/
def execReadRegister (address register : Byte) (s : State) : Res State :=
  transferCall (fun s =>
    startTransfer address 1 [register] [0] (indexedReadLines s.opts s.actor s.nextSerial address 1 .byte) s) s

/-- READ_BLOCK's allocation (R276): whether it fails is a free value; what the freshly allocated buffer holds the spec does
not say (R276, 20 R82, 70 R377; D29 leaves the allocation to the platform): its bytes are free values (log 39). Then the
lines. -/
def startReadBlock (address register : Byte) (base length : Word) (s : State) : Res State :=
  if s.drawBool then failsWith .allocationFailure s.tick
  else
    startTransfer address length.toNat [register] (s.tick.drawBytes length.toNat)
      (indexedReadLines s.opts s.actor s.nextSerial address length.toNat (.block base length.toNat))
      (s.tick.ticks length.toNat)

/-- READ_BLOCK (R276): the checks, then the staging allocation. -/
def execReadBlock (address register : Byte) (buffer : Option Word) (length : Word) (s : State) : Res State :=
  transferCall (fun s => bufferCall buffer length (fun base => startReadBlock address register base length s) s) s

end Sys2Proof.Machine
end

