-- ==== Sys2Proof/Machine/Dispatch.lean ====
section
/-!
DEFINITION. What each operation does: one arm per constructor of Instr, each a call of its meaning.
-/
namespace Sys2Proof.Machine

/-- The meaning of an operation (30_encoding R100). -/
def exec (i : Instr) (s : State) : Host.Outcome State Fault Refusal :=
  match i with
  -- CMD8: consumer operations (44, 45)
  | .init busSpeedKhz interruptLine => Sys2Proof.Machine.execInit busSpeedKhz interruptLine s
  | .deinit => Sys2Proof.Machine.execDeinit s
  | .writeBytes address buffer length => Sys2Proof.Machine.execWriteBytes address buffer length s
  | .readBytes address buffer length => Sys2Proof.Machine.execReadBytes address buffer length s
  | .writeRegister address register value => Sys2Proof.Machine.execWriteRegister address register value s
  | .readRegister address register => Sys2Proof.Machine.execReadRegister address register s
  | .readBlock address register buffer length => Sys2Proof.Machine.execReadBlock address register buffer length s
  -- CMD8: clock operations (41)
  | .clkEnsureEnabled => Sys2Proof.Machine.execClkEnsureEnabled s
  | .clkIsEnabled => Sys2Proof.Machine.execClkIsEnabled s
  | .clkDisable => Sys2Proof.Machine.execClkDisable s
  -- CMD8: sequencer operations (43, 44)
  | .startWrite address buffer length => Sys2Proof.Machine.execStartWrite address buffer length s
  | .startRead address buffer length => Sys2Proof.Machine.execStartRead address buffer length s
  | .isrService => Sys2Proof.Machine.execIsrService s
  | .waitComplete => Sys2Proof.Machine.execWaitComplete s
  | .lockAcquire => Sys2Proof.Machine.execLockAcquire s
  | .lockRelease => Sys2Proof.Machine.execLockRelease s
  | .xferLocked dir address buffer length => Sys2Proof.Machine.execXferLocked dir address buffer length s
  -- REGACC (40)
  | .rdIrqstatusRaw => Sys2Proof.Machine.execRdIrqstatusRaw s
  | .wrIrqstatusRaw v => Sys2Proof.Machine.execWrIrqstatusRaw v s
  | .rdIrqstatus => Sys2Proof.Machine.execRdIrqstatus s
  | .wrIrqstatus v => Sys2Proof.Machine.execWrIrqstatus v s
  | .rdIrqenableSet => Sys2Proof.Machine.execRdIrqenableSet s
  | .wrIrqenableSet v => Sys2Proof.Machine.execWrIrqenableSet v s
  | .rdIrqenableClr => Sys2Proof.Machine.execRdIrqenableClr s
  | .wrIrqenableClr v => Sys2Proof.Machine.execWrIrqenableClr v s
  | .rdCnt => Sys2Proof.Machine.execRdCnt s
  | .wrCnt v => Sys2Proof.Machine.execWrCnt v s
  | .rdData => Sys2Proof.Machine.execRdData s
  | .wrData v => Sys2Proof.Machine.execWrData v s
  | .rdCon => Sys2Proof.Machine.execRdCon s
  | .wrCon v => Sys2Proof.Machine.execWrCon v s
  | .rdSa => Sys2Proof.Machine.execRdSa s
  | .wrSa v => Sys2Proof.Machine.execWrSa v s
  | .rdPsc => Sys2Proof.Machine.execRdPsc s
  | .wrPsc v => Sys2Proof.Machine.execWrPsc v s
  | .rdScll => Sys2Proof.Machine.execRdScll s
  | .wrScll v => Sys2Proof.Machine.execWrScll v s
  | .rdSclh => Sys2Proof.Machine.execRdSclh s
  | .wrSclh v => Sys2Proof.Machine.execWrSclh v s
  | .rdClkctrl => Sys2Proof.Machine.execRdClkctrl s
  | .wrClkctrl v => Sys2Proof.Machine.execWrClkctrl v s
  -- CONW: the words written to CON, each with all its 32 bits (30 R103)
  | .conStartTx v => Sys2Proof.Machine.execConStartTx v s
  | .conStartRx v => Sys2Proof.Machine.execConStartRx v s
  | .conEnable v => Sys2Proof.Machine.execConEnable v s
  | .conDisable v => Sys2Proof.Machine.execConDisable v s
  -- EVT8: engine (42)
  | .engStart dir => Sys2Proof.Machine.execEngStart dir s
  | .engAddrAck => Sys2Proof.Machine.execEngAddrAck s
  | .engAddrNack => Sys2Proof.Machine.execEngAddrNack s
  | .engTxByteAck => Sys2Proof.Machine.execEngTxByteAck s
  | .engTxByteNack => Sys2Proof.Machine.execEngTxByteNack s
  | .engRxByte => Sys2Proof.Machine.execEngRxByte s
  | .engStopDone => Sys2Proof.Machine.execEngStopDone s
  | .engArbLost => Sys2Proof.Machine.execEngArbLost s
  | .engExtraReady => Sys2Proof.Machine.execEngExtraReady s
  | .engLateArdy => Sys2Proof.Machine.execEngLateArdy s
  -- EVT8: power manager (41) and time (43)
  | .pmUngate => Sys2Proof.Machine.execPmUngate s
  | .pmGate => Sys2Proof.Machine.execPmGate s
  | .pmIdle => Sys2Proof.Machine.execPmIdle s
  | .xferTimeoutFires => Sys2Proof.Machine.execXferTimeoutFires s

end Sys2Proof.Machine
end

