-- ==== Sys2Proof/Machine/Schedule.lean ====
section
/-!
DEFINITION. Taking the next entry of the schedule (93 U29): an operation is decoded and performed, a caller or the
interrupt service performs its next line (log 1).
-/
namespace Sys2Proof.Machine

/-- Caller `id` is in no operation. -/
def State.idleCaller (s : State) (id : Nat) : Bool := (s.caller id).task.isEmpty

/-- Whether an operation is a step of its own: ENG_START is not, it "fires inside WR_CON, never on its own" (30 R107, 42
R193). -/
def Instr.ownStep : Instr → Bool
  | .engStart _ => false
  | _ => true

/-- Performing a decoded operation: a caller issues it, one operation at a time (60 R343; log 2), or it is a step of the
interrupt service, the engine, the power manager or time. What is no step of its own changes nothing (log 5). -/
def performOp (id : Nat) (i : Instr) (s : State) : Res State :=
  if i.byCaller then (if s.idleCaller id then exec i { s with actor := id } else .next s)
  else if Instr.ownStep i then exec i s
  else .next s

/-- An operation of the schedule: its bytes are decoded (30 R117); bytes that name none are refused (R113), an access to an
undocumented offset after the mapping of its block (40 R130). -/
def issue (id : Nat) (fmt : Format) (bytes : List Byte) (s : State) : Res State :=
  match decode s.opts fmt bytes with
  | .ok (i, _) => performOp id i s
  | .error (.undocumentedOffset blk) => accessUndocumented blk s
  | .error e => .refused (.noSuchOperation e)

/-- One entry of the schedule. -/
def runSlot (slot : Slot) (s : State) : Res State :=
  match slot with
  | .op id fmt bytes => issue id fmt bytes s
  | .turn id => advance { s with actor := id }
  | .isrTurn => isrAdvance s

/-- A number above every listed caller's. -/
def freshCaller : List (Nat × Caller) → Nat
  | [] => 0
  | (k, _) :: rest => max (k + 1) (freshCaller rest)

/-- The caller an operation placed from outside is issued by: this caller if it is in no operation, else one that has
issued nothing (log 1). -/
def State.issuer (s : State) : Nat := if s.idleCaller s.actor then s.actor else freshCaller s.callers

/-- The schedule entry of a table word of `nbits` bits (log 1, log 4). -/
def State.tableSlot (s : State) (nbits w : Nat) : Slot := .op s.issuer (tableFormat s.opts nbits w) (tableBytes w)

end Sys2Proof.Machine
end

