-- ==== Sys2Proof/Machine/Step.lean ====
section
/-!
DEFINITION. One step of the machine: the next entry of the schedule is taken (log 1). With nothing scheduled, nobody
moves: no step is ever forced (42 R206, 70 R361).
-/
namespace Sys2Proof.Machine

/-- One step. -/
def step (s : State) : Host.Outcome State Fault Refusal :=
  match s.sched with
  | [] => .next s
  | slot :: rest => runSlot slot { s with sched := rest }

/-- The state with the operation of a table word as the next entry of its schedule: a program is loaded from outside the
machine (log 1). -/
def State.withFetchWord (s : State) (nbits w : Nat) : State :=
  { s with sched := s.tableSlot nbits w :: s.sched }

end Sys2Proof.Machine
end

