-- ==== Sys2Proof/Machine/Reference.lean ====
section
/-!
DEFINITION. The reference engine (42_bus_engine R207): the engine without extra ready events, late ARDY and lost
arbitration, each of its enabled steps taken before the next sequencer access (eager). The machine takes the engine's steps
where the schedule has them; this file says which schedules are eager, and runs the eager one.
-/
namespace Sys2Proof.Machine

/-- `Env.arb_lost()` is always false: in every answer listed, and in every free one. -/
def Env.neverLost : Env → Prop
  | .oracle l => (∀ a ∈ l, a.arbLost = false) ∧ ∀ k, Config.envArbLost k = false
  | .refSlave _ => True

/-- The premises of the reference engine (42 R207): `ENG_EXTRA_READY = 0`, `ENG_ARDY_AFTER_ERR = false` and so no late ARDY
to come, arbitration never lost. -/
def State.refEngine (s : State) : Prop :=
  s.opts.engExtraReady = some 0 ∧ s.opts.engArdyAfterErr = some false ∧ s.eng.lateArdy = false ∧ s.env.neverLost

/-- The step of the reference engine that is enabled, as the environment answers; none where it waits for the sequencer (42
R195 to R201). -/
def State.engNext (s : State) : Option Instr :=
  if !s.engLive then none
  else
    match s.eng.st with
    | .idle | .txWait | .rxWait => none
    | .addr => some (if s.addrAck then .engAddrAck else .engAddrNack)
    | .txShift => s.eng.hold.map fun b => if s.dataAck b then .engTxByteAck else .engTxByteNack
    | .rxShift => if s.eng.hold.isNone then some .engRxByte else none
    | .stop => some .engStopDone

/-- At most `n` steps of the reference engine, while one is enabled. -/
def engSteps : Nat → State → Res State
  | 0, s => .next s
  | n + 1, s =>
    match s.engNext with
    | none => .next s
    | some i => andThen (exec i s) (engSteps n)

/-- Every enabled step of the reference engine is taken. At most three follow one another (R208: the address, a received
byte, the STOP). -/
def settle (s : State) : Res State := engSteps 3 s

/-- One step of the machine under the reference engine: all the engine's enabled steps follow it at once, as in the
scheduling of the spec's traces (95_test_vectors.md), and so come before the next sequencer access (42 R207). An atomic
invocation of the interrupt service is one step, which no engine step interrupts (43 R234; log 41). -/
def refStep (s : State) : Res State := andThen (step s) settle

/-- The interrupt service `n` times under the reference engine, its enabled steps after each invocation. -/
def refService : Nat → State → Res State
  | 0, s => .next s
  | n + 1, s => andThen (andThen (exec .isrService s) settle) (refService n)

-- Which steps are sequencer accesses (log 41)

/-- The line of a caller makes a register access. -/
def Act.accesses : Act → Bool
  | .clkEnsure | .clkRequest _ | .clkDrop | .clkRelease _ | .write .. | .diagnose | .probe _ => true
  | .clkPoll left => left != 0
  | .acquire | .release | .armFields .. | .armCompletion | .armPhase _ | .wait | .forceIdle | .fail _ | .registerIsr _
  | .initEnd _ | .deinitEnd | .finish _ => false

/-- The line of the interrupt service makes a register access. -/
def IsrAct.accesses : IsrAct → Bool
  | .ack _ | .txData | .rxData => true
  | .recordError _ | .forceIdle | .signal | .txGuard | .rxGuard => false

/-- The operation makes a register access in the step that issues it. -/
def Instr.accesses (i : Instr) : Bool :=
  match i.format with
  | .regacc | .conw => true
  | .evt8 => false
  | .cmd8 => match i with
    | .clkEnsureEnabled | .clkIsEnabled | .clkDisable | .xferLocked .. | .isrService => true
    | _ => false

/-- The next step of the schedule is a sequencer access. -/
def State.accessNext (s : State) : Bool :=
  match s.sched with
  | [] => false
  | .turn id :: _ => (s.caller id).task.head?.any Act.accesses
  | .isrTurn :: _ => s.isr.head?.any IsrAct.accesses
  | .op _ fmt bytes :: _ => match decode s.opts fmt bytes with
    | .ok (i, _) => Instr.accesses i
    | .error _ => false

/-- The next step is eager (42 R207): no sequencer access while a step of the engine is enabled. -/
def State.eager (s : State) : Prop := s.accessNext = true → s.engNext = none

end Sys2Proof.Machine
end

