-- ==== Sys2Proof/Machine/Timing.lean ====
section
/-!
DEFINITION. Bus timing (42_bus_engine R210, R211): the frequency the three timing values give, and how long a
transaction lasts. No step reads either (R210; log 28).
-/
namespace Sys2Proof.Machine

/-- The internal sampling clock `ICLK = F_FCLK_HZ / (PSC + 1)` in hertz, as numerator and denominator (R210). -/
def iclk (fclkHz : Nat) (psc : Byte) : Nat × Nat := (fclkHz, psc.toNat + 1)

/-- `t_low` in periods of ICLK (R210). -/
def lowPeriods (scll : Byte) : Nat := scll.toNat + 7

/-- `t_high` in periods of ICLK (R210). -/
def highPeriods (sclh : Byte) : Nat := sclh.toNat + 5

/-- `f_SCL = 1 / (t_low + t_high)` in hertz, as numerator and denominator (R210). -/
def sclFrequency (fclkHz : Nat) (p : Profile) : Nat × Nat :=
  ((iclk fclkHz p.psc).1, (iclk fclkHz p.psc).2 * (lowPeriods p.scll + highPeriods p.sclh))

/-- The bit times of a transaction of `n` data bytes: `9 (n + 1) + 2` (R211). -/
def transferBits (n : Nat) : Nat := 9 * (n + 1) + 2

end Sys2Proof.Machine
end

