-- ==== Sys2Proof/Safety.lean ====
section
/-!
DEFINITION. The terms claims are stated in: the format of the wire history, the engine's byte count, the invariant every
step keeps, the table of engine transitions, the lock discipline, and the premises NoGate and CleanAtArm.
-/
namespace Sys2Proof.Machine

-- The format of the wire history (30_encoding R106, 42 R194)

/-- Where a wire history stands. -/
inductive WireSt where
  /-- Between transactions. -/
  | gap
  | sawStart
  | sawAddr
  /-- The address was not acknowledged. -/
  | refusedAddr
  /-- Inside a transaction, after an acknowledge. -/
  | inside
  | sawByte
  /-- Inside a transaction, after a data byte that was not acknowledged. -/
  | lastByte
deriving DecidableEq, Repr

/-- One wire event. A START may follow an unfinished transaction: the engine abandons it without a STOP (42 R193). -/
def wireStep : WireSt → WireEvent → Option WireSt
  | .gap, .start | .inside, .start | .lastByte, .start => some .sawStart
  | .sawStart, .addr _ _ => some .sawAddr
  | .sawAddr, .ack | .sawByte, .ack => some .inside
  | .sawAddr, .nack => some .refusedAddr
  | .sawByte, .nack => some .lastByte
  | .inside, .byte _ => some .sawByte
  | .refusedAddr, .stop | .inside, .stop | .lastByte, .stop => some .gap
  | .gap, .lost | .inside, .lost | .lastByte, .lost => some .gap
  | _, _ => none

/-- Where a history stands after some events; none where it is no history of transactions. -/
def wireFrom : WireSt → List WireEvent → Option WireSt
  | p, [] => some p
  | p, e :: rest => match wireStep p e with
    | some q => wireFrom q rest
    | none => none

/-- Where a whole history stands. -/
def wirePlace (w : List WireEvent) : Option WireSt := wireFrom .gap w

/-- The wire stands where the engine's state says it does. -/
def Engine.onWire (e : Engine) (w : List WireEvent) : Prop :=
  match e.st with
  | .idle | .addr => wirePlace w = some .gap ∨ wirePlace w = some .inside ∨ wirePlace w = some .lastByte
  | .txWait | .txShift | .rxShift | .rxWait => wirePlace w = some .inside
  | .stop => wirePlace w = some (match e.dir with | .tx => .inside | .rx => .lastByte)

-- The engine

/-- 1 for a held byte. -/
def heldCount (h : Option Byte) : Nat :=
  match h with
  | some _ => 1
  | none => 0

/-- Every byte of the count is handed over, held, or still to come (42 R193 to R201). -/
def Engine.accounted (e : Engine) : Prop :=
  match e.st with
  | .idle => True
  | .addr => e.hold = none ∧ e.loaded = 0 ∧ e.rem = e.cnt ∧ 1 ≤ e.rem
  | .txWait => e.dir = .tx ∧ e.hold = none ∧ e.loaded + e.rem = e.cnt ∧ 1 ≤ e.rem
  | .txShift => e.dir = .tx ∧ e.hold.isSome ∧ e.loaded + e.rem = e.cnt + 1 ∧ 1 ≤ e.rem
  | .rxShift => e.dir = .rx ∧ e.hold = none ∧ e.loaded + e.rem = e.cnt ∧ 1 ≤ e.rem
  | .rxWait => e.dir = .rx ∧ e.hold.isSome ∧ e.loaded + 1 + e.rem = e.cnt ∧ 1 ≤ e.rem
  | .stop => e.rem = 0 ∧ e.loaded + heldCount e.hold = e.cnt ∧ (e.dir = .tx → e.hold = none)

/-- The transitions of 42 R208, with the status bits each raises. -/
inductive EngMove : EngSt → Status → EngSt → Prop where
  | start (p : EngSt) : EngMove p 0 .addr
  | disable (p : EngSt) : EngMove p 0 .idle
  | addrAckTx : EngMove .addr statXrdy .txWait
  | addrAckRx : EngMove .addr 0 .rxShift
  | addrNack : EngMove .addr statNack .idle
  | dataWritten : EngMove .txWait 0 .txShift
  | txByteAck : EngMove .txShift statXrdy .txWait
  | txLastAck : EngMove .txShift 0 .stop
  | txByteNack : EngMove .txShift statNack .idle
  | rxByte : EngMove .rxShift statRrdy .rxWait
  | rxLast : EngMove .rxShift statRrdy .stop
  | dataRead : EngMove .rxWait 0 .rxShift
  | stopDone : EngMove .stop statArdy .idle
  | arbLost (p : EngSt) : p ≠ .idle → EngMove p statAl .idle

-- The invariant

/-- What every step keeps: memories and the caller table in canonical form, a MODULEMODE that is not a reserved code (40
R155), a count of at most `CNT_W` bits (10_state R35), `index ≤ length` (43 R247 I1), every byte of the count accounted for, and a wire history of transactions. -/
structure State.Inv (s : State) : Prop where
  mem : s.mem.wf
  slave : ∀ r, s.env = .refSlave r → r.mem.wf ∧ ∀ x ∈ r.mem, x.1 < 256
  callers : sparseWf Caller.fresh s.callers
  modulemode : s.modulemode = 0 ∨ s.modulemode = 2
  count : ∀ n, s.cnt = some n → n.toNat < 2 ^ s.opts.cntW
  index : ∀ t, s.txn = some t → t.index ≤ t.length
  engine : s.eng.accounted
  wire : s.eng.onWire s.wire

-- The lock (43 R245, R246, 44 R280)

/-- A caller with these lines left is between its LOCK_ACQUIRE and its LOCK_RELEASE. -/
def inSection (l : List Act) : Bool := l.contains .release && !l.contains .acquire

/-- The lines left of an operation of the consumer API: LOCK_ACQUIRE can only come first, and then a LOCK_RELEASE
follows; there is at most one LOCK_RELEASE. -/
def sectionShape (l : List Act) : Bool :=
  !(l.drop 1).contains .acquire && (l.count .release ≤ 1) && (!l.contains .acquire || l.contains .release)

/-- An entry of the schedule that uses the lock, if at all, through the consumer API (30 R100: "the entire surface
visible to sensor-decoding collaborators"). -/
def Slot.usesApi (o : Options) : Slot → Bool
  | .op _ fmt bytes =>
    match decode o fmt bytes with
    | .ok (.lockAcquire, _) | .ok (.lockRelease, _) => false
    | _ => true
  | _ => true

/-- The lock discipline: a caller is between its LOCK_ACQUIRE and its LOCK_RELEASE exactly when it holds the lock. -/
structure State.LockInv (s : State) : Prop where
  api : ∀ x ∈ s.sched, x.usesApi s.opts = true
  shape : ∀ c, sectionShape (s.caller c).task = true
  holder : ∀ c, inSection (s.caller c).task = true ↔ s.lock = some c

-- The interrupt service as the rules write it (43 R235 to R240)

/-- Step 2 (43 R237). -/
def isrStep2 (st : Status) (s : State) : Res State :=
  if hasBits st statXrdy && inPhase .writing s then
    andThen (isrTxData s) fun s => regWrite .irqstatus (statWord s.opts.bits statXrdy) s
  else .next s

/-- Step 3 (43 R238). -/
def isrStep3 (st : Status) (s : State) : Res State :=
  if hasBits st statRrdy && inPhase .reading s then
    andThen (isrRxData s) fun s => regWrite .irqstatus (statWord s.opts.bits statRrdy) s
  else .next s

/-- Step 4 (43 R239). -/
def isrStep4 (st : Status) (s : State) : Res State :=
  if hasBits st statArdy then
    andThen (regWrite .irqstatus (statWord s.opts.bits statArdy) s) fun s =>
      s.onTxn fun t => { t with phase := .idle, completion := true }
  else .next s

/-- The whole invocation (43 R240), step 1 first (R236). -/
def isrPseudocode (s : State) : Res State :=
  andThen (regRead .irqstatus s) fun p =>
    let st := statw p.2.opts.bits p.1
    if hasBits st statErr then
      let e := recordedError p.2 st
      andThen ((if e.2 then p.2.tick else p.2).onTxn fun t => { t with error := some e.1, phase := .idle }) fun s =>
        andThen (regWrite .irqstatus (statWord s.opts.bits (errAckMask s.opts.isrErrAck st)) s) fun s =>
          s.onTxn fun t => { t with completion := true }
    else
      andThen (isrStep2 st p.2) fun s => andThen (isrStep3 st s) (isrStep4 st)

-- Words the registers read as

/-- The word has exactly these five status bits at their positions and 0 elsewhere (30 R104, 10_state R31). -/
def isStatWord (m : BitMap) (st : Status) (w : Word) : Prop :=
  ∀ k : Fin 32, w.getLsbD k =
    (k == m.al && st.getLsbD 0 || k == m.nack && st.getLsbD 1 || k == m.ardy && st.getLsbD 2
      || k == m.rrdy && st.getLsbD 3 || k == m.xrdy && st.getLsbD 4)

/-- The word has exactly EN, MST and TRX at their positions and 0 elsewhere (10_state R37). -/
def isConWord (m : BitMap) (c : Con) (w : Word) : Prop :=
  ∀ k : Fin 32, w.getLsbD k = (k == m.en && c.en || k == m.mst && c.mst || k == m.trx && c.trx)

/-- The word has IDLEST and MODULEMODE, each in the two bits at its position, and 0 elsewhere (10_state R42, 30 R105). -/
def isClkWord (m : BitMap) (idlest modulemode : BitVec 2) (w : Word) : Prop :=
  ∀ k : Nat, w.getLsbD k = (decide (m.idlest.val ≤ k) && idlest.getLsbD (k - m.idlest.val)
    || decide (m.modulemode.val ≤ k) && modulemode.getLsbD (k - m.modulemode.val))

-- Where the index starts again

/-- The next step performs the first line of an arming (43 R231, R232) or the last of INIT (45 R300): it resets the index.
-/
def State.resetsIndex (s : State) : Bool :=
  match s.sched with
  | .turn id :: _ =>
    match (s.caller id).task with
    | .armFields _ _ :: _ | .initEnd _ :: _ => true
    | _ => false
  | .op _ f bytes :: _ =>
    match decode s.opts f bytes with
    | .ok (.startWrite _ _ _, _) | .ok (.startRead _ _ _, _) => true
    | _ => false
  | _ => false

-- Where memory is stored to

/-- The addresses the next step can store to in the callers' memory, as a first address and a length: the interrupt
service's byte of a receive (43 R238), or the copy at the end of READ_BLOCK (44 R276). -/
def State.storeRange (s : State) : Nat × Nat :=
  match s.sched with
  | .turn id :: _ =>
    match (s.caller id).task with
    | .finish (.block base length) :: _ => (base.toNat, length)
    | _ => (0, 0)
  | .isrTurn :: _ | .op _ _ _ :: _ =>
    match s.txn with
    | some t =>
      match t.buffer with
      | some (.mem base) => if t.index < t.length then (bufAddr base t.index, 1) else (0, 0)
      | _ => (0, 0)
    | none => (0, 0)
  | [] => (0, 0)

/-- The next step is one of the interrupt service's. -/
def State.isrMoves (s : State) : Bool :=
  match s.sched with
  | .isrTurn :: _ => true
  | .op _ f bytes :: _ => match decode s.opts f bytes with
    | .ok (.isrService, _) => true
    | _ => false
  | _ => false

-- Runs of events (42 R209, 43 R247 I6)

/-- The operations of a list, one after another. -/
def execAll : List Instr → State → Res State
  | [], s => .next s
  | i :: rest, s => andThen (exec i s) (execAll rest)

/-- A list, `n` times over. -/
def repeated : Nat → List Instr → List Instr
  | 0, _ => []
  | n + 1, l => l ++ repeated n l

/-- The events of a good write of `n + 1` bytes, the interrupt service after each. -/
def writeEvents (n : Nat) : List Instr :=
  [.engAddrAck, .isrService] ++ repeated n [.engTxByteAck, .isrService] ++ [.engTxByteAck, .engStopDone, .isrService]

/-- The events of a good read of `n + 1` bytes, the interrupt service after each, so that the last RRDY and the ARDY are seen
in two invocations (42 R209); the reference engine, whose STOP follows its last byte at once, has them seen in one. -/
def readEvents (n : Nat) : List Instr :=
  [.engAddrAck] ++ repeated n [.engRxByte, .isrService] ++ [.engRxByte, .isrService, .engStopDone, .isrService]

/-- The reference slave after a data byte of a write (42 R212). -/
def RefSlave.take (r : RefSlave) (b : Byte) : RefSlave :=
  if r.first then { r with ptr := b, first := false } else { r with mem := r.mem.write r.ptr.toNat b, ptr := r.ptr + 1 }

/-- The reference slave after the data bytes of a write. -/
def RefSlave.takeAll (r : RefSlave) (l : List Byte) : RefSlave := l.foldl RefSlave.take r

/-- The `n` bytes the reference slave sends in a read: those at its pointer and after it, modulo 256 (42 R212). -/
def RefSlave.sends (r : RefSlave) (n : Nat) : List Byte :=
  (List.range n).map fun i => r.mem.read (r.ptr + BitVec.ofNat 8 i).toNat

/-- The bytes of memory from an address on. -/
def Memory.bytes (m : Memory) (a n : Nat) : List Byte := (List.range n).map fun i => m.read (a + i)

/-- What follows the address in the frame of a read (42 R194): every byte acknowledged but the last. -/
def readFrame : List Byte → List WireEvent
  | [] => []
  | [b] => [.byte b, .nack]
  | b :: rest => .byte b :: .ack :: readFrame rest

-- Premises

/-- `NoGate` (41 R181) for a schedule: the power manager takes no PM_GATE step. -/
def noGate (o : Options) (l : List Slot) : Bool :=
  l.all fun x => match x with
    | .op _ fmt bytes => match decode o fmt bytes with
      | .ok (.pmGate, _) => false
      | _ => true
    | _ => true

/-- `CleanAtArm` (70 R370): the engine idle and no enabled status bit latched. -/
def State.cleanAtArm (s : State) : Bool := s.eng.st == .idle && s.raw &&& s.ie == 0

/-- The I2C block can be accessed (40 R130): mapped, and its clock live. -/
def State.i2cOpen (s : State) : Bool := s.ctl.i2cMapped && clkLive s.opts.bits s.clkctrl

end Sys2Proof.Machine
end

