-- ==== Sys2Proof/Certificates/Slice0/Obligations.lean ====
section
/-!
DEFINITION. The statements for the provers. Each docstring names the rule of spec/ it formalises or the sections it
rests on. An equation `exec i s = .next t` with `t` written as an update of `s` says the whole effect: every field it
does not name is unchanged.
-/
open Sys2Proof Sys2Proof.Machine

-- Decoding and the step

/-- Seventeen words of the spec's encoding vectors (95 section 2.1: V30-1, 2, 3, 5, 6, 9 to 15, 24, 25, 27, 28 and 29)
decode, with the default parameters, to the operations they name. The byte order of a number of several bytes and the
operand bytes after it are the model's own layout (log 3, a DESIGN CHOICE), not the spec's. -/
def Obligations.VectorsDecode : Prop :=
  ∀ o : Options, o = Config.defaultOptions →
    decode o .regacc [0x28, 0x00] = .ok (.rdIrqstatus, [])
      ∧ decode o .regacc [0x28, 0x80, 0x1F, 0, 0, 0] = .ok (.wrIrqstatus 0x1F, [])
      ∧ decode o .regacc [0x9C, 0x80, 0x6B, 0, 0, 0] = .ok (.wrData 0x6B, [])
      ∧ decode o .regacc [0xA4, 0x80, 0x03, 0x86, 0, 0] = .ok (.wrCon 0x8603, [])
      ∧ decode o .regacc [0x44, 0x40] = .ok (.rdClkctrl, [])
      ∧ decode o .regacc [0x90, 0x00] = .error (.undocumentedOffset .i2c)
      ∧ decode o .regacc [0x44, 0x80, 0, 0, 0, 0] = .error (.undocumentedOffset .i2c)
      ∧ decode o .regacc [0x28, 0x10] = .error .reservedAccessCode
      ∧ decode o .conw [0x03, 0x86, 0, 0] = .ok (.conStartTx 0x8603, [])
      ∧ decode o .conw [0x03, 0x84, 0, 0] = .ok (.conStartRx 0x8403, [])
      ∧ decode o .conw [0x00, 0x80, 0, 0] = .ok (.conEnable 0x8000, [])
      ∧ decode o .conw [0, 0, 0, 0] = .ok (.conDisable 0, [])
      ∧ decode o .cmd8 [0x05, 0x68, 0x6B] = .ok (.readRegister 0x68 0x6B, [])
      ∧ decode o .cmd8 [0x07] = .error .reservedCommand
      ∧ decode o .evt8 [0x25] = .ok (.engRxByte, [])
      ∧ decode o .evt8 [0x38] = .ok (.xferTimeoutFires, [])
      ∧ decode o .evt8 [0x2A] = .error .reservedEvent

/-- Decoding the encoding of a well-formed operation, whatever bytes come after it and whatever the offsets and bit
positions are, gives the operation back (30_encoding R101 to R107, R117; log 3 for the operand bytes). -/
def Obligations.DecodeEncode : Prop :=
  ∀ (o : Options) (i : Instr) (rest : List Byte), i.wf o = true → decode o i.format (encode o i ++ rest) = .ok (i, rest)

/-- What decodes is what was encoded, for all parameters: the bytes taken are the encoding of the operation, in its own
format. The one other case is a control word of no class, which is a WR_CON of that word (30_encoding R100, R113; log 6). -/
def Obligations.EncodeDecode : Prop :=
  ∀ (o : Options) (f : Format) (bytes rest : List Byte) (i : Instr), decode o f bytes = .ok (i, rest) →
    (i.format = f ∧ encode o i ++ rest = bytes) ∨ (f = .conw ∧ ∃ v, i = .wrCon v ∧ wordBytes v ++ rest = bytes)

/-- A number in no table is no operation (30_encoding R113(a), (b), (i)), and an access to an offset that is not one of the
twelve documented ones is refused, as unmapped where its block is not mapped and else as undocumented_offset (40 R130,
R156), for all offset parameters: a step that meets one is refused. -/
def Obligations.ReservedNumbersRefused : Prop :=
  ∀ (s : State) (id : Nat) (op : Byte) (rest : List Byte) (slots : List Slot),
    (op.toNat ∉ [0x00, 0x01, 0x02, 0x03, 0x04, 0x05, 0x06, 0x08, 0x09, 0x0A, 0x0C, 0x0D, 0x0E, 0x0F, 0x10, 0x11, 0x12] →
      step { s with sched := .op id .cmd8 (op :: rest) :: slots } = .refused (.noSuchOperation .reservedCommand))
    ∧ (op.toNat ∉ [0x20, 0x21, 0x22, 0x23, 0x24, 0x25, 0x26, 0x27, 0x28, 0x29, 0x30, 0x31, 0x32, 0x38] →
      step { s with sched := .op id .evt8 (op :: rest) :: slots } = .refused (.noSuchOperation .reservedEvent))
    ∧ (∀ hi : Byte, hi.extractLsb' 4 2 ≠ 0 →
      step { s with sched := .op id .regacc (op :: hi :: rest) :: slots }
        = .refused (.noSuchOperation .reservedAccessCode))
    ∧ (∀ acc : BitVec 16, acc.extractLsb' 12 2 = 0 →
      (∀ r : Reg, acc.extractLsb' 0 12 = r.offset s.opts → acc.getLsbD 14 ≠ (r.block == .clk)) →
        step { s with sched := .op id .regacc (acc.extractLsb' 0 8 :: acc.extractLsb' 8 8 :: rest) :: slots }
          = .refused (if (if acc.getLsbD 14 then s.ctl.clkMapped else s.ctl.i2cMapped)
            then .undocumentedOffset else .unmapped))

/-- A step runs the decoded operation: the operation at the head of the schedule is taken off it, decoded, and performed
by exec, as the caller that issues it when it is a caller's; an operation of a caller that is inside another one, and a
turn of a caller that is in none, change nothing else (log 1, log 2). ENG_START, which "fires inside WR_CON, never on its
own" (30_encoding R107), changes nothing when the schedule offers it alone (log 5). -/
def Obligations.StepRunsDecoded : Prop :=
  ∀ (s : State) (rest : List Slot),
    (∀ id f bytes i after, s.sched = .op id f bytes :: rest → decode s.opts f bytes = .ok (i, after) →
      (i.byCaller = true → (s.caller id).task = [] → step s = exec i { s with sched := rest, actor := id })
      ∧ (i.byCaller = true → (s.caller id).task ≠ [] → step s = .next { s with sched := rest })
      ∧ (i.byCaller = false → (∀ d, i ≠ .engStart d) → step s = exec i { s with sched := rest })
      ∧ (∀ d, i = .engStart d → step s = .next { s with sched := rest }))
    ∧ (∀ id, s.sched = .turn id :: rest →
      ((s.caller id).task = [] → step s = .next { s with sched := rest, actor := id })
      ∧ (∀ a l, (s.caller id).task = a :: l → step s = performLine a l { s with sched := rest, actor := id }))
    ∧ (∀ a l, s.sched = .isrTurn :: rest → s.isr = a :: l →
      step s = andThen (isrLine a { s with sched := rest }) fun p => .next { p.2 with isr := p.1 ++ l })
    ∧ (s.sched = .isrTurn :: rest → s.isr = [] → step s = .next { s with sched := rest })
    ∧ (s.sched = [] → step s = .next s)

-- Register accesses

/-- The prologue of every register access, WR_IRQSTATUS_RAW among them (40 R130; log 18 for that one): unmapped is refused;
an I2C register with its clock not live is a BusFault that names the block and the offset; the clock-control register never
faults. -/
def Obligations.AccessPrologue : Prop :=
  ∀ (s : State) (r : Reg) (v : Word),
    (r.block = .i2c → s.ctl.i2cMapped = false →
      exec (readInstr r) s = .refused .unmapped ∧ exec (writeInstr v r) s = .refused .unmapped)
    ∧ (r.block = .clk → s.ctl.clkMapped = false →
      exec (readInstr r) s = .refused .unmapped ∧ exec (writeInstr v r) s = .refused .unmapped)
    ∧ (r.block = .i2c → s.ctl.i2cMapped = true → s.idlest ≠ 0 →
      exec (readInstr r) s = .fault (.busFault .i2c (r.offset s.opts))
        ∧ exec (writeInstr v r) s = .fault (.busFault .i2c (r.offset s.opts)))
    ∧ (r.block = .clk → s.ctl.clkMapped = true →
      (∃ t, exec (readInstr r) s = .next t) ∧ ∀ f, exec (writeInstr v r) s ≠ .fault f)

/-- WR_IRQSTATUS_RAW is refused (40 R132), where the block can be accessed; where it cannot, the prologue of R130 stops it
first (AccessPrologue; log 18). -/
def Obligations.RawStatusWriteRefused : Prop :=
  ∀ (s : State) (v : Word), s.i2cOpen = true → exec (.wrIrqstatusRaw v) s = .refused .rawStatusWrite

/-- The status and enable registers (40 R131, R133, R135 to R138): the reads return the raw latch, the latch masked with IE,
and IE, each bit at its position and 0 elsewhere, with no side effect; the two writes set and clear enables, bits at no
position ignored, the raw latch untouched. -/
def Obligations.StatusAndEnables : Prop :=
  ∀ (s : State) (v : Word), s.i2cOpen = true →
    (∃ w, exec .rdIrqstatusRaw s = .next (s.ret (.word w)) ∧ isStatWord s.opts.bits s.raw w)
      ∧ (∃ w, exec .rdIrqstatus s = .next (s.ret (.word w)) ∧ isStatWord s.opts.bits (s.raw &&& s.ie) w)
      ∧ (∃ w, exec .rdIrqenableSet s = .next (s.ret (.word w)) ∧ exec .rdIrqenableClr s = .next (s.ret (.word w))
        ∧ isStatWord s.opts.bits s.ie w)
      ∧ ∃ set clr : Status,
        exec (.wrIrqenableSet v) s = .next (State.ret { s with ie := set } .unit)
          ∧ exec (.wrIrqenableClr v) s = .next (State.ret { s with ie := clr } .unit)
          ∧ ∀ x ∈ [(0, s.opts.bits.al), (1, s.opts.bits.nack), (2, s.opts.bits.ardy), (3, s.opts.bits.rrdy),
              (4, s.opts.bits.xrdy)],
            set.getLsbD x.1 = (s.ie.getLsbD x.1 || v.getLsbD x.2)
              ∧ clr.getLsbD x.1 = (s.ie.getLsbD x.1 && !v.getLsbD x.2)

/-- The status acknowledgement, bit by bit (40 R134): AL, NACK and ARDY written as 1 are cleared and close the window; a
ready bit written as 1 takes the value of its level condition, evaluated after that; bits written as 0 stay. -/
def Obligations.StatusAcknowledge : Prop :=
  ∀ (s : State) (v : Word) (b : BitMap), s.i2cOpen = true → s.opts.bits = b →
    ∃ (raw : Status) (window : Bool),
      exec (.wrIrqstatus v) s
          = .next (State.ret { s with raw := raw, eng := { s.eng with window := window } } .unit)
        ∧ window = (s.eng.window && !v.getLsbD b.al && !v.getLsbD b.nack && !v.getLsbD b.ardy)
        ∧ raw.getLsbD 0 = (s.raw.getLsbD 0 && !v.getLsbD b.al)
        ∧ raw.getLsbD 1 = (s.raw.getLsbD 1 && !v.getLsbD b.nack)
        ∧ raw.getLsbD 2 = (s.raw.getLsbD 2 && !v.getLsbD b.ardy)
        ∧ raw.getLsbD 3
          = (if v.getLsbD b.rrdy then window && s.eng.dir == .rx && s.eng.hold.isSome else s.raw.getLsbD 3)
        ∧ raw.getLsbD 4 = (if v.getLsbD b.xrdy then window && s.eng.st == .txWait else s.raw.getLsbD 4)

/-- The count and address registers (40 R139, R140, R145, R146): a write stores the low `CNT_W` or 10 bits; a read returns
them, or some value of that width where the rule has a draw. -/
def Obligations.CountAndAddress : Prop :=
  ∀ (s : State) (v : Word), s.i2cOpen = true →
    (∃ n : Word, exec (.wrCnt v) s = .next (State.ret { s with cnt := some n } .unit)
      ∧ n.toNat = v.toNat % 2 ^ s.opts.cntW)
      ∧ exec (.wrSa v) s = .next (State.ret { s with sa := some (v.extractLsb' 0 10) } .unit)
      ∧ (∀ n, s.eng.st = .idle → s.cnt = some n → exec .rdCnt s = .next (s.ret (.word n)))
      ∧ (s.eng.st ≠ .idle ∨ s.cnt = none →
        ∃ x : BitVec s.opts.cntW, exec .rdCnt s = .next (s.tick.ret (.word (x.setWidth 32))))
      ∧ (∀ a, s.sa = some a → exec .rdSa s = .next (s.ret (.word (a.setWidth 32))))
      ∧ (s.sa = none → ∃ x : BitVec 10, exec .rdSa s = .next (s.tick.ret (.word (x.setWidth 32))))

/-- The timing registers (40 R147 to R153): written only while the module is disabled, read back, a draw before the first
write. -/
def Obligations.TimingRegisters : Prop :=
  ∀ (s : State) (v : Word), s.i2cOpen = true →
    (s.con.en = false →
      exec (.wrPsc v) s = .next (State.ret { s with psc := some (v.extractLsb' 0 8) } .unit)
        ∧ exec (.wrScll v) s = .next (State.ret { s with scll := some (v.extractLsb' 0 8) } .unit)
        ∧ exec (.wrSclh v) s = .next (State.ret { s with sclh := some (v.extractLsb' 0 8) } .unit))
      ∧ (s.con.en = true →
        exec (.wrPsc v) s = .refused .timingWriteWhileEnabled
          ∧ exec (.wrScll v) s = .refused .timingWriteWhileEnabled
          ∧ exec (.wrSclh v) s = .refused .timingWriteWhileEnabled)
      ∧ (∀ x, s.psc = some x → exec .rdPsc s = .next (s.ret (.word (x.setWidth 32))))
      ∧ (∀ x, s.scll = some x → exec .rdScll s = .next (s.ret (.word (x.setWidth 32))))
      ∧ (∀ x, s.sclh = some x → exec .rdSclh s = .next (s.ret (.word (x.setWidth 32))))
      ∧ (s.psc = none → ∃ x : Byte, exec .rdPsc s = .next (s.tick.ret (.word (x.setWidth 32))))
      ∧ (s.scll = none → ∃ x : Byte, exec .rdScll s = .next (s.tick.ret (.word (x.setWidth 32))))
      ∧ (s.sclh = none → ∃ x : Byte, exec .rdSclh s = .next (s.tick.ret (.word (x.setWidth 32))))

/-- The DATA register. A write (40 R141) is taken by a waiting engine, discarded by an idle one or past the logical end, and
otherwise refused. A read (40 R142) gives the held byte of a receive transaction that is or was just in flight, which
empties the cell and moves a waiting engine on; otherwise some byte, and nothing changes. -/
def Obligations.DataRegister : Prop :=
  ∀ (s : State) (v : Word), s.i2cOpen = true →
    (s.eng.st = .txWait →
      exec (.wrData v) s = .next (State.ret
        { s with
          eng := { s.eng with hold := some (v.extractLsb' 0 8), loaded := s.eng.loaded + 1, st := .txShift } } .unit))
      ∧ (s.eng.st = .idle → exec (.wrData v) s = .next (s.ret .unit))
      ∧ (s.eng.st ≠ .txWait → s.eng.st ≠ .idle → s.eng.dir = .tx → s.eng.cnt ≤ s.eng.loaded →
        exec (.wrData v) s = .next (s.ret .unit))
      ∧ (s.eng.st ≠ .txWait → s.eng.st ≠ .idle → s.eng.dir = .rx ∨ s.eng.loaded < s.eng.cnt →
        exec (.wrData v) s = .refused .dataWriteUnexpected)
      ∧ (∀ b, s.eng.hold = some b → s.eng.dir = .rx → s.eng.st ≠ .idle ∨ s.eng.window = true →
        exec .rdData s = .next (State.ret
          { s with
            eng :=
              { s.eng with
                hold := none
                loaded := s.eng.loaded + 1
                st := if s.eng.st = .rxWait then .rxShift else s.eng.st } } (.word (b.setWidth 32))))
      ∧ (s.eng.hold = none ∨ s.eng.dir = .tx ∨ (s.eng.st = .idle ∧ s.eng.window = false) →
        ∃ x : Byte, exec .rdData s = .next (s.tick.ret (.word (x.setWidth 32))))

/-- Reading and writing CON (40 R143, R144): it reads as EN, MST and TRX at their positions; EN = 0 resets the engine and
keeps MST and TRX; EN = 1 without STT stores EN, MST and TRX; the START form is refused outside the one form, with no count,
or with no 7-bit address, and otherwise starts the engine with the latched address and count (42 R193). -/
def Obligations.ControlRegister : Prop :=
  ∀ (s : State) (v : Word) (b : BitMap), s.i2cOpen = true → s.opts.bits = b →
    (∃ w, exec .rdCon s = .next (s.ret (.word w)) ∧ isConWord b s.con w)
      ∧ (v.getLsbD b.en = false →
        exec (.wrCon v) s = .next (State.ret
          { s with
            con := { en := false, mst := v.getLsbD b.mst, trx := v.getLsbD b.trx }
            eng := { s.eng with st := .idle, hold := none, window := false, lateArdy := false } } .unit))
      ∧ (v.getLsbD b.en = true → v.getLsbD b.stt = false →
        exec (.wrCon v) s = .next (State.ret
          { s with con := { en := true, mst := v.getLsbD b.mst, trx := v.getLsbD b.trx } } .unit))
      ∧ (v.getLsbD b.en = true → v.getLsbD b.stt = true →
        (v.getLsbD b.mst = false ∨ v.getLsbD b.stp = false → exec (.wrCon v) s = .refused .startFormNotInSource)
        ∧ (v.getLsbD b.mst = true → v.getLsbD b.stp = true →
          (s.cnt = none ∨ s.cnt = some 0#32 → exec (.wrCon v) s = .refused .zeroCount)
          ∧ ∀ n, s.cnt = some n → n ≠ 0#32 →
            (s.sa = none → exec (.wrCon v) s = .refused .addressOutOfRange)
            ∧ ∀ a, s.sa = some a →
              (0x7F < a.toNat → exec (.wrCon v) s = .refused .addressOutOfRange)
              ∧ (a.toNat ≤ 0x7F →
                exec (.wrCon v) s = .next (State.ret
                  { s with
                    con := { en := true, mst := true, trx := v.getLsbD b.trx }
                    eng :=
                      { st := .addr, dir := if v.getLsbD b.trx then .tx else .rx, sa := a.setWidth 7, cnt := n.toNat,
                        rem := n.toNat, loaded := 0, hold := none, window := true, lateArdy := false, extra := 0 } }
                  .unit))))

/-- The four control words (30_encoding R103, as value operands of WR_CON, R100): the two START words start a transmit and
a receive transaction and leave EN, MST and, for the transmit one, TRX; the enable word stores EN alone; the disable word
resets the engine. -/
def Obligations.ControlWords : Prop :=
  ∀ (s : State) (v : Word), s.i2cOpen = true →
    (∀ n a, s.cnt = some n → n ≠ 0#32 → s.sa = some a → a.toNat ≤ 0x7F →
      ((Instr.conStartTx v).wf s.opts = true →
        exec (.conStartTx v) s = .next (State.ret
          { s with con := { en := true, mst := true, trx := true }, eng := .started .tx n.toNat (a.setWidth 7) } .unit))
      ∧ ((Instr.conStartRx v).wf s.opts = true →
        exec (.conStartRx v) s = .next (State.ret
          { s with con := { en := true, mst := true, trx := false }, eng := .started .rx n.toNat (a.setWidth 7) } .unit)))
      ∧ ((Instr.conEnable v).wf s.opts = true →
        exec (.conEnable v) s = .next (State.ret { s with con := { en := true, mst := false, trx := false } } .unit))
      ∧ ((Instr.conDisable v).wf s.opts = true →
        exec (.conDisable v) s = .next (State.ret
          { s with
            con := { en := false, mst := v.getLsbD s.opts.bits.mst, trx := v.getLsbD s.opts.bits.trx }
            eng := { s.eng with st := .idle, hold := none, window := false, lateArdy := false } } .unit))

/-- Reading and writing CLKCTRL (40 R154, R155): IDLEST and MODULEMODE, each in the two bits at its position, and 0
elsewhere; a write stores MODULEMODE alone, and 1 and 3 are refused. -/
def Obligations.ClockControlRegister : Prop :=
  ∀ (s : State) (v : Word), s.ctl.clkMapped = true →
    (∃ w : Word, exec .rdClkctrl s = .next (s.ret (.word w))
      ∧ isClkWord s.opts.bits s.idlest s.modulemode w)
      ∧ ∀ x : BitVec 2, x.getLsbD 0 = v.getLsbD s.opts.bits.modulemode.val →
        x.getLsbD 1 = v.getLsbD (s.opts.bits.modulemode.val + 1) →
        (x = 0 ∨ x = 2 → exec (.wrClkctrl v) s = .next (State.ret { s with modulemode := x } .unit))
          ∧ (x = 1 ∨ x = 3 → exec (.wrClkctrl v) s = .refused .reservedModulemode)

/-- The frame of a register access (40 R130 to R155): a read changes nothing but its caller's result, the counter of draws
and, for DATA, the engine; a write changes only the register it names, for IRQSTATUS and CON and DATA also the engine. Of
the caller that makes the access only its result changes, of the others nothing. -/
def Obligations.RegisterAccessFrame : Prop :=
  ∀ (s t : State) (r : Reg) (v : Word),
    (exec (readInstr r) s = .next t →
      (∃ e d c, t = { s with eng := e, draws := d, callers := c })
      ∧ (r ≠ .data → t.eng = s.eng)
      ∧ (∀ k, k ≠ s.actor → t.caller k = s.caller k)
      ∧ (sparseWf Caller.fresh s.callers → ∃ x, t.self = { s.self with result := x })
      ∧ ∀ a, t.mem.read a = s.mem.read a)
    ∧ (exec (writeInstr v r) s = .next t →
      (∃ w e i n o a p l h m c,
        t = { s with
          raw := w, eng := e, ie := i, cnt := n, con := o, sa := a, psc := p, scll := l, sclh := h, modulemode := m,
          callers := c })
      ∧ (r ≠ .irqstatus → t.raw = s.raw)
      ∧ (r ≠ .irqstatus → r ≠ .con → r ≠ .data → t.eng = s.eng)
      ∧ (r ≠ .irqenableSet → r ≠ .irqenableClr → t.ie = s.ie)
      ∧ (r ≠ .cnt → t.cnt = s.cnt) ∧ (r ≠ .con → t.con = s.con) ∧ (r ≠ .sa → t.sa = s.sa)
      ∧ (r ≠ .psc → t.psc = s.psc) ∧ (r ≠ .scll → t.scll = s.scll) ∧ (r ≠ .sclh → t.sclh = s.sclh)
      ∧ (r ≠ .clkctrl → t.modulemode = s.modulemode)
      ∧ (∀ k, k ≠ s.actor → t.caller k = s.caller k)
      ∧ (sparseWf Caller.fresh s.callers → ∃ x, t.self = { s.self with result := x })
      ∧ ∀ a, t.mem.read a = s.mem.read a)

-- The bus engine

/-- When the engine takes no step; that an event offered then leaves the machine as it is is the model's choice (log 2).
With the module disabled or its clock not live no event does anything (42 R191, 41 R180); outside its own conditions
(42 R195 to R202) none does, so in ETxWait and ERxWait only an arbitration loss, the extra ready event and a late ARDY
do (42 R197). The reference engine (42 R207): under its premises at most one event does anything, the enabled one, which
moves the engine; its enabled steps come to an end, and a step of the machine with them after it leaves a state where the
next access is eager. -/
def Obligations.EngineFrozen : Prop :=
  ∀ s : State,
    (s.con.en = false ∨ s.idlest ≠ 0 →
      exec .engAddrAck s = .next s ∧ exec .engAddrNack s = .next s ∧ exec .engTxByteAck s = .next s
        ∧ exec .engTxByteNack s = .next s ∧ exec .engRxByte s = .next s ∧ exec .engStopDone s = .next s
        ∧ exec .engArbLost s = .next s ∧ exec .engExtraReady s = .next s ∧ exec .engLateArdy s = .next s)
    ∧ (s.eng.st ≠ .addr ∨ s.addrAck = false → exec .engAddrAck s = .next s)
    ∧ (s.eng.st ≠ .addr ∨ s.addrAck = true → exec .engAddrNack s = .next s)
    ∧ (s.eng.st ≠ .txShift ∨ s.eng.hold = none ∨ (∃ b, s.eng.hold = some b ∧ s.dataAck b = false) →
      exec .engTxByteAck s = .next s)
    ∧ (s.eng.st ≠ .txShift ∨ s.eng.hold = none ∨ (∃ b, s.eng.hold = some b ∧ s.dataAck b = true) →
      exec .engTxByteNack s = .next s)
    ∧ (s.eng.st ≠ .rxShift ∨ s.eng.hold ≠ none → exec .engRxByte s = .next s)
    ∧ (s.eng.st ≠ .stop → exec .engStopDone s = .next s)
    ∧ (s.eng.st = .idle ∨ s.arbLost = false → exec .engArbLost s = .next s)
    ∧ (s.refEngine →
      ∀ i ∈ [Instr.engAddrAck, .engAddrNack, .engTxByteAck, .engTxByteNack, .engRxByte, .engStopDone, .engArbLost,
          .engExtraReady, .engLateArdy],
        (s.engNext ≠ some i → exec i s = .next s)
          ∧ (s.engNext = some i → ∃ t, exec i s = .next t ∧ t.eng.st ≠ s.eng.st))
    ∧ (∃ t, settle s = .next t ∧ t.engNext = none)
    ∧ (∀ t, refStep s = .next t → t.eager)

/-- The START and the address phase acknowledged. ENG_START (42 R193) latches direction, address and count, empties the
cell, opens the window and has no other effect; it is performed inside a START write (ControlRegister) and by no step of
its own (StepRunsDecoded). Where CNT or SA has no value there is nothing to latch, and it is refused as the START write is
(the model's choice, log 5). ENG_ADDR_ACK (42 R195), in each direction. -/
def Obligations.EngineStartAndAddress : Prop :=
  ∀ s : State,
    (∀ (d : Dir),
      (∀ (n : Word) (a : BitVec 10), s.cnt = some n → s.sa = some a →
        exec (.engStart d) s = .next
          { s with
            eng :=
              { st := .addr, dir := d, sa := a.extractLsb' 0 7, cnt := n.toNat, rem := n.toNat, loaded := 0, hold := none,
                window := true, lateArdy := false, extra := 0 } })
      ∧ (s.cnt = none → exec (.engStart d) s = .refused .zeroCount)
      ∧ (s.cnt ≠ none → s.sa = none → exec (.engStart d) s = .refused .addressOutOfRange))
      ∧ (s.engLive = true → s.eng.st = .addr → s.addrAck = true → s.eng.dir = .tx →
        exec .engAddrAck s = .next
          { s with
            wire := s.wire ++ [.start, .addr s.eng.sa false, .ack]
            eng := { s.eng with st := .txWait }
            raw := s.raw ||| 0x10
            env := s.env.addressed .tx
            draws := s.draws + 1 })
      ∧ (s.engLive = true → s.eng.st = .addr → s.addrAck = true → s.eng.dir = .rx →
        exec .engAddrAck s = .next
          { s with
            wire := s.wire ++ [.start, .addr s.eng.sa true, .ack]
            eng := { s.eng with st := .rxShift }
            env := s.env.addressed .rx
            draws := s.draws + 1 })

/-- The terminations by NACK and by arbitration loss (42 R196, R199, R202): the wire ends, the latch is raised, the engine
is idle with nothing held, and a late ARDY is pending as the option says. -/
def Obligations.EngineErrorEnds : Prop :=
  ∀ s : State, s.engLive = true →
    ∃ late : Bool, (∀ b, s.opts.engArdyAfterErr = some b → late = b)
      ∧ (s.eng.st = .addr → s.addrAck = false →
        exec .engAddrNack s = .next
          { s with
            wire := s.wire ++ [.start, .addr s.eng.sa (s.eng.dir == .rx), .nack, .stop]
            eng := { s.eng with st := .idle, hold := none, lateArdy := late }
            raw := s.raw ||| 0x02
            env := s.env.passed
            draws := s.draws + 1 })
      ∧ (∀ b, s.eng.st = .txShift → s.eng.hold = some b → s.dataAck b = false →
        exec .engTxByteNack s = .next
          { s with
            wire := s.wire ++ [.byte b, .nack, .stop]
            eng := { s.eng with st := .idle, hold := none, lateArdy := late }
            raw := s.raw ||| 0x02
            env := s.env.passed
            draws := s.draws + 1 })
      ∧ (s.eng.st ≠ .idle → s.arbLost = true →
        exec .engArbLost s = .next
          { s with
            wire := s.wire ++ [.lost]
            eng := { s.eng with st := .idle, hold := none, lateArdy := late }
            raw := s.raw ||| 0x01
            env := s.env.passed
            draws := s.draws + 1 })

/-- The bytes. Transmitted and acknowledged (42 R198): another byte is wanted and XRDY raised, or it was the last. Received
(42 R200): held, RRDY raised, acknowledged but for the last; the byte is the environment's answer, the slave's at its
pointer or the one an oracle lists (log 8). -/
def Obligations.EngineBytes : Prop :=
  ∀ s : State, s.engLive = true →
    (∀ b, s.eng.st = .txShift → s.eng.hold = some b → s.dataAck b = true →
      (1 < s.eng.rem →
        exec .engTxByteAck s = .next
          { s with
            wire := s.wire ++ [.byte b, .ack]
            eng := { s.eng with hold := none, rem := s.eng.rem - 1, st := .txWait }
            raw := s.raw ||| 0x10
            env := s.env.take b
            draws := s.draws + 1 })
      ∧ (s.eng.rem = 1 →
        exec .engTxByteAck s = .next
          { s with
            wire := s.wire ++ [.byte b, .ack]
            eng := { s.eng with hold := none, rem := 0, st := .stop }
            env := s.env.take b
            draws := s.draws + 1 }))
    ∧ (s.eng.st = .rxShift → s.eng.hold = none →
      ∃ b : Byte, (∀ r, s.env = .refSlave r → b = r.mem.read r.ptr.toNat)
        ∧ (∀ a l, s.env = .oracle (a :: l) → b = a.byte)
        ∧ (1 < s.eng.rem →
          exec .engRxByte s = .next
            { s with
              wire := s.wire ++ [.byte b, .ack]
              eng := { s.eng with hold := some b, rem := s.eng.rem - 1, st := .rxWait }
              raw := s.raw ||| 0x08
              env := s.env.given
              draws := s.draws + 1 })
        ∧ (s.eng.rem = 1 →
          exec .engRxByte s = .next
            { s with
              wire := s.wire ++ [.byte b, .nack]
              eng := { s.eng with hold := some b, rem := 0, st := .stop }
              raw := s.raw ||| 0x08
              env := s.env.given
              draws := s.draws + 1 }))

/-- The STOP and the two events outside the byte sequence (42 R201, R203, R204): an extra ready event needs the window open,
the count handed over and, with a bound K, fewer than K of them since START; that one that is not enabled leaves the
machine as it is is the model's choice (log 2). -/
def Obligations.EngineReadyAndStop : Prop :=
  ∀ s : State, s.engLive = true →
    (s.eng.st = .stop →
      exec .engStopDone s = .next
        { s with wire := s.wire ++ [.stop], eng := { s.eng with st := .idle }, raw := s.raw ||| 0x04 })
      ∧ (s.eng.window = true → s.eng.cnt ≤ s.eng.loaded →
        s.opts.engExtraReady = none ∨ (∃ k, s.opts.engExtraReady = some k ∧ s.eng.extra < k) →
          exec .engExtraReady s = .next
            { s with
              eng := { s.eng with extra := s.eng.extra + 1 }
              raw := s.raw ||| (if s.eng.dir = .tx then 0x10 else 0x08) })
      ∧ (s.eng.window = false ∨ s.eng.loaded < s.eng.cnt ∨ (∃ k, s.opts.engExtraReady = some k ∧ k ≤ s.eng.extra) →
        exec .engExtraReady s = .next s)
      ∧ (s.eng.lateArdy = true →
        exec .engLateArdy s = .next { s with eng := { s.eng with lateArdy := false }, raw := s.raw ||| 0x04 })
      ∧ (s.eng.lateArdy = false → exec .engLateArdy s = .next s)

/-- The transitions of the engine (42 R208), for the whole machine: whatever a step does, the engine's state stays or
moves along a row of the table, with the status that row raises latched. -/
def Obligations.EngineTransitions : Prop :=
  ∀ s t : State, step s = .next t →
    t.eng.st = s.eng.st ∨ ∃ raised : Status, EngMove s.eng.st raised t.eng.st ∧ raised &&& ~~~t.raw = 0

-- The clock

/-- A gated clock freezes the machine's L0 side (41 R180): no step changes the engine, the wire, the status latches or any
other register of the I2C block; `irq` keeps its level. -/
def Obligations.GatedClockFreezes : Prop :=
  ∀ s t : State, s.idlest ≠ 0 → step s = .next t →
    t.eng = s.eng ∧ t.wire = s.wire ∧ t.raw = s.raw ∧ t.ie = s.ie ∧ t.irq = s.irq ∧ t.con = s.con ∧ t.cnt = s.cnt
      ∧ t.sa = s.sa ∧ t.psc = s.psc ∧ t.scll = s.scll ∧ t.sclh = s.sclh

/-- The one fault (60 R328): a step faults only by an access to the I2C block while the block is mapped and its clock is
not live. -/
def Obligations.FaultOnlyWhenGated : Prop :=
  ∀ (s : State) (f : Fault), step s = .fault f →
    s.ctl.i2cMapped = true ∧ s.idlest ≠ 0 ∧ ∃ r : Reg, r.block = .i2c ∧ f = .busFault .i2c (r.offset s.opts)

/-- CLK_ENSURE_ENABLED (41 R171) up to its poll: a functional clock returns Ok at the first read and nothing is written;
otherwise the next turn writes the request and the poll begins. -/
def Obligations.ClockEnsureRequests : Prop :=
  ∀ s : State, s.ctl.clkMapped = true → sparseWf Caller.fresh s.callers → s.self.task = [] →
    (s.modulemode = 2 → s.idlest = 0 →
      exec .clkEnsureEnabled s = .next ((s.begin clkEnsureLines).goOn .ok []))
      ∧ (s.modulemode ≠ 2 ∨ s.idlest ≠ 0 →
        ∃ t, exec .clkEnsureEnabled s = .next t ∧ t = (s.begin clkEnsureLines).setTask [.clkRequest s.clkctrl]
          ∧ advance t = .next (State.setTask { t with modulemode := 2 } [.clkPoll s.opts.nClkPoll]))

/-- The poll of CLK_ENSURE_ENABLED (41 R171, R175) with no other agent moving: with the clock live the first read returns
Ok; with the clock not live it makes exactly `left` reads, and returns Timeout after the last. -/
def Obligations.ClockPollBounded : Prop :=
  ∀ (s : State) (left : Nat) (rest : List Act), s.ctl.clkMapped = true → sparseWf Caller.fresh s.callers →
    s.self.task = .clkPoll left :: rest →
    (s.idlest = 0 → 0 < left → advance s = .next (s.goOn .ok rest))
      ∧ (s.idlest ≠ 0 →
        (∀ k, k ≤ left → ∃ t, turns k s = .next t ∧ t.self.task = .clkPoll (left - k) :: rest ∧ t.modulemode = s.modulemode
          ∧ t.idlest = s.idlest)
        ∧ ∃ t, turns (left + 1) s = .next t ∧ t.self.result = .err .timeout ∧ t.self.task = unwind rest)

/-- CLK_IS_ENABLED (41 R172): the conjunction of MODULEMODE = 2 and IDLEST = 0, with no write under any value. CLK_DISABLE
(41 R173): one read, then one write that clears MODULEMODE; it does not wait, and IDLEST stays. -/
def Obligations.ClockQueryAndDisable : Prop :=
  ∀ s : State, s.ctl.clkMapped = true →
    exec .clkIsEnabled s = .next (s.ret (.bool (decide (s.modulemode = 2 ∧ s.idlest = 0))))
      ∧ (sparseWf Caller.fresh s.callers → s.self.task = [] →
        ∃ t u, exec .clkDisable s = .next t ∧ advance t = .next u
          ∧ u.self.task = [] ∧ u.self.result = .unit
          ∧ (∃ c, t = { s with callers := c }) ∧ ∃ c, u = { s with callers := c, modulemode := 0 })

/-- The power manager's steps (41 R177 to R179): each keeps everything but the two fields of CLKCTRL (and the counter of
draws), a step that is not enabled included (the model's choice, log 2). PM_GATE leaves IDLEST 1, 2 or 3 and MODULEMODE
kept or 0; PM_UNGATE is enabled only with a request and a clock not functional, and leaves 1 or 0, from 1 always 0;
PM_IDLE is enabled only without a request, and leaves 3, or 2 on the way, from 2 always 3 (the two separate steps are the
model's choice, log 24). -/
def Obligations.PowerManager : Prop :=
  ∀ s : State,
    (∃ m i, (m = s.modulemode ∨ m = 0) ∧ i ≠ 0
      ∧ exec .pmGate s = .next { s with modulemode := m, idlest := i, draws := s.draws + 2 })
      ∧ (s.modulemode = 2 → s.idlest ≠ 0 →
        ∃ i d, (i = 0 ∨ i = 1) ∧ (s.idlest = 1 → i = 0)
          ∧ exec .pmUngate s = .next { s with idlest := i, draws := d })
      ∧ (s.modulemode ≠ 2 ∨ s.idlest = 0 → exec .pmUngate s = .next s)
      ∧ (s.modulemode = 0 → s.idlest ≠ 3 →
        ∃ i d, (i = 2 ∨ i = 3) ∧ (s.idlest = 2 → i = 3) ∧ exec .pmIdle s = .next { s with idlest := i, draws := d })
      ∧ (s.modulemode ≠ 0 ∨ s.idlest = 3 → exec .pmIdle s = .next s)

-- The interrupt service

/-- The interrupt service runs when it is registered, `irq` is asserted and no invocation is in progress, and never
otherwise (43 R233); the invocation is the one the rules write (R235, R240): with ISR_ATOMIC one step does exactly the
pseudocode, without it the lines left, run with no other agent moving, end the same. That a service which is not enabled
is consumed and changes nothing is the model's choice (log 2). -/
def Obligations.IsrPseudocode : Prop :=
  ∀ s : State,
    (s.ctl.irqRegistered = false ∨ s.raw &&& s.ie = 0 ∨ s.isr ≠ [] → exec .isrService s = .next s)
      ∧ (s.isrEnabled = true → s.opts.isrAtomic = true → exec .isrService s = isrPseudocode s)
      ∧ (s.isrEnabled = true → s.opts.isrAtomic = false →
        andThen (exec .isrService s) (isrRun isrMaxLines) = isrPseudocode s)

/-- Step 1 (43 R236): with NACK or AL in the snapshot the error is recorded, the phase forced to Idle, the completion
signalled, the error bits (or with AllSnapshot every bit of the snapshot) cleared and the window closed; nothing else
happens, in any phase. With both bits ERR_TIE decides, or either error where it is a draw. -/
def Obligations.IsrErrorStep : Prop :=
  ∀ (s : State) (d : Txn), s.isrEnabled = true → s.opts.isrAtomic = true → s.i2cOpen = true → s.txn = some d →
    s.raw &&& s.ie &&& 0x03 ≠ 0 →
      ∃ (e : XferError) (draws : Nat),
        (s.raw &&& s.ie &&& 0x03 = 0x02 → e = .noAcknowledge) ∧ (s.raw &&& s.ie &&& 0x03 = 0x01 → e = .arbitrationLost)
          ∧ (s.raw &&& s.ie &&& 0x03 = 0x03 → ∀ x, s.opts.errTie = some x → e = x)
          ∧ exec .isrService s = .next
            { s with
              txn := some { d with error := some e, phase := .idle, completion := true }
              raw := s.raw &&& ~~~(match s.opts.isrErrAck with
                | .errorBits => s.raw &&& s.ie &&& 0x03
                | .allSnapshot => s.raw &&& s.ie)
              eng := { s.eng with window := false }
              draws := draws }

/-- Step 2 (43 R237), in a snapshot without errors and without ARDY: the next buffer byte, in the caller's memory or in a
local buffer of the operation its owner is in, goes to a waiting engine, the index advances and XRDY is cleared; from a
local buffer of an operation that has returned some byte goes out (the model's choice, log 14). Past the logical end the
dummy zero byte goes out, and an engine that is not waiting for it discards it. -/
def Obligations.IsrTransmitStep : Prop :=
  ∀ (s : State) (d : Txn), s.isrEnabled = true → s.opts.isrAtomic = true → s.i2cOpen = true → s.txn = some d →
    s.raw &&& s.ie &&& 0x17 = 0x10 → d.phase = .writing →
      (∀ b : Byte, d.index < d.length → s.eng.st = .txWait →
        (∃ base, d.buffer = some (.mem base) ∧ s.mem.read (base.toNat + d.index) = b)
          ∨ (∃ c, d.buffer = some (.tmp c (s.caller c).serial) ∧ (s.caller c).tmp[d.index]? = some b)
          ∨ (∃ c, d.buffer = some (.staging c (s.caller c).serial) ∧ (s.caller c).staging[d.index]? = some b) →
        exec .isrService s = .next
          { s with
            txn := some { d with index := d.index + 1 }
            raw := s.raw &&& ~~~0x10
            eng := { s.eng with hold := some b, loaded := s.eng.loaded + 1, st := .txShift } })
      ∧ (d.index < d.length → s.eng.st = .txWait →
        (∃ c n, (d.buffer = some (.tmp c n) ∨ d.buffer = some (.staging c n)) ∧ (s.caller c).serial ≠ n) →
        ∃ b : Byte, exec .isrService s = .next
          { s with
            txn := some { d with index := d.index + 1 }
            raw := s.raw &&& ~~~0x10
            eng := { s.eng with hold := some b, loaded := s.eng.loaded + 1, st := .txShift }
            draws := s.draws + 1 })
      ∧ (d.length ≤ d.index → s.eng.st = .txWait →
        exec .isrService s = .next
          { s with
            raw := s.raw &&& ~~~0x10
            eng := { s.eng with hold := some 0, loaded := s.eng.loaded + 1, st := .txShift } })
      ∧ (d.length ≤ d.index → s.eng.st = .idle ∨ (s.eng.st ≠ .txWait ∧ s.eng.dir = .tx ∧ s.eng.cnt ≤ s.eng.loaded) →
        exec .isrService s = .next { s with raw := s.raw &&& ~~~0x10 })

/-- Step 3 (43 R238), in a snapshot without errors and without ARDY: the held byte goes to the buffer, in the caller's
memory or a local one of the operation its owner is in, the index advances and RRDY is cleared; into a local buffer of an
operation that has returned the byte is lost (the model's choice, log 14). Past the logical end the byte is read and
discarded. -/
def Obligations.IsrReceiveStep : Prop :=
  ∀ (s : State) (d : Txn) (b : Byte), s.isrEnabled = true → s.opts.isrAtomic = true → s.i2cOpen = true →
    s.txn = some d → s.raw &&& s.ie &&& 0x0F = 0x08 → d.phase = .reading →
    s.eng.dir = .rx → s.eng.hold = some b → s.eng.st ≠ .idle ∨ s.eng.window = true →
      (∀ t : State, d.index < d.length →
        (∃ base, d.buffer = some (.mem base) ∧ t = { s with mem := s.mem.write (base.toNat + d.index) b })
          ∨ (∃ c, d.buffer = some (.tmp c (s.caller c).serial)
            ∧ t = s.putCaller c { s.caller c with tmp := (s.caller c).tmp.set d.index b })
          ∨ (∃ c, d.buffer = some (.staging c (s.caller c).serial)
            ∧ t = s.putCaller c { s.caller c with staging := (s.caller c).staging.set d.index b })
          ∨ (∃ c n, (d.buffer = some (.tmp c n) ∨ d.buffer = some (.staging c n)) ∧ (s.caller c).serial ≠ n ∧ t = s) →
        exec .isrService s = .next
          { t with
            txn := some { d with index := d.index + 1 }
            raw := s.raw &&& ~~~0x08
            eng :=
              { s.eng with
                hold := none, loaded := s.eng.loaded + 1
                st := if s.eng.st = .rxWait then .rxShift else s.eng.st } })
      ∧ (d.length ≤ d.index →
        exec .isrService s = .next
          { s with
            raw := s.raw &&& ~~~0x08
            eng :=
              { s.eng with
                hold := none, loaded := s.eng.loaded + 1
                st := if s.eng.st = .rxWait then .rxShift else s.eng.st } })

/-- Step 4 (43 R239), alone in the snapshot: ARDY is acknowledged, which closes the window, the phase forced to Idle and the
completion signalled, in any phase and at any index; the error is not touched. With nothing to service (R251, the rows
`none` of R242), only ready bits that the phase guard rejects in the snapshot, nothing changes: they stay latched. -/
def Obligations.IsrArdyStepOrNone : Prop :=
  ∀ (s : State) (d : Txn), s.isrEnabled = true → s.opts.isrAtomic = true → s.i2cOpen = true → s.txn = some d →
    s.raw &&& s.ie &&& 0x03 = 0 →
    (s.raw &&& s.ie &&& 0x10 = 0 ∨ d.phase ≠ .writing) → (s.raw &&& s.ie &&& 0x08 = 0 ∨ d.phase ≠ .reading) →
      (s.raw &&& s.ie &&& 0x04 ≠ 0 →
        exec .isrService s = .next
          { s with
            txn := some { d with phase := .idle, completion := true }
            raw := s.raw &&& ~~~0x04
            eng := { s.eng with window := false } })
      ∧ (s.raw &&& s.ie &&& 0x04 = 0 → exec .isrService s = .next s)

/-- The decision table (43 R242) for an atomic invocation with a descriptor, whatever it does to the engine: it completes
and goes Idle exactly when an error or ARDY is in the snapshot, records an error exactly with an error, and moves the
index exactly when, without an error, the ready bit of the phase is set and bytes remain. It never touches the lock, the
callers' tasks and results, the controller, the enables, the clock, the wire or any other register (10 R26). -/
def Obligations.IsrDecisionTable : Prop :=
  ∀ (s t : State) (d : Txn), s.isrEnabled = true → s.opts.isrAtomic = true → s.txn = some d →
    exec .isrService s = .next t →
      ∃ d' : Txn, t.txn = some d' ∧ d'.buffer = d.buffer ∧ d'.length = d.length
        ∧ (s.raw &&& s.ie &&& 0x07 ≠ 0 → d'.phase = .idle ∧ d'.completion = true)
        ∧ (s.raw &&& s.ie &&& 0x07 = 0 → d'.phase = d.phase ∧ d'.completion = d.completion)
        ∧ d'.awaited = d.awaited
        ∧ (s.raw &&& s.ie &&& 0x03 = 0 → d'.error = d.error) ∧ (s.raw &&& s.ie &&& 0x03 ≠ 0 → d'.error ≠ none)
        ∧ d'.index = (if s.raw &&& s.ie &&& 0x03 = 0 ∧ d.index < d.length
            ∧ ((s.raw &&& s.ie &&& 0x10 ≠ 0 ∧ d.phase = .writing) ∨ (s.raw &&& s.ie &&& 0x08 ≠ 0 ∧ d.phase = .reading))
          then d.index + 1 else d.index)
        ∧ t.lock = s.lock ∧ t.ctl = s.ctl ∧ t.ie = s.ie ∧ t.con = s.con ∧ t.cnt = s.cnt ∧ t.sa = s.sa
        ∧ t.psc = s.psc ∧ t.scll = s.scll ∧ t.sclh = s.sclh ∧ t.modulemode = s.modulemode ∧ t.idlest = s.idlest
        ∧ t.wire = s.wire ∧ t.env = s.env ∧ t.actor = s.actor
        ∧ (sparseWf Caller.fresh s.callers →
          ∀ k, (t.caller k).task = (s.caller k).task ∧ (t.caller k).result = (s.caller k).result)

/-- The index rule (43 R247 I1, I3) for the whole machine, with atomic interrupt services: a step leaves the index, resets
it where it performs the first line of an arming (43 R231, R232) or the last line of INIT (45 R300) and nowhere else, or
advances it by one, and then the phase before the step was not Idle and bytes remained. -/
def Obligations.IndexRule : Prop :=
  ∀ (s t : State) (d d' : Txn), s.opts.isrAtomic = true → s.isr = [] → step s = .next t → s.txn = some d →
    t.txn = some d' →
      d'.index = d.index ∨ (s.resetsIndex = true ∧ d'.index = 0)
        ∨ (d'.index = d.index + 1 ∧ d.index < d.length ∧ d.phase ≠ .idle ∧ d'.length = d.length)

-- Arming, the wait and the lock

/-- START_WRITE and START_READ (43 R231, R232) run whole, for every length up to `MAX_LEN`: after the operation and six
turns of its caller, with no other agent moving, the descriptor is reset and in its new phase, all five status bits are
clear, SA, CNT and CON hold the words of the rule, and the engine has started with the latched address and count; nothing
else has changed. That the outcome of an earlier arming has been observed is a premise (20 R87; held as `awaited`, log 37). -/
def Obligations.ArmingRuns : Prop :=
  ∀ (s : State) (dir : Dir) (a : Byte) (buf n : Word) (d : Txn), sparseWf Caller.fresh s.callers →
    s.lock = some s.actor → s.self.task = [] → s.txn = some d → d.phase = .idle → d.awaited = false →
    s.i2cOpen = true → a.toNat ≤ 0x7F → 1 ≤ n.toNat → n.toNat ≤ s.opts.maxLen →
      ∃ t u c,
        exec (match dir with | .tx => .startWrite a buf n | .rx => .startRead a buf n) s = .next t
          ∧ turns 6 t = .next u
          ∧ u = { s with
              callers := c
              txn := some
                { phase := (match dir with | .tx => .writing | .rx => .reading), error := none,
                  buffer := some (.mem buf), length := n.toNat, index := 0, completion := false, awaited := true }
              raw := 0
              sa := some (a.setWidth 10)
              cnt := some n
              con := { en := true, mst := true, trx := dir == .tx }
              eng :=
                { st := .addr, dir := dir, sa := a.setWidth 7, cnt := n.toNat, rem := n.toNat, loaded := 0, hold := none,
                  window := true, lateArdy := false, extra := 0 } }
          ∧ u.self.task = [] ∧ ∀ k, k ≠ s.actor → u.caller k = s.caller k

/-- Who may not (20 R86, R87, 43 R231, R243, R246, R248, 44 R271): without the lock, arming, the locked transfer, the release
and the wait are refused; with it, arming while a transaction is armed is refused, and so is every arming, that of a locked
transfer and of a composite among them, while the outcome of the one before has not been observed. The refusal of the wait
and the order of the operand check are the model's choice (log 19, log 20). -/
def Obligations.NonHolderRefused : Prop :=
  ∀ (s : State) (dir : Dir) (a : Byte) (buf n : Word), sparseWf Caller.fresh s.callers → s.self.task = [] →
    a.toNat ≤ 0x7F → 1 ≤ n.toNat → n.toNat ≤ s.opts.maxLen →
      (s.lock ≠ some s.actor →
        exec (.startWrite a buf n) s = .refused .notLockHolder ∧ exec (.startRead a buf n) s = .refused .notLockHolder
          ∧ exec (.xferLocked dir a buf n) s = .refused .notLockHolder
          ∧ exec .lockRelease s = .refused .notLockHolder
          ∧ ((∃ d, s.txn = some d ∧ d.awaited = true) → exec .waitComplete s = .refused .descriptorTouchedWhileArmed)
          ∧ ((∀ d, s.txn = some d → d.awaited = false) → exec .waitComplete s = .refused .notLockHolder))
      ∧ (∀ d, s.lock = some s.actor → s.txn = some d → d.phase ≠ .idle →
        exec (.startWrite a buf n) s = .refused .armWhileActive ∧ exec (.startRead a buf n) s = .refused .armWhileActive)
      ∧ (∀ d, s.lock = some s.actor → s.txn = some d → d.phase = .idle → d.awaited = true →
        exec (.startWrite a buf n) s = .refused .descriptorTouchedWhileArmed
          ∧ exec (.startRead a buf n) s = .refused .descriptorTouchedWhileArmed
          ∧ ∀ b m rest, performLine (.armFields b m) rest s = .refused .descriptorTouchedWhileArmed)

/-- WAIT_COMPLETE (43 R243): with the completion signalled it returns at once, Ok where no error is recorded and else that
error, the descriptor untouched but for the model's note that the outcome is observed (log 37); without it the caller is
blocked, and each of its turns leaves it blocked until the completion is signalled. -/
def Obligations.WaitReturnsOrBlocks : Prop :=
  ∀ (s : State) (d : Txn), sparseWf Caller.fresh s.callers → s.lock = some s.actor → s.txn = some d →
    (s.self.task = [] →
      (∃ t c, exec .waitComplete s = .next t ∧ (∀ k, k ≠ s.actor → t.caller k = s.caller k)
        ∧ (d.completion = true → t = { s with callers := c, txn := some { d with awaited := false } } ∧ t.self.task = []
          ∧ (d.error = none → t.self.result = .ok)
          ∧ (d.error = some .noAcknowledge → t.self.result = .err .noAcknowledge)
          ∧ (d.error = some .arbitrationLost → t.self.result = .err .arbitrationLost))
        ∧ (d.completion = false → t = { s with callers := c } ∧ t.self.task = [.wait])))
      ∧ (∀ rest, s.self.task = .wait :: rest →
        (d.completion = false → ∃ t c, advance s = .next t ∧ t = { s with callers := c } ∧ t.self = s.self)
        ∧ (d.completion = true → d.error = none →
          ∃ t c, advance s = .next t ∧ t = { s with callers := c, txn := some { d with awaited := false } }
            ∧ t.self.task = rest ∧ t.self.result = .ok)
        ∧ (d.completion = true → d.error ≠ none →
          ∃ t c, advance s = .next t ∧ t = { s with callers := c, txn := some { d with awaited := false } }
            ∧ t.self.task = unwind rest ∧ t.self.result.isErr = true))

/-- XFER_TIMEOUT_FIRES (43 R243): enabled only while a caller, the lock holder, is blocked in the wait with the completion
not signalled (completion wins a tie), it sends that caller into the timeout recovery and changes nothing else. That the
event, which names no caller, is the lock holder's is the model's reading (log 23, DEDUCED), and that one that is not
enabled changes nothing is the model's choice (log 2). -/
def Obligations.TimeoutFires : Prop :=
  ∀ s : State,
    (∀ h d rest, s.lock = some h → s.txn = some d → (s.caller h).task = .wait :: rest →
      (d.completion = false →
        exec .xferTimeoutFires s = .next (s.putCaller h { s.caller h with task := recoverLines s.opts ++ rest }))
      ∧ (d.completion = true → exec .xferTimeoutFires s = .next s))
    ∧ (s.lock = none ∨ s.txn = none ∨ (∃ h, s.lock = some h ∧ (s.caller h).task.head? ≠ some .wait) →
      exec .xferTimeoutFires s = .next s)

/-- The timeout recovery (43 R244) with no other agent moving. Functional clock: the diagnostics change nothing but the
counter of draws, then the phase is Idle, all five status bits are clear and the window closed, and the caller has
Timeout; the engine's transaction, the error, the index and the completion are left, and the outcome counts as observed
(20 R87; log 37). Clock live but not requested: the same without diagnostics. Clock not live: the clear-all write is a
BusFault. -/
def Obligations.TimeoutRecovery : Prop :=
  ∀ (s : State) (d : Txn) (rest : List Act), sparseWf Caller.fresh s.callers → s.ctl.clkMapped = true →
    s.ctl.i2cMapped = true → s.txn = some d → s.self.task = recoverLines s.opts ++ rest →
      (s.idlest = 0 →
        ∃ u c draws, turns (if s.modulemode = 2 then 10 else 4) s = .next u
          ∧ u = { s with
              callers := c, draws := draws, raw := 0, eng := { s.eng with window := false }
              txn := some { d with phase := .idle, awaited := false } }
          ∧ u.self.result = .err .timeout ∧ u.self.task = unwind rest ∧ ∀ k, k ≠ s.actor → u.caller k = s.caller k)
      ∧ (s.idlest ≠ 0 → turns 3 s = .fault (.busFault .i2c (Reg.irqstatus.offset s.opts)))

/-- The lock (43 R245, R246): free, the caller takes it; held, by this caller too, the caller blocks and the lock stays;
the holder's release frees it, and a release by any other caller is refused. -/
def Obligations.LockOperations : Prop :=
  ∀ s : State, sparseWf Caller.fresh s.callers → s.self.task = [] →
    (s.lock = none →
      ∃ t c, exec .lockAcquire s = .next t ∧ t = { s with callers := c, lock := some s.actor } ∧ t.self.task = [])
      ∧ (∀ h, s.lock = some h →
        ∃ t c, exec .lockAcquire s = .next t ∧ t = { s with callers := c } ∧ t.self.task = [.acquire]
          ∧ ∃ u e, advance t = .next u ∧ u = { s with callers := e } ∧ u.self.task = [.acquire])
      ∧ (s.lock = some s.actor →
        ∃ t c, exec .lockRelease s = .next t ∧ t = { s with callers := c, lock := none } ∧ t.self.task = [])
      ∧ (s.lock ≠ some s.actor → exec .lockRelease s = .refused .notLockHolder)

/-- Mutual exclusion (43 R245, 44 R280, D26): where the lock is used through the consumer API alone, every step keeps the
lock discipline, that a caller is between its LOCK_ACQUIRE and its LOCK_RELEASE exactly when it holds the lock, so no two
are at once, on every exit path, errors and timeouts among them. -/
def Obligations.LockDisciplineKept : Prop :=
  ∀ s t : State, sparseWf Caller.fresh s.callers → s.LockInv → step s = .next t → t.LockInv

-- The transfer operations

/-- The checks of the transfer operations (44 R270), each returning its error at once with no register access and nothing
else changed: NotInitialized first, then InvalidArgument where a buffer is taken; after them and before the lock, an
address above 0x7F or a length above `MAX_LEN` is refused; in READ_BLOCK that check stands after the allocation, which may
fail first (the order is the model's choice, log 20). While another caller is inside an INIT or a DEINIT every one of them
is refused (60 R340), whatever the checks would answer (the order is the model's choice, log 21). -/
def Obligations.TransferChecks : Prop :=
  ∀ (s : State) (a g v : Byte) (b : Option Word) (n : Word),
    (s.otherCaller inLifecycle = true →
      exec (.writeBytes a b n) s = .refused .concurrentLifecycle ∧ exec (.readBytes a b n) s = .refused .concurrentLifecycle
        ∧ exec (.writeRegister a g v) s = .refused .concurrentLifecycle
        ∧ exec (.readRegister a g) s = .refused .concurrentLifecycle
        ∧ exec (.readBlock a g b n) s = .refused .concurrentLifecycle)
    ∧ (s.otherCaller inLifecycle = false →
      (s.ctl.ready = false →
        exec (.writeBytes a b n) s = .next (s.ret (.err .notInitialized))
          ∧ exec (.readBytes a b n) s = .next (s.ret (.err .notInitialized))
          ∧ exec (.writeRegister a g v) s = .next (s.ret (.err .notInitialized))
          ∧ exec (.readRegister a g) s = .next (s.ret (.err .notInitialized))
          ∧ exec (.readBlock a g b n) s = .next (s.ret (.err .notInitialized)))
        ∧ (s.ctl.ready = true → b = none ∨ n = 0#32 →
          exec (.writeBytes a b n) s = .next (s.ret (.err .invalidArgument))
            ∧ exec (.readBytes a b n) s = .next (s.ret (.err .invalidArgument))
            ∧ exec (.readBlock a g b n) s = .next (s.ret (.err .invalidArgument)))
        ∧ (s.ctl.ready = true → b ≠ none → n ≠ 0#32 → 0x7F < a.toNat ∨ s.opts.maxLen < n.toNat →
          exec (.writeBytes a b n) s = .refused .operandOutOfRange
            ∧ exec (.readBytes a b n) s = .refused .operandOutOfRange
            ∧ (exec (.readBlock a g b n) s = .next (s.tick.ret (.err .allocationFailure))
              ∨ exec (.readBlock a g b n) s = .refused .operandOutOfRange))
        ∧ (s.ctl.ready = true → 0x7F < a.toNat ∨ s.opts.maxLen < 2 →
          exec (.writeRegister a g v) s = .refused .operandOutOfRange)
        ∧ (s.ctl.ready = true → 0x7F < a.toNat ∨ s.opts.maxLen < 1 →
          exec (.readRegister a g) s = .refused .operandOutOfRange))

/-- The transfer operations accepted (44 R272 to R276): the lock, then one locked transfer, or the index write and the data
read, then the release and the return; the local buffers hold the bytes the rules put there, and nothing else changes
before the lock is taken. READ_BLOCK either returns AllocationFailure, with nothing else changed, or goes on with a
staging buffer of the length, of whatever contents (log 39); which is a draw. The operation's number, by which its local
buffers are told from a later operation's, is the model's own (log 14). -/
def Obligations.TransferBegins : Prop :=
  ∀ (s : State) (a g v : Byte) (b n : Word) (k : Nat), s.ctl.ready = true → a.toNat ≤ 0x7F → 1 ≤ n.toNat →
    n.toNat ≤ s.opts.maxLen → s.otherCaller inLifecycle = false → s.self.task = [] → k = s.self.serial + 1 →
      exec (.writeBytes a (some b) n) s = .next (s.putSelf
          { task := oneTransferLines s.opts .tx a (.mem b) n.toNat, result := .pending, tmp := [], staging := [],
            serial := k })
        ∧ exec (.readBytes a (some b) n) s = .next (s.putSelf
          { task := oneTransferLines s.opts .rx a (.mem b) n.toNat, result := .pending, tmp := [], staging := [],
            serial := k })
        ∧ (2 ≤ s.opts.maxLen → exec (.writeRegister a g v) s = .next (s.putSelf
          { task := oneTransferLines s.opts .tx a (.tmp s.actor k) 2, result := .pending, tmp := [g, v], staging := [],
            serial := k }))
        ∧ exec (.readRegister a g) s = .next (s.putSelf
          { task := indexedReadLines s.opts s.actor k a 1 .byte, result := .pending, tmp := [g], staging := [0],
            serial := k })
        ∧ (exec (.readBlock a g (some b) n) s = .next (s.tick.ret (.err .allocationFailure))
          ∨ ∃ fresh : List Byte, fresh.length = n.toNat
            ∧ exec (.readBlock a g (some b) n) s = .next (State.putSelf { s with draws := s.draws + 1 + n.toNat }
              { task := indexedReadLines s.opts s.actor k a n.toNat (.block b n.toNat), result := .pending, tmp := [g],
                staging := fresh, serial := k }))

/-- A transfer call reaches its wait (44 R271 to R274) with no other agent moving, a functional clock and a free lock: nine
turns take the lock, check the clock, arm and start, and the tenth is blocked on the completion, the lock held. -/
def Obligations.TransferReachesWait : Prop :=
  ∀ (s : State) (dir : Dir) (a : Byte) (buf : BufRef) (n : Nat) (d : Txn) (rest : List Act),
    sparseWf Caller.fresh s.callers → s.lock = none → s.txn = some d → d.phase = .idle → d.awaited = false →
    s.ctl.clkMapped = true → s.ctl.i2cMapped = true → s.modulemode = 2 → s.idlest = 0 → a.toNat ≤ 0x7F → 1 ≤ n →
    n ≤ s.opts.maxLen →
    s.self.task = .acquire :: (xferLines s.opts dir a buf n ++ rest) →
      ∃ u c, turns 9 s = .next u ∧ u.self.task = .wait :: rest ∧ u.self.tmp = s.self.tmp
        ∧ u.self.staging = s.self.staging
        ∧ u = { s with
            callers := c
            lock := some s.actor
            txn := some
              { phase := .ofDir dir, error := none, buffer := some buf, length := n, index := 0, completion := false,
                awaited := true }
            raw := 0
            sa := some (a.setWidth 10)
            cnt := some (BitVec.ofNat 32 n)
            con := { en := true, mst := true, trx := dir == .tx }
            eng :=
              { st := .addr, dir := dir, sa := a.setWidth 7, cnt := n, rem := n, loaded := 0, hold := none,
                window := true, lateArdy := false, extra := 0 } }

/-- XFER_LOCKED (44 R271) by the lock holder: the clock is checked at once; functional, the arming lines follow and then the
wait; otherwise the request is written next, and no register of the I2C block has been touched. -/
def Obligations.XferLockedBegins : Prop :=
  ∀ (s : State) (dir : Dir) (a : Byte) (buf n : Word), sparseWf Caller.fresh s.callers → s.lock = some s.actor →
    s.self.task = [] → s.ctl.clkMapped = true → a.toNat ≤ 0x7F → 1 ≤ n.toNat → n.toNat ≤ s.opts.maxLen →
      ∃ t c, exec (.xferLocked dir a buf n) s = .next t ∧ t = { s with callers := c }
        ∧ (s.modulemode = 2 ∧ s.idlest = 0 →
          t.self.task = armLines s.opts dir a (.mem buf) n.toNat ++ [.wait])
        ∧ (s.modulemode ≠ 2 ∨ s.idlest ≠ 0 →
          t.self.task = .clkRequest s.clkctrl :: (armLines s.opts dir a (.mem buf) n.toNat ++ [.wait]))

/-- Every exit path releases the lock (43 R246, 44 R272 to R276) with no other agent moving: a signalled wait, then the
release and the return, in three turns. An error is returned as it was recorded; success returns Ok, or the byte read, or
copies the block to the caller's buffer. On an error no byte of the caller's memory changes; the local buffers are given
back. -/
def Obligations.TransferReturns : Prop :=
  ∀ (s : State) (d : Txn) (how : Deliver), sparseWf Caller.fresh s.callers → s.lock = some s.actor → s.txn = some d →
    d.completion = true → s.self.task = [.wait, .release, .finish how] →
      ∃ u c m, turns 3 s = .next u
        ∧ u = { s with callers := c, lock := none, mem := m, txn := some { d with awaited := false } } ∧ u.self.task = []
        ∧ u.self.tmp = [] ∧ u.self.staging = []
        ∧ (∀ e, d.error = some e → m = s.mem
          ∧ u.self.result
            = .err (match e with | .noAcknowledge => .noAcknowledge | .arbitrationLost => .arbitrationLost))
        ∧ (d.error = none →
          match how with
          | .plain => m = s.mem ∧ u.self.result = .ok
          | .byte => m = s.mem ∧ ∀ b l, s.self.staging = b :: l → u.self.result = .okByte b
          | .block base length => u.self.result = .ok ∧ (s.mem.wf → s.self.staging.length = length →
            ∀ i (h : i < s.self.staging.length), m.read (base.toNat + i) = s.self.staging[i])
            ∧ ∀ x, x < base.toNat ∨ base.toNat + length ≤ x → m.read x = s.mem.read x)

/-- The composites (44 R275, R276, R278): when the write phase ends with an error the read phase is not attempted, no
register is accessed and the error recorded is the one returned, with the lock released; when it ends well the next turn
checks the clock with the lock still held. -/
def Obligations.CompositePhases : Prop :=
  ∀ (s : State) (d : Txn) (a : Byte) (n k : Nat) (how : Deliver), sparseWf Caller.fresh s.callers →
    s.lock = some s.actor → s.txn = some d → d.completion = true →
    s.self.task = .wait :: (xferLines s.opts .rx a (.staging s.actor k) n ++ [.release, .finish how]) →
      (∀ e, d.error = some e →
        ∃ u c, turns 3 s = .next u
          ∧ u = { s with callers := c, lock := none, txn := some { d with awaited := false } } ∧ u.self.task = []
          ∧ u.self.result
            = .err (match e with | .noAcknowledge => .noAcknowledge | .arbitrationLost => .arbitrationLost))
      ∧ (d.error = none →
        ∃ u c, advance s = .next u ∧ u = { s with callers := c, txn := some { d with awaited := false } }
          ∧ u.self.task
            = .clkEnsure :: (armLines s.opts .rx a (.staging s.actor k) n ++ [.wait, .release, .finish how]))

/-- A good write (43 R247 I6, 42 R209): from the state arming leaves, with the reference slave at the address, each event
of the engine followed by the interrupt service, `length` bytes go out in buffer order, framed by START, address and
STOP, the slave takes them, and the transaction ends complete with no error, index = length, all latches clear. These events
are those of the reference engine (42 R207), which reaches the same state with `length + 1` invocations. -/
def Obligations.GoodWrite : Prop :=
  ∀ (s : State) (r : RefSlave) (d : Txn) (base : Word) (n : Nat),
    s.i2cOpen = true → s.con.en = true → s.opts.isrAtomic = true → s.ctl.irqRegistered = true →
    s.ie = 0x1F → s.raw = 0 → s.isr = [] → s.env = .refSlave r → s.txn = some d → d.phase = .writing →
    d.error = none → d.buffer = some (.mem base) → d.length = n + 1 → d.index = 0 → d.completion = false →
    s.eng = { st := .addr, dir := .tx, sa := r.addr, cnt := n + 1, rem := n + 1, loaded := 0, hold := none,
              window := true, lateArdy := false, extra := 0 } →
      ∃ t, execAll (writeEvents n) s = .next t ∧ andThen (settle s) (refService (n + 2)) = .next t
        ∧ t.txn = some { d with phase := .idle, index := n + 1, completion := true } ∧ t.raw = 0 ∧ t.eng.st = .idle
        ∧ t.mem = s.mem
        ∧ t.wire = s.wire ++ [.start, .addr r.addr false, .ack]
            ++ (s.mem.bytes base.toNat (n + 1)).flatMap (fun b => [.byte b, .ack]) ++ [.stop]
        ∧ t.env = .refSlave (RefSlave.takeAll { r with first := true } (s.mem.bytes base.toNat (n + 1)))

/-- A good read (43 R247 I6, 42 R209): as the good write, with the bytes the reference slave sends ending in the buffer in
order, every byte acknowledged but the last. The last RRDY and the ARDY are seen in two invocations, or, with the reference
engine (42 R207), in one, so that `length` invocations do; the end state is the same (42 R209). -/
def Obligations.GoodRead : Prop :=
  ∀ (s : State) (r : RefSlave) (d : Txn) (base : Word) (n : Nat),
    s.i2cOpen = true → s.con.en = true → s.opts.isrAtomic = true → s.ctl.irqRegistered = true →
    s.ie = 0x1F → s.raw = 0 → s.isr = [] → s.env = .refSlave r → s.txn = some d → d.phase = .reading →
    d.error = none → d.buffer = some (.mem base) → d.length = n + 1 → d.index = 0 → d.completion = false →
    s.eng = { st := .addr, dir := .rx, sa := r.addr, cnt := n + 1, rem := n + 1, loaded := 0, hold := none,
              window := true, lateArdy := false, extra := 0 } →
      ∃ t, execAll (readEvents n) s = .next t ∧ andThen (settle s) (refService (n + 1)) = .next t
        ∧ t.txn = some { d with phase := .idle, index := n + 1, completion := true } ∧ t.raw = 0 ∧ t.eng.st = .idle
        ∧ t.mem = s.mem.writeBytes base.toNat (r.sends (n + 1))
        ∧ t.wire = s.wire ++ [.start, .addr r.addr true, .ack] ++ readFrame (r.sends (n + 1)) ++ [.stop]
        ∧ t.env = .refSlave { r with ptr := r.ptr + BitVec.ofNat 8 (n + 1) }

-- The lifecycle

/-- INIT (45 R300, R301, R303) runs whole with no other agent moving, a functional clock and the module disabled: nine turns
after it the controller is ready with the profile of the speed (400 gives FAST, any other value STD), both blocks mapped,
the service registered on the line, the five latches clear and the five sources enabled, CON holding EN alone, and a fresh
descriptor; it returns Ok, and nothing else has changed. -/
def Obligations.InitRuns : Prop :=
  ∀ (s : State) (khz line : Word), sparseWf Caller.fresh s.callers → s.self.task = [] → s.ctl.ready = false →
    s.otherCaller inLifecycle = false → s.otherCaller inPrologue = false → s.modulemode = 2 → s.idlest = 0 →
    s.con.en = false →
      ∃ t u c, exec (.init khz line) s = .next t ∧ t.ctl.i2cMapped = true ∧ t.ctl.clkMapped = true
        ∧ turns 9 t = .next u
        ∧ u = { s with
            callers := c
            ctl :=
              { ready := true, i2cMapped := true, clkMapped := true, irqRegistered := true, irqLine := some line,
                speed := some (if khz = 400 then .fast400 else .std100) }
            txn := some
              { phase := .idle, error := none, buffer := none, length := 0, index := 0, completion := false,
                awaited := false }
            psc := some (if khz = 400 then s.opts.fast.psc else s.opts.std.psc)
            scll := some (if khz = 400 then s.opts.fast.scll else s.opts.std.scll)
            sclh := some (if khz = 400 then s.opts.fast.sclh else s.opts.std.sclh)
            raw := 0
            ie := 0x1F
            con := { en := true, mst := false, trx := false }
            eng := { s.eng with window := false } }
        ∧ u.self.task = [] ∧ u.self.result = .ok ∧ ∀ k, k ≠ s.actor → u.caller k = s.caller k

/-- INIT without a clock (45 R300, 41 R171) with no other agent moving: when the power manager never ungates, the request is
written, the poll makes all its reads, and INIT returns Timeout with both blocks unmapped again and not ready. -/
def Obligations.InitTimesOut : Prop :=
  ∀ (s : State) (khz line : Word), sparseWf Caller.fresh s.callers → s.self.task = [] → s.ctl.ready = false →
    s.otherCaller inLifecycle = false → s.otherCaller inPrologue = false → s.idlest ≠ 0 →
      ∃ t u c, exec (.init khz line) s = .next t ∧ turns (s.opts.nClkPoll + 4) t = .next u
        ∧ u = { s with
            callers := c, modulemode := 2, ctl := { s.ctl with i2cMapped := false, clkMapped := false } }
        ∧ u.self.task = [] ∧ u.self.result = .err .timeout

/-- INIT again. A second INIT is a no-op returning success (45 R302): nothing but its caller's result changes, whatever the
speed and line. Overlapping calls are refused (45 R300(b), 60 R340; what counts as overlapping, and that the refusal stands before every
check, is the model's choice, log 21): while another caller is inside an INIT or a DEINIT, or in the prologue of a transfer
call, both are, ready or not. -/
def Obligations.InitTwice : Prop :=
  ∀ (s : State) (khz line : Word),
    (s.ctl.ready = true → s.otherCaller inLifecycle = false → s.otherCaller inPrologue = false →
        exec (.init khz line) s = .next (s.ret .ok))
      ∧ (s.otherCaller inLifecycle = true ∨ s.otherCaller inPrologue = true →
        exec (.init khz line) s = .refused .concurrentLifecycle ∧ exec .deinit s = .refused .concurrentLifecycle)

/-- DEINIT (45 R304, R305): not ready, it does nothing; with the lock held or a transaction armed it is refused, and so it is,
at its start and at its end, where it would drop a descriptor whose outcome has not been observed (43 R248; log 37); otherwise
it unregisters the service and, four turns later with no other agent moving and the clock live, the module is disabled and
the engine reset, MODULEMODE is 0, both blocks are unmapped, the controller is not ready and the descriptor is gone; the
latches and enables keep their values. With the clock not live its CON write is a BusFault. -/
def Obligations.DeinitRuns : Prop :=
  ∀ s : State, sparseWf Caller.fresh s.callers → s.self.task = [] → s.otherCaller inLifecycle = false →
    s.otherCaller inPrologue = false →
    (s.ctl.ready = false → exec .deinit s = .next (s.ret .unit))
      ∧ (∀ d, s.ctl.ready = true → s.txn = some d → s.lock ≠ none ∨ d.phase ≠ .idle →
        exec .deinit s = .refused .deinitWhileBusy)
      ∧ (∀ d, s.ctl.ready = true → s.txn = some d → s.lock = none → d.phase = .idle → d.awaited = true →
        exec .deinit s = .refused .descriptorTouchedWhileArmed)
      ∧ (∀ d rest, s.txn = some d → d.awaited = true →
        performLine .deinitEnd rest s = .refused .descriptorTouchedWhileArmed)
      ∧ (∀ d, s.ctl.ready = true → s.txn = some d → s.lock = none → d.phase = .idle → d.awaited = false →
        s.ctl.i2cMapped = true → s.ctl.clkMapped = true →
          ∃ t c, exec .deinit s = .next t
            ∧ t = { s with callers := c, ctl := { s.ctl with irqRegistered := false } }
            ∧ (s.idlest = 0 →
              ∃ u e, turns 4 t = .next u
                ∧ u = { s with
                    callers := e
                    ctl := { s.ctl with irqRegistered := false, i2cMapped := false, clkMapped := false, ready := false }
                    txn := none
                    con := { en := false, mst := false, trx := false }
                    modulemode := 0
                    eng := { s.eng with st := .idle, hold := none, window := false, lateArdy := false } }
                ∧ u.self.task = [] ∧ u.self.result = .unit)
            ∧ (s.idlest ≠ 0 → advance t = .fault (.busFault .i2c (Reg.con.offset s.opts))))

-- Reset, the whole machine, timing

/-- The power-on values of 10_state R49 that the table gives: nothing mapped, registered or ready, no descriptor, the lock
free, the latches and enables 0, CON 0, the five unwritten registers without a value, the engine idle with nothing held,
the window closed, no late ARDY, `irq` deasserted, an empty wire. CLKCTRL is the platform's and not stated here. -/
def Obligations.PowerOnValues : Prop :=
  State.reset.ctl.ready = false ∧ State.reset.ctl.i2cMapped = false ∧ State.reset.ctl.clkMapped = false
    ∧ State.reset.ctl.irqRegistered = false ∧ State.reset.txn = none ∧ State.reset.lock = none
    ∧ State.reset.raw = 0 ∧ State.reset.ie = 0 ∧ State.reset.irq = false
    ∧ State.reset.con = { en := false, mst := false, trx := false } ∧ State.reset.cnt = none ∧ State.reset.sa = none
    ∧ State.reset.psc = none ∧ State.reset.scll = none ∧ State.reset.sclh = none ∧ State.reset.eng.st = .idle ∧ State.reset.eng.hold = none
    ∧ State.reset.eng.window = false ∧ State.reset.eng.lateArdy = false ∧ State.reset.wire = []

/-- The invariant and the lock discipline hold at power-on. That MODULEMODE is no reserved code there rests on the model's
choice of CLKCTRL at power-on, which R49 leaves to the platform (log 10, a DESIGN CHOICE). -/
def Obligations.InvariantAtReset : Prop := State.reset.Inv ∧ State.reset.LockInv

/-- The invariant holds after every step from a state where it holds: canonical memories and caller table, a MODULEMODE
that is no reserved code (40 R155), a count of at most `CNT_W` bits (10_state R35), `0 ≤ index ≤ length` (43 R247 I1),
every byte of the count handed over, held or still to come, and a wire history of framed transactions (42 R194). -/
def Obligations.InvariantKept : Prop := ∀ s t : State, s.Inv → step s = .next t → t.Inv

/-- What a step stores to: every byte of the callers' memory outside the interrupt service's byte and the copy at the end of
READ_BLOCK reads as before (20 R72, 43 R238, 44 R276); where the next step is not the interrupt service's and not that
copy, every byte does. -/
def Obligations.MemoryFrame : Prop :=
  ∀ s t : State, step s = .next t →
    (∀ a, a < s.storeRange.1 ∨ s.storeRange.1 + s.storeRange.2 ≤ a → t.mem.read a = s.mem.read a)
      ∧ (s.isrMoves = false → (∀ id rest base n l, s.sched = .turn id :: rest →
          (s.caller id).task ≠ .finish (.block base n) :: l) → t.mem = s.mem)

/-- What no step changes: the options, and which kind of environment it is (00 R14, 42 R192); the wire history only grows
(10 R47); IDLEST belongs to the power manager (41 R176): no step but PM_GATE, PM_UNGATE and PM_IDLE changes it; and where the
premises of the reference engine (42 R207) hold they still do. -/
def Obligations.ParametersFixed : Prop :=
  ∀ s t : State, step s = .next t →
    t.opts = s.opts ∧ ((∃ r, s.env = .refSlave r) ↔ ∃ r, t.env = .refSlave r) ∧ (∃ l, t.wire = s.wire ++ l)
      ∧ (s.refEngine → t.refEngine)
      ∧ (t.idlest ≠ s.idlest →
        ∃ id f bytes i rest after, s.sched = .op id f bytes :: rest ∧ decode s.opts f bytes = .ok (i, after)
          ∧ (i = .pmGate ∨ i = .pmUngate ∨ i = .pmIdle))

/-- Bus timing (42 R210, 45 R301): the bus clock is the functional clock divided by PSC + 1 and by the low and high periods,
SCLL + 7 and SCLH + 5; with the default constants the two profiles give exactly 100 kHz and 400 kHz. -/
def Obligations.BusTiming : Prop :=
  (∀ (fclkHz : Nat) (p : Profile),
    sclFrequency fclkHz p = (fclkHz, (p.psc.toNat + 1) * (p.scll.toNat + p.sclh.toNat + 12)))
    ∧ ∀ o : Options, o = Config.defaultOptions →
      (∀ f, f = sclFrequency o.fclkHz (Speed.timing o .std100) → f.1 = 100000 * f.2)
        ∧ ∀ f, f = sclFrequency o.fclkHz (Speed.timing o .fast400) → f.1 = 400000 * f.2
end

