-- ==== Sys2Proof/Laws/Memory.lean ====
section
/-!
SUPPORT. The sparse tables behind byte memory and the caller table: a write keeps the canonical form, a read after a
write to the same key gives the value written, and a write leaves every other key alone (guide, Memory).
-/
namespace Sys2Proof.Machine

variable {β : Type} [DecidableEq β]

theorem sparseWrite_mem {d : β} {m : List (Nat × β)} {a : Nat} {v : β} {x : Nat × β} :
    x ∈ sparseWrite d m a v → x ∈ m ∨ (x = (a, v) ∧ v ≠ d) := by
  induction m with
  | nil => simp only [sparseWrite]; split <;> simp_all
  | cons y rest ih =>
    obtain ⟨k, w⟩ := y
    simp only [sparseWrite]
    split
    · split
      · exact .inl
      · intro h
        rcases List.mem_cons.1 h with h | h
        · exact .inr ⟨h, ‹_›⟩
        · exact .inl h
    · split
      · split
        · exact fun h => .inl (List.mem_cons_of_mem _ h)
        · intro h
          rcases List.mem_cons.1 h with h | h
          · exact .inr ⟨h, ‹_›⟩
          · exact .inl (List.mem_cons_of_mem _ h)
      · simp only [List.mem_cons]
        intro h; rcases h with h | h
        · exact .inl (.inl h)
        · rcases ih h with h | h
          · exact .inl (.inr h)
          · exact .inr h

/-- A write keeps the canonical form. -/
theorem sparseWrite_wf {d : β} {m : List (Nat × β)} (h : sparseWf d m) (a : Nat) (v : β) :
    sparseWf d (sparseWrite d m a v) := by
  refine ⟨?_, ?_⟩
  · induction m with
    | nil => simp only [sparseWrite]; split <;> simp
    | cons y rest ih =>
      obtain ⟨k, w⟩ := y
      obtain ⟨hp, hd⟩ := h
      rw [List.pairwise_cons] at hp
      simp only [sparseWrite]
      split
      · split
        · exact List.pairwise_cons.2 hp
        · refine List.pairwise_cons.2 ⟨?_, List.pairwise_cons.2 hp⟩
          intro x hx
          rcases List.mem_cons.1 hx with rfl | hx
          · assumption
          · exact Nat.lt_trans ‹a < k› (hp.1 x hx)
      · split
        · subst_vars
          split
          · exact hp.2
          · exact List.pairwise_cons.2 ⟨hp.1, hp.2⟩
        · refine List.pairwise_cons.2 ⟨?_, ih ⟨hp.2, fun x hx => hd x (List.mem_cons_of_mem _ hx)⟩⟩
          intro x hx
          rcases sparseWrite_mem hx with hx | ⟨rfl, _⟩
          · exact hp.1 x hx
          · show k < a; omega
  · intro x hx
    rcases sparseWrite_mem hx with hx | ⟨rfl, hv⟩
    · exact h.2 x hx
    · exact hv

omit [DecidableEq β] in
theorem sparseRead_of_lt {d : β} {m : List (Nat × β)} {a : Nat} (h : ∀ x ∈ m, a < x.1) : sparseRead d m a = d := by
  induction m with
  | nil => rfl
  | cons y rest ih =>
    obtain ⟨k, w⟩ := y
    have hk := h (k, w) (List.mem_cons_self ..)
    simp only [sparseRead]
    rw [if_neg (by simp at hk; omega)]
    exact ih fun x hx => h x (List.mem_cons_of_mem _ hx)

/-- A read after a write to the same key gives the value written. -/
theorem sparseRead_write_self {d : β} {m : List (Nat × β)} (h : sparseWf d m) (a : Nat) (v : β) :
    sparseRead d (sparseWrite d m a v) a = v := by
  induction m with
  | nil => simp only [sparseWrite]; split <;> simp_all [sparseRead]
  | cons y rest ih =>
    obtain ⟨k, w⟩ := y
    obtain ⟨hp, hd⟩ := h
    rw [List.pairwise_cons] at hp
    have hlt : a ≤ k → sparseRead d rest a = d := fun hak =>
      sparseRead_of_lt fun x hx => Nat.lt_of_le_of_lt hak (hp.1 x hx)
    simp only [sparseWrite]
    split
    · split
      · simp only [sparseRead]
        rw [if_neg (by omega), hlt (by omega)]; exact Eq.symm ‹v = d›
      · simp [sparseRead]
    · split
      · split
        · rw [hlt (by omega)]; exact Eq.symm ‹v = d›
        · simp [sparseRead]
      · simp only [sparseRead]
        rw [if_neg (by omega)]
        exact ih ⟨hp.2, fun x hx => hd x (List.mem_cons_of_mem _ hx)⟩

/-- A value other than the default is read back in any table. -/
theorem sparseRead_write_ne {d : β} (m : List (Nat × β)) (a : Nat) {v : β} (h : v ≠ d) :
    sparseRead d (sparseWrite d m a v) a = v := by
  induction m with
  | nil => simp [sparseWrite, h, sparseRead]
  | cons y rest ih =>
    obtain ⟨k, w⟩ := y
    simp only [sparseWrite, if_neg h]
    split
    · simp [sparseRead]
    · split
      · simp [sparseRead]
      · simp only [sparseRead]
        rw [if_neg (by omega)]
        exact ih

/-- A write leaves every other key alone. -/
theorem sparseRead_write_other {d : β} {m : List (Nat × β)} {a b : Nat} (h : b ≠ a) (v : β) :
    sparseRead d (sparseWrite d m a v) b = sparseRead d m b := by
  induction m with
  | nil => simp only [sparseWrite]; split <;> simp_all [sparseRead]; omega
  | cons y rest ih =>
    obtain ⟨k, w⟩ := y
    simp only [sparseWrite]
    split
    · split
      · rfl
      · simp only [sparseRead]; rw [if_neg (by omega)]
    · split
      · split
        · simp only [sparseRead]; rw [if_neg (by omega)]
        · simp only [sparseRead]; rw [if_neg (by omega), if_neg (by omega)]
      · simp only [sparseRead, ih]

-- Byte memory

theorem Memory.write_wf {m : Memory} (h : m.wf) (a : Nat) (b : Byte) : (m.write a b).wf := sparseWrite_wf h a b

theorem Memory.writeBytes_wf {m : Memory} (h : m.wf) (a : Nat) (l : List Byte) : (m.writeBytes a l).wf := by
  induction l generalizing m a with
  | nil => exact h
  | cons b rest ih => exact ih (Memory.write_wf h a b) (a + 1)

theorem Memory.read_write_self {m : Memory} (h : m.wf) (a : Nat) (b : Byte) : (m.write a b).read a = b :=
  sparseRead_write_self h a b

theorem Memory.read_write_other (m : Memory) {a c : Nat} (h : c ≠ a) (b : Byte) : (m.write a b).read c = m.read c :=
  sparseRead_write_other h b

theorem Memory.read_writeBytes_other (m : Memory) {a c : Nat} (l : List Byte) (h : c < a ∨ a + l.length ≤ c) :
    (m.writeBytes a l).read c = m.read c := by
  induction l generalizing m a with
  | nil => rfl
  | cons b rest ih =>
    simp only [List.length_cons] at h
    rw [Memory.writeBytes, ih _ (by omega), Memory.read_write_other _ (by omega)]

theorem Memory.read_writeBytes {m : Memory} (h : m.wf) (a : Nat) (l : List Byte) (i : Nat) (hi : i < l.length) :
    (m.writeBytes a l).read (a + i) = l[i] := by
  induction l generalizing m a i with
  | nil => simp at hi
  | cons b rest ih =>
    rw [Memory.writeBytes]
    cases i with
    | zero => rw [Memory.read_writeBytes_other _ _ (by omega), Nat.add_zero, Memory.read_write_self h]; rfl
    | succ i =>
      have := ih (Memory.write_wf h a b) (a + 1) i (by simpa using hi)
      simpa [Nat.add_assoc, Nat.add_comm 1 i] using this

theorem Memory.writeBytes_mem {m : Memory} {a : Nat} {l : List Byte} {x : Host.Cell} :
    x ∈ m.writeBytes a l → x ∈ m ∨ (a ≤ x.1 ∧ x.1 < a + l.length) := by
  induction l generalizing m a with
  | nil => exact .inl
  | cons b rest ih =>
    intro hx
    simp only [List.length_cons]
    rcases ih hx with h | h
    · rcases sparseWrite_mem h with h | ⟨rfl, _⟩
      · exact .inl h
      · exact .inr ⟨Nat.le_refl _, by show a < a + (rest.length + 1); omega⟩
    · exact .inr (by omega)

-- The caller table

@[simp] theorem State.caller_putCaller_other (s : State) {k k' : Nat} (c : Caller) (h : k' ≠ k) :
    (s.putCaller k c).caller k' = s.caller k' := sparseRead_write_other h c

theorem State.caller_putCaller_self {s : State} (h : sparseWf Caller.fresh s.callers) (k : Nat) (c : Caller) :
    (s.putCaller k c).caller k = c := sparseRead_write_self h k c

theorem State.self_putSelf {s : State} (h : sparseWf Caller.fresh s.callers) (c : Caller) : (s.putSelf c).self = c :=
  sparseRead_write_self h s.actor c

theorem State.putCaller_wf {s : State} (h : sparseWf Caller.fresh s.callers) (k : Nat) (c : Caller) :
    sparseWf Caller.fresh (s.putCaller k c).callers := sparseWrite_wf h k c

end Sys2Proof.Machine
end

