-- ==== Sys2Proof/Laws/State.lean ====
section
/-!
SUPPORT. What each update of the state leaves in each field, true by unfolding once, so that no later proof unfolds a
record update.
-/
namespace Sys2Proof.Machine

-- latch

@[simp] theorem State.latch_ctl (s : State) (m : Status) : (s.latch m).ctl = s.ctl := rfl
@[simp] theorem State.latch_txn (s : State) (m : Status) : (s.latch m).txn = s.txn := rfl
@[simp] theorem State.latch_lock (s : State) (m : Status) : (s.latch m).lock = s.lock := rfl
@[simp] theorem State.latch_raw (s : State) (m : Status) : (s.latch m).raw = s.raw ||| m := rfl
@[simp] theorem State.latch_ie (s : State) (m : Status) : (s.latch m).ie = s.ie := rfl
@[simp] theorem State.latch_cnt (s : State) (m : Status) : (s.latch m).cnt = s.cnt := rfl
@[simp] theorem State.latch_con (s : State) (m : Status) : (s.latch m).con = s.con := rfl
@[simp] theorem State.latch_sa (s : State) (m : Status) : (s.latch m).sa = s.sa := rfl
@[simp] theorem State.latch_psc (s : State) (m : Status) : (s.latch m).psc = s.psc := rfl
@[simp] theorem State.latch_scll (s : State) (m : Status) : (s.latch m).scll = s.scll := rfl
@[simp] theorem State.latch_sclh (s : State) (m : Status) : (s.latch m).sclh = s.sclh := rfl
@[simp] theorem State.latch_modulemode (s : State) (m : Status) : (s.latch m).modulemode = s.modulemode := rfl
@[simp] theorem State.latch_idlest (s : State) (m : Status) : (s.latch m).idlest = s.idlest := rfl
@[simp] theorem State.latch_eng (s : State) (m : Status) : (s.latch m).eng = s.eng := rfl
@[simp] theorem State.latch_wire (s : State) (m : Status) : (s.latch m).wire = s.wire := rfl
@[simp] theorem State.latch_env (s : State) (m : Status) : (s.latch m).env = s.env := rfl
@[simp] theorem State.latch_mem (s : State) (m : Status) : (s.latch m).mem = s.mem := rfl
@[simp] theorem State.latch_callers (s : State) (m : Status) : (s.latch m).callers = s.callers := rfl
@[simp] theorem State.latch_isr (s : State) (m : Status) : (s.latch m).isr = s.isr := rfl
@[simp] theorem State.latch_actor (s : State) (m : Status) : (s.latch m).actor = s.actor := rfl
@[simp] theorem State.latch_sched (s : State) (m : Status) : (s.latch m).sched = s.sched := rfl
@[simp] theorem State.latch_draws (s : State) (m : Status) : (s.latch m).draws = s.draws := rfl
@[simp] theorem State.latch_opts (s : State) (m : Status) : (s.latch m).opts = s.opts := rfl

-- tick

@[simp] theorem State.tick_ctl (s : State) : (s.tick).ctl = s.ctl := rfl
@[simp] theorem State.tick_txn (s : State) : (s.tick).txn = s.txn := rfl
@[simp] theorem State.tick_lock (s : State) : (s.tick).lock = s.lock := rfl
@[simp] theorem State.tick_raw (s : State) : (s.tick).raw = s.raw := rfl
@[simp] theorem State.tick_ie (s : State) : (s.tick).ie = s.ie := rfl
@[simp] theorem State.tick_cnt (s : State) : (s.tick).cnt = s.cnt := rfl
@[simp] theorem State.tick_con (s : State) : (s.tick).con = s.con := rfl
@[simp] theorem State.tick_sa (s : State) : (s.tick).sa = s.sa := rfl
@[simp] theorem State.tick_psc (s : State) : (s.tick).psc = s.psc := rfl
@[simp] theorem State.tick_scll (s : State) : (s.tick).scll = s.scll := rfl
@[simp] theorem State.tick_sclh (s : State) : (s.tick).sclh = s.sclh := rfl
@[simp] theorem State.tick_modulemode (s : State) : (s.tick).modulemode = s.modulemode := rfl
@[simp] theorem State.tick_idlest (s : State) : (s.tick).idlest = s.idlest := rfl
@[simp] theorem State.tick_eng (s : State) : (s.tick).eng = s.eng := rfl
@[simp] theorem State.tick_wire (s : State) : (s.tick).wire = s.wire := rfl
@[simp] theorem State.tick_env (s : State) : (s.tick).env = s.env := rfl
@[simp] theorem State.tick_mem (s : State) : (s.tick).mem = s.mem := rfl
@[simp] theorem State.tick_callers (s : State) : (s.tick).callers = s.callers := rfl
@[simp] theorem State.tick_isr (s : State) : (s.tick).isr = s.isr := rfl
@[simp] theorem State.tick_actor (s : State) : (s.tick).actor = s.actor := rfl
@[simp] theorem State.tick_sched (s : State) : (s.tick).sched = s.sched := rfl
@[simp] theorem State.tick_draws (s : State) : (s.tick).draws = s.draws + 1 := rfl
@[simp] theorem State.tick_opts (s : State) : (s.tick).opts = s.opts := rfl

-- emit

@[simp] theorem State.emit_ctl (s : State) (l : List WireEvent) : (s.emit l).ctl = s.ctl := rfl
@[simp] theorem State.emit_txn (s : State) (l : List WireEvent) : (s.emit l).txn = s.txn := rfl
@[simp] theorem State.emit_lock (s : State) (l : List WireEvent) : (s.emit l).lock = s.lock := rfl
@[simp] theorem State.emit_raw (s : State) (l : List WireEvent) : (s.emit l).raw = s.raw := rfl
@[simp] theorem State.emit_ie (s : State) (l : List WireEvent) : (s.emit l).ie = s.ie := rfl
@[simp] theorem State.emit_cnt (s : State) (l : List WireEvent) : (s.emit l).cnt = s.cnt := rfl
@[simp] theorem State.emit_con (s : State) (l : List WireEvent) : (s.emit l).con = s.con := rfl
@[simp] theorem State.emit_sa (s : State) (l : List WireEvent) : (s.emit l).sa = s.sa := rfl
@[simp] theorem State.emit_psc (s : State) (l : List WireEvent) : (s.emit l).psc = s.psc := rfl
@[simp] theorem State.emit_scll (s : State) (l : List WireEvent) : (s.emit l).scll = s.scll := rfl
@[simp] theorem State.emit_sclh (s : State) (l : List WireEvent) : (s.emit l).sclh = s.sclh := rfl
@[simp] theorem State.emit_modulemode (s : State) (l : List WireEvent) : (s.emit l).modulemode = s.modulemode := rfl
@[simp] theorem State.emit_idlest (s : State) (l : List WireEvent) : (s.emit l).idlest = s.idlest := rfl
@[simp] theorem State.emit_eng (s : State) (l : List WireEvent) : (s.emit l).eng = s.eng := rfl
@[simp] theorem State.emit_wire (s : State) (l : List WireEvent) : (s.emit l).wire = s.wire ++ l := rfl
@[simp] theorem State.emit_env (s : State) (l : List WireEvent) : (s.emit l).env = s.env := rfl
@[simp] theorem State.emit_mem (s : State) (l : List WireEvent) : (s.emit l).mem = s.mem := rfl
@[simp] theorem State.emit_callers (s : State) (l : List WireEvent) : (s.emit l).callers = s.callers := rfl
@[simp] theorem State.emit_isr (s : State) (l : List WireEvent) : (s.emit l).isr = s.isr := rfl
@[simp] theorem State.emit_actor (s : State) (l : List WireEvent) : (s.emit l).actor = s.actor := rfl
@[simp] theorem State.emit_sched (s : State) (l : List WireEvent) : (s.emit l).sched = s.sched := rfl
@[simp] theorem State.emit_draws (s : State) (l : List WireEvent) : (s.emit l).draws = s.draws := rfl
@[simp] theorem State.emit_opts (s : State) (l : List WireEvent) : (s.emit l).opts = s.opts := rfl

-- answered

@[simp] theorem State.answered_ctl (s : State) (e : Env) : (s.answered e).ctl = s.ctl := rfl
@[simp] theorem State.answered_txn (s : State) (e : Env) : (s.answered e).txn = s.txn := rfl
@[simp] theorem State.answered_lock (s : State) (e : Env) : (s.answered e).lock = s.lock := rfl
@[simp] theorem State.answered_raw (s : State) (e : Env) : (s.answered e).raw = s.raw := rfl
@[simp] theorem State.answered_ie (s : State) (e : Env) : (s.answered e).ie = s.ie := rfl
@[simp] theorem State.answered_cnt (s : State) (e : Env) : (s.answered e).cnt = s.cnt := rfl
@[simp] theorem State.answered_con (s : State) (e : Env) : (s.answered e).con = s.con := rfl
@[simp] theorem State.answered_sa (s : State) (e : Env) : (s.answered e).sa = s.sa := rfl
@[simp] theorem State.answered_psc (s : State) (e : Env) : (s.answered e).psc = s.psc := rfl
@[simp] theorem State.answered_scll (s : State) (e : Env) : (s.answered e).scll = s.scll := rfl
@[simp] theorem State.answered_sclh (s : State) (e : Env) : (s.answered e).sclh = s.sclh := rfl
@[simp] theorem State.answered_modulemode (s : State) (e : Env) : (s.answered e).modulemode = s.modulemode := rfl
@[simp] theorem State.answered_idlest (s : State) (e : Env) : (s.answered e).idlest = s.idlest := rfl
@[simp] theorem State.answered_eng (s : State) (e : Env) : (s.answered e).eng = s.eng := rfl
@[simp] theorem State.answered_wire (s : State) (e : Env) : (s.answered e).wire = s.wire := rfl
@[simp] theorem State.answered_env (s : State) (e : Env) : (s.answered e).env = e := rfl
@[simp] theorem State.answered_mem (s : State) (e : Env) : (s.answered e).mem = s.mem := rfl
@[simp] theorem State.answered_callers (s : State) (e : Env) : (s.answered e).callers = s.callers := rfl
@[simp] theorem State.answered_isr (s : State) (e : Env) : (s.answered e).isr = s.isr := rfl
@[simp] theorem State.answered_actor (s : State) (e : Env) : (s.answered e).actor = s.actor := rfl
@[simp] theorem State.answered_sched (s : State) (e : Env) : (s.answered e).sched = s.sched := rfl
@[simp] theorem State.answered_draws (s : State) (e : Env) : (s.answered e).draws = s.draws + 1 := rfl
@[simp] theorem State.answered_opts (s : State) (e : Env) : (s.answered e).opts = s.opts := rfl

-- engFail

@[simp] theorem State.engFail_ctl (s : State) : (s.engFail).ctl = s.ctl := rfl
@[simp] theorem State.engFail_txn (s : State) : (s.engFail).txn = s.txn := rfl
@[simp] theorem State.engFail_lock (s : State) : (s.engFail).lock = s.lock := rfl
@[simp] theorem State.engFail_raw (s : State) : (s.engFail).raw = s.raw := rfl
@[simp] theorem State.engFail_ie (s : State) : (s.engFail).ie = s.ie := rfl
@[simp] theorem State.engFail_cnt (s : State) : (s.engFail).cnt = s.cnt := rfl
@[simp] theorem State.engFail_con (s : State) : (s.engFail).con = s.con := rfl
@[simp] theorem State.engFail_sa (s : State) : (s.engFail).sa = s.sa := rfl
@[simp] theorem State.engFail_psc (s : State) : (s.engFail).psc = s.psc := rfl
@[simp] theorem State.engFail_scll (s : State) : (s.engFail).scll = s.scll := rfl
@[simp] theorem State.engFail_sclh (s : State) : (s.engFail).sclh = s.sclh := rfl
@[simp] theorem State.engFail_modulemode (s : State) : (s.engFail).modulemode = s.modulemode := rfl
@[simp] theorem State.engFail_idlest (s : State) : (s.engFail).idlest = s.idlest := rfl
@[simp] theorem State.engFail_eng (s : State) : (s.engFail).eng = { s.eng with st := .idle, hold := none, lateArdy := s.ardyAfterErr } := rfl
@[simp] theorem State.engFail_wire (s : State) : (s.engFail).wire = s.wire := rfl
@[simp] theorem State.engFail_env (s : State) : (s.engFail).env = s.env := rfl
@[simp] theorem State.engFail_mem (s : State) : (s.engFail).mem = s.mem := rfl
@[simp] theorem State.engFail_callers (s : State) : (s.engFail).callers = s.callers := rfl
@[simp] theorem State.engFail_isr (s : State) : (s.engFail).isr = s.isr := rfl
@[simp] theorem State.engFail_actor (s : State) : (s.engFail).actor = s.actor := rfl
@[simp] theorem State.engFail_sched (s : State) : (s.engFail).sched = s.sched := rfl
@[simp] theorem State.engFail_draws (s : State) : (s.engFail).draws = s.draws := rfl
@[simp] theorem State.engFail_opts (s : State) : (s.engFail).opts = s.opts := rfl

-- ticks

@[simp] theorem State.ticks_ctl (s : State) (n : Nat) : (s.ticks n).ctl = s.ctl := rfl
@[simp] theorem State.ticks_txn (s : State) (n : Nat) : (s.ticks n).txn = s.txn := rfl
@[simp] theorem State.ticks_lock (s : State) (n : Nat) : (s.ticks n).lock = s.lock := rfl
@[simp] theorem State.ticks_raw (s : State) (n : Nat) : (s.ticks n).raw = s.raw := rfl
@[simp] theorem State.ticks_ie (s : State) (n : Nat) : (s.ticks n).ie = s.ie := rfl
@[simp] theorem State.ticks_cnt (s : State) (n : Nat) : (s.ticks n).cnt = s.cnt := rfl
@[simp] theorem State.ticks_con (s : State) (n : Nat) : (s.ticks n).con = s.con := rfl
@[simp] theorem State.ticks_sa (s : State) (n : Nat) : (s.ticks n).sa = s.sa := rfl
@[simp] theorem State.ticks_psc (s : State) (n : Nat) : (s.ticks n).psc = s.psc := rfl
@[simp] theorem State.ticks_scll (s : State) (n : Nat) : (s.ticks n).scll = s.scll := rfl
@[simp] theorem State.ticks_sclh (s : State) (n : Nat) : (s.ticks n).sclh = s.sclh := rfl
@[simp] theorem State.ticks_modulemode (s : State) (n : Nat) : (s.ticks n).modulemode = s.modulemode := rfl
@[simp] theorem State.ticks_idlest (s : State) (n : Nat) : (s.ticks n).idlest = s.idlest := rfl
@[simp] theorem State.ticks_eng (s : State) (n : Nat) : (s.ticks n).eng = s.eng := rfl
@[simp] theorem State.ticks_wire (s : State) (n : Nat) : (s.ticks n).wire = s.wire := rfl
@[simp] theorem State.ticks_env (s : State) (n : Nat) : (s.ticks n).env = s.env := rfl
@[simp] theorem State.ticks_mem (s : State) (n : Nat) : (s.ticks n).mem = s.mem := rfl
@[simp] theorem State.ticks_callers (s : State) (n : Nat) : (s.ticks n).callers = s.callers := rfl
@[simp] theorem State.ticks_isr (s : State) (n : Nat) : (s.ticks n).isr = s.isr := rfl
@[simp] theorem State.ticks_actor (s : State) (n : Nat) : (s.ticks n).actor = s.actor := rfl
@[simp] theorem State.ticks_sched (s : State) (n : Nat) : (s.ticks n).sched = s.sched := rfl
@[simp] theorem State.ticks_draws (s : State) (n : Nat) : (s.ticks n).draws = s.draws + n := rfl
@[simp] theorem State.ticks_opts (s : State) (n : Nat) : (s.ticks n).opts = s.opts := rfl

-- putCaller

@[simp] theorem State.putCaller_ctl (s : State) (k : Nat) (c : Caller) : (s.putCaller k c).ctl = s.ctl := rfl
@[simp] theorem State.putCaller_txn (s : State) (k : Nat) (c : Caller) : (s.putCaller k c).txn = s.txn := rfl
@[simp] theorem State.putCaller_lock (s : State) (k : Nat) (c : Caller) : (s.putCaller k c).lock = s.lock := rfl
@[simp] theorem State.putCaller_raw (s : State) (k : Nat) (c : Caller) : (s.putCaller k c).raw = s.raw := rfl
@[simp] theorem State.putCaller_ie (s : State) (k : Nat) (c : Caller) : (s.putCaller k c).ie = s.ie := rfl
@[simp] theorem State.putCaller_cnt (s : State) (k : Nat) (c : Caller) : (s.putCaller k c).cnt = s.cnt := rfl
@[simp] theorem State.putCaller_con (s : State) (k : Nat) (c : Caller) : (s.putCaller k c).con = s.con := rfl
@[simp] theorem State.putCaller_sa (s : State) (k : Nat) (c : Caller) : (s.putCaller k c).sa = s.sa := rfl
@[simp] theorem State.putCaller_psc (s : State) (k : Nat) (c : Caller) : (s.putCaller k c).psc = s.psc := rfl
@[simp] theorem State.putCaller_scll (s : State) (k : Nat) (c : Caller) : (s.putCaller k c).scll = s.scll := rfl
@[simp] theorem State.putCaller_sclh (s : State) (k : Nat) (c : Caller) : (s.putCaller k c).sclh = s.sclh := rfl
@[simp] theorem State.putCaller_modulemode (s : State) (k : Nat) (c : Caller) : (s.putCaller k c).modulemode = s.modulemode := rfl
@[simp] theorem State.putCaller_idlest (s : State) (k : Nat) (c : Caller) : (s.putCaller k c).idlest = s.idlest := rfl
@[simp] theorem State.putCaller_eng (s : State) (k : Nat) (c : Caller) : (s.putCaller k c).eng = s.eng := rfl
@[simp] theorem State.putCaller_wire (s : State) (k : Nat) (c : Caller) : (s.putCaller k c).wire = s.wire := rfl
@[simp] theorem State.putCaller_env (s : State) (k : Nat) (c : Caller) : (s.putCaller k c).env = s.env := rfl
@[simp] theorem State.putCaller_mem (s : State) (k : Nat) (c : Caller) : (s.putCaller k c).mem = s.mem := rfl
@[simp] theorem State.putCaller_callers (s : State) (k : Nat) (c : Caller) : (s.putCaller k c).callers = sparseWrite Caller.fresh s.callers k c := rfl
@[simp] theorem State.putCaller_isr (s : State) (k : Nat) (c : Caller) : (s.putCaller k c).isr = s.isr := rfl
@[simp] theorem State.putCaller_actor (s : State) (k : Nat) (c : Caller) : (s.putCaller k c).actor = s.actor := rfl
@[simp] theorem State.putCaller_sched (s : State) (k : Nat) (c : Caller) : (s.putCaller k c).sched = s.sched := rfl
@[simp] theorem State.putCaller_draws (s : State) (k : Nat) (c : Caller) : (s.putCaller k c).draws = s.draws := rfl
@[simp] theorem State.putCaller_opts (s : State) (k : Nat) (c : Caller) : (s.putCaller k c).opts = s.opts := rfl

-- putSelf

@[simp] theorem State.putSelf_ctl (s : State) (c : Caller) : (s.putSelf c).ctl = s.ctl := rfl
@[simp] theorem State.putSelf_txn (s : State) (c : Caller) : (s.putSelf c).txn = s.txn := rfl
@[simp] theorem State.putSelf_lock (s : State) (c : Caller) : (s.putSelf c).lock = s.lock := rfl
@[simp] theorem State.putSelf_raw (s : State) (c : Caller) : (s.putSelf c).raw = s.raw := rfl
@[simp] theorem State.putSelf_ie (s : State) (c : Caller) : (s.putSelf c).ie = s.ie := rfl
@[simp] theorem State.putSelf_cnt (s : State) (c : Caller) : (s.putSelf c).cnt = s.cnt := rfl
@[simp] theorem State.putSelf_con (s : State) (c : Caller) : (s.putSelf c).con = s.con := rfl
@[simp] theorem State.putSelf_sa (s : State) (c : Caller) : (s.putSelf c).sa = s.sa := rfl
@[simp] theorem State.putSelf_psc (s : State) (c : Caller) : (s.putSelf c).psc = s.psc := rfl
@[simp] theorem State.putSelf_scll (s : State) (c : Caller) : (s.putSelf c).scll = s.scll := rfl
@[simp] theorem State.putSelf_sclh (s : State) (c : Caller) : (s.putSelf c).sclh = s.sclh := rfl
@[simp] theorem State.putSelf_modulemode (s : State) (c : Caller) : (s.putSelf c).modulemode = s.modulemode := rfl
@[simp] theorem State.putSelf_idlest (s : State) (c : Caller) : (s.putSelf c).idlest = s.idlest := rfl
@[simp] theorem State.putSelf_eng (s : State) (c : Caller) : (s.putSelf c).eng = s.eng := rfl
@[simp] theorem State.putSelf_wire (s : State) (c : Caller) : (s.putSelf c).wire = s.wire := rfl
@[simp] theorem State.putSelf_env (s : State) (c : Caller) : (s.putSelf c).env = s.env := rfl
@[simp] theorem State.putSelf_mem (s : State) (c : Caller) : (s.putSelf c).mem = s.mem := rfl
@[simp] theorem State.putSelf_isr (s : State) (c : Caller) : (s.putSelf c).isr = s.isr := rfl
@[simp] theorem State.putSelf_actor (s : State) (c : Caller) : (s.putSelf c).actor = s.actor := rfl
@[simp] theorem State.putSelf_sched (s : State) (c : Caller) : (s.putSelf c).sched = s.sched := rfl
@[simp] theorem State.putSelf_draws (s : State) (c : Caller) : (s.putSelf c).draws = s.draws := rfl
@[simp] theorem State.putSelf_opts (s : State) (c : Caller) : (s.putSelf c).opts = s.opts := rfl

-- setTask

@[simp] theorem State.setTask_ctl (s : State) (l : List Act) : (s.setTask l).ctl = s.ctl := rfl
@[simp] theorem State.setTask_txn (s : State) (l : List Act) : (s.setTask l).txn = s.txn := rfl
@[simp] theorem State.setTask_lock (s : State) (l : List Act) : (s.setTask l).lock = s.lock := rfl
@[simp] theorem State.setTask_raw (s : State) (l : List Act) : (s.setTask l).raw = s.raw := rfl
@[simp] theorem State.setTask_ie (s : State) (l : List Act) : (s.setTask l).ie = s.ie := rfl
@[simp] theorem State.setTask_cnt (s : State) (l : List Act) : (s.setTask l).cnt = s.cnt := rfl
@[simp] theorem State.setTask_con (s : State) (l : List Act) : (s.setTask l).con = s.con := rfl
@[simp] theorem State.setTask_sa (s : State) (l : List Act) : (s.setTask l).sa = s.sa := rfl
@[simp] theorem State.setTask_psc (s : State) (l : List Act) : (s.setTask l).psc = s.psc := rfl
@[simp] theorem State.setTask_scll (s : State) (l : List Act) : (s.setTask l).scll = s.scll := rfl
@[simp] theorem State.setTask_sclh (s : State) (l : List Act) : (s.setTask l).sclh = s.sclh := rfl
@[simp] theorem State.setTask_modulemode (s : State) (l : List Act) : (s.setTask l).modulemode = s.modulemode := rfl
@[simp] theorem State.setTask_idlest (s : State) (l : List Act) : (s.setTask l).idlest = s.idlest := rfl
@[simp] theorem State.setTask_eng (s : State) (l : List Act) : (s.setTask l).eng = s.eng := rfl
@[simp] theorem State.setTask_wire (s : State) (l : List Act) : (s.setTask l).wire = s.wire := rfl
@[simp] theorem State.setTask_env (s : State) (l : List Act) : (s.setTask l).env = s.env := rfl
@[simp] theorem State.setTask_mem (s : State) (l : List Act) : (s.setTask l).mem = s.mem := rfl
@[simp] theorem State.setTask_isr (s : State) (l : List Act) : (s.setTask l).isr = s.isr := rfl
@[simp] theorem State.setTask_actor (s : State) (l : List Act) : (s.setTask l).actor = s.actor := rfl
@[simp] theorem State.setTask_sched (s : State) (l : List Act) : (s.setTask l).sched = s.sched := rfl
@[simp] theorem State.setTask_draws (s : State) (l : List Act) : (s.setTask l).draws = s.draws := rfl
@[simp] theorem State.setTask_opts (s : State) (l : List Act) : (s.setTask l).opts = s.opts := rfl

-- ret

@[simp] theorem State.ret_ctl (s : State) (r : Result) : (s.ret r).ctl = s.ctl := rfl
@[simp] theorem State.ret_txn (s : State) (r : Result) : (s.ret r).txn = s.txn := rfl
@[simp] theorem State.ret_lock (s : State) (r : Result) : (s.ret r).lock = s.lock := rfl
@[simp] theorem State.ret_raw (s : State) (r : Result) : (s.ret r).raw = s.raw := rfl
@[simp] theorem State.ret_ie (s : State) (r : Result) : (s.ret r).ie = s.ie := rfl
@[simp] theorem State.ret_cnt (s : State) (r : Result) : (s.ret r).cnt = s.cnt := rfl
@[simp] theorem State.ret_con (s : State) (r : Result) : (s.ret r).con = s.con := rfl
@[simp] theorem State.ret_sa (s : State) (r : Result) : (s.ret r).sa = s.sa := rfl
@[simp] theorem State.ret_psc (s : State) (r : Result) : (s.ret r).psc = s.psc := rfl
@[simp] theorem State.ret_scll (s : State) (r : Result) : (s.ret r).scll = s.scll := rfl
@[simp] theorem State.ret_sclh (s : State) (r : Result) : (s.ret r).sclh = s.sclh := rfl
@[simp] theorem State.ret_modulemode (s : State) (r : Result) : (s.ret r).modulemode = s.modulemode := rfl
@[simp] theorem State.ret_idlest (s : State) (r : Result) : (s.ret r).idlest = s.idlest := rfl
@[simp] theorem State.ret_eng (s : State) (r : Result) : (s.ret r).eng = s.eng := rfl
@[simp] theorem State.ret_wire (s : State) (r : Result) : (s.ret r).wire = s.wire := rfl
@[simp] theorem State.ret_env (s : State) (r : Result) : (s.ret r).env = s.env := rfl
@[simp] theorem State.ret_mem (s : State) (r : Result) : (s.ret r).mem = s.mem := rfl
@[simp] theorem State.ret_isr (s : State) (r : Result) : (s.ret r).isr = s.isr := rfl
@[simp] theorem State.ret_actor (s : State) (r : Result) : (s.ret r).actor = s.actor := rfl
@[simp] theorem State.ret_sched (s : State) (r : Result) : (s.ret r).sched = s.sched := rfl
@[simp] theorem State.ret_draws (s : State) (r : Result) : (s.ret r).draws = s.draws := rfl
@[simp] theorem State.ret_opts (s : State) (r : Result) : (s.ret r).opts = s.opts := rfl

-- goOn

@[simp] theorem State.goOn_ctl (s : State) (r : Result) (l : List Act) : (s.goOn r l).ctl = s.ctl := rfl
@[simp] theorem State.goOn_txn (s : State) (r : Result) (l : List Act) : (s.goOn r l).txn = s.txn := rfl
@[simp] theorem State.goOn_lock (s : State) (r : Result) (l : List Act) : (s.goOn r l).lock = s.lock := rfl
@[simp] theorem State.goOn_raw (s : State) (r : Result) (l : List Act) : (s.goOn r l).raw = s.raw := rfl
@[simp] theorem State.goOn_ie (s : State) (r : Result) (l : List Act) : (s.goOn r l).ie = s.ie := rfl
@[simp] theorem State.goOn_cnt (s : State) (r : Result) (l : List Act) : (s.goOn r l).cnt = s.cnt := rfl
@[simp] theorem State.goOn_con (s : State) (r : Result) (l : List Act) : (s.goOn r l).con = s.con := rfl
@[simp] theorem State.goOn_sa (s : State) (r : Result) (l : List Act) : (s.goOn r l).sa = s.sa := rfl
@[simp] theorem State.goOn_psc (s : State) (r : Result) (l : List Act) : (s.goOn r l).psc = s.psc := rfl
@[simp] theorem State.goOn_scll (s : State) (r : Result) (l : List Act) : (s.goOn r l).scll = s.scll := rfl
@[simp] theorem State.goOn_sclh (s : State) (r : Result) (l : List Act) : (s.goOn r l).sclh = s.sclh := rfl
@[simp] theorem State.goOn_modulemode (s : State) (r : Result) (l : List Act) : (s.goOn r l).modulemode = s.modulemode := rfl
@[simp] theorem State.goOn_idlest (s : State) (r : Result) (l : List Act) : (s.goOn r l).idlest = s.idlest := rfl
@[simp] theorem State.goOn_eng (s : State) (r : Result) (l : List Act) : (s.goOn r l).eng = s.eng := rfl
@[simp] theorem State.goOn_wire (s : State) (r : Result) (l : List Act) : (s.goOn r l).wire = s.wire := rfl
@[simp] theorem State.goOn_env (s : State) (r : Result) (l : List Act) : (s.goOn r l).env = s.env := rfl
@[simp] theorem State.goOn_mem (s : State) (r : Result) (l : List Act) : (s.goOn r l).mem = s.mem := rfl
@[simp] theorem State.goOn_isr (s : State) (r : Result) (l : List Act) : (s.goOn r l).isr = s.isr := rfl
@[simp] theorem State.goOn_actor (s : State) (r : Result) (l : List Act) : (s.goOn r l).actor = s.actor := rfl
@[simp] theorem State.goOn_sched (s : State) (r : Result) (l : List Act) : (s.goOn r l).sched = s.sched := rfl
@[simp] theorem State.goOn_draws (s : State) (r : Result) (l : List Act) : (s.goOn r l).draws = s.draws := rfl
@[simp] theorem State.goOn_opts (s : State) (r : Result) (l : List Act) : (s.goOn r l).opts = s.opts := rfl

-- begin

@[simp] theorem State.begin_ctl (s : State) (l : List Act) : (s.begin l).ctl = s.ctl := rfl
@[simp] theorem State.begin_txn (s : State) (l : List Act) : (s.begin l).txn = s.txn := rfl
@[simp] theorem State.begin_lock (s : State) (l : List Act) : (s.begin l).lock = s.lock := rfl
@[simp] theorem State.begin_raw (s : State) (l : List Act) : (s.begin l).raw = s.raw := rfl
@[simp] theorem State.begin_ie (s : State) (l : List Act) : (s.begin l).ie = s.ie := rfl
@[simp] theorem State.begin_cnt (s : State) (l : List Act) : (s.begin l).cnt = s.cnt := rfl
@[simp] theorem State.begin_con (s : State) (l : List Act) : (s.begin l).con = s.con := rfl
@[simp] theorem State.begin_sa (s : State) (l : List Act) : (s.begin l).sa = s.sa := rfl
@[simp] theorem State.begin_psc (s : State) (l : List Act) : (s.begin l).psc = s.psc := rfl
@[simp] theorem State.begin_scll (s : State) (l : List Act) : (s.begin l).scll = s.scll := rfl
@[simp] theorem State.begin_sclh (s : State) (l : List Act) : (s.begin l).sclh = s.sclh := rfl
@[simp] theorem State.begin_modulemode (s : State) (l : List Act) : (s.begin l).modulemode = s.modulemode := rfl
@[simp] theorem State.begin_idlest (s : State) (l : List Act) : (s.begin l).idlest = s.idlest := rfl
@[simp] theorem State.begin_eng (s : State) (l : List Act) : (s.begin l).eng = s.eng := rfl
@[simp] theorem State.begin_wire (s : State) (l : List Act) : (s.begin l).wire = s.wire := rfl
@[simp] theorem State.begin_env (s : State) (l : List Act) : (s.begin l).env = s.env := rfl
@[simp] theorem State.begin_mem (s : State) (l : List Act) : (s.begin l).mem = s.mem := rfl
@[simp] theorem State.begin_isr (s : State) (l : List Act) : (s.begin l).isr = s.isr := rfl
@[simp] theorem State.begin_actor (s : State) (l : List Act) : (s.begin l).actor = s.actor := rfl
@[simp] theorem State.begin_sched (s : State) (l : List Act) : (s.begin l).sched = s.sched := rfl
@[simp] theorem State.begin_draws (s : State) (l : List Act) : (s.begin l).draws = s.draws := rfl
@[simp] theorem State.begin_opts (s : State) (l : List Act) : (s.begin l).opts = s.opts := rfl

-- deliver

@[simp] theorem State.deliver_ctl (s : State) (r : Result) (l : List Act) : (s.deliver r l).ctl = s.ctl := rfl
@[simp] theorem State.deliver_txn (s : State) (r : Result) (l : List Act) : (s.deliver r l).txn = s.txn := rfl
@[simp] theorem State.deliver_lock (s : State) (r : Result) (l : List Act) : (s.deliver r l).lock = s.lock := rfl
@[simp] theorem State.deliver_raw (s : State) (r : Result) (l : List Act) : (s.deliver r l).raw = s.raw := rfl
@[simp] theorem State.deliver_ie (s : State) (r : Result) (l : List Act) : (s.deliver r l).ie = s.ie := rfl
@[simp] theorem State.deliver_cnt (s : State) (r : Result) (l : List Act) : (s.deliver r l).cnt = s.cnt := rfl
@[simp] theorem State.deliver_con (s : State) (r : Result) (l : List Act) : (s.deliver r l).con = s.con := rfl
@[simp] theorem State.deliver_sa (s : State) (r : Result) (l : List Act) : (s.deliver r l).sa = s.sa := rfl
@[simp] theorem State.deliver_psc (s : State) (r : Result) (l : List Act) : (s.deliver r l).psc = s.psc := rfl
@[simp] theorem State.deliver_scll (s : State) (r : Result) (l : List Act) : (s.deliver r l).scll = s.scll := rfl
@[simp] theorem State.deliver_sclh (s : State) (r : Result) (l : List Act) : (s.deliver r l).sclh = s.sclh := rfl
@[simp] theorem State.deliver_modulemode (s : State) (r : Result) (l : List Act) : (s.deliver r l).modulemode = s.modulemode := rfl
@[simp] theorem State.deliver_idlest (s : State) (r : Result) (l : List Act) : (s.deliver r l).idlest = s.idlest := rfl
@[simp] theorem State.deliver_eng (s : State) (r : Result) (l : List Act) : (s.deliver r l).eng = s.eng := rfl
@[simp] theorem State.deliver_wire (s : State) (r : Result) (l : List Act) : (s.deliver r l).wire = s.wire := rfl
@[simp] theorem State.deliver_env (s : State) (r : Result) (l : List Act) : (s.deliver r l).env = s.env := rfl
@[simp] theorem State.deliver_mem (s : State) (r : Result) (l : List Act) : (s.deliver r l).mem = s.mem := rfl
@[simp] theorem State.deliver_isr (s : State) (r : Result) (l : List Act) : (s.deliver r l).isr = s.isr := rfl
@[simp] theorem State.deliver_actor (s : State) (r : Result) (l : List Act) : (s.deliver r l).actor = s.actor := rfl
@[simp] theorem State.deliver_sched (s : State) (r : Result) (l : List Act) : (s.deliver r l).sched = s.sched := rfl
@[simp] theorem State.deliver_draws (s : State) (r : Result) (l : List Act) : (s.deliver r l).draws = s.draws := rfl
@[simp] theorem State.deliver_opts (s : State) (r : Result) (l : List Act) : (s.deliver r l).opts = s.opts := rfl

-- ackStatus

@[simp] theorem ackStatus_ctl (v : Status) (s : State) : (ackStatus v s).ctl = s.ctl := rfl
@[simp] theorem ackStatus_txn (v : Status) (s : State) : (ackStatus v s).txn = s.txn := rfl
@[simp] theorem ackStatus_lock (v : Status) (s : State) : (ackStatus v s).lock = s.lock := rfl
@[simp] theorem ackStatus_ie (v : Status) (s : State) : (ackStatus v s).ie = s.ie := rfl
@[simp] theorem ackStatus_cnt (v : Status) (s : State) : (ackStatus v s).cnt = s.cnt := rfl
@[simp] theorem ackStatus_con (v : Status) (s : State) : (ackStatus v s).con = s.con := rfl
@[simp] theorem ackStatus_sa (v : Status) (s : State) : (ackStatus v s).sa = s.sa := rfl
@[simp] theorem ackStatus_psc (v : Status) (s : State) : (ackStatus v s).psc = s.psc := rfl
@[simp] theorem ackStatus_scll (v : Status) (s : State) : (ackStatus v s).scll = s.scll := rfl
@[simp] theorem ackStatus_sclh (v : Status) (s : State) : (ackStatus v s).sclh = s.sclh := rfl
@[simp] theorem ackStatus_modulemode (v : Status) (s : State) : (ackStatus v s).modulemode = s.modulemode := rfl
@[simp] theorem ackStatus_idlest (v : Status) (s : State) : (ackStatus v s).idlest = s.idlest := rfl
@[simp] theorem ackStatus_wire (v : Status) (s : State) : (ackStatus v s).wire = s.wire := rfl
@[simp] theorem ackStatus_env (v : Status) (s : State) : (ackStatus v s).env = s.env := rfl
@[simp] theorem ackStatus_mem (v : Status) (s : State) : (ackStatus v s).mem = s.mem := rfl
@[simp] theorem ackStatus_callers (v : Status) (s : State) : (ackStatus v s).callers = s.callers := rfl
@[simp] theorem ackStatus_isr (v : Status) (s : State) : (ackStatus v s).isr = s.isr := rfl
@[simp] theorem ackStatus_actor (v : Status) (s : State) : (ackStatus v s).actor = s.actor := rfl
@[simp] theorem ackStatus_sched (v : Status) (s : State) : (ackStatus v s).sched = s.sched := rfl
@[simp] theorem ackStatus_draws (v : Status) (s : State) : (ackStatus v s).draws = s.draws := rfl
@[simp] theorem ackStatus_opts (v : Status) (s : State) : (ackStatus v s).opts = s.opts := rfl

-- passed

@[simp] theorem Env.passed_eq_refSlave (e : Env) (r : RefSlave) : e.passed = .refSlave r ↔ e = .refSlave r := by
  cases e <;> simp [Env.passed]

-- drawBytes

@[simp] theorem State.drawBytes_length (s : State) (n : Nat) : (s.drawBytes n).length = n := by simp [State.drawBytes]

end Sys2Proof.Machine
end

