-- ==== Sys2Proof/Laws/Callers.lean ====
section
/-!
SUPPORT. The caller table under the updates the lines make: this caller's entry after each, every other caller's
unchanged, and the canonical form kept.
-/
namespace Sys2Proof.Machine

/-- The caller table is in canonical form. -/
abbrev State.CallersWf (s : State) : Prop := sparseWf Caller.fresh s.callers

theorem State.CallersWf.putCaller {s : State} (h : s.CallersWf) (k : Nat) (c : Caller) : (s.putCaller k c).CallersWf :=
  sparseWrite_wf h k c

theorem State.CallersWf.putSelf {s : State} (h : s.CallersWf) (c : Caller) : (s.putSelf c).CallersWf :=
  sparseWrite_wf h _ c

theorem State.CallersWf.setTask {s : State} (h : s.CallersWf) (l : List Act) : (s.setTask l).CallersWf := h.putSelf _

theorem State.CallersWf.ret {s : State} (h : s.CallersWf) (r : Result) : (s.ret r).CallersWf := h.putSelf _

theorem State.CallersWf.goOn {s : State} (h : s.CallersWf) (r : Result) (l : List Act) : (s.goOn r l).CallersWf :=
  h.putSelf _

theorem State.CallersWf.begin {s : State} (h : s.CallersWf) (l : List Act) : (s.begin l).CallersWf := h.goOn _ _

theorem State.CallersWf.deliver {s : State} (h : s.CallersWf) (r : Result) (l : List Act) : (s.deliver r l).CallersWf :=
  h.goOn _ _

theorem State.self_setTask {s : State} (h : s.CallersWf) (l : List Act) : (s.setTask l).self = { s.self with task := l } :=
  State.self_putSelf h _

theorem State.self_ret {s : State} (h : s.CallersWf) (r : Result) : (s.ret r).self = { s.self with result := r } :=
  State.self_putSelf h _

theorem State.self_goOn {s : State} (h : s.CallersWf) (r : Result) (l : List Act) :
    (s.goOn r l).self = { s.self with result := r, task := l } := State.self_putSelf h _

theorem State.self_begin {s : State} (h : s.CallersWf) (l : List Act) :
    (s.begin l).self = { s.self with result := .pending, task := l ++ s.self.task } := State.self_putSelf h _

theorem State.self_deliver {s : State} (h : s.CallersWf) (r : Result) (l : List Act) :
    (s.deliver r l).self = { s.self with result := r, task := if r.isErr then unwind l else l } := State.self_putSelf h _

/-- A caller with lines left is read back in any caller table. -/
theorem State.self_goOn_cons (s : State) (r : Result) (a : Act) (l : List Act) :
    (s.goOn r (a :: l)).self = { s.self with result := r, task := a :: l } :=
  sparseRead_write_ne _ _ fun h => by injection h with h; cases h

/-- Another caller's entry is unchanged by an update of this one. -/
theorem State.caller_putSelf_other (s : State) {k : Nat} (h : k ≠ s.actor) (c : Caller) :
    (s.putSelf c).caller k = s.caller k := sparseRead_write_other h c

theorem State.caller_setTask_other (s : State) {k : Nat} (h : k ≠ s.actor) (l : List Act) :
    (s.setTask l).caller k = s.caller k := sparseRead_write_other h _

theorem State.caller_goOn_other (s : State) {k : Nat} (h : k ≠ s.actor) (r : Result) (l : List Act) :
    (s.goOn r l).caller k = s.caller k := sparseRead_write_other h _

theorem State.caller_ret_other (s : State) {k : Nat} (h : k ≠ s.actor) (r : Result) :
    (s.ret r).caller k = s.caller k := sparseRead_write_other h _

/-- A turn of a caller inside an operation performs its next line. -/
theorem advance_cons {s : State} {a : Act} {rest : List Act} (h : s.self.task = a :: rest) :
    advance s = performLine a rest s := by
  rw [advance, h]

theorem turns_succ (n : Nat) (s : State) : turns (n + 1) s = andThen (advance s) (turns n) := rfl

/-- Turns in two parts. -/
theorem turns_add (m n : Nat) (s : State) : turns (m + n) s = andThen (turns m s) (turns n) := by
  induction m generalizing s with
  | zero => simp [turns, andThen]
  | succ m ih =>
    rw [Nat.succ_add, turns_succ, turns_succ]
    cases advance s with
    | next t => exact ih t
    | fault r => rfl
    | refused r => rfl

end Sys2Proof.Machine
end

