-- ==== Sys2Proof/Laws/Encoding.lean ====
section
/-!
SUPPORT. Reading back each piece an encoding is made of (log 3, 30_encoding R102, R103).
-/
namespace Sys2Proof

theorem word_bytes (w : Word) :
    (w.extractLsb' 24 8 ++ (w.extractLsb' 16 8 ++ (w.extractLsb' 8 8 ++ w.extractLsb' 0 8 : BitVec 16) : BitVec 24)
      : BitVec 32) = w := by
  ext i hi
  simp only [BitVec.getElem_append, BitVec.getElem_extractLsb']
  rw [← BitVec.getLsbD_eq_getElem]
  simp only [Nat.reduceAdd]
  split
  · split
    · split
      · simp
      · rw [show 8 + (i - 8) = i by omega]
    · rw [show 16 + (i - 16) = i by omega]
  · rw [show 24 + (i - 24) = i by omega]

@[simp] theorem withByte_cons (b : Byte) (rest : List Byte) (k : Byte → List Byte → Decoded) :
    withByte (b :: rest) k = k b rest := rfl

@[simp] theorem withWord_wordBytes (w : Word) (rest : List Byte) (k : Word → List Byte → Decoded) :
    withWord (wordBytes w ++ rest) k = k w rest := by
  show k _ rest = k w rest
  exact congrArg (k · rest) (word_bytes w)

@[simp] theorem withDir_dirByte (d : Dir) (rest : List Byte) (k : Dir → List Byte → Decoded) :
    withDir (dirByte d :: rest) k = k d rest := by cases d <;> rfl

@[simp] theorem withBuffer_none (rest : List Byte) (k : Option Word → List Byte → Decoded) :
    withBuffer (bufferBytes none ++ rest) k = k none rest := rfl

@[simp] theorem withBuffer_bufferBytes (b : Option Word) (rest : List Byte)
    (k : Option Word → List Byte → Decoded) : withBuffer (bufferBytes b ++ rest) k = k b rest := by
  cases b with
  | none => rfl
  | some w => exact withWord_wordBytes w rest fun w r => k (some w) r

-- Register accesses, for all offsets

theorem Reg.mem_all (r : Reg) : r ∈ Reg.all := by cases r <;> decide

/-- Offsets tell the registers of a block apart. -/
theorem Reg.offset_inj (o : Options) {r q : Reg} (hb : r.block = q.block) (h : r.offset o = q.offset o) : r = q :=
  o.map.distinct r r.mem_all q q.mem_all hb h

/-- The register found at an offset of a block has that offset and is in that block. -/
theorem ofOffset_some {o : Options} {blk : Block} {off : BitVec 12} {g : Reg} (h : Reg.ofOffset o blk off = some g) :
    g.offset o = off ∧ g.block = blk := by
  have := List.find?_some h
  simp only [Bool.and_eq_true, beq_iff_eq] at this
  exact ⟨this.2, this.1⟩

/-- A register is found at its offset. -/
@[simp] theorem ofOffset_offset (o : Options) (g : Reg) : Reg.ofOffset o g.block (g.offset o) = some g := by
  cases h : Reg.ofOffset o g.block (g.offset o) with
  | none =>
    have := List.find?_eq_none.1 h g g.mem_all
    simp at this
  | some q =>
    obtain ⟨h1, h2⟩ := ofOffset_some h
    rw [Reg.offset_inj o h2 h1]

/-- No register is found exactly where none has the offset. -/
theorem ofOffset_none {o : Options} {blk : Block} {off : BitVec 12} :
    Reg.ofOffset o blk off = none ↔ ∀ r : Reg, r.block = blk → r.offset o ≠ off := by
  refine ⟨fun h r hb ho => ?_, fun h => ?_⟩
  · have := List.find?_eq_none.1 h r r.mem_all
    simp [hb, ho] at this
  · cases hq : Reg.ofOffset o blk off with
    | none => rfl
    | some q => obtain ⟨h1, h2⟩ := ofOffset_some hq; exact absurd h1 (h q h2)

/-- The fields of an access code (30 R102). -/
theorem accessCode_fields (o : Options) (w : Bool) (g : Reg) :
    (accessCode o w g).extractLsb' 12 2 = 0 ∧ (accessCode o w g).extractLsb' 0 12 = g.offset o
      ∧ (accessCode o w g).getLsbD 14 = (g.block == .clk) ∧ (accessCode o w g).getLsbD 15 = w := by
  have bit : ∀ i, (accessCode o w g).getLsbD i
      = if i < 12 then (g.offset o).getLsbD i else if i < 14 then (0#2).getLsbD (i - 12)
        else if i < 15 then (BitVec.ofBool (g.block == .clk)).getLsbD (i - 14)
        else (BitVec.ofBool w).getLsbD (i - 15) := by
    intro i
    show (BitVec.ofBool w ++ BitVec.ofBool (g.block == .clk) ++ (0#2 ++ g.offset o : BitVec (2 + 12))
      : BitVec (1 + 1 + (2 + 12))).getLsbD i = _
    simp only [BitVec.getLsbD_append]
    by_cases a : i < 12
    · rw [if_pos (by omega), if_pos a, if_pos a]
    by_cases b : i < 14
    · rw [if_pos (by omega), if_neg a, if_neg a, if_pos b]
    rw [if_neg (by omega), if_neg a, if_neg b]
    by_cases c : i < 15
    · rw [if_pos (by omega), if_pos c]
    rw [if_neg (by omega), if_neg c, show i - (2 + 12) - 1 = i - 15 by omega]
  refine ⟨?_, ?_, ?_, ?_⟩
  · apply BitVec.eq_of_getLsbD_eq; intro i hi
    rw [BitVec.getLsbD_extractLsb', bit, if_neg (by omega), if_pos (by omega)]; simp
  · apply BitVec.eq_of_getLsbD_eq; intro i hi
    rw [BitVec.getLsbD_extractLsb', bit, if_pos (by omega)]; simp [hi]
  · rw [bit, if_neg (by omega), if_neg (by omega), if_pos (by omega)]; simp
  · rw [bit, if_neg (by omega), if_neg (by omega), if_neg (by omega)]; simp

/-- The two bytes of a 16-bit number, put together again. -/
theorem code_bytes (acc : BitVec 16) : (acc.extractLsb' 8 8 ++ acc.extractLsb' 0 8 : BitVec 16) = acc := by
  apply BitVec.eq_of_getLsbD_eq; intro i hi
  show (acc.extractLsb' 8 8 ++ acc.extractLsb' 0 8 : BitVec (8 + 8)).getLsbD i = _
  rw [BitVec.getLsbD_append]
  split
  · rw [BitVec.getLsbD_extractLsb']; simp [*]
  · rw [BitVec.getLsbD_extractLsb', show 8 + (i - 8) = i by omega]; simp; omega

/-- Decoding the two bytes of an access code. -/
theorem decodeRegacc_code (o : Options) (acc : BitVec 16) (rest : List Byte) :
    decodeRegacc o (acc.extractLsb' 0 8 :: acc.extractLsb' 8 8 :: rest)
      = if acc.extractLsb' 12 2 ≠ 0 then .error .reservedAccessCode
        else match Reg.ofOffset o (if acc.getLsbD 14 then .clk else .i2c) (acc.extractLsb' 0 12) with
          | none => .error (.undocumentedOffset (if acc.getLsbD 14 then .clk else .i2c))
          | some g =>
            if acc.getLsbD 15 then withWord rest fun v r => .ok (writeInstr v g, r) else .ok (readInstr g, rest) := by
  simp only [decodeRegacc, withByte_cons, code_bytes]
  all_goals (split <;> rfl)

theorem block_of_bit (g : Reg) : (if (g.block == Block.clk) = true then Block.clk else .i2c) = g.block := by
  cases g <;> rfl

theorem decodeRegacc_read (o : Options) (g : Reg) (rest : List Byte) :
    decodeRegacc o (accessBytes o false g ++ rest) = .ok (readInstr g, rest) := by
  obtain ⟨h1, h2, h3, h4⟩ := accessCode_fields o false g
  refine (decodeRegacc_code o _ rest).trans ?_
  rw [if_neg (by simp [h1]), h2, h3, h4, block_of_bit, ofOffset_offset]
  rfl

theorem decodeRegacc_write (o : Options) (g : Reg) (v : Word) (rest : List Byte) :
    decodeRegacc o (accessBytes o true g ++ (wordBytes v ++ rest)) = .ok (writeInstr v g, rest) := by
  obtain ⟨h1, h2, h3, h4⟩ := accessCode_fields o true g
  refine (decodeRegacc_code o _ _).trans ?_
  rw [if_neg (by simp [h1]), h2, h3, h4, block_of_bit, ofOffset_offset]
  simp

-- What decoding took apart

theorem withByte_ok {bs : List Byte} {k : Byte → List Byte → Decoded} {x : Instr × List Byte}
    (h : withByte bs k = .ok x) : ∃ b rest, bs = b :: rest ∧ k b rest = .ok x := by
  cases bs with
  | nil => cases h
  | cons b rest => exact ⟨b, rest, rfl, h⟩

theorem getLsbD_bytes (a b c d : Byte) (i : Nat) (hi : i < 8) :
    let w : BitVec (8 + (8 + (8 + 8))) := d ++ (c ++ (b ++ a))
    w.getLsbD i = a.getLsbD i ∧ w.getLsbD (8 + i) = b.getLsbD i ∧ w.getLsbD (16 + i) = c.getLsbD i
      ∧ w.getLsbD (24 + i) = d.getLsbD i := by
  simp only [BitVec.getLsbD_append]
  refine ⟨?_, ?_, ?_, ?_⟩
  · rw [if_pos (by omega), if_pos (by omega), if_pos (by omega)]
  · rw [if_pos (by omega), if_pos (by omega), if_neg (by omega)]; congr 1; omega
  · rw [if_pos (by omega), if_neg (by omega)]; congr 1; omega
  · rw [if_neg (by omega)]; congr 1; omega

/-- The bytes of a value read from four bytes are those four. -/
theorem wordBytes_of_bytes (a b c d : Byte) :
    wordBytes (d ++ (c ++ (b ++ a : BitVec 16) : BitVec 24)) = [a, b, c, d] := by
  have h := fun i hi => getLsbD_bytes a b c d i hi
  unfold wordBytes
  congr 1
  · apply BitVec.eq_of_getLsbD_eq; intro i hi; rw [BitVec.getLsbD_extractLsb', ← (h i hi).1]; simp [hi]
  congr 1
  · apply BitVec.eq_of_getLsbD_eq; intro i hi; rw [BitVec.getLsbD_extractLsb', ← (h i hi).2.1]; simp [hi]
  congr 1
  · apply BitVec.eq_of_getLsbD_eq; intro i hi; rw [BitVec.getLsbD_extractLsb', ← (h i hi).2.2.1]; simp [hi]
  congr 1
  · apply BitVec.eq_of_getLsbD_eq; intro i hi; rw [BitVec.getLsbD_extractLsb', ← (h i hi).2.2.2]; simp [hi]

theorem withWord_ok {bs : List Byte} {k : Word → List Byte → Decoded} {x : Instr × List Byte}
    (h : withWord bs k = .ok x) : ∃ w rest, bs = wordBytes w ++ rest ∧ k w rest = .ok x := by
  unfold withWord at h
  split at h
  · rename_i a b c d rest
    exact ⟨_, rest, by rw [wordBytes_of_bytes]; rfl, h⟩
  · cases h

theorem withDir_ok {bs : List Byte} {k : Dir → List Byte → Decoded} {x : Instr × List Byte}
    (h : withDir bs k = .ok x) : ∃ d rest, bs = dirByte d :: rest ∧ k d rest = .ok x := by
  obtain ⟨b, rest, rfl, hk⟩ := withByte_ok h
  clear h
  split at hk
  · rename_i hb; exact ⟨.tx, rest, by rw [hb]; rfl, hk⟩
  · split at hk
    · rename_i hb; exact ⟨.rx, rest, by rw [hb]; rfl, hk⟩
    · cases hk

theorem withBuffer_ok {bs : List Byte} {k : Option Word → List Byte → Decoded} {x : Instr × List Byte}
    (h : withBuffer bs k = .ok x) : ∃ b rest, bs = bufferBytes b ++ rest ∧ k b rest = .ok x := by
  obtain ⟨b, rest, rfl, hk⟩ := withByte_ok h
  clear h
  split at hk
  · rename_i hb; exact ⟨none, rest, by rw [hb]; rfl, hk⟩
  · split at hk
    · rename_i hb
      obtain ⟨w, rest', rfl, hw⟩ := withWord_ok hk
      exact ⟨some w, rest', by rw [hb]; rfl, hw⟩
    · cases hk

/-- Two bytes that name an access are the bytes of that access (30 R102). -/
theorem accessBytes_of_code (o : Options) (lo hi : Byte) (g : Reg) (h1 : (hi ++ lo : BitVec 16).extractLsb' 12 2 = 0)
    (h2 : Reg.ofOffset o (if (hi ++ lo : BitVec 16).getLsbD 14 then .clk else .i2c)
      ((hi ++ lo : BitVec 16).extractLsb' 0 12) = some g) :
    accessBytes o ((hi ++ lo : BitVec 16).getLsbD 15) g = [lo, hi] := by
  have e1 : (hi ++ lo : BitVec 16).extractLsb' 0 8 = lo := by
    apply BitVec.eq_of_getLsbD_eq; intro i h
    rw [BitVec.getLsbD_extractLsb', show 0 + i = i by omega,
      show (hi ++ lo : BitVec 16).getLsbD i = (hi ++ lo : BitVec (8 + 8)).getLsbD i from rfl, BitVec.getLsbD_append,
      if_pos h]
    simp [h]
  have e2 : (hi ++ lo : BitVec 16).extractLsb' 8 8 = hi := by
    apply BitVec.eq_of_getLsbD_eq; intro i h
    rw [BitVec.getLsbD_extractLsb',
      show (hi ++ lo : BitVec 16).getLsbD (8 + i) = (hi ++ lo : BitVec (8 + 8)).getLsbD (8 + i) from rfl,
      BitVec.getLsbD_append, if_neg (by omega)]
    simp [h]
  generalize (hi ++ lo : BitVec 16) = acc at *
  have key : accessCode o (acc.getLsbD 15) g = acc := by
    obtain ⟨ho, hb⟩ := ofOffset_some h2
    have hb : (g.block == .clk) = acc.getLsbD 14 := by rw [hb]; cases acc.getLsbD 14 <;> rfl
    unfold accessCode
    rw [ho, hb]
    have h12 := congrArg (fun x => x.getLsbD 0) h1
    have h13 := congrArg (fun x => x.getLsbD 1) h1
    simp at h12 h13
    apply BitVec.eq_of_getLsbD_eq
    intro i hi'
    show (BitVec.ofBool (acc.getLsbD 15) ++ BitVec.ofBool (acc.getLsbD 14)
      ++ (0#2 ++ acc.extractLsb' 0 12 : BitVec (2 + 12)) : BitVec (1 + 1 + (2 + 12))).getLsbD i = _
    simp only [BitVec.getLsbD_append]
    by_cases a : i < 12
    · rw [if_pos (by omega), if_pos a]; simp [a]
    by_cases b : i < 14
    · rw [if_pos (by omega), if_neg a]
      have : i = 12 ∨ i = 13 := by omega
      rcases this with rfl | rfl <;> simp [*]
    rw [if_neg (by omega)]
    have : i = 14 ∨ i = 15 := by omega
    rcases this with rfl | rfl <;> simp
  unfold accessBytes
  rw [key, e1, e2]

-- Words made of bits at positions (30 R103, R104)

/-- A word of one bit. -/
theorem getLsbD_bitAt (k : Fin 32) (b : Bool) (i : Nat) (hi : i < 32) :
    (bitAt k b).getLsbD i = (decide (i = k.val) && b) := by
  unfold bitAt
  cases b
  · simp
  · simp only [if_true, BitVec.getLsbD_shiftLeft, Bool.and_true]
    by_cases h : i = k.val
    · subst h; simp [hi]
    · simp [h, hi]; omega

/-- The five control bits of the word made of them. -/
@[simp] theorem ControlBits.ofWord_toWord (m : BitMap) (c : ControlBits) : ofWord m (toWord m c) = c := by
  have h := m.controlDistinct
  simp only [List.nodup_cons, List.mem_cons, List.not_mem_nil, or_false, not_or, List.nodup_nil, and_true,
    not_false_eq_true, Fin.ext_iff] at h
  obtain ⟨⟨a1, a2, a3, a4⟩, ⟨b1, b2, b3⟩, ⟨c1, c2⟩, d1⟩ := h
  cases c
  simp only [ofWord, toWord, BitVec.getLsbD_or, getLsbD_bitAt _ _ _ (Fin.is_lt _)]
  simp [a1, a2, a3, a4, b1, b2, b3, c1, c2, d1, Ne.symm a1, Ne.symm a2, Ne.symm a3, Ne.symm a4, Ne.symm b1, Ne.symm b2,
    Ne.symm b3, Ne.symm c1, Ne.symm c2, Ne.symm d1]

end Sys2Proof
end

