-- ==== Sys2Proof/Laws/Registers.lean ====
section
/-!
SUPPORT. What a register access can do: the prologue decided once, the access of an open block, and the inversion of an
access that answers a next state (40 R130 to R155).
-/
namespace Sys2Proof.Machine

-- Words of status and control bits

/-- The five bits of a STATW word (30 R104). -/
theorem statw_bits (m : BitMap) (v : Word) :
    (statw m v).getLsbD 0 = v.getLsbD m.al ∧ (statw m v).getLsbD 1 = v.getLsbD m.nack
      ∧ (statw m v).getLsbD 2 = v.getLsbD m.ardy ∧ (statw m v).getLsbD 3 = v.getLsbD m.rrdy
      ∧ (statw m v).getLsbD 4 = v.getLsbD m.xrdy := by
  unfold statw
  generalize v.getLsbD m.al = a, v.getLsbD m.nack = b, v.getLsbD m.ardy = c, v.getLsbD m.rrdy = d, v.getLsbD m.xrdy = e
  revert a b c d e; decide

/-- Five bits determine a status. -/
theorem status_ext {x y : Status} (h : ∀ k, k < 5 → x.getLsbD k = y.getLsbD k) : x = y :=
  BitVec.eq_of_getLsbD_eq h

/-- The bits of the word of a status, at every position (30 R104). -/
theorem statWord_isStatWord (m : BitMap) (st : Status) : isStatWord m st (statWord m st) := by
  intro k
  simp only [statWord, BitVec.getLsbD_or, getLsbD_bitAt _ _ _ k.isLt, Fin.val_inj]
  rfl

/-- The bits of the word CON reads as, at every position (10_state R37). -/
theorem conWord_isConWord (m : BitMap) (c : Con) : isConWord m c (c.word m) := by
  intro k
  simp only [Con.word, ControlBits.toWord, BitVec.getLsbD_or, getLsbD_bitAt _ _ _ k.isLt, Fin.val_inj, Bool.and_false,
    Bool.or_false]
  rfl

@[simp] theorem dataByte_dataWord (b : Byte) : dataByte (dataWord b) = b := by
  unfold dataByte dataWord; revert b; decide

/-- The status bits of the word made of them. -/
@[simp] theorem statw_statWord (m : BitMap) (x : Status) : statw m (statWord m x) = x := by
  have h := m.statusDistinct
  simp only [List.nodup_cons, List.mem_cons, List.not_mem_nil, or_false, not_or, List.nodup_nil, and_true,
    not_false_eq_true] at h
  obtain ⟨⟨a1, a2, a3, a4⟩, ⟨b1, b2, b3⟩, ⟨c1, c2⟩, d1⟩ := h
  have w := statWord_isStatWord m x
  obtain ⟨h0, h1, h2, h3, h4⟩ := statw_bits m (statWord m x)
  have ne : ∀ {a b : Fin 32}, a ≠ b → (a == b) = false := fun h => beq_false_of_ne h
  apply status_ext
  intro k hk
  have : k = 0 ∨ k = 1 ∨ k = 2 ∨ k = 3 ∨ k = 4 := by omega
  rcases this with rfl | rfl | rfl | rfl | rfl
  · rw [h0, w]; simp [ne a1, ne a2, ne a3, ne a4]
  · rw [h1, w]; simp [ne (Ne.symm a1), ne b1, ne b2, ne b3]
  · rw [h2, w]; simp [ne (Ne.symm a2), ne (Ne.symm b1), ne c1, ne c2]
  · rw [h3, w]; simp [ne (Ne.symm a3), ne (Ne.symm b2), ne (Ne.symm c1), ne d1]
  · rw [h4, w]; simp [ne (Ne.symm a4), ne (Ne.symm b3), ne (Ne.symm c2), ne (Ne.symm d1)]

-- Words of CLKCTRL and CNT

/-- The bits of a field placed at a position. -/
theorem getLsbD_fieldAt (k : Fin 31) (x : BitVec 2) (i : Nat) :
    (fieldAt k x).getLsbD i = (decide (k.val ≤ i) && x.getLsbD (i - k.val)) := by
  have hk := k.isLt
  simp only [fieldAt, BitVec.getLsbD_shiftLeft, BitVec.getLsbD_setWidth]
  by_cases hi : i < 32
  · by_cases h : i < k.val
    · simp [hi, h, Nat.not_le.2 h]
    · have h : k.val ≤ i := Nat.le_of_not_lt h
      have h32 : i - k.val < 32 := by omega
      simp [hi, Nat.not_lt.2 h, h, h32]
  · have : x.getLsbD (i - k.val) = false := BitVec.getLsbD_of_ge _ _ (by omega)
    simp [hi, this]

/-- A field is read back beside another that shares no bit with it. -/
theorem fieldOf_or {p q : Fin 31} (h : p.val + 2 ≤ q.val ∨ q.val + 2 ≤ p.val) (x y : BitVec 2) :
    fieldOf p (fieldAt p x ||| fieldAt q y) = x := by
  apply BitVec.eq_of_getLsbD_eq
  intro i hi
  have hy : (decide (q.val ≤ p.val + i) && y.getLsbD (p.val + i - q.val)) = false := by
    rcases h with h | h
    · simp [show ¬q.val ≤ p.val + i by omega]
    · simp [BitVec.getLsbD_of_ge y (p.val + i - q.val) (by omega)]
  have e : p.val + i - p.val = i := by omega
  simp [fieldOf, hi, getLsbD_fieldAt, hy, e]

/-- The word of CLKCTRL, bit by bit (10_state R42, 30 R105). -/
theorem clkctrl_isClkWord (s : State) : isClkWord s.opts.bits s.idlest s.modulemode s.clkctrl := by
  intro k
  simp only [State.clkctrl, clkWord, BitVec.getLsbD_or, getLsbD_fieldAt]

/-- A field of a word, written out by its two bits. -/
theorem fieldOf_eq {k : Fin 31} {v : Word} {x : BitVec 2} (h0 : x.getLsbD 0 = v.getLsbD k.val)
    (h1 : x.getLsbD 1 = v.getLsbD (k.val + 1)) : fieldOf k v = x := by
  apply BitVec.eq_of_getLsbD_eq
  intro i hi
  have : i = 0 ∨ i = 1 := by omega
  rcases this with rfl | rfl
  · rw [h0, fieldOf, BitVec.getLsbD_extractLsb']; rfl
  · rw [h1, fieldOf, BitVec.getLsbD_extractLsb']; rfl

/-- The request word asks for the clock (30 R105). -/
@[simp] theorem fieldOf_clkRequestWord (m : BitMap) (c : Word) :
    fieldOf m.modulemode (clkRequestWord m c) = 2 :=
  fieldOf_eq (by simp [clkRequestWord, clkReleaseWord, getLsbD_fieldAt])
    (by simp [clkRequestWord, clkReleaseWord, getLsbD_fieldAt])

/-- The release word gives the clock up (30 R105). -/
@[simp] theorem fieldOf_clkReleaseWord (m : BitMap) (c : Word) : fieldOf m.modulemode (clkReleaseWord m c) = 0 :=
  fieldOf_eq (by simp [clkReleaseWord, getLsbD_fieldAt]) (by simp [clkReleaseWord, getLsbD_fieldAt])

/-- The stored bits as a number (40 R140). -/
theorem lowBits_toNat {w : Nat} (hw : w ≤ 32) (v : Word) : (lowBits w v).toNat = v.toNat % 2 ^ w := by
  have h : v.toNat % 2 ^ w < 2 ^ 32 :=
    Nat.lt_of_lt_of_le (Nat.mod_lt _ (Nat.two_pow_pos w)) (Nat.pow_le_pow_right (by decide) hw)
  simp only [lowBits, BitVec.toNat_setWidth]
  exact Nat.mod_eq_of_lt h

/-- A length up to `MAX_LEN` fits in a word. -/
theorem maxLen_lt (o : Options) : o.maxLen < 2 ^ 32 :=
  Nat.lt_of_lt_of_le o.count.fits (Nat.pow_le_pow_right (by decide) o.count.inWord)

/-- A length up to `MAX_LEN` is stored whole. -/
theorem lowBits_cntWord {o : Options} {n : Nat} (h : n ≤ o.maxLen) : lowBits o.cntW (cntWord n) = BitVec.ofNat 32 n := by
  apply BitVec.eq_of_toNat_eq
  rw [lowBits_toNat o.count.inWord, cntWord, BitVec.toNat_ofNat, Nat.mod_eq_of_lt (Nat.lt_of_le_of_lt h (maxLen_lt o)),
    Nat.mod_eq_of_lt (Nat.lt_of_le_of_lt h o.count.fits)]

-- The clock predicates and the prologue

/-- `clk_live` of a word of CLKCTRL is IDLEST = 0 (41 R170). -/
@[simp] theorem clkLive_clkWord (m : BitMap) (i c : BitVec 2) : clkLive m (clkWord m i c) = (i == 0) := by
  rw [clkLive, clkWord, fieldOf_or m.fieldsApart.symm]

/-- `functional` of a word of CLKCTRL is MODULEMODE = 2 and IDLEST = 0 (41 R170). -/
@[simp] theorem functional_clkWord (m : BitMap) (i c : BitVec 2) : functional m (clkWord m i c) = (c == 2 && i == 0) := by
  rw [functional, clkLive_clkWord, clkWord, BitVec.or_comm, fieldOf_or m.fieldsApart]

/-- `clk_live` of CLKCTRL. -/
@[simp] theorem clkLive_clkctrl (s : State) : clkLive s.opts.bits s.clkctrl = (s.idlest == 0) := clkLive_clkWord _ _ _

/-- `functional` of CLKCTRL. -/
@[simp] theorem functional_clkctrl (s : State) :
    functional s.opts.bits s.clkctrl = (s.modulemode == 2 && s.idlest == 0) := functional_clkWord _ _ _

theorem State.i2cOpen_iff (s : State) : s.i2cOpen = true ↔ s.ctl.i2cMapped = true ∧ s.idlest = 0 := by
  simp [State.i2cOpen]

@[simp] theorem State.mapped_i2c (s : State) : s.mapped .i2c = s.ctl.i2cMapped := rfl

@[simp] theorem State.mapped_clk (s : State) : s.mapped .clk = s.ctl.clkMapped := rfl

/-- The prologue passes in an open block. -/
theorem access_open {s : State} (h : s.i2cOpen = true) {r : Reg} (hr : r.block = .i2c) : access r s = .next s := by
  obtain ⟨hm, hi⟩ := s.i2cOpen_iff.1 h
  simp [access, hr, hm, hi]

/-- The prologue of CLKCTRL passes where the clock block is mapped. -/
theorem access_clk {s : State} (h : s.ctl.clkMapped = true) : access .clkctrl s = .next s := by
  simp [access, Reg.block, h]

/-- The prologue changes nothing, and passes only where it must. -/
theorem access_next {r : Reg} {s t : State} (h : access r s = .next t) :
    t = s ∧ (r.block = .i2c → s.i2cOpen = true) ∧ (r.block = .clk → s.ctl.clkMapped = true) := by
  unfold access at h
  split at h
  · cases h
  · split at h
    · cases h
    · cases h
      refine ⟨rfl, fun hb => ?_, fun hb => ?_⟩ <;> simp_all [State.i2cOpen_iff]

theorem andThen_next {α β : Type} {x : Res α} {f : α → Res β} {b : β} (h : andThen x f = .next b) :
    ∃ a, x = .next a ∧ f a = .next b := by
  cases x with
  | next a => exact ⟨a, rfl, h⟩
  | fault r => cases h
  | refused r => cases h

@[simp] theorem andThen_of_next {α β : Type} (a : α) (f : α → Res β) : andThen (.next a) f = f a := rfl

theorem andThen_fault {α β : Type} {x : Res α} {f : α → Res β} {e : Fault} (h : andThen x f = .fault e) :
    x = .fault e ∨ ∃ a, x = .next a ∧ f a = .fault e := by
  cases x with
  | next a => exact .inr ⟨a, rfl, h⟩
  | fault r => cases h; exact .inl rfl
  | refused r => cases h

theorem regRead_open {s : State} (h : s.i2cOpen = true) {r : Reg} (hr : r.block = .i2c) :
    regRead r s = .next (readRule r s) := by
  rw [regRead, access_open h hr]; rfl

theorem regRead_clk {s : State} (h : s.ctl.clkMapped = true) : regRead .clkctrl s = .next (s.clkctrl, s) := by
  rw [regRead, access_clk h]; rfl

theorem callerRead_open {s : State} (h : s.i2cOpen = true) {r : Reg} (hr : r.block = .i2c) :
    callerRead r s = .next ((readRule r s).2.ret (.word (readRule r s).1)) := by
  rw [callerRead, regRead_open h hr]; rfl

theorem regRead_next {r : Reg} {s : State} {p : Word × State} (h : regRead r s = .next p) :
    p = readRule r s ∧ (r.block = .i2c → s.i2cOpen = true) ∧ (r.block = .clk → s.ctl.clkMapped = true) := by
  obtain ⟨t, ha, ht⟩ := andThen_next h
  obtain ⟨rfl, ho⟩ := access_next ha
  cases ht
  exact ⟨rfl, ho⟩

/-- All a read can change: the counter of draws, and for DATA the engine, which hands its byte over. -/
theorem readRule_cases (r : Reg) (s : State) :
    (readRule r s).2 = s ∨ (readRule r s).2 = s.tick
      ∨ (r = .data ∧ (∃ b, s.eng.hold = some b) ∧ s.eng.dir = .rx ∧ (s.eng.st ≠ .idle ∨ s.eng.window = true)
        ∧ (readRule r s).2
          = { s with
              eng :=
                { s.eng with
                  hold := none
                  loaded := s.eng.loaded + 1
                  st := if s.eng.st = .rxWait then .rxShift else s.eng.st } }) := by
  have hs : ∀ {w : Nat} (x : Option (BitVec w)), (readStored s x).2 = s ∨ (readStored s x).2 = s.tick := by
    intro w x; cases x <;> simp [readStored]
  cases r
  case irqstatusRaw | irqstatus | irqenableSet | irqenableClr | con | clkctrl => exact .inl rfl
  case sa => exact (hs s.sa).imp id .inl
  case psc => exact (hs s.psc).imp id .inl
  case scll => exact (hs s.scll).imp id .inl
  case sclh => exact (hs s.sclh).imp id .inl
  case cnt =>
    simp only [readRule, readCnt]
    split
    · exact .inl rfl
    · exact .inr (.inl rfl)
  case data =>
    simp only [readRule, readData]
    split
    · rename_i b hb
      split
      · rename_i hc; exact .inr (.inr ⟨trivial, ⟨b, hb⟩, hc.2, hc.1, rfl⟩)
      · exact .inr (.inl rfl)
    · exact .inr (.inl rfl)

/-- The rule of a register's write, after the prologue. -/
def writeRule : Reg → Word → State → Res State
  | .irqstatusRaw, _, _ => .refused .rawStatusWrite
  | .irqstatus, v, s => writeIrqstatus v s
  | .irqenableSet, v, s => writeIrqenableSet v s
  | .irqenableClr, v, s => writeIrqenableClr v s
  | .cnt, v, s => writeCnt v s
  | .data, v, s => writeData v s
  | .con, v, s => writeCon v s
  | .sa, v, s => writeSa v s
  | .psc, v, s => writePsc v s
  | .scll, v, s => writeScll v s
  | .sclh, v, s => writeSclh v s
  | .clkctrl, v, s => writeClkctrl v s

/-- A write is the prologue, then the register's rule. -/
theorem regWrite_access (r : Reg) (v : Word) (s : State) : regWrite r v s = andThen (access r s) (writeRule r v) := by
  cases r <;> rfl

theorem regWrite_open {s : State} (h : s.i2cOpen = true) {r : Reg} (hr : r.block = .i2c) (v : Word) :
    regWrite r v s = writeRule r v s := by
  rw [regWrite_access, access_open h hr]; rfl

theorem regWrite_clk {s : State} (h : s.ctl.clkMapped = true) (v : Word) :
    regWrite .clkctrl v s = writeClkctrl v s := by
  rw [regWrite, access_clk h]; rfl

theorem regWrite_next {r : Reg} {v : Word} {s t : State} (h : regWrite r v s = .next t) :
    writeRule r v s = .next t ∧ (r.block = .i2c → s.i2cOpen = true) ∧ (r.block = .clk → s.ctl.clkMapped = true) := by
  rw [regWrite_access] at h
  obtain ⟨u, ha, ht⟩ := andThen_next h
  obtain ⟨rfl, ho⟩ := access_next ha
  exact ⟨ht, ho⟩

/-- ENG_START latches a count and an address that have values (42 R193). -/
theorem startEngine_next {d : Dir} {s t : State} (h : startEngine d s = .next t) :
    ∃ n a, s.cnt = some n ∧ s.sa = some a ∧ t = { s with eng := .started d n.toNat (a.setWidth 7) } := by
  unfold startEngine at h
  split at h
  · cases h
  · cases h
  · cases h; exact ⟨_, _, ‹_›, ‹_›, rfl⟩

/-- All a write can change. -/
theorem writeRule_cases {r : Reg} {v : Word} {s t : State} (h : writeRule r v s = .next t) :
    (r = .irqstatus ∧ t = ackStatus (statw s.opts.bits v) s)
      ∨ (r = .irqenableSet ∧ t = { s with ie := s.ie ||| statw s.opts.bits v })
      ∨ (r = .irqenableClr ∧ t = { s with ie := s.ie &&& ~~~(statw s.opts.bits v) })
      ∨ (r = .cnt ∧ t = { s with cnt := some (lowBits s.opts.cntW v) })
      ∨ (r = .data ∧ s.eng.st = .txWait
        ∧ t = { s with
                eng := { s.eng with hold := some (dataByte v), loaded := s.eng.loaded + 1, st := .txShift } })
      ∨ (r = .data ∧ t = s)
      ∨ (r = .con ∧ t = { s with con := .stored (.ofWord s.opts.bits v), eng := s.eng.disabled })
      ∨ (r = .con ∧ t = { s with con := .stored (.ofWord s.opts.bits v) })
      ∨ (r = .con ∧ (∃ n d a, s.cnt = some n ∧ n ≠ 0 ∧ t
        = { s with con := .stored (.ofWord s.opts.bits v), eng := .started d n.toNat a }))
      ∨ (r = .sa ∧ t = { s with sa := some (v.extractLsb' 0 10) })
      ∨ (r = .psc ∧ t = { s with psc := some (v.extractLsb' 0 8) })
      ∨ (r = .scll ∧ t = { s with scll := some (v.extractLsb' 0 8) })
      ∨ (r = .sclh ∧ t = { s with sclh := some (v.extractLsb' 0 8) })
      ∨ (r = .clkctrl ∧ (fieldOf s.opts.bits.modulemode v = 0#2 ∨ fieldOf s.opts.bits.modulemode v = 2#2)
        ∧ t = { s with modulemode := fieldOf s.opts.bits.modulemode v }) := by
  cases r
  case irqstatusRaw => cases h
  case irqstatus => cases h; simp
  case irqenableSet => cases h; simp
  case irqenableClr => cases h; simp
  case cnt => cases h; simp
  case sa => cases h; simp
  case data =>
    simp only [writeRule, writeData] at h
    split at h
    · cases h; simp_all
    · split at h
      · cases h; simp
      · split at h
        · cases h; simp
        · cases h
  case con =>
    simp only [writeRule, writeCon, writeControl] at h
    split at h
    · cases h; simp
    · split at h
      · cases h; simp
      · split at h
        · cases h
        · split at h
          · cases h
          · split at h
            · cases h
            · obtain ⟨n, a, hn, -, rfl⟩ := startEngine_next h
              have h0 : ¬s.cnt.getD 0 = 0 := ‹_›
              have hn : s.cnt = some n := hn
              rw [hn] at h0
              exact .inr (.inr (.inr (.inr (.inr (.inr (.inr (.inr (.inl ⟨rfl, n, _, _, hn, h0, rfl⟩))))))))
  case psc =>
    simp only [writeRule, writePsc, timingWrite] at h
    split at h
    · cases h
    · cases h; simp
  case scll =>
    simp only [writeRule, writeScll, timingWrite] at h
    split at h
    · cases h
    · cases h; simp
  case sclh =>
    simp only [writeRule, writeSclh, timingWrite] at h
    split at h
    · cases h
    · cases h; simp
  case clkctrl =>
    simp only [writeRule, writeClkctrl] at h
    split at h
    · cases h
    · cases h
      have hm : ∀ m : BitVec 2, ¬(m = 1 ∨ m = 3) → m = 0 ∨ m = 2 := by decide
      have := hm _ ‹_›
      simp_all

-- Words the sequences write

/-- The request written to CLKCTRL (41 R171). -/
theorem writeClkctrl_request {m : BitMap} {s : State} (h : s.opts.bits = m) (c : Word) :
    writeClkctrl (clkRequestWord m c) s = .next { s with modulemode := 2 } := by
  subst h; simp only [writeClkctrl, fieldOf_clkRequestWord]; rfl

/-- The release written to CLKCTRL (41 R173). -/
theorem writeClkctrl_release {m : BitMap} {s : State} (h : s.opts.bits = m) (c : Word) :
    writeClkctrl (clkReleaseWord m c) s = .next { s with modulemode := 0 } := by
  subst h; simp only [writeClkctrl, fieldOf_clkReleaseWord]; rfl

/-- A word of control bits written to CON (30 R103). -/
theorem writeCon_word {m : BitMap} {s : State} (h : s.opts.bits = m) (c : ControlBits) :
    writeCon (c.toWord m) s = writeControl c s := by
  subst h; rw [writeCon, ControlBits.ofWord_toWord]

-- The operations

theorem exec_readInstr (r : Reg) (s : State) : exec (readInstr r) s = callerRead r s := by cases r <;> rfl

theorem exec_writeInstr (r : Reg) (v : Word) (s : State) : exec (writeInstr v r) s = callerWrite r v s := by
  cases r <;> rfl

theorem callerWrite_open {s : State} (h : s.i2cOpen = true) {r : Reg} (hr : r.block = .i2c) (v : Word) :
    callerWrite r v s = andThen (writeRule r v s) fun s => .next (s.ret .unit) := by
  rw [callerWrite, regWrite_open h hr]

theorem callerWrite_clk {s : State} (h : s.ctl.clkMapped = true) (v : Word) :
    callerWrite .clkctrl v s = andThen (writeClkctrl v s) fun s => .next (s.ret .unit) := by
  rw [callerWrite, regWrite_clk h]

end Sys2Proof.Machine
end

