-- ==== Sys2Proof/Laws/Isr.lean ====
section
/-!
SUPPORT. The interrupt service: an access, a descriptor change and a buffer access do not look at the lines left of the
invocation, so the lines run one after another are the pseudocode; and what one line can change.
-/
namespace Sys2Proof.Machine

/-- The state with these lines left of the invocation in progress. -/
def State.withIsr (s : State) (l : List IsrAct) : State := { s with isr := l }

/-- The same change after every state a computation answers. -/
def resMap {α β : Type} (f : α → β) : Res α → Res β
  | .next a => .next (f a)
  | .fault r => .fault r
  | .refused r => .refused r

@[simp] theorem State.withIsr_withIsr (s : State) (l m : List IsrAct) : (s.withIsr l).withIsr m = s.withIsr m := rfl

@[simp] theorem State.withIsr_self (s : State) : s.withIsr s.isr = s := rfl

theorem State.withIsr_nil {s : State} (h : s.isr = []) : s.withIsr [] = s := by rw [← h]; rfl

theorem readRule_withIsr (r : Reg) (s : State) (l : List IsrAct) :
    readRule r (s.withIsr l) = ((readRule r s).1, (readRule r s).2.withIsr l) := by
  have hs : ∀ {w : Nat} (x : Option (BitVec w)),
      readStored (s.withIsr l) x = ((readStored s x).1, (readStored s x).2.withIsr l) := by
    intro w x; cases x <;> rfl
  cases r
  case irqstatusRaw | irqstatus | irqenableSet | irqenableClr | con | clkctrl => rfl
  case sa => exact hs s.sa
  case psc => exact hs s.psc
  case scll => exact hs s.scll
  case sclh => exact hs s.sclh
  case cnt =>
    simp only [readRule, readCnt, State.withIsr]
    split <;> rfl
  case data =>
    simp only [readRule, readData]
    by_cases hc : (s.eng.st ≠ .idle ∨ s.eng.window = true) ∧ s.eng.dir = .rx
    · simp only [if_pos hc, if_pos (show ((s.withIsr l).eng.st ≠ .idle ∨ (s.withIsr l).eng.window = true)
        ∧ (s.withIsr l).eng.dir = .rx from hc)]
      show (match s.eng.hold with | some b => _ | none => _) = _
      cases s.eng.hold <;> rfl
    · simp only [if_neg hc, if_neg (show ¬(((s.withIsr l).eng.st ≠ .idle ∨ (s.withIsr l).eng.window = true)
        ∧ (s.withIsr l).eng.dir = .rx) from hc)]
      show (match s.eng.hold with | some b => _ | none => _) = _
      cases s.eng.hold <;> rfl

theorem resMap_ite {α β : Type} (f : α → β) (c : Prop) [Decidable c] (x y : Res α) :
    resMap f (if c then x else y) = if c then resMap f x else resMap f y := by split <;> rfl

theorem startEngine_withIsr (d : Dir) (s : State) (l : List IsrAct) :
    resMap (·.withIsr l) (startEngine d s) = startEngine d (s.withIsr l) := by
  show _ = match s.cnt, s.sa with | none, _ => _ | some _, none => _ | some n, some a => _
  unfold startEngine
  split <;> rename_i h <;> simp_all [resMap, State.withIsr]

theorem writeRule_withIsr (r : Reg) (v : Word) (s : State) (l : List IsrAct) :
    writeRule r v (s.withIsr l) = resMap (·.withIsr l) (writeRule r v s) := by
  cases r
  case irqstatusRaw | irqstatus | irqenableSet | irqenableClr | cnt | sa => rfl
  all_goals
    simp only [writeRule, writeData, writeCon, writeControl, writePsc, writeScll, writeSclh, timingWrite, writeClkctrl, resMap_ite,
      startEngine_withIsr]
    rfl

theorem access_withIsr (r : Reg) (s : State) (l : List IsrAct) :
    access r (s.withIsr l) = resMap (·.withIsr l) (access r s) := by
  simp only [access, resMap_ite]
  rfl

theorem regRead_withIsr (r : Reg) (s : State) (l : List IsrAct) :
    regRead r (s.withIsr l) = resMap (fun p => (p.1, p.2.withIsr l)) (regRead r s) := by
  simp only [regRead, access_withIsr]
  cases h : access r s with
  | next t => simp [resMap, andThen, readRule_withIsr]
  | fault e => rfl
  | refused e => rfl

theorem regWrite_withIsr (r : Reg) (v : Word) (s : State) (l : List IsrAct) :
    regWrite r v (s.withIsr l) = resMap (·.withIsr l) (regWrite r v s) := by
  rw [regWrite_access, regWrite_access, access_withIsr]
  cases h : access r s with
  | next t => exact writeRule_withIsr r v t l
  | fault e => rfl
  | refused e => rfl

theorem onTxn_withIsr (s : State) (f : Txn → Txn) (l : List IsrAct) :
    (s.withIsr l).onTxn f = resMap (·.withIsr l) (s.onTxn f) := by
  show (match s.txn with | none => _ | some t => _) = _
  simp only [State.onTxn]
  split <;> rename_i h <;> simp_all [resMap, State.withIsr]

theorem bufGet_withIsr (s : State) (b : Option BufRef) (i : Nat) (l : List IsrAct) :
    (s.withIsr l).bufGet b i = ((s.bufGet b i).1, (s.bufGet b i).2.withIsr l) := by
  have hb : (s.withIsr l).bufByte b i = s.bufByte b i := by
    rcases b with _ | (_ | _ | _) <;> rfl
  simp only [State.bufGet, hb]
  cases s.bufByte b i <;> rfl

theorem bufSet_withIsr (s : State) (b : Option BufRef) (i : Nat) (x : Byte) (l : List IsrAct) :
    (s.withIsr l).bufSet b i x = (s.bufSet b i x).withIsr l := by
  rcases b with _ | (_ | _ | _)
  · rfl
  · rfl
  all_goals
    simp only [State.bufSet, show ∀ c n, (s.withIsr l).inOperation c n = s.inOperation c n from fun _ _ => rfl]
    split <;> rfl

@[simp] theorem State.withIsr_opts (s : State) (l : List IsrAct) : (s.withIsr l).opts = s.opts := rfl

@[simp] theorem resMap_next {α β : Type} (f : α → β) (a : α) : resMap f (.next a) = .next (f a) := rfl

theorem andThen_resMap {α β γ : Type} (f : α → β) (x : Res α) (g : β → Res γ) :
    andThen (resMap f x) g = andThen x fun a => g (f a) := by
  cases x <;> rfl

theorem resMap_andThen {α β γ : Type} (f : β → γ) (x : Res α) (g : α → Res β) :
    resMap f (andThen x g) = andThen x fun a => resMap f (g a) := by
  cases x <;> rfl

theorem andThen_andThen {α β γ : Type} (x : Res α) (f : α → Res β) (g : β → Res γ) :
    andThen (andThen x f) g = andThen x fun a => andThen (f a) g := by
  cases x <;> rfl

theorem andThen_congr {α β : Type} {x : Res α} {f g : α → Res β} (h : ∀ a, x = .next a → f a = g a) :
    andThen x f = andThen x g := by
  cases x with
  | next a => exact h a rfl
  | fault r => rfl
  | refused r => rfl

theorem isrTxData_withIsr (s : State) (l : List IsrAct) :
    isrTxData (s.withIsr l) = resMap (·.withIsr l) (isrTxData s) := by
  simp only [isrTxData, show (s.withIsr l).txn = s.txn from rfl]
  split
  · rfl
  · split
    · simp only [bufGet_withIsr, regWrite_withIsr, andThen_resMap, resMap_andThen, onTxn_withIsr]
    · exact regWrite_withIsr ..

theorem isrRxData_withIsr (s : State) (l : List IsrAct) :
    isrRxData (s.withIsr l) = resMap (·.withIsr l) (isrRxData s) := by
  simp only [isrRxData, show (s.withIsr l).txn = s.txn from rfl]
  split
  · rfl
  · simp only [regRead_withIsr, andThen_resMap, resMap_andThen, bufSet_withIsr, onTxn_withIsr]
    apply andThen_congr
    intro a _
    split <;> rfl

/-- What a line does does not depend on the lines left. -/
theorem isrLine_withIsr (a : IsrAct) (s : State) (l : List IsrAct) :
    isrLine a (s.withIsr l) = resMap (fun p => (p.1, p.2.withIsr l)) (isrLine a s) := by
  cases a
  case recordError st =>
    have h : recordedError (s.withIsr l) st = recordedError s st := rfl
    simp only [isrLine, h, resMap_andThen, resMap_next]
    have : (if (recordedError s st).2 = true then (s.withIsr l).tick else s.withIsr l)
        = (if (recordedError s st).2 = true then s.tick else s).withIsr l := by split <;> rfl
    rw [this, onTxn_withIsr, andThen_resMap]
  case forceIdle => simp only [isrLine, onTxn_withIsr, andThen_resMap, resMap_andThen, resMap_next]
  case ack m => simp only [isrLine, State.withIsr_opts, regWrite_withIsr, andThen_resMap, resMap_andThen, resMap_next]
  case signal => simp only [isrLine, onTxn_withIsr, andThen_resMap, resMap_andThen, resMap_next]
  case txGuard => rfl
  case txData => simp only [isrLine, isrTxData_withIsr, andThen_resMap, resMap_andThen, resMap_next]
  case rxGuard => rfl
  case rxData => simp only [isrLine, isrRxData_withIsr, andThen_resMap, resMap_andThen, resMap_next]

/-- One line at a time. -/
theorem isrRun_cons (n : Nat) (s : State) (a : IsrAct) (l : List IsrAct) :
    isrRun (n + 1) (s.withIsr (a :: l)) = andThen (isrLine a s) fun p => isrRun n (p.2.withIsr (p.1 ++ l)) := by
  have h : isrRun (n + 1) (s.withIsr (a :: l))
      = andThen (isrLine a (s.withIsr (a :: l))) fun p => isrRun n (p.2.withIsr (p.1 ++ l)) := by
    simp only [isrRun, State.withIsr, List.isEmpty_cons, Bool.false_eq_true, if_false, isrAdvance]
    cases isrLine a { s with isr := a :: l } <;> rfl
  rw [h, isrLine_withIsr, andThen_resMap]
  rfl

@[simp] theorem isrRun_nil (n : Nat) (s : State) : isrRun n (s.withIsr []) = .next (s.withIsr []) := by
  cases n <;> rfl

-- The lines are the pseudocode

theorem onTxn_onTxn (s : State) (f g : Txn → Txn) :
    andThen (s.onTxn f) (fun s => s.onTxn g) = s.onTxn fun t => g (f t) := by
  simp only [State.onTxn]; cases s.txn <;> rfl

/-- The invocation after its snapshot, as the rules write it (43 R236 to R239). -/
def isrAfterSnapshot (o : ErrAck) (st : Status) (s : State) : Res State :=
  if hasBits st statErr then
    let e := recordedError s st
    andThen ((if e.2 then s.tick else s).onTxn fun t => { t with error := some e.1, phase := .idle }) fun s =>
      andThen (regWrite .irqstatus (statWord s.opts.bits (errAckMask o st)) s) fun s =>
        s.onTxn fun t => { t with completion := true }
  else
    andThen (isrStep2 st s) fun s => andThen (isrStep3 st s) (isrStep4 st)

theorem isrStep2_withIsr (st : Status) (s : State) (l : List IsrAct) :
    isrStep2 st (s.withIsr l) = resMap (·.withIsr l) (isrStep2 st s) := by
  simp only [isrStep2, show inPhase .writing (s.withIsr l) = inPhase .writing s from rfl, isrTxData_withIsr, resMap_ite,
    andThen_resMap, resMap_andThen, regWrite_withIsr]
  rfl

theorem isrStep3_withIsr (st : Status) (s : State) (l : List IsrAct) :
    isrStep3 st (s.withIsr l) = resMap (·.withIsr l) (isrStep3 st s) := by
  simp only [isrStep3, show inPhase .reading (s.withIsr l) = inPhase .reading s from rfl, isrRxData_withIsr, resMap_ite,
    andThen_resMap, resMap_andThen, regWrite_withIsr]
  rfl

theorem isrStep4_withIsr (st : Status) (s : State) (l : List IsrAct) :
    isrStep4 st (s.withIsr l) = resMap (·.withIsr l) (isrStep4 st s) := by
  simp only [isrStep4, resMap_ite, andThen_resMap, resMap_andThen, regWrite_withIsr, onTxn_withIsr]
  rfl

theorem isrAfterSnapshot_withIsr (o : ErrAck) (st : Status) (s : State) (l : List IsrAct) :
    isrAfterSnapshot o st (s.withIsr l) = resMap (·.withIsr l) (isrAfterSnapshot o st s) := by
  unfold isrAfterSnapshot
  split
  · have : (if (recordedError s st).2 = true then (s.withIsr l).tick else s.withIsr l)
        = (if (recordedError s st).2 = true then s.tick else s).withIsr l := by split <;> rfl
    simp only [show recordedError (s.withIsr l) st = recordedError s st from rfl, this, onTxn_withIsr, andThen_resMap,
      resMap_andThen, State.withIsr_opts, regWrite_withIsr]
  · simp only [isrStep2_withIsr, isrStep3_withIsr, isrStep4_withIsr, andThen_resMap, resMap_andThen]

theorem isrRun_step4 (n : Nat) (st : Status) (s : State) :
    isrRun (n + 3) (s.withIsr (if hasBits st statArdy then [.ack statArdy, .forceIdle, .signal] else []))
      = resMap (·.withIsr []) (isrStep4 st s) := by
  unfold isrStep4
  split
  · simp only [isrRun_cons, isrLine, andThen_andThen, andThen_of_next, List.nil_append, isrRun_nil, resMap_andThen]
    apply andThen_congr
    intro a _
    simp only [State.onTxn]
    cases a.txn <;> rfl
  · simp

theorem isrRun_step3 (n : Nat) (st : Status) (s : State) (l : List IsrAct) (g : State → Res State)
    (hg : ∀ n s, isrRun (n + 3) (s.withIsr l) = resMap (·.withIsr []) (g s)) :
    isrRun (n + 6) (s.withIsr ((if hasBits st statRrdy then [.rxGuard] else []) ++ l))
      = resMap (·.withIsr []) (andThen (isrStep3 st s) g) := by
  unfold isrStep3
  cases h : hasBits st statRrdy
  · simp only [Bool.false_eq_true, if_false, List.nil_append, Bool.false_and, andThen_of_next, hg (n + 3) s]
  · simp only [if_true, List.cons_append, List.nil_append, isrRun_cons, isrLine, andThen_of_next, Bool.true_and]
    cases inPhase .reading s
    · simp only [Bool.false_eq_true, if_false, List.nil_append, andThen_of_next]
      exact hg (n + 2) s
    · simp only [if_true, List.cons_append, List.nil_append, isrRun_cons, isrLine, andThen_andThen, andThen_of_next,
        resMap_andThen]
      apply andThen_congr
      intro a _
      apply andThen_congr
      intro b _
      exact hg n b

theorem isrRun_step2 (n : Nat) (st : Status) (s : State) (l : List IsrAct) (g : State → Res State)
    (hg : ∀ n s, isrRun (n + 6) (s.withIsr l) = resMap (·.withIsr []) (g s)) :
    isrRun (n + 9) (s.withIsr ((if hasBits st statXrdy then [.txGuard] else []) ++ l))
      = resMap (·.withIsr []) (andThen (isrStep2 st s) g) := by
  unfold isrStep2
  cases h : hasBits st statXrdy
  · simp only [Bool.false_eq_true, if_false, List.nil_append, Bool.false_and, andThen_of_next, hg (n + 3) s]
  · simp only [if_true, List.cons_append, List.nil_append, isrRun_cons, isrLine, andThen_of_next, Bool.true_and]
    cases inPhase .writing s
    · simp only [Bool.false_eq_true, if_false, List.nil_append, andThen_of_next]
      exact hg (n + 2) s
    · simp only [if_true, List.cons_append, List.nil_append, isrRun_cons, isrLine, andThen_andThen, andThen_of_next,
        resMap_andThen]
      apply andThen_congr
      intro a _
      apply andThen_congr
      intro b _
      exact hg n b

/-- The lines of an invocation, run one after another, do what the rules write, and none is left. -/
theorem isrRun_plan (o : ErrAck) (st : Status) (s : State) :
    isrRun isrMaxLines (s.withIsr (isrPlan o st)) = resMap (·.withIsr []) (isrAfterSnapshot o st s) := by
  unfold isrPlan isrAfterSnapshot
  cases h : hasBits st statErr
  · simp only [Bool.false_eq_true, if_false, List.append_assoc]
    exact isrRun_step2 3 st s _ _ fun n s => isrRun_step3 n st s _ _ fun n s => isrRun_step4 n st s
  · simp only [if_true, isrMaxLines, isrRun_cons, isrLine, andThen_andThen, andThen_of_next, List.nil_append, isrRun_nil,
      resMap_andThen]
    rw [← onTxn_onTxn (f := fun t => { t with error := some (recordedError s st).1 })
      (g := fun t => { t with phase := .idle })]
    simp only [andThen_andThen]
    apply andThen_congr
    intro a _
    apply andThen_congr
    intro b _
    apply andThen_congr
    intro c _
    cases c.onTxn (fun t => { t with completion := true }) <;> rfl

-- In an open block

/-- An enabled atomic invocation with the block open is the invocation after its snapshot. -/
theorem isr_open {s : State} (he : s.isrEnabled = true) (ha : s.opts.isrAtomic = true) (ho : s.i2cOpen = true) :
    exec .isrService s = isrAfterSnapshot s.opts.isrErrAck (s.raw &&& s.ie) s := by
  have h0 : s.isr = [] := by simp [State.isrEnabled] at he; exact he.2
  simp only [exec, execIsrService, he, if_true, regRead_open ho (r := .irqstatus) rfl, andThen_of_next]
  show (if s.opts.isrAtomic = true then
    isrRun isrMaxLines (s.withIsr (isrPlan s.opts.isrErrAck (statw s.opts.bits (statWord s.opts.bits (s.raw &&& s.ie))))) else _) = _
  rw [if_pos ha, statw_statWord, isrRun_plan, ← isrAfterSnapshot_withIsr, State.withIsr_nil h0]

/-- An atomic invocation that answers a next state was enabled with the block open, or did nothing. -/
theorem isr_next {s t : State} (ha : s.opts.isrAtomic = true) (h : exec .isrService s = .next t) :
    (s.isrEnabled = false ∧ t = s)
      ∨ (s.isrEnabled = true ∧ s.i2cOpen = true ∧ isrAfterSnapshot s.opts.isrErrAck (s.raw &&& s.ie) s = .next t) := by
  cases he : s.isrEnabled
  · simp only [exec, execIsrService, he, Bool.false_eq_true, if_false] at h
    cases h; exact .inl ⟨rfl, rfl⟩
  · have ho : s.i2cOpen = true := by
      simp only [exec, execIsrService, he, if_true] at h
      obtain ⟨p, hp, -⟩ := andThen_next h
      exact (regRead_next hp).2.1 rfl
    exact .inr ⟨rfl, ho, by rw [← isr_open he ha ho]; exact h⟩

/-- An acknowledgement in an open block. -/
theorem ack_open {s : State} (ho : s.i2cOpen = true) (m : Status) :
    regWrite .irqstatus (statWord s.opts.bits m) s = .next (ackStatus m s) := by
  rw [regWrite_open ho rfl]; simp only [writeRule, writeIrqstatus, statw_statWord]

/-- An acknowledgement of AL, NACK or ARDY closes the window, and every bit of it is cleared (40 R134). -/
theorem ack_closes (m : Status) (s : State) (h : m &&& 7 ≠ 0) :
    ackStatus m s = { s with raw := s.raw &&& ~~~m, eng := { s.eng with window := false } } := by
  have w : ackWindow m s.eng = { s.eng with window := false } := by rw [ackWindow, if_pos h]
  have l : levels (ackWindow m s.eng) = 0 := by rw [w]; simp [levels, condRrdy, condXrdy]
  unfold ackStatus; dsimp only; rw [l, w]; simp

/-- Each bit of a snapshot as a mask. -/
theorem hasBits_iff (x : Status) :
    (hasBits x statErr = true ↔ x &&& 3 ≠ 0) ∧ (hasBits x statNack = true ↔ x &&& 2 ≠ 0)
      ∧ (hasBits x statAl = true ↔ x &&& 1 ≠ 0) ∧ (hasBits x statXrdy = true ↔ x &&& 0x10 ≠ 0)
      ∧ (hasBits x statRrdy = true ↔ x &&& 0x8 ≠ 0) ∧ (hasBits x statArdy = true ↔ x &&& 0x4 ≠ 0) := by
  revert x; decide

end Sys2Proof.Machine
end

