-- ==== Sys2Proof/Laws/Moves.lean ====
section
/-!
SUPPORT. Every step of the machine is one event or a sequence of elementary moves, listed once with what guards each; a
property that each of them keeps is a property every step keeps.
-/
namespace Sys2Proof.Machine

/-- One elementary move: an update of a part of the state that belongs to no register, or a register access that its
prologue let pass. -/
inductive Move : State → State → Prop where
  | caller (s : State) (k : Nat) (c : Caller) : Move s (s.putCaller k c)
  | actor (s : State) (k : Nat) : Move s { s with actor := k }
  | draws (s : State) (n : Nat) : Move s { s with draws := n }
  | isr (s : State) (l : List IsrAct) : Move s { s with isr := l }
  | lock (s : State) (l : Option Nat) : Move s { s with lock := l }
  | ctl (s : State) (c : Ctl) : Move s { s with ctl := c }
  | noTxn (s : State) : Move s { s with txn := none }
  | freshTxn (s : State) : Move s { s with txn := some Txn.fresh }
  | arm (s : State) (d : Txn) (b : BufRef) (n : Nat) (h : s.txn = some d) (hw : d.awaited = false) :
    Move s { s with txn := some { d with error := none, buffer := some b, length := n, index := 0, awaited := true } }
  | mark (s : State) (d : Txn) (e : Option XferError) (p : Phase) (c w : Bool) (h : s.txn = some d) :
    Move s { s with txn := some { d with error := e, phase := p, completion := c, awaited := w } }
  | index (s : State) (d : Txn) (h : s.txn = some d) (hi : d.index < d.length) :
    Move s { s with txn := some { d with index := d.index + 1 } }
  | store (s : State) (a : Nat) (b : Byte) : Move s { s with mem := s.mem.write a b }
  | read (s : State) (r : Reg) (hi : r.block = .i2c → s.i2cOpen = true) : Move s (readRule r s).2
  | write (s t : State) (r : Reg) (v : Word) (hi : r.block = .i2c → s.i2cOpen = true)
    (h : writeRule r v s = .next t) : Move s t

/-- A sequence of moves. -/
inductive Moves : State → State → Prop where
  | refl (s : State) : Moves s s
  | cons {s t u : State} (h : Move s t) (r : Moves t u) : Moves s u

theorem Moves.one {s t : State} (h : Move s t) : Moves s t := .cons h (.refl t)

theorem Moves.trans {s t u : State} (h : Moves s t) (g : Moves t u) : Moves s u := by
  induction h with
  | refl => exact g
  | cons m _ ih => exact .cons m (ih g)

theorem Moves.of_eq {s t : State} (h : s = t) : Moves s t := h ▸ .refl s

/-- A property that every move keeps, every sequence of moves keeps. -/
theorem Moves.keep {s t : State} (P : State → Prop) (hk : ∀ s t, Move s t → P s → P t) (h : Moves s t) (hs : P s) : P t := by
  induction h with
  | refl => exact hs
  | cons m _ ih => exact ih (hk _ _ m hs)

/-- A reflexive and transitive relation that holds along every move holds along every sequence of moves. -/
theorem Moves.rel {s t : State} (R : State → State → Prop) (hr : ∀ s, R s s) (ht : ∀ s t u, R s t → R t u → R s u)
    (hm : ∀ s t, Move s t → R s t) (h : Moves s t) : R s t := by
  induction h with
  | refl => exact hr _
  | cons m _ ih => exact ht _ _ _ (hm _ _ m) ih

-- The shared operations

theorem moves_setTask (s : State) (l : List Act) : Moves s (s.setTask l) := .one (.caller s _ _)
theorem moves_goOn (s : State) (r : Result) (l : List Act) : Moves s (s.goOn r l) := .one (.caller s _ _)
theorem moves_ret (s : State) (r : Result) : Moves s (s.ret r) := .one (.caller s _ _)
theorem moves_putSelf (s : State) (c : Caller) : Moves s (s.putSelf c) := .one (.caller s _ _)

theorem moves_regRead {r : Reg} {s : State} {p : Word × State} (h : regRead r s = .next p) : Moves s p.2 := by
  obtain ⟨rfl, hi, -⟩ := regRead_next h
  exact .one (.read s r hi)

theorem moves_regWrite {r : Reg} {v : Word} {s t : State} (h : regWrite r v s = .next t) : Moves s t := by
  obtain ⟨h, hi, -⟩ := regWrite_next h
  exact .one (.write s t r v hi h)

/-- A change of a descriptor's error, phase and completion, and of whether its outcome is awaited. -/
theorem moves_onTxn {s t : State} {f : Txn → Txn} (h : s.onTxn f = .next t)
    (hf : ∀ d, f d = { d with
      error := (f d).error, phase := (f d).phase, completion := (f d).completion, awaited := (f d).awaited }) :
    Moves s t := by
  unfold State.onTxn at h
  split at h
  · cases h
  · rename_i d hd
    cases h
    rw [hf d]
    exact .one (.mark s d _ _ _ _ hd)

theorem moves_writeBytes (s : State) (a : Nat) (l : List Byte) : Moves s { s with mem := s.mem.writeBytes a l } := by
  induction l generalizing s a with
  | nil => exact .refl s
  | cons b l ih => exact .cons (.store s a b) (ih { s with mem := s.mem.write a b } (a + 1))

/-- All a store to a buffer can change: a byte of memory, or a local buffer of a caller. -/
theorem bufSet_cases (s : State) (b : Option BufRef) (i : Nat) (x : Byte) :
    s.bufSet b i x = s
      ∨ (∃ base, b = some (.mem base) ∧ s.bufSet b i x = { s with mem := s.mem.write (bufAddr base i) x })
      ∨ ∃ k c, c.task = (s.caller k).task ∧ c.result = (s.caller k).result ∧ s.bufSet b i x = s.putCaller k c := by
  rcases b with _ | (_ | _ | _)
  · exact .inl rfl
  · exact .inr (.inl ⟨_, rfl, rfl⟩)
  all_goals
    simp only [State.bufSet]
    split
    · refine .inr (.inr ⟨_, _, ?_, ?_, rfl⟩) <;> rfl
    · exact .inl rfl

theorem moves_bufSet (s : State) (b : Option BufRef) (i : Nat) (x : Byte) : Moves s (s.bufSet b i x) := by
  rcases bufSet_cases s b i x with e | ⟨_, -, e⟩ | ⟨_, _, -, -, e⟩ <;> rw [e]
  · exact .refl s
  · exact .one (.store s _ _)
  · exact .one (.caller s _ _)

theorem moves_bufGet (s : State) (b : Option BufRef) (i : Nat) : Moves s (s.bufGet b i).2 := by
  unfold State.bufGet
  split
  · exact .refl s
  · exact .one (.draws s _)

theorem bufSet_txn (s : State) (b : Option BufRef) (i : Nat) (x : Byte) : (s.bufSet b i x).txn = s.txn := by
  rcases bufSet_cases s b i x with e | ⟨_, -, e⟩ | ⟨_, _, -, -, e⟩ <;> rw [e] <;> rfl

theorem bufGet_txn (s : State) (b : Option BufRef) (i : Nat) : (s.bufGet b i).2.txn = s.txn := by
  unfold State.bufGet; split <;> rfl

theorem readRule_txn (r : Reg) (s : State) : (readRule r s).2.txn = s.txn := by
  rcases readRule_cases r s with h | h | ⟨-, -, -, -, h⟩ <;> rw [h] <;> rfl

theorem writeRule_txn {r : Reg} {v : Word} {s t : State} (h : writeRule r v s = .next t) : t.txn = s.txn := by
  rcases writeRule_cases h with h | h | h | h | h | h | h | h | h | h | h | h | h | h
  all_goals (obtain ⟨-, _, _, _, -, -, rfl⟩ := h; rfl)

-- The callers' lines

theorem moves_deliver (s : State) (r : Result) (l : List Act) : Moves s (s.deliver r l) := moves_goOn _ _ _

theorem moves_performLine {a : Act} {rest : List Act} {s t : State} (h : performLine a rest s = .next t) : Moves s t := by
  cases a
  case acquire =>
    cases h; unfold acquireLine; split
    · exact .cons (.lock s _) (moves_setTask _ _)
    · exact moves_setTask _ _
  case release =>
    simp only [performLine, releaseLine] at h; split at h
    · cases h; exact .cons (.lock s _) (moves_setTask _ _)
    · cases h
  case clkEnsure =>
    obtain ⟨p, hp, h⟩ := andThen_next h; cases h
    refine (moves_regRead hp).trans ?_
    split
    · exact moves_goOn _ _ _
    · exact moves_setTask _ _
  case clkRequest c =>
    obtain ⟨p, hp, h⟩ := andThen_next h; cases h
    exact (moves_regWrite hp).trans (moves_setTask _ _)
  case clkPoll n =>
    cases n with
    | zero => cases h; exact moves_deliver _ _ _
    | succ n =>
      obtain ⟨p, hp, h⟩ := andThen_next h; cases h
      refine (moves_regRead hp).trans ?_
      split
      · exact moves_goOn _ _ _
      · exact moves_setTask _ _
  case clkDrop =>
    obtain ⟨p, hp, h⟩ := andThen_next h; cases h
    exact (moves_regRead hp).trans (moves_setTask _ _)
  case clkRelease c =>
    obtain ⟨p, hp, h⟩ := andThen_next h; cases h
    exact (moves_regWrite hp).trans (moves_goOn _ _ _)
  case armFields b n =>
    obtain ⟨p, hp, h⟩ := andThen_next h; cases h
    refine Moves.trans ?_ (moves_setTask _ _)
    unfold armFields at hp
    split at hp
    · cases hp
    · split at hp
      · cases hp
      · rename_i d hd
        split at hp
        · cases hp
        · split at hp
          · cases hp
          · rename_i hw; cases hp; exact .one (.arm s d b n hd (Bool.eq_false_iff.2 hw))
  case armCompletion =>
    obtain ⟨p, hp, h⟩ := andThen_next h; cases h
    exact (moves_onTxn hp fun _ => rfl).trans (moves_setTask _ _)
  case armPhase d =>
    obtain ⟨p, hp, h⟩ := andThen_next h; cases h
    exact (moves_onTxn hp fun _ => rfl).trans (moves_setTask _ _)
  case write r v =>
    obtain ⟨p, hp, h⟩ := andThen_next h; cases h
    exact (moves_regWrite hp).trans (moves_setTask _ _)
  case wait =>
    simp only [performLine, waitLine] at h
    split at h
    · cases h
    · rename_i d hd
      split at h <;> cases h
      · exact .cons (.mark s d _ _ _ _ hd) (moves_deliver _ _ _)
      · exact moves_setTask _ _
  case diagnose =>
    obtain ⟨p, hp, h⟩ := andThen_next h; cases h
    exact (moves_regRead hp).trans (moves_setTask _ _)
  case probe r =>
    obtain ⟨p, hp, h⟩ := andThen_next h; cases h
    exact (moves_regRead hp).trans (moves_setTask _ _)
  case forceIdle =>
    obtain ⟨p, hp, h⟩ := andThen_next h; cases h
    exact (moves_onTxn hp fun _ => rfl).trans (moves_setTask _ _)
  case fail e => cases h; exact moves_deliver _ _ _
  case registerIsr l => cases h; exact .cons (.ctl s _) (moves_setTask _ _)
  case initEnd sp =>
    cases h; unfold initEndLine; split
    · exact .cons (.ctl s _) (moves_setTask _ _)
    · exact .cons (.ctl s _) (.cons (.freshTxn _) (moves_goOn _ _ _))
  case deinitEnd =>
    simp only [performLine, deinitEndLine] at h
    split at h
    · cases h
    · cases h; exact .cons (.ctl s _) (.cons (.noTxn _) (moves_goOn _ _ _))
  case finish how =>
    cases h; unfold finishLine; dsimp only
    split
    · exact moves_putSelf _ _
    · split
      · exact moves_putSelf _ _
      · exact moves_putSelf _ _
      · exact (moves_writeBytes s _ _).trans (moves_putSelf _ _)

theorem moves_advance {s t : State} (h : advance s = .next t) : Moves s t := by
  unfold advance at h
  split at h
  · cases h; exact .refl _
  · exact moves_performLine h

-- The interrupt service

theorem moves_isrTxData {s t : State} (h : isrTxData s = .next t) : Moves s t := by
  unfold isrTxData at h
  split at h
  · cases h
  · rename_i d hd
    split at h
    · rename_i hi
      obtain ⟨u, hu, h⟩ := andThen_next h
      have ht : u.txn = some d := by rw [writeRule_txn (regWrite_next hu).1, bufGet_txn, hd]
      simp only [State.onTxn, ht] at h
      cases h
      exact ((moves_bufGet s _ _).trans (moves_regWrite hu)).trans (.one (.index u d ht hi))
    · exact moves_regWrite h

theorem moves_isrRxData {s t : State} (h : isrRxData s = .next t) : Moves s t := by
  unfold isrRxData at h
  split at h
  · cases h
  · rename_i d hd
    obtain ⟨p, hp, h⟩ := andThen_next h
    have hm := moves_regRead hp
    obtain ⟨rfl, -⟩ := regRead_next hp
    split at h
    · rename_i hi
      have ht : ((readRule .data s).2.bufSet d.buffer d.index (dataByte (readRule .data s).1)).txn = some d := by
        rw [bufSet_txn, readRule_txn, hd]
      simp only [State.onTxn, ht] at h
      cases h
      exact (hm.trans (moves_bufSet _ _ _ _)).trans (.one (.index _ d ht hi))
    · cases h; exact hm

theorem moves_isrLine {a : IsrAct} {s : State} {p : List IsrAct × State} (h : isrLine a s = .next p) : Moves s p.2 := by
  cases a
  case recordError st =>
    obtain ⟨u, hu, h⟩ := andThen_next h; cases h
    refine Moves.trans ?_ (moves_onTxn hu fun _ => rfl)
    split
    · exact .one (.draws s _)
    · exact .refl s
  case forceIdle => obtain ⟨u, hu, h⟩ := andThen_next h; cases h; exact moves_onTxn hu fun _ => rfl
  case signal => obtain ⟨u, hu, h⟩ := andThen_next h; cases h; exact moves_onTxn hu fun _ => rfl
  case ack m => obtain ⟨u, hu, h⟩ := andThen_next h; cases h; exact moves_regWrite hu
  case txGuard => cases h; exact .refl s
  case rxGuard => cases h; exact .refl s
  case txData => obtain ⟨u, hu, h⟩ := andThen_next h; cases h; exact moves_isrTxData hu
  case rxData => obtain ⟨u, hu, h⟩ := andThen_next h; cases h; exact moves_isrRxData hu

theorem moves_isrAdvance {s t : State} (h : isrAdvance s = .next t) : Moves s t := by
  unfold isrAdvance at h
  split at h
  · cases h; exact .refl _
  · obtain ⟨p, hp, h⟩ := andThen_next h; cases h
    exact (moves_isrLine hp).trans (.one (.isr _ _))

theorem moves_isrRun (n : Nat) {s t : State} (h : isrRun n s = .next t) : Moves s t := by
  induction n generalizing s with
  | zero => cases h; exact .refl _
  | succ n ih =>
    unfold isrRun at h
    split at h
    · cases h; exact .refl _
    · obtain ⟨u, hu, h⟩ := andThen_next h
      exact (moves_isrAdvance hu).trans (ih h)

theorem moves_isrService {s t : State} (h : execIsrService s = .next t) : Moves s t := by
  unfold execIsrService at h
  split at h
  · obtain ⟨p, hp, h⟩ := andThen_next h
    refine (moves_regRead hp).trans
      (.cons (.isr _ (isrPlan p.2.opts.isrErrAck (statw p.2.opts.bits p.1))) ?_)
    dsimp only at h
    split at h
    · exact moves_isrRun _ h
    · cases h; exact .refl _
  · cases h; exact .refl _

-- The operations

theorem moves_callerRead {r : Reg} {s t : State} (h : callerRead r s = .next t) : Moves s t := by
  obtain ⟨p, hp, h⟩ := andThen_next h; cases h
  exact (moves_regRead hp).trans (moves_ret _ _)

theorem moves_callerWrite {r : Reg} {v : Word} {s t : State} (h : callerWrite r v s = .next t) : Moves s t := by
  obtain ⟨p, hp, h⟩ := andThen_next h; cases h
  exact (moves_regWrite hp).trans (moves_ret _ _)

theorem moves_startTransfer {a : Byte} {n : Nat} {x y : List Byte} {l : List Act} {s t : State}
    (h : startTransfer a n x y l s = .next t) : Moves s t := by
  unfold startTransfer at h
  split at h
  · cases h
  · cases h; exact moves_putSelf _ _

/-- A transfer call that is not refused returned NotInitialized, or goes on (44 R270, 60 R340). -/
theorem transferCall_next {f : State → Res State} {s t : State} (h : transferCall f s = .next t) :
    s.otherCaller inLifecycle = false ∧ (t = s.ret (.err .notInitialized) ∨ f s = .next t) := by
  unfold transferCall at h
  split at h
  · cases h
  · rename_i ho
    refine ⟨Bool.eq_false_iff.2 ho, ?_⟩
    split at h
    · cases h; exact .inl rfl
    · exact .inr h

/-- A call that takes a buffer returned InvalidArgument, or goes on with one (44 R270). -/
theorem bufferCall_next {b : Option Word} {n : Word} {f : Word → Res State} {s t : State}
    (h : bufferCall b n f s = .next t) :
    t = s.ret (.err .invalidArgument) ∨ ∃ base, b = some base ∧ n ≠ 0 ∧ f base = .next t := by
  unfold bufferCall at h
  split at h
  · cases h; exact .inl rfl
  · split at h
    · cases h; exact .inl rfl
    · exact .inr ⟨_, rfl, ‹_›, h⟩

theorem moves_transferBytes {d : Dir} {a : Byte} {b : Option Word} {n : Word} {s t : State}
    (h : transferBytes d a b n s = .next t) : Moves s t := by
  obtain ⟨-, rfl | h⟩ := transferCall_next h
  · exact moves_ret _ _
  · obtain rfl | ⟨base, -, -, h⟩ := bufferCall_next h
    · exact moves_ret _ _
    · exact moves_startTransfer h

theorem moves_startArming {d : Dir} {a : Byte} {b n : Word} {s t : State} (h : startArming d a b n s = .next t) :
    Moves s t := by
  unfold startArming at h
  split at h
  · cases h
  · exact (moves_goOn _ _ _).trans (moves_advance h)

/-- An operation that is no event is a sequence of moves. -/
theorem moves_exec {i : Instr} {s t : State} (he : i.format ≠ .evt8) (h : exec i s = .next t) : Moves s t := by
  cases i <;> first
    | exact absurd rfl he
    | exact moves_callerRead h
    | exact moves_callerWrite h
    | exact moves_transferBytes h
    | exact moves_startArming h
    | skip
  case init =>
    simp only [exec, execInit] at h
    split at h
    · cases h
    · split at h
      · cases h; exact moves_ret _ _
      · cases h; exact .cons (.ctl s _) (moves_goOn _ _ _)
  case deinit =>
    simp only [exec, execDeinit] at h
    split at h
    · cases h
    · split at h
      · cases h; exact moves_ret _ _
      · split at h
        · cases h
        · split at h
          · cases h
          · cases h; exact .cons (.ctl s _) (moves_goOn _ _ _)
  case writeRegister | readRegister =>
    obtain ⟨-, rfl | h⟩ := transferCall_next h
    · exact moves_ret _ _
    · exact moves_startTransfer h
  case readBlock =>
    obtain ⟨-, rfl | h⟩ := transferCall_next h
    · exact moves_ret _ _
    · obtain rfl | ⟨base, -, -, h⟩ := bufferCall_next h
      · exact moves_ret _ _
      · unfold startReadBlock at h
        split at h
        · cases h; exact .cons (.draws s _) (moves_ret _ _)
        · exact .cons (.draws s _) (moves_startTransfer h)
  case clkEnsureEnabled => exact (moves_goOn _ _ _).trans (moves_advance h)
  case clkIsEnabled =>
    obtain ⟨p, hp, h⟩ := andThen_next h; cases h
    exact (moves_regRead hp).trans (moves_ret _ _)
  case clkDisable => exact (moves_goOn _ _ _).trans (moves_advance h)
  case isrService => exact moves_isrService h
  case waitComplete =>
    simp only [exec, execWaitComplete] at h
    split at h
    · exact (moves_goOn _ _ _).trans (moves_advance h)
    · split at h <;> cases h
  case lockAcquire => exact (moves_goOn _ _ _).trans (moves_advance h)
  case lockRelease => exact (moves_goOn _ _ _).trans (moves_advance h)
  case xferLocked =>
    simp only [exec, execXferLocked] at h
    split at h
    · cases h
    · split at h
      · cases h
      · exact (moves_goOn _ _ _).trans (moves_advance h)

/-- Every step, after the entry of the schedule is taken, is an event or a sequence of moves. -/
theorem moves_step {s t : State} (h : step s = .next t) :
    Moves { s with sched := s.sched.tail } t
      ∨ ∃ id f bytes i after rest, s.sched = .op id f bytes :: rest ∧ decode s.opts f bytes = .ok (i, after)
        ∧ i.format = .evt8 ∧ (∀ d, i ≠ .engStart d) ∧ exec i { s with sched := rest } = .next t := by
  unfold step at h
  split at h
  · rename_i hs
    cases h
    exact .inl (.of_eq (by obtain ⟨⟩ := s; cases hs; rfl))
  · rename_i slot rest hs
    rw [hs]
    cases slot with
    | op k f bytes =>
      simp only [runSlot, issue] at h
      split at h
      · rename_i i after hd
        unfold performOp at h
        by_cases he : i.format = .evt8
        · have hb : i.byCaller = false := by cases i <;> first | rfl | cases he
          simp only [hb, Bool.false_eq_true, if_false] at h
          split at h
          · rename_i hs
            exact .inr ⟨k, f, bytes, i, after, rest, rfl, hd, he, (fun d e => by rw [e] at hs; cases hs), h⟩
          · cases h; exact .inl (.refl _)
        · left
          split at h
          · split at h
            · exact .cons (.actor _ k) (moves_exec he h)
            · cases h; exact .refl _
          · split at h
            · exact moves_exec he h
            · cases h; exact .refl _
      · unfold accessUndocumented at h; split at h <;> cases h
      · cases h
    | turn k => exact .inl (.cons (.actor _ k) (moves_advance h))
    | isrTurn => exact .inl (moves_isrAdvance h)

/-- A property that every move and every event keeps, and that does not look at the schedule, every step keeps. -/
theorem step_keep {s t : State} (P : State → Prop) (hsched : ∀ s l, P s → P { s with sched := l })
    (hm : ∀ s t, Move s t → P s → P t) (he : ∀ s t i, i.format = .evt8 → (∀ d, i ≠ .engStart d) → exec i s = .next t → P s → P t)
    (h : step s = .next t) (hs : P s) : P t := by
  rcases moves_step h with h | ⟨_, _, _, i, _, rest, -, -, hi, hn, h⟩
  · exact h.keep P hm (hsched _ _ hs)
  · exact he _ _ i hi hn h (hsched _ _ hs)

end Sys2Proof.Machine
end

