-- ==== Sys2Proof/Laws/Frames.lean ====
section
/-!
SUPPORT. What the interrupt service cannot change, line by line and whole; and where the one fault comes from: a line or an
access that faults was made with the I2C block mapped and its clock not live.
-/
namespace Sys2Proof.Machine

-- What the interrupt service leaves alone

/-- What the interrupt service cannot change: all but the descriptor, the latches, the engine, the memory, the local
buffers in the caller table, the counter of draws and its own position. -/
def State.IsrFrame (s t : State) : Prop :=
  ∃ tx r e m c l n, t = { s with txn := tx, raw := r, eng := e, mem := m, callers := c, isr := l, draws := n }

theorem State.IsrFrame.refl (s : State) : s.IsrFrame s := ⟨_, _, _, _, _, _, _, rfl⟩

theorem State.IsrFrame.trans {s t u : State} (h : s.IsrFrame t) (g : t.IsrFrame u) : s.IsrFrame u := by
  obtain ⟨_, _, _, _, _, _, _, rfl⟩ := h
  obtain ⟨_, _, _, _, _, _, _, rfl⟩ := g
  exact ⟨_, _, _, _, _, _, _, rfl⟩

/-- A change of the descriptor that answers had one to change. -/
theorem onTxn_next {s t : State} {f : Txn → Txn} (h : s.onTxn f = .next t) :
    ∃ d, s.txn = some d ∧ t = { s with txn := some (f d) } := by
  unfold State.onTxn at h
  split at h
  · cases h
  · rename_i d hd; cases h; exact ⟨d, hd, rfl⟩

theorem frame_onTxn {s t : State} {f : Txn → Txn} (h : s.onTxn f = .next t) : s.IsrFrame t := by
  unfold State.onTxn at h
  split at h
  · cases h
  · cases h; exact ⟨_, _, _, _, _, _, _, rfl⟩

theorem frame_readRule (r : Reg) (s : State) : s.IsrFrame (readRule r s).2 := by
  rcases readRule_cases r s with e | e | ⟨-, -, -, -, e⟩ <;> rw [e] <;> exact ⟨_, _, _, _, _, _, _, rfl⟩

theorem frame_ack {v : Word} {s t : State} (h : regWrite .irqstatus v s = .next t) : s.IsrFrame t := by
  obtain ⟨h, -⟩ := regWrite_next h
  cases h; exact ⟨_, _, _, _, _, _, _, rfl⟩

theorem frame_data {v : Word} {s t : State} (h : regWrite .data v s = .next t) : s.IsrFrame t := by
  obtain ⟨h, -⟩ := regWrite_next h
  rcases writeRule_cases h with h | h | h | h | h | h | h | h | h | h | h | h | h | h
  all_goals first | (cases h.1; done) | skip
  · obtain ⟨-, -, rfl⟩ := h; exact ⟨_, _, _, _, _, _, _, rfl⟩
  · obtain ⟨-, rfl⟩ := h; exact .refl _

theorem frame_bufSet (s : State) (b : Option BufRef) (i : Nat) (x : Byte) : s.IsrFrame (s.bufSet b i x) := by
  rcases bufSet_cases s b i x with e | ⟨_, -, e⟩ | ⟨_, _, -, -, e⟩ <;> rw [e] <;> exact ⟨_, _, _, _, _, _, _, rfl⟩

theorem frame_bufGet (s : State) (b : Option BufRef) (i : Nat) : s.IsrFrame (s.bufGet b i).2 := by
  unfold State.bufGet; split <;> exact ⟨_, _, _, _, _, _, _, rfl⟩

theorem frame_isrTxData {s t : State} (h : isrTxData s = .next t) : s.IsrFrame t := by
  unfold isrTxData at h
  split at h
  · cases h
  · split at h
    · obtain ⟨u, hu, h⟩ := andThen_next h
      exact ((frame_bufGet s _ _).trans (frame_data hu)).trans (frame_onTxn h)
    · exact frame_data h

theorem frame_isrRxData {s t : State} (h : isrRxData s = .next t) : s.IsrFrame t := by
  unfold isrRxData at h
  split at h
  · cases h
  · obtain ⟨p, hp, h⟩ := andThen_next h
    obtain ⟨rfl, -⟩ := regRead_next hp
    split at h
    · exact ((frame_readRule _ s).trans (frame_bufSet _ _ _ _)).trans (frame_onTxn h)
    · cases h; exact frame_readRule _ s

theorem frame_isrLine {a : IsrAct} {s : State} {p : List IsrAct × State} (h : isrLine a s = .next p) :
    s.IsrFrame p.2 := by
  cases a
  case recordError st =>
    obtain ⟨u, hu, h⟩ := andThen_next h; cases h
    refine State.IsrFrame.trans ?_ (frame_onTxn hu)
    split
    · exact ⟨_, _, _, _, _, _, _, rfl⟩
    · exact .refl s
  case forceIdle => obtain ⟨u, hu, h⟩ := andThen_next h; cases h; exact frame_onTxn hu
  case signal => obtain ⟨u, hu, h⟩ := andThen_next h; cases h; exact frame_onTxn hu
  case ack m => obtain ⟨u, hu, h⟩ := andThen_next h; cases h; exact frame_ack hu
  case txGuard => cases h; exact .refl s
  case rxGuard => cases h; exact .refl s
  case txData => obtain ⟨u, hu, h⟩ := andThen_next h; cases h; exact frame_isrTxData hu
  case rxData => obtain ⟨u, hu, h⟩ := andThen_next h; cases h; exact frame_isrRxData hu

theorem frame_isrAdvance {s t : State} (h : isrAdvance s = .next t) : s.IsrFrame t := by
  unfold isrAdvance at h
  split at h
  · cases h; exact .refl _
  · obtain ⟨p, hp, h⟩ := andThen_next h; cases h
    exact (frame_isrLine hp).trans ⟨_, _, _, _, _, _, _, rfl⟩

theorem frame_isrRun (n : Nat) {s t : State} (h : isrRun n s = .next t) : s.IsrFrame t := by
  induction n generalizing s with
  | zero => cases h; exact .refl _
  | succ n ih =>
    unfold isrRun at h
    split at h
    · cases h; exact .refl _
    · obtain ⟨u, hu, h⟩ := andThen_next h
      exact (frame_isrAdvance hu).trans (ih h)

theorem frame_isrService {s t : State} (h : exec .isrService s = .next t) : s.IsrFrame t := by
  simp only [exec, execIsrService] at h
  split at h
  · obtain ⟨p, hp, h⟩ := andThen_next h
    obtain ⟨rfl, -⟩ := regRead_next hp
    split at h
    · exact (frame_readRule _ s).trans (State.IsrFrame.trans (t := { (readRule .irqstatus s).2 with isr := _ })
        ⟨_, _, _, _, _, _, _, rfl⟩ (frame_isrRun _ h))
    · cases h; exact (frame_readRule _ s).trans ⟨_, _, _, _, _, _, _, rfl⟩
  · cases h; exact .refl _

-- Where a BusFault comes from

/-- The one way an access faults. -/
theorem access_fault {r : Reg} {s : State} {f : Fault} (h : access r s = .fault f) :
    r.block = .i2c ∧ s.ctl.i2cMapped = true ∧ s.idlest ≠ 0 ∧ f = .busFault .i2c (r.offset s.opts) := by
  unfold access at h
  split at h
  · cases h
  · rename_i hm
    split at h
    · rename_i hc
      cases h
      simp only [Bool.and_eq_true, beq_iff_eq, clkLive_clkctrl, Bool.not_eq_true', beq_eq_false_iff_ne] at hc
      rw [hc.1] at hm ⊢
      exact ⟨rfl, by simpa using hm, hc.2, rfl⟩
    · cases h

theorem regRead_fault {r : Reg} {s : State} {f : Fault} (h : regRead r s = .fault f) :
    r.block = .i2c ∧ s.ctl.i2cMapped = true ∧ s.idlest ≠ 0 ∧ f = .busFault .i2c (r.offset s.opts) := by
  rcases andThen_fault h with h | ⟨t, -, h⟩
  · exact access_fault h
  · cases h

theorem startEngine_fault {d : Dir} {s : State} {f : Fault} : startEngine d s ≠ .fault f := by
  unfold startEngine; split <;> intro h <;> cases h

theorem writeRule_fault {r : Reg} {v : Word} {s : State} {f : Fault} : writeRule r v s ≠ .fault f := by
  intro h
  cases r <;> first
    | (cases h; done)
    | (simp only [writeRule, writeData, writeCon, writeControl, writePsc, writeScll, writeSclh, timingWrite, writeClkctrl] at h
       repeat' split at h
       all_goals first | (cases h; done) | exact startEngine_fault h)

theorem regWrite_fault {r : Reg} {v : Word} {s : State} {f : Fault} (h : regWrite r v s = .fault f) :
    r.block = .i2c ∧ s.ctl.i2cMapped = true ∧ s.idlest ≠ 0 ∧ f = .busFault .i2c (r.offset s.opts) := by
  rw [regWrite_access] at h
  rcases andThen_fault h with h | ⟨t, -, h⟩
  · exact access_fault h
  · exact absurd h writeRule_fault

/-- A BusFault that an access made in this state answers (60 R328). -/
def State.Gated (s : State) (f : Fault) : Prop :=
  s.ctl.i2cMapped = true ∧ s.idlest ≠ 0 ∧ ∃ r : Reg, r.block = .i2c ∧ f = .busFault .i2c (r.offset s.opts)

theorem gated_read {r : Reg} {s : State} {f : Fault} (h : regRead r s = .fault f) : s.Gated f := by
  obtain ⟨a, b, c, d⟩ := regRead_fault h; exact ⟨b, c, r, a, d⟩
theorem gated_write {r : Reg} {v : Word} {s : State} {f : Fault} (h : regWrite r v s = .fault f) : s.Gated f := by
  obtain ⟨a, b, c, d⟩ := regWrite_fault h; exact ⟨b, c, r, a, d⟩

theorem onTxn_fault {s : State} {g : Txn → Txn} {f : Fault} : s.onTxn g ≠ .fault f := by
  unfold State.onTxn; split <;> intro h <;> cases h

theorem gated_performLine {a : Act} {rest : List Act} {s : State} {f : Fault} (h : performLine a rest s = .fault f) :
    s.Gated f := by
  have hread : ∀ {r : Reg} {k : Word × State → Res State}, andThen (regRead r s) k = .fault f →
      (∀ p, k p ≠ .fault f) → s.Gated f := by
    intro r k h hk
    rcases andThen_fault h with h | ⟨p, -, h⟩
    · exact gated_read h
    · exact absurd h (hk p)
  have hwrite : ∀ {r : Reg} {v : Word} {k : State → Res State}, andThen (regWrite r v s) k = .fault f →
      (∀ p, k p ≠ .fault f) → s.Gated f := by
    intro r v k h hk
    rcases andThen_fault h with h | ⟨p, -, h⟩
    · exact gated_write h
    · exact absurd h (hk p)
  have htxn : ∀ {g : Txn → Txn} {k : State → Res State}, andThen (s.onTxn g) k = .fault f →
      (∀ p, k p ≠ .fault f) → s.Gated f := by
    intro r k h hk
    rcases andThen_fault h with h | ⟨p, -, h⟩
    · exact absurd h onTxn_fault
    · exact absurd h (hk p)
  cases a
  case release => simp only [performLine, releaseLine] at h; split at h <;> cases h
  case clkPoll n => cases n with
    | zero => cases h
    | succ n => exact hread h (by intro p h; cases h)
  case armFields b n =>
    rcases andThen_fault h with h | ⟨p, -, h⟩
    · unfold armFields at h
      repeat' split at h
      all_goals cases h
    · cases h
  case deinitEnd => simp only [performLine, deinitEndLine] at h; split at h <;> cases h
  case wait =>
    simp only [performLine, waitLine] at h
    split at h
    · cases h
    · split at h <;> cases h
  all_goals first
    | (cases h; done)
    | exact hread h (by intro p h; cases h)
    | exact hwrite h (by intro p h; cases h)
    | exact htxn h (by intro p h; cases h)

theorem gated_isrLine {a : IsrAct} {s : State} {f : Fault} (h : isrLine a s = .fault f) : s.Gated f := by
  have hdone : ∀ {x : Res State},
      (andThen x fun s => (.next ([], s) : Res (List IsrAct × State))) = .fault f → x = .fault f := by
    intro x h
    rcases andThen_fault h with h | ⟨p, -, h⟩
    · exact h
    · cases h
  cases a
  case recordError st => exact absurd (hdone h) onTxn_fault
  case forceIdle => exact absurd (hdone h) onTxn_fault
  case signal => exact absurd (hdone h) onTxn_fault
  case ack m => exact gated_write (hdone h)
  case txGuard => cases h
  case rxGuard => cases h
  case txData =>
    have h := hdone h
    unfold isrTxData at h
    split at h
    · cases h
    · split at h
      · rcases andThen_fault h with h | ⟨u, -, h⟩
        · obtain ⟨a, b, r, c, d⟩ := gated_write h
          obtain ⟨_, _, _, _, _, _, _, e⟩ := frame_bufGet s ‹Txn›.buffer ‹Txn›.index
          rw [e] at a b d
          exact ⟨a, b, r, c, d⟩
        · exact absurd h onTxn_fault
      · exact gated_write h
  case rxData =>
    have h := hdone h
    unfold isrRxData at h
    split at h
    · cases h
    · rcases andThen_fault h with h | ⟨u, -, h⟩
      · exact gated_read h
      · split at h
        · exact absurd h onTxn_fault
        · cases h

theorem gated_isrAdvance {s : State} {f : Fault} (h : isrAdvance s = .fault f) : s.Gated f := by
  unfold isrAdvance at h
  split at h
  · cases h
  · rcases andThen_fault h with h | ⟨p, -, h⟩
    · exact gated_isrLine h
    · cases h

theorem State.IsrFrame.gated {s t : State} (h : s.IsrFrame t) {f : Fault} (g : t.Gated f) : s.Gated f := by
  obtain ⟨_, _, _, _, _, _, _, rfl⟩ := h
  exact g

theorem gated_isrRun (n : Nat) {s : State} {f : Fault} (h : isrRun n s = .fault f) : s.Gated f := by
  induction n generalizing s with
  | zero => cases h
  | succ n ih =>
    unfold isrRun at h
    split at h
    · cases h
    · rcases andThen_fault h with h | ⟨u, hu, h⟩
      · exact gated_isrAdvance h
      · exact (frame_isrAdvance hu).gated (ih h)
end Sys2Proof.Machine
end

