-- ==== Sys2Proof/Laws/Turns.lean ====
section
/-!
SUPPORT. What one line of a caller's operation does to the lock and to the lines left, for this caller and the others; and
the cases of a step.
-/
namespace Sys2Proof.Machine

/-- What a line other than the lock's leaves a caller to do: the lines after it, where an error result goes on, or more
lines, none of the lock's, before them. -/
def goesOn (rest l : List Act) : Prop :=
  l = rest ∨ l = unwind rest ∨ ∃ m, l = m ++ rest ∧ ∀ x ∈ m, x ≠ Act.acquire ∧ x ≠ Act.release

/-- What a line does to the lock and to the lines left. -/
def lineEffect (a : Act) (rest : List Act) (s t : State) : Prop :=
  t.actor = s.actor ∧ t.CallersWf ∧ (∀ k, k ≠ s.actor → t.caller k = s.caller k) ∧ t.sched = s.sched
    ∧ ((a = .acquire ∧ s.lock = none ∧ t.lock = some s.actor ∧ t.self.task = rest)
      ∨ (a = .acquire ∧ s.lock ≠ none ∧ t.lock = s.lock ∧ t.self.task = .acquire :: rest)
      ∨ (a = .release ∧ s.lock = some s.actor ∧ t.lock = none ∧ t.self.task = rest)
      ∨ (a ≠ .acquire ∧ a ≠ .release ∧ t.lock = s.lock ∧ goesOn rest t.self.task))

/-- The states a line's accesses pass through keep what the lock discipline looks at. -/
def sameCallers (s t : State) : Prop :=
  t.callers = s.callers ∧ t.actor = s.actor ∧ t.sched = s.sched ∧ t.lock = s.lock

theorem sameCallers_read {r : Reg} {s : State} {p : Word × State} (h : regRead r s = .next p) : sameCallers s p.2 := by
  obtain ⟨rfl, -⟩ := regRead_next h
  rcases readRule_cases r s with e | e | ⟨-, -, -, -, e⟩ <;> rw [e] <;> exact ⟨rfl, rfl, rfl, rfl⟩

theorem sameCallers_write {r : Reg} {v : Word} {s t : State} (h : regWrite r v s = .next t) : sameCallers s t := by
  obtain ⟨h, -⟩ := regWrite_next h
  rcases writeRule_cases h with ⟨-, rfl⟩ | ⟨-, rfl⟩ | ⟨-, rfl⟩ | ⟨-, rfl⟩ | ⟨-, -, rfl⟩ | ⟨-, rfl⟩ | ⟨-, rfl⟩ | ⟨-, rfl⟩
    | ⟨-, n, d, a, -, -, rfl⟩ | ⟨-, rfl⟩ | ⟨-, rfl⟩ | ⟨-, rfl⟩ | ⟨-, rfl⟩ | ⟨-, -, rfl⟩
  all_goals exact ⟨rfl, rfl, rfl, rfl⟩

theorem sameCallers_onTxn {s t : State} {f : Txn → Txn} (h : s.onTxn f = .next t) : sameCallers s t := by
  obtain ⟨d, -, rfl⟩ := onTxn_next h
  exact ⟨rfl, rfl, rfl, rfl⟩

/-- A line that ends in an update of this caller, after accesses that leave the callers alone. -/
theorem lineEffect_put {a : Act} {rest : List Act} {s u : State} (ha : a ≠ .acquire ∧ a ≠ .release) (hw : s.CallersWf)
    (h : sameCallers s u) (c : Caller) (hc : goesOn rest c.task) : lineEffect a rest s (u.putSelf c) := by
  obtain ⟨h1, h2, h3, h4⟩ := h
  have hu : u.CallersWf := by rw [State.CallersWf, h1]; exact hw
  have hk : ∀ k, u.caller k = s.caller k := fun k => by unfold State.caller; rw [h1]
  refine ⟨h2, hu.putSelf c, fun k hne => ?_, h3, .inr (.inr (.inr ⟨ha.1, ha.2, h4, ?_⟩))⟩
  · rw [State.caller_putSelf_other u (by rw [h2]; exact hne), hk]
  · rw [State.self_putSelf hu]; exact hc

/-- What every line does to the lock and to the lines left. -/
theorem performLine_effect {a : Act} {rest : List Act} {s t : State} (hw : s.CallersWf)
    (h : performLine a rest s = .next t) : lineEffect a rest s t := by
  have same : sameCallers s s := ⟨rfl, rfl, rfl, rfl⟩
  have one : ∀ x : Act, x ≠ .acquire → x ≠ .release → goesOn rest (x :: rest) := fun x h1 h2 =>
    .inr (.inr ⟨[x], rfl, by simp [h1, h2]⟩)
  cases a
  case acquire =>
    cases h; unfold acquireLine
    split
    · rename_i hl
      refine ⟨rfl, hw.setTask rest, fun k hk => State.caller_setTask_other _ hk _, rfl, .inl ⟨rfl, hl, rfl, ?_⟩⟩
      exact congrArg Caller.task (State.self_setTask (s := { s with lock := some s.actor }) hw rest)
    · rename_i x hl
      refine ⟨rfl, hw.setTask _, fun k hk => State.caller_setTask_other _ hk _, rfl,
        .inr (.inl ⟨rfl, by rw [hl]; simp, rfl, ?_⟩)⟩
      exact congrArg Caller.task (State.self_setTask (s := s) hw _)
  case release =>
    simp only [performLine, releaseLine] at h
    split at h
    · rename_i hl
      cases h
      refine ⟨rfl, hw.setTask rest, fun k hk => State.caller_setTask_other _ hk _, rfl,
        .inr (.inr (.inl ⟨rfl, by simpa [State.holdsLock] using hl, rfl, ?_⟩))⟩
      exact congrArg Caller.task (State.self_setTask (s := { s with lock := none }) hw rest)
    · cases h
  case clkEnsure =>
    obtain ⟨p, hp, h⟩ := andThen_next h; cases h
    split
    · exact lineEffect_put (by simp) hw (sameCallers_read hp) _ (.inl rfl)
    · exact lineEffect_put (by simp) hw (sameCallers_read hp) _ (one _ (by simp) (by simp))
  case clkRequest c =>
    obtain ⟨p, hp, h⟩ := andThen_next h; cases h
    exact lineEffect_put (by simp) hw (sameCallers_write hp) _ (one _ (by simp) (by simp))
  case clkPoll n =>
    cases n with
    | zero => cases h; exact lineEffect_put (by simp) hw same _ (.inr (.inl rfl))
    | succ n =>
      obtain ⟨p, hp, h⟩ := andThen_next h; cases h
      split
      · exact lineEffect_put (by simp) hw (sameCallers_read hp) _ (.inl rfl)
      · exact lineEffect_put (by simp) hw (sameCallers_read hp) _ (one _ (by simp) (by simp))
  case clkDrop =>
    obtain ⟨p, hp, h⟩ := andThen_next h; cases h
    exact lineEffect_put (by simp) hw (sameCallers_read hp) _ (one _ (by simp) (by simp))
  case clkRelease c =>
    obtain ⟨p, hp, h⟩ := andThen_next h; cases h
    exact lineEffect_put (by simp) hw (sameCallers_write hp) _ (.inl rfl)
  case armFields b n =>
    obtain ⟨p, hp, h⟩ := andThen_next h; cases h
    refine lineEffect_put (u := p) (by simp) hw ?_ _ (.inl rfl)
    unfold armFields at hp
    repeat' split at hp
    all_goals cases hp
    exact ⟨rfl, rfl, rfl, rfl⟩
  case armCompletion =>
    obtain ⟨p, hp, h⟩ := andThen_next h; cases h
    exact lineEffect_put (by simp) hw (sameCallers_onTxn hp) _ (.inl rfl)
  case armPhase d =>
    obtain ⟨p, hp, h⟩ := andThen_next h; cases h
    exact lineEffect_put (by simp) hw (sameCallers_onTxn hp) _ (.inl rfl)
  case forceIdle =>
    obtain ⟨p, hp, h⟩ := andThen_next h; cases h
    exact lineEffect_put (by simp) hw (sameCallers_onTxn hp) _ (.inl rfl)
  case write r v =>
    obtain ⟨p, hp, h⟩ := andThen_next h; cases h
    exact lineEffect_put (by simp) hw (sameCallers_write hp) _ (.inl rfl)
  case probe r =>
    obtain ⟨p, hp, h⟩ := andThen_next h; cases h
    exact lineEffect_put (by simp) hw (sameCallers_read hp) _ (.inl rfl)
  case diagnose =>
    obtain ⟨p, hp, h⟩ := andThen_next h; cases h
    refine lineEffect_put (by simp) hw (sameCallers_read hp) _ ?_
    dsimp only
    split
    · exact .inr (.inr ⟨probeLines, rfl, by decide⟩)
    · exact .inl rfl
  case wait =>
    simp only [performLine, waitLine] at h
    split at h
    · cases h
    · split at h <;> cases h
      · refine lineEffect_put (s := s) (u := { s with txn := _ }) (by simp) hw ⟨rfl, rfl, rfl, rfl⟩ _ ?_
        dsimp only
        split
        · exact .inr (.inl rfl)
        · exact .inl rfl
      · exact lineEffect_put (by simp) hw same _ (one _ (by simp) (by simp))
  case fail e => cases h; exact lineEffect_put (by simp) hw same _ (.inr (.inl rfl))
  case registerIsr l =>
    cases h
    exact lineEffect_put (s := s) (u := { s with ctl := _ }) (by simp) hw ⟨rfl, rfl, rfl, rfl⟩ _ (.inl rfl)
  case initEnd sp =>
    cases h; unfold initEndLine
    split
    · exact lineEffect_put (s := s) (u := { s with ctl := _ }) (by simp) hw ⟨rfl, rfl, rfl, rfl⟩ _ (.inl rfl)
    · exact lineEffect_put (s := s) (u := { s with txn := _, ctl := _ }) (by simp) hw ⟨rfl, rfl, rfl, rfl⟩ _ (.inl rfl)
  case deinitEnd =>
    simp only [performLine, deinitEndLine] at h
    split at h <;> cases h
    exact lineEffect_put (s := s) (u := { s with txn := _, ctl := _ }) (by simp) hw ⟨rfl, rfl, rfl, rfl⟩ _ (.inl rfl)
  case finish how =>
    cases h; unfold finishLine; dsimp only
    split
    · exact lineEffect_put (by simp) hw same _ (.inl rfl)
    · cases how
      · exact lineEffect_put (by simp) hw same _ (.inl rfl)
      · exact lineEffect_put (by simp) hw same _ (.inl rfl)
      · exact lineEffect_put (s := s) (u := { s with mem := _ }) (by simp) hw ⟨rfl, rfl, rfl, rfl⟩ _ (.inl rfl)

/-- The cases of a step that answers a next state: nothing scheduled; a turn; a turn of the interrupt service; an operation
that is performed, by an idle caller where it is a caller's; an operation of a caller that is inside another; an ENG_START
of its own. -/
theorem step_cases {s t : State} (h : step s = .next t) :
    (s.sched = [] ∧ t = s)
      ∨ (∃ k rest, s.sched = .turn k :: rest ∧ advance { s with sched := rest, actor := k } = .next t)
      ∨ (∃ rest, s.sched = .isrTurn :: rest ∧ isrAdvance { s with sched := rest } = .next t)
      ∨ (∃ k f bytes i after rest, s.sched = .op k f bytes :: rest ∧ decode s.opts f bytes = .ok (i, after)
        ∧ ((i.byCaller = true ∧ (s.caller k).task = [] ∧ exec i { s with sched := rest, actor := k } = .next t)
          ∨ (i.byCaller = true ∧ (s.caller k).task ≠ [] ∧ t = { s with sched := rest })
          ∨ (i.byCaller = false ∧ (∀ d, i ≠ .engStart d) ∧ exec i { s with sched := rest } = .next t)
          ∨ ((∃ d, i = .engStart d) ∧ t = { s with sched := rest }))) := by
  unfold step at h
  split at h
  · cases h; exact .inl ⟨‹_›, rfl⟩
  · rename_i slot rest hs
    cases slot with
    | op k f bytes =>
      simp only [runSlot, issue] at h
      split at h
      · rename_i i after hd
        refine .inr (.inr (.inr ⟨k, f, bytes, i, after, rest, hs, hd, ?_⟩))
        unfold performOp at h
        split at h
        · rename_i hb
          split at h
          · rename_i hi
            exact .inl ⟨hb, List.isEmpty_iff.1 hi, h⟩
          · rename_i hi
            cases h
            exact .inr (.inl ⟨hb, fun e => hi (List.isEmpty_iff.2 e), rfl⟩)
        · rename_i hb
          split at h
          · rename_i ho
            exact .inr (.inr (.inl ⟨by simpa using hb, (fun d e => by rw [e] at ho; cases ho), h⟩))
          · rename_i ho
            cases h
            exact .inr (.inr (.inr ⟨by cases i <;> first | exact ⟨_, rfl⟩ | exact absurd rfl ho, rfl⟩))
      · unfold accessUndocumented at h; split at h <;> cases h
      · cases h
    | turn k => exact .inr (.inl ⟨k, rest, hs, h⟩)
    | isrTurn => exact .inr (.inr (.inl ⟨rest, hs, h⟩))

-- Runs of one caller

/-- `n` turns of this caller from `s` lead to `u`, but for the caller table, where this caller has the lines `l` left and
the result `r`, its local buffers kept, and every other caller is as it was. -/
def Goes (n : Nat) (s u : State) (l : List Act) (r : Result) : Prop :=
  ∃ c, turns n s = .next { u with callers := c } ∧ State.CallersWf { u with callers := c } ∧ u.actor = s.actor
    ∧ State.self { u with callers := c } = { s.self with task := l, result := r }
    ∧ ∀ k, k ≠ s.actor → State.caller { u with callers := c } k = s.caller k

theorem goes_zero {s : State} (hw : s.CallersWf) : Goes 0 s s s.self.task s.self.result :=
  ⟨s.callers, rfl, hw, rfl, rfl, fun _ _ => rfl⟩

/-- One more turn: the line `a` of the state reached ends in an update of this caller after leading to `v`. -/
theorem Goes.line {n : Nat} {s u v : State} {a : Act} {l l' : List Act} {r r' : Result} (h : Goes n s u (a :: l) r)
    (hv : v.actor = u.actor)
    (hl : ∀ c, State.self { u with callers := c }
        = { s.self with task := a :: l, result := r } →
      performLine a l { u with callers := c } = .next (State.putSelf { v with callers := c }
        { s.self with task := l', result := r' })) :
    Goes (n + 1) s v l' r' := by
  obtain ⟨c, h1, h2, h3, h4, h5⟩ := h
  refine ⟨(State.putSelf { v with callers := c }
    { s.self with task := l', result := r' }).callers, ?_, ?_, hv.trans h3, ?_, ?_⟩
  · rw [turns_add, h1]
    have ht : (State.self { u with callers := c }).task = a :: l := by rw [h4]
    show andThen (advance _) (turns 0) = _
    rw [advance_cons ht, hl c h4]
    rfl
  · exact State.CallersWf.putSelf (s := { v with callers := c }) h2 _
  · exact State.self_putSelf (s := { v with callers := c }) h2 _
  · intro k hk
    have : State.caller (State.putSelf { v with callers := c }
        { s.self with task := l', result := r' }) k
        = State.caller { v with callers := c } k :=
      State.caller_putSelf_other { v with callers := c } (by rw [show State.actor _ = v.actor from rfl, hv, h3]; exact hk) _
    exact this.trans (h5 k hk)

/-- A write line. -/
theorem Goes.write {n : Nat} {s u v : State} {g : Reg} {w : Word} {l : List Act} {r : Result}
    (h : Goes n s u (.write g w :: l) r) (hv : v.actor = u.actor)
    (hw : ∀ c, regWrite g w { u with callers := c } = .next { v with callers := c }) : Goes (n + 1) s v l r :=
  h.line hv fun c hc => by
    show andThen (regWrite g w { u with callers := c }) _ = _
    rw [hw c]
    have : State.self { v with callers := c } = State.self { u with callers := c } := by
      show sparseRead _ c v.actor = sparseRead _ c u.actor; rw [hv]
    simp only [andThen_of_next, State.setTask, this, hc]

/-- A descriptor line. -/
theorem Goes.onTxn {n : Nat} {s u : State} {a : Act} {d : Txn} {l : List Act} {r : Result} (f : Txn → Txn)
    (h : Goes n s u (a :: l) r) (hd : u.txn = some d)
    (ha : ∀ s, performLine a l s = andThen (s.onTxn f) fun s => .next (s.setTask l)) :
    Goes (n + 1) s { u with txn := some (f d) } l r :=
  h.line rfl fun c hc => by
    rw [ha]
    have : State.onTxn { u with callers := c } f = .next { u with txn := some (f d), callers := c } := by
      simp only [State.onTxn, hd]
    rw [this]
    have : State.self { u with txn := some (f d), callers := c } = State.self { u with callers := c } := rfl
    simp only [andThen_of_next, State.setTask, this, hc]

end Sys2Proof.Machine
end

