-- ==== Sys2Proof/Laws/Arming.lean ====
section
/-!
SUPPORT. The lines that several sequences share, run one after another: arming (43 R231, R232), the clear-all write, the
clock check, the lock and the release.
-/
namespace Sys2Proof.Machine

/-- Acknowledging all five bits clears them and closes the window (40 R134). -/
theorem ackStatus_all (s : State) :
    ackStatus statAll s = { s with raw := 0, eng := { s.eng with window := false } } := by
  rw [ack_closes _ _ (by decide)]
  have : s.raw &&& ~~~statAll = 0 := by generalize s.raw = x; revert x; decide
  rw [this]

theorem regWrite_ackAll {u : State} (ho : u.i2cOpen = true) (c : List (Nat × Caller)) :
    regWrite .irqstatus (statWord u.opts.bits statAll) { u with callers := c }
      = .next { u with callers := c, raw := 0, eng := { u.eng with window := false } } := by
  exact (ack_open (s := { u with callers := c }) ho _).trans (by rw [ackStatus_all])

/-- The clear-all write. -/
theorem Goes.ackAll {n : Nat} {s u : State} {l : List Act} {r : Result} (ho : u.i2cOpen = true)
    (h : Goes n s u (.write .irqstatus (statWord u.opts.bits statAll) :: l) r) :
    Goes (n + 1) s { u with raw := 0, eng := { u.eng with window := false } } l r :=
  h.write rfl fun c => regWrite_ackAll ho c

/-- The clock check with a functional clock (41 R171). -/
theorem Goes.clkEnsure {n : Nat} {s u : State} {l : List Act} {r : Result} (hm : u.ctl.clkMapped = true)
    (h2 : u.modulemode = 2) (h0 : u.idlest = 0) (h : Goes n s u (.clkEnsure :: l) r) : Goes (n + 1) s u l .ok :=
  h.line rfl fun c hc => by
    have hf : functional u.opts.bits (State.clkctrl { u with callers := c }) = true := by simp [State.clkctrl, h2, h0]
    simp only [performLine]
    rw [regRead_clk (by exact hm)]
    simp only [andThen_of_next, hf, if_true, State.goOn, hc]

/-- The lock taken (43 R245). -/
theorem Goes.acquire {n : Nat} {s u : State} {l : List Act} {r : Result} (hl : u.lock = none)
    (h : Goes n s u (.acquire :: l) r) : Goes (n + 1) s { u with lock := some u.actor } l r :=
  h.line rfl fun c hc => by
    have hs : State.self { u with lock := some u.actor, callers := c } = State.self { u with callers := c } := rfl
    have e : acquireLine { u with callers := c } l = State.setTask { u with lock := some u.actor, callers := c } l := by
      unfold acquireLine
      split
      · rfl
      · rename_i h' hl'; rw [show u.lock = some h' from hl'] at hl; cases hl
    simp only [performLine, e, State.setTask, hs, hc]

/-- The lock given back by its holder (43 R246). -/
theorem Goes.release {n : Nat} {s u : State} {l : List Act} {r : Result} (hl : u.lock = some u.actor)
    (h : Goes n s u (.release :: l) r) : Goes (n + 1) s { u with lock := none } l r :=
  h.line rfl fun c hc => by
    have hs : State.self { u with lock := none, callers := c } = State.self { u with callers := c } := rfl
    have hh : State.holdsLock { u with callers := c } = true := by simp [State.holdsLock, hl]
    simp only [performLine, releaseLine, hh, if_true, State.setTask, hs, hc]

/-- The wait's line, with a descriptor (43 R243): the outcome is observed. -/
theorem performLine_wait {s : State} {d : Txn} {rest : List Act} (hd : s.txn = some d) :
    performLine .wait rest s
      = if d.completion then .next (State.deliver { s with txn := some { d with awaited := false } } d.outcome rest)
        else .next (s.setTask (.wait :: rest)) := by
  simp only [performLine, waitLine, hd]

/-- A signalled wait (43 R243). -/
theorem Goes.wait {n : Nat} {s u : State} {d : Txn} {l : List Act} {r : Result} (hd : u.txn = some d)
    (hc : d.completion = true) (h : Goes n s u (.wait :: l) r) :
    Goes (n + 1) s { u with txn := some { d with awaited := false } } (if d.outcome.isErr then unwind l else l)
      d.outcome :=
  h.line rfl fun c hs => by
    have e : State.self { u with txn := some { d with awaited := false }, callers := c }
        = State.self { u with callers := c } := rfl
    rw [performLine_wait (s := { u with callers := c }) hd, if_pos hc]
    simp only [State.deliver, State.goOn, e, hs]

theorem saWord_low : ∀ a : Byte, (saWord a).extractLsb' 0 10 = a.setWidth 10 := by decide

/-- The START word written to CON, with a count and a 7-bit address latched (40 R144, 42 R193). -/
theorem writeCon_start {s : State} {b : BitMap} {d : Dir} {a : Byte} {n : Nat} (hb : s.opts.bits = b)
    (ha : a.toNat ≤ 0x7F) (h1 : 1 ≤ n) (h2 : n < 2 ^ 32) (hs : s.sa = some (a.setWidth 10))
    (hn : s.cnt = some (BitVec.ofNat 32 n)) :
    writeRule .con (conStart b d) s = .next
      { s with
        con := { en := true, mst := true, trx := d == .tx }
        eng := Engine.started d n (a.setWidth 7) } := by
  have e1 : (BitVec.ofNat 32 n).toNat = n := by rw [BitVec.toNat_ofNat, Nat.mod_eq_of_lt h2]
  have e2 : ¬(BitVec.ofNat 32 n = 0#32) := by
    intro h; have := congrArg BitVec.toNat h; rw [e1] at this; simp at this; omega
  have e5 : (a.setWidth 10 : BitVec 10).setWidth 7 = a.setWidth 7 := by apply BitVec.eq_of_toNat_eq; simp
  have e6 : (a.setWidth 10 : BitVec 10).toNat = a.toNat := by
    rw [BitVec.toNat_setWidth, Nat.mod_eq_of_lt]; omega
  have e7 : ¬(0x7F < a.toNat) := by omega
  have e9 : Option.all (fun a => decide (0x7F < a.toNat)) (some (a.setWidth 10 : BitVec 10)) = false := by
    show decide (0x7F < (a.setWidth 10 : BitVec 10).toNat) = false
    rw [e6]; exact decide_eq_false e7
  subst hb
  simp only [writeRule, writeCon, writeControl, conStart, ControlBits.ofWord_toWord]
  cases d <;>
    simp [ControlBits.start, Con.stored, startEngine, hs, hn, e9, e1, e5] <;> exact e2

/-- The first line of arming by the lock holder with an idle descriptor (43 R231). -/
theorem Goes.armFirst {m n : Nat} {s u : State} {b : BufRef} {d : Txn} {l : List Act} {r : Result}
    (hl : u.lock = some u.actor) (hd : u.txn = some d) (hp : d.phase = .idle) (hw : d.awaited = false)
    (h : Goes m s u (.armFields b n :: l) r) :
    Goes (m + 1) s
      { u with txn := some { d with error := none, buffer := some b, length := n, index := 0, awaited := true } } l r :=
  h.line rfl fun c hc => by
    have e : armFields b n { u with callers := c }
        = .next { u with
            callers := c
            txn := some { d with error := none, buffer := some b, length := n, index := 0, awaited := true } } := by
      simp only [armFields, State.holdsLock, hl, hd, hp, hw]; simp
    have hs : State.self
        { u with
          callers := c
          txn := some { d with error := none, buffer := some b, length := n, index := 0, awaited := true } }
        = State.self { u with callers := c } := rfl
    simp only [performLine, e, andThen_of_next, State.setTask, hs, hc]

/-- The lines of arming after the first (43 R231): the descriptor in its phase, the status cleared, SA, CNT and CON written
and the engine started. -/
theorem Goes.armRest {m n : Nat} {s u : State} {dir : Dir} {a : Byte} {d : Txn} {l : List Act} {r : Result}
    (ho : u.i2cOpen = true) (hd : u.txn = some d) (ha : a.toNat ≤ 0x7F) (h1 : 1 ≤ n)
    (h2 : n ≤ u.opts.maxLen)
    (h : Goes m s u (.armCompletion :: .armPhase dir :: .write .irqstatus (statWord u.opts.bits statAll) :: .write .sa (saWord a)
      :: .write .cnt (cntWord n) :: .write .con (conStart u.opts.bits dir) :: l) r) :
    Goes (m + 6) s
      { u with
        txn := some { d with completion := false, phase := .ofDir dir }
        raw := 0
        sa := some (a.setWidth 10)
        cnt := some (BitVec.ofNat 32 n)
        con := { en := true, mst := true, trx := dir == .tx }
        eng := Engine.started dir n (a.setWidth 7) } l r := by
  have g1 := h.onTxn (fun t => { t with completion := false }) hd fun s => rfl
  have g2 := g1.onTxn (fun t => { t with phase := .ofDir dir }) rfl fun s => rfl
  have g3 := Goes.ackAll (u := { u with txn := some { d with completion := false, phase := .ofDir dir } }) ho g2
  have g4 := g3.write
    (v := { u with
      txn := some { d with completion := false, phase := .ofDir dir }, raw := 0,
      eng := { u.eng with window := false }, sa := some (a.setWidth 10) }) rfl fun c => by
    rw [regWrite_open (by exact ho) rfl]
    simp only [writeRule, writeSa, saWord_low]
  have g5 := g4.write
    (v := { u with
      txn := some { d with completion := false, phase := .ofDir dir }, raw := 0,
      eng := { u.eng with window := false }, sa := some (a.setWidth 10), cnt := some (BitVec.ofNat 32 n) }) rfl
    fun c => by
      rw [regWrite_open (by exact ho) rfl]
      simp only [writeRule, writeCnt, lowBits_cntWord h2]
  exact g5.write rfl fun c => by
    rw [regWrite_open (by exact ho) rfl]
    exact writeCon_start rfl ha h1 (Nat.lt_of_le_of_lt h2 (maxLen_lt u.opts)) rfl rfl

/-- One turn is a step of the caller. -/
theorem advance_of_turn {s t : State} (h : turns 1 s = .next t) : advance s = .next t := by
  rw [show turns 1 s = andThen (advance s) (turns 0) from rfl] at h
  obtain ⟨u, hu, h⟩ := andThen_next h
  cases h; exact hu

end Sys2Proof.Machine
end

