-- ==== Sys2Proof/Laws/PerInstr.lean ====
section
/-!
SUPPORT. Family RoundTrip: decoding the encoding of a well-formed operation, with any bytes after it, gives the operation
back and leaves those bytes. One lemma per constructor.
-/
namespace Sys2Proof.Laws.RoundTrip

/-- Decode of encode is the operation (30_encoding R117). -/
def Statement (i : Instr) : Prop :=
  ∀ o : Options, i.wf o = true → ∀ rest, decode o i.format (encode o i ++ rest) = .ok (i, rest)

theorem init (busSpeedKhz interruptLine : Word) : Statement (.init busSpeedKhz interruptLine) := by
  intro _ _ rest
  simp [Instr.format, encode, decode, decodeCmd8]

theorem deinit : Statement (.deinit) := fun _ _ _ => rfl

theorem writeBytes (address : Byte) (buffer : Option Word) (length : Word) : Statement (.writeBytes address buffer length) := by
  intro _ _ rest
  simp [Instr.format, encode, decode, decodeCmd8]

theorem readBytes (address : Byte) (buffer : Option Word) (length : Word) : Statement (.readBytes address buffer length) := by
  intro _ _ rest
  simp [Instr.format, encode, decode, decodeCmd8]

theorem writeRegister (address register value : Byte) : Statement (.writeRegister address register value) := by
  intro _ _ rest
  simp [Instr.format, encode, decode, decodeCmd8]

theorem readRegister (address register : Byte) : Statement (.readRegister address register) := by
  intro _ _ rest
  simp [Instr.format, encode, decode, decodeCmd8]

theorem readBlock (address register : Byte) (buffer : Option Word) (length : Word) : Statement (.readBlock address register buffer length) := by
  intro _ _ rest
  simp [Instr.format, encode, decode, decodeCmd8]

theorem clkEnsureEnabled : Statement (.clkEnsureEnabled) := fun _ _ _ => rfl

theorem clkIsEnabled : Statement (.clkIsEnabled) := fun _ _ _ => rfl

theorem clkDisable : Statement (.clkDisable) := fun _ _ _ => rfl

theorem startWrite (address : Byte) (buffer length : Word) : Statement (.startWrite address buffer length) := by
  intro _ _ rest
  simp [Instr.format, encode, decode, decodeCmd8]

theorem startRead (address : Byte) (buffer length : Word) : Statement (.startRead address buffer length) := by
  intro _ _ rest
  simp [Instr.format, encode, decode, decodeCmd8]

theorem isrService : Statement (.isrService) := fun _ _ _ => rfl

theorem waitComplete : Statement (.waitComplete) := fun _ _ _ => rfl

theorem lockAcquire : Statement (.lockAcquire) := fun _ _ _ => rfl

theorem lockRelease : Statement (.lockRelease) := fun _ _ _ => rfl

theorem xferLocked (dir : Dir) (address : Byte) (buffer length : Word) : Statement (.xferLocked dir address buffer length) := by
  intro _ _ rest
  simp [Instr.format, encode, decode, decodeCmd8]

theorem rdIrqstatusRaw : Statement (.rdIrqstatusRaw) := fun o _ => decodeRegacc_read o .irqstatusRaw

theorem wrIrqstatusRaw (v : Word) : Statement (.wrIrqstatusRaw v) := fun o _ => decodeRegacc_write o .irqstatusRaw v

theorem rdIrqstatus : Statement (.rdIrqstatus) := fun o _ => decodeRegacc_read o .irqstatus

theorem wrIrqstatus (v : Word) : Statement (.wrIrqstatus v) := fun o _ => decodeRegacc_write o .irqstatus v

theorem rdIrqenableSet : Statement (.rdIrqenableSet) := fun o _ => decodeRegacc_read o .irqenableSet

theorem wrIrqenableSet (v : Word) : Statement (.wrIrqenableSet v) := fun o _ => decodeRegacc_write o .irqenableSet v

theorem rdIrqenableClr : Statement (.rdIrqenableClr) := fun o _ => decodeRegacc_read o .irqenableClr

theorem wrIrqenableClr (v : Word) : Statement (.wrIrqenableClr v) := fun o _ => decodeRegacc_write o .irqenableClr v

theorem rdCnt : Statement (.rdCnt) := fun o _ => decodeRegacc_read o .cnt

theorem wrCnt (v : Word) : Statement (.wrCnt v) := fun o _ => decodeRegacc_write o .cnt v

theorem rdData : Statement (.rdData) := fun o _ => decodeRegacc_read o .data

theorem wrData (v : Word) : Statement (.wrData v) := fun o _ => decodeRegacc_write o .data v

theorem rdCon : Statement (.rdCon) := fun o _ => decodeRegacc_read o .con

theorem wrCon (v : Word) : Statement (.wrCon v) := fun o _ => decodeRegacc_write o .con v

theorem rdSa : Statement (.rdSa) := fun o _ => decodeRegacc_read o .sa

theorem wrSa (v : Word) : Statement (.wrSa v) := fun o _ => decodeRegacc_write o .sa v

theorem rdPsc : Statement (.rdPsc) := fun o _ => decodeRegacc_read o .psc

theorem wrPsc (v : Word) : Statement (.wrPsc v) := fun o _ => decodeRegacc_write o .psc v

theorem rdScll : Statement (.rdScll) := fun o _ => decodeRegacc_read o .scll

theorem wrScll (v : Word) : Statement (.wrScll v) := fun o _ => decodeRegacc_write o .scll v

theorem rdSclh : Statement (.rdSclh) := fun o _ => decodeRegacc_read o .sclh

theorem wrSclh (v : Word) : Statement (.wrSclh v) := fun o _ => decodeRegacc_write o .sclh v

theorem rdClkctrl : Statement (.rdClkctrl) := fun o _ => decodeRegacc_read o .clkctrl

theorem wrClkctrl (v : Word) : Statement (.wrClkctrl v) := fun o _ => decodeRegacc_write o .clkctrl v

theorem conStartTx (v : Word) : Statement (.conStartTx v) := by
  intro o h rest
  simp only [Instr.wf, beq_iff_eq] at h
  simp [Instr.format, encode, decode, decodeConw, withWord_wordBytes, h, ControlBits.start]

theorem conStartRx (v : Word) : Statement (.conStartRx v) := by
  intro o h rest
  simp only [Instr.wf, beq_iff_eq] at h
  simp [Instr.format, encode, decode, decodeConw, withWord_wordBytes, h, ControlBits.start]

theorem conEnable (v : Word) : Statement (.conEnable v) := by
  intro o h rest
  simp only [Instr.wf, beq_iff_eq] at h
  simp [Instr.format, encode, decode, decodeConw, withWord_wordBytes, h, ControlBits.start, ControlBits.enable]

theorem conDisable (v : Word) : Statement (.conDisable v) := by
  intro o h rest
  simp only [Instr.wf, Bool.not_eq_true'] at h
  simp [Instr.format, encode, decode, decodeConw, withWord_wordBytes, h]

theorem engStart (dir : Dir) : Statement (.engStart dir) := by
  intro _ _ rest
  simp [Instr.format, encode, decode, decodeEvt8]

theorem engAddrAck : Statement (.engAddrAck) := fun _ _ _ => rfl

theorem engAddrNack : Statement (.engAddrNack) := fun _ _ _ => rfl

theorem engTxByteAck : Statement (.engTxByteAck) := fun _ _ _ => rfl

theorem engTxByteNack : Statement (.engTxByteNack) := fun _ _ _ => rfl

theorem engRxByte : Statement (.engRxByte) := fun _ _ _ => rfl

theorem engStopDone : Statement (.engStopDone) := fun _ _ _ => rfl

theorem engArbLost : Statement (.engArbLost) := fun _ _ _ => rfl

theorem engExtraReady : Statement (.engExtraReady) := fun _ _ _ => rfl

theorem engLateArdy : Statement (.engLateArdy) := fun _ _ _ => rfl

theorem pmUngate : Statement (.pmUngate) := fun _ _ _ => rfl

theorem pmGate : Statement (.pmGate) := fun _ _ _ => rfl

theorem pmIdle : Statement (.pmIdle) := fun _ _ _ => rfl

theorem xferTimeoutFires : Statement (.xferTimeoutFires) := fun _ _ _ => rfl

end Sys2Proof.Laws.RoundTrip
end

