-- ==== Sys2Proof/Laws/Reference.lean ====
section
/-!
SUPPORT. The reference engine (42_bus_engine R207): its enabled step moves the engine and brings it nearer to waiting for the
sequencer, so its steps come to an end.
-/
namespace Sys2Proof.Machine

/-- How many steps of the reference engine may follow one another from an engine state (42 R208). -/
def EngSt.stepsLeft : EngSt → Nat
  | .addr => 3
  | .txShift | .rxShift => 2
  | .stop => 1
  | .idle | .txWait | .rxWait => 0

theorem engNext_of_stepsLeft {s : State} (h : s.eng.st.stepsLeft = 0) : s.engNext = none := by
  unfold State.engNext
  split
  · rfl
  · split <;> simp_all [EngSt.stepsLeft]

/-- The enabled step of the reference engine answers a state with fewer of them to come. -/
theorem exec_engNext {s : State} {i : Instr} (h : s.engNext = some i) :
    ∃ t, exec i s = .next t ∧ t.eng.st.stepsLeft < s.eng.st.stepsLeft := by
  unfold State.engNext at h
  split at h
  · cases h
  · rename_i hl
    replace hl : s.engLive = true := by simpa using hl
    split at h
    · cases h
    · cases h
    · cases h
    · rename_i hs
      cases ha : s.addrAck <;> simp only [ha, Bool.false_eq_true, if_true, if_false] at h <;> cases h
      · exact ⟨_, if_pos ⟨hl, hs, ha⟩, by rw [hs]; exact (by decide : EngSt.stepsLeft .idle < EngSt.stepsLeft .addr)⟩
      · simp only [exec, execEngAddrAck,
          if_pos (show s.engLive = true ∧ s.eng.st = .addr ∧ s.addrAck = true from ⟨hl, hs, ha⟩)]
        cases s.eng.dir
        · exact ⟨_, rfl, by rw [hs]; exact (by decide : EngSt.stepsLeft .txWait < EngSt.stepsLeft .addr)⟩
        · exact ⟨_, rfl, by rw [hs]; exact (by decide : EngSt.stepsLeft .rxShift < EngSt.stepsLeft .addr)⟩
    · rename_i hs
      cases hh : s.eng.hold with
      | none => simp [hh] at h
      | some b =>
        cases hd : s.dataAck b <;> simp only [hh, hd, Option.map_some, Bool.false_eq_true, if_true, if_false] at h <;> cases h
        · simp only [exec, execEngTxByteNack, hh,
            if_pos (show s.engLive = true ∧ s.eng.st = .txShift ∧ s.dataAck b = false from ⟨hl, hs, hd⟩)]
          exact ⟨_, rfl, by rw [hs]; exact (by decide : EngSt.stepsLeft .idle < EngSt.stepsLeft .txShift)⟩
        · simp only [exec, execEngTxByteAck, hh,
            if_pos (show s.engLive = true ∧ s.eng.st = .txShift ∧ s.dataAck b = true from ⟨hl, hs, hd⟩)]
          split
          · exact ⟨_, rfl, by rw [hs]; exact (by decide : EngSt.stepsLeft .txWait < EngSt.stepsLeft .txShift)⟩
          · exact ⟨_, rfl, by rw [hs]; exact (by decide : EngSt.stepsLeft .stop < EngSt.stepsLeft .txShift)⟩
    · rename_i hs
      split at h
      · rename_i hh
        cases h
        simp only [exec, execEngRxByte,
          if_pos (show s.engLive = true ∧ s.eng.st = .rxShift ∧ s.eng.hold = none from ⟨hl, hs, by simpa using hh⟩)]
        refine ⟨_, rfl, ?_⟩
        show EngSt.stepsLeft (if 0 < s.eng.rem - 1 then .rxWait else .stop) < _
        rw [hs]; split <;> decide
      · cases h
    · rename_i hs
      cases h
      exact ⟨_, if_pos ⟨hl, hs⟩, by rw [hs]; exact (by decide : EngSt.stepsLeft .idle < EngSt.stepsLeft .stop)⟩

/-- With as many steps as may follow one another, none is enabled after them. -/
theorem engSteps_ends {n : Nat} {s : State} (h : s.eng.st.stepsLeft ≤ n) : ∃ t, engSteps n s = .next t ∧ t.engNext = none := by
  induction n generalizing s with
  | zero => exact ⟨s, rfl, engNext_of_stepsLeft (Nat.le_zero.1 h)⟩
  | succ n ih =>
    unfold engSteps
    split
    · exact ⟨s, rfl, ‹_›⟩
    · rename_i i hi
      obtain ⟨t, ht, hlt⟩ := exec_engNext hi
      rw [ht]
      exact ih (by omega)

/-- A state the reference engine has settled in keeps still. -/
theorem settle_of_engNext {s : State} (h : s.engNext = none) : settle s = .next s := by
  unfold settle engSteps; rw [h]

end Sys2Proof.Machine
end

