-- ==== Sys2Proof/Tests/Slice0.lean ====
section
/-!
SUPPORT. Tests. Every expected value is the spec's: the encodings of 30_encoding, the vectors V30 to V45 of
95_test_vectors.md (the vector is named in the comment), or hand calculation from the rule named. The witnesses at the
end show, for each statement with hypotheses, a state and operands that meet them.
-/
open Sys2Proof Sys2Proof.Machine

namespace Sys2Proof.Tests

-- Helpers

/-- The outcome is a next state with this property. -/
def after (x : Res State) (p : State → Bool) : Bool :=
  match x with
  | .next t => p t
  | _ => false

/-- The outcome is this refusal. -/
def refuses (x : Res State) (r : Refusal) : Bool :=
  match x with
  | .refused q => q == r
  | _ => false

/-- The outcome is a BusFault at this offset of the I2C block. -/
def busFaults (x : Res State) (off : BitVec 12) : Bool :=
  match x with
  | .fault f => f == .busFault .i2c off
  | _ => false

/-- The default parameters. -/
abbrev std : Options := Config.defaultOptions

/-- The default bit positions. -/
abbrev stdBits : BitMap := Config.defaultBits

/-- The decoder answers this instruction with no byte left. -/
def reads (f : Format) (l : List Byte) (i : Instr) : Bool :=
  match decode std f l with
  | .ok p => p == (i, [])
  | .error _ => false

/-- The decoder refuses for this reason. -/
def rejects (f : Format) (l : List Byte) (e : DecodeError) : Bool :=
  match decode std f l with
  | .ok _ => false
  | .error q => q == e

/-- The reference slave of section 2.4 of 95_test_vectors. -/
def slave : RefSlave := { addr := 0x68, mem := [(0, 0x5A), (1, 0x5B)], ptr := 0, first := false }

/-- The state after INIT (10_state R50), the start of the vectors of sections 2.2 to 2.6. -/
def ready : State :=
  { State.reset with
    ctl :=
      { ready := true, i2cMapped := true, clkMapped := true, irqRegistered := true, irqLine := some 30,
        speed := some .std100 }
    txn := some Txn.fresh
    ie := 0x1F
    con := { en := true, mst := false, trx := false }
    psc := some 3
    scll := some 53
    sclh := some 55
    modulemode := 2
    idlest := 0
    env := .refSlave slave }

/-- An engine in a transaction of `n` bytes at 0x68, just started. -/
def started (d : Dir) (n : Nat) : Engine :=
  { st := .addr, dir := d, sa := 0x68, cnt := n, rem := n, loaded := 0, hold := none, window := true, lateArdy := false,
    extra := 0 }

/-- `ready` with a transaction in the engine, in engine state `st` and with `hold` held, and status `raw`. -/
def busy (d : Dir) (n : Nat) (st : EngSt) (hold : Option Byte) (raw : Status) : State :=
  { ready with
    con := { en := true, mst := true, trx := d == .tx }
    sa := some 0x68
    cnt := some (BitVec.ofNat 32 n)
    raw := raw
    eng := { started d n with st := st, hold := hold } }

/-- `busy` with a descriptor of that transaction, `index` bytes done, its buffer at 0x100. -/
def inTransfer (d : Dir) (n index : Nat) (st : EngSt) (hold : Option Byte) (raw : Status) : State :=
  { busy d n st hold raw with
    lock := some 0
    mem := [(0x100, 0x11), (0x101, 0x22)]
    txn := some
      { phase := .ofDir d, error := none, buffer := some (.mem 0x100), length := n, index := index, completion := false,
        awaited := true } }

/-- Caller 0 of the state has these lines left. -/
def doing (l : List Act) (s : State) : State := { s with callers := [(0, { Caller.fresh with task := l })] }

/-- Caller 5 of the state has these lines left. -/
def beside (l : List Act) (s : State) : State := { s with callers := [(5, { Caller.fresh with task := l })] }

/-- A descriptor at its end, the outcome not observed yet. -/
def ended (e : Option XferError) : Txn :=
  { phase := .idle, error := e, buffer := some (.mem 0x100), length := 2, index := 2, completion := true, awaited := true }

/-- A descriptor at its end, the outcome observed. -/
def observed : Txn := { ended none with awaited := false }

/-- The clock is gated, CLKCTRL = 0x00020002. -/
def gated (s : State) : State := { s with idlest := 2 }

/-- CON of a disabled module. -/
def conOff : Con := { en := false, mst := false, trx := false }

/-- Other parameters: CON at another offset, EN, AL, MODULEMODE and IDLEST at other positions, another base, a count of 8
bits. -/
def movedOptions : Options :=
  { Config.defaultOptions with
    i2cBase := 0x48000000
    map := { offsets := { Config.defaultOffsets with con := 0x0A8 }, aligned := by decide, distinct := by decide }
    bits :=
      { al := 7, nack := 1, ardy := 2, rrdy := 3, xrdy := 4, en := 31, mst := 10, trx := 9, stp := 1, stt := 0,
        modulemode := 30, idlest := 2, statusDistinct := by decide, controlDistinct := by decide, fieldsApart := by decide }
    count := { width := 8, maxLen := 255, inWord := by decide, fits := by decide } }

/-- Caller 0 in its operation number `n`, with these local buffers. -/
def withLocal (n : Nat) (tmp staging : List Byte) (s : State) : State :=
  { s with callers := [(0, { Caller.fresh with tmp := tmp, staging := staging, serial := n })] }

/-- The descriptor's buffer is this one. -/
def intoBuffer (b : BufRef) (s : State) : State := { s with txn := s.txn.map fun d => { d with buffer := some b } }

/-- An environment that acknowledges addresses, refuses data bytes and loses arbitration, for the next question. -/
def hostile : Env := .oracle [{ addrAck := true, dataAck := false, byte := 0, arbLost := true }]

-- The reference engine

/-- P1 rows 76 to 78: the address, the only byte of a read and the STOP before the service runs; row 55: XRDY first. -/
theorem test_settle :
    after (settle (busy .rx 1 .addr none 0)) (fun t => t.eng.st == .idle && t.raw == 0xC && t.eng.hold.isSome) = true
      ∧ after (settle (busy .tx 1 .addr none 0)) (fun t => t.eng.st == .txWait && t.raw == 0x10) = true := by decide

/-- P1 rows 79 to 84: one invocation sees RRDY and ARDY and ends the read. -/
theorem test_refService :
    after (andThen (settle (inTransfer .rx 1 0 .addr none 0)) (refService 1))
      (fun t => t.raw == 0 && t.eng.st == .idle
        && t.txn.any fun d => d.completion && d.phase == .idle && d.index == 1) = true := by decide

/-- 42 R207: a register access while an engine step is enabled is not eager; an engine step then, and the access after it,
are. -/
theorem test_eager :
    ({ busy .tx 2 .addr none 0 with sched := [.op 0 .regacc [0x28, 0x00]] } : State).accessNext = true
      ∧ (busy .tx 2 .addr none 0).engNext = some .engAddrAck
      ∧ ({ busy .tx 2 .addr none 0 with sched := [.op 0 .evt8 [0x21]] } : State).accessNext = false
      ∧ (busy .tx 2 .txWait none 0x10).engNext = none ∧ (gated (busy .tx 2 .addr none 0)).engNext = none := by decide

-- Well-formedness: an ill-formed term for each check

/-- `address` has 7 bits (30 R108). -/
theorem test_wf_address :
    (Instr.startWrite 0x80 0 1).wf std = false ∧ (Instr.startRead 0x80 0 1).wf std = false
      ∧ (Instr.xferLocked .tx 0x80 0 1).wf std = false := by decide

/-- `length` is at least 1 (30 R109). -/
theorem test_wf_zero_length :
    (Instr.startWrite 0x68 0 0).wf std = false ∧ (Instr.startRead 0x68 0 0).wf std = false
      ∧ (Instr.xferLocked .rx 0x68 0 0).wf std = false := by decide

/-- `length` is at most 65535 (30 R109). -/
theorem test_wf_long_length :
    (Instr.startWrite 0x68 0 65536).wf std = false ∧ (Instr.startRead 0x68 0 65536).wf std = false
      ∧ (Instr.xferLocked .rx 0x68 0 65536).wf std = false := by decide

/-- The four classes of control words (30 R103): each word is ill formed as the other three. -/
theorem test_wf_control_words :
    (Instr.conStartTx 0x8403).wf std = false ∧ (Instr.conStartRx 0x8603).wf std = false ∧ (Instr.conEnable 0x0000).wf std = false
      ∧ (Instr.conDisable 0x8000).wf std = false ∧ (Instr.conStartTx 0x8000).wf std = false
      ∧ (Instr.conEnable 0x8400).wf std = false := by decide

/-- The bounds themselves are well formed. -/
theorem test_wf_bounds :
    (Instr.startWrite 0x7F 0 1).wf std = true ∧ (Instr.startRead 0 0 65535).wf std = true
      ∧ (Instr.conStartTx 0xFFFFFFFF).wf std = true ∧ (Instr.conDisable 0xFFFF7FFF).wf std = true := by decide

-- Decoding: words written out from 30_encoding

/-- CMD8 consumer operations (30 R101), the operands in the byte layout of log 3. -/
theorem test_decode_consumer :
    reads .cmd8 [0x00, 0x90, 0x01, 0, 0, 30, 0, 0, 0] (.init 400 30) = true
      ∧ reads .cmd8 [0x01] .deinit = true
      ∧ reads .cmd8 [0x02, 0x68, 1, 0, 1, 0, 0, 3, 0, 0, 0] (.writeBytes 0x68 (some 0x100) 3) = true
      ∧ reads .cmd8 [0x03, 0x68, 0, 14, 0, 0, 0] (.readBytes 0x68 none 14) = true
      ∧ reads .cmd8 [0x04, 0x68, 0x6B, 0x01] (.writeRegister 0x68 0x6B 0x01) = true
      ∧ reads .cmd8 [0x05, 0x68, 0x6B] (.readRegister 0x68 0x6B) = true
      ∧ reads .cmd8 [0x06, 0x68, 0x3B, 0, 14, 0, 0, 0] (.readBlock 0x68 0x3B none 14) = true := by decide

/-- CMD8 clock and sequencer operations (30 R101). -/
theorem test_decode_sequencer :
    reads .cmd8 [0x08] .clkEnsureEnabled = true ∧ reads .cmd8 [0x09] .clkIsEnabled = true
      ∧ reads .cmd8 [0x0A] .clkDisable = true
      ∧ reads .cmd8 [0x0C, 0x68, 0, 1, 0, 0, 2, 0, 0, 0] (.startWrite 0x68 0x100 2) = true
      ∧ reads .cmd8 [0x0D, 0x68, 0, 1, 0, 0, 14, 0, 0, 0] (.startRead 0x68 0x100 14) = true
      ∧ reads .cmd8 [0x0E] .isrService = true ∧ reads .cmd8 [0x0F] .waitComplete = true
      ∧ reads .cmd8 [0x10] .lockAcquire = true ∧ reads .cmd8 [0x11] .lockRelease = true
      ∧ reads .cmd8 [0x12, 1, 0x68, 0, 1, 0, 0, 1, 0, 0, 0] (.xferLocked .rx 0x68 0x100 1) = true := by decide

/-- REGACC reads (30 R102: bit 15 clear, bit 14 the clock block, bits 11 to 0 the offset). -/
theorem test_decode_reads :
    reads .regacc [0x24, 0x00] .rdIrqstatusRaw = true ∧ reads .regacc [0x28, 0x00] .rdIrqstatus = true
      ∧ reads .regacc [0x2C, 0x00] .rdIrqenableSet = true ∧ reads .regacc [0x30, 0x00] .rdIrqenableClr = true
      ∧ reads .regacc [0x98, 0x00] .rdCnt = true ∧ reads .regacc [0x9C, 0x00] .rdData = true
      ∧ reads .regacc [0xA4, 0x00] .rdCon = true ∧ reads .regacc [0xAC, 0x00] .rdSa = true
      ∧ reads .regacc [0xB0, 0x00] .rdPsc = true ∧ reads .regacc [0xB4, 0x00] .rdScll = true
      ∧ reads .regacc [0xB8, 0x00] .rdSclh = true ∧ reads .regacc [0x44, 0x40] .rdClkctrl = true := by decide

/-- REGACC writes (30 R102: bit 15 set), the value word after the code. -/
theorem test_decode_writes :
    reads .regacc [0x24, 0x80, 0x10, 0, 0, 0] (.wrIrqstatusRaw 0x10) = true
      ∧ reads .regacc [0x28, 0x80, 0x1F, 0, 0, 0] (.wrIrqstatus 0x1F) = true
      ∧ reads .regacc [0x2C, 0x80, 0x1F, 0, 0, 0] (.wrIrqenableSet 0x1F) = true
      ∧ reads .regacc [0x30, 0x80, 0x18, 0, 0, 0] (.wrIrqenableClr 0x18) = true
      ∧ reads .regacc [0x98, 0x80, 0x0E, 0, 1, 0] (.wrCnt 0x0001000E) = true
      ∧ reads .regacc [0x9C, 0x80, 0x6B, 0, 0, 0] (.wrData 0x6B) = true
      ∧ reads .regacc [0xA4, 0x80, 0x03, 0x86, 0, 0] (.wrCon 0x8603) = true
      ∧ reads .regacc [0xAC, 0x80, 0x68, 0, 0, 0] (.wrSa 0x68) = true
      ∧ reads .regacc [0xB0, 0x80, 3, 0, 0, 0] (.wrPsc 3) = true
      ∧ reads .regacc [0xB4, 0x80, 0x35, 1, 0, 0] (.wrScll 0x135) = true
      ∧ reads .regacc [0xB8, 0x80, 0x37, 0, 0, 0] (.wrSclh 0x37) = true
      ∧ reads .regacc [0x44, 0xC0, 2, 0, 3, 0] (.wrClkctrl 0x00030002) = true := by decide

/-- The control words V30-12 to V30-17: the four classes, 0xFFFF masked to a START, a START without STOP in no class. -/
theorem test_decode_control_words :
    reads .conw [0x03, 0x86, 0, 0] (.conStartTx 0x8603) = true ∧ reads .conw [0x03, 0x84, 0, 0] (.conStartRx 0x8403) = true
      ∧ reads .conw [0, 0x80, 0, 0] (.conEnable 0x8000) = true ∧ reads .conw [0, 0, 0, 0] (.conDisable 0) = true
      ∧ reads .conw [0xFF, 0xFF, 0, 0] (.conStartTx 0xFFFF) = true
      ∧ reads .conw [0x01, 0x86, 0, 0] (.wrCon 0x8601) = true := by decide

/-- EVT8 (30 R107); ENG_START has its direction after the number (log 3). -/
theorem test_decode_events :
    reads .evt8 [0x20, 1] (.engStart .rx) = true ∧ reads .evt8 [0x21] .engAddrAck = true
      ∧ reads .evt8 [0x22] .engAddrNack = true ∧ reads .evt8 [0x23] .engTxByteAck = true
      ∧ reads .evt8 [0x24] .engTxByteNack = true ∧ reads .evt8 [0x25] .engRxByte = true
      ∧ reads .evt8 [0x26] .engStopDone = true ∧ reads .evt8 [0x27] .engArbLost = true
      ∧ reads .evt8 [0x28] .engExtraReady = true ∧ reads .evt8 [0x29] .engLateArdy = true
      ∧ reads .evt8 [0x30] .pmUngate = true ∧ reads .evt8 [0x31] .pmGate = true ∧ reads .evt8 [0x32] .pmIdle = true
      ∧ reads .evt8 [0x38] .xferTimeoutFires = true := by decide

/-- The reserved numbers of V30-9, V30-10, V30-11, V30-25 and V30-29. -/
theorem test_decode_reserved :
    rejects .regacc [0x90, 0x00] (.undocumentedOffset .i2c) = true
      ∧ rejects .regacc [0x44, 0x80, 0, 0, 0, 0] (.undocumentedOffset .i2c) = true
      ∧ rejects .regacc [0x28, 0x10] .reservedAccessCode = true ∧ rejects .cmd8 [0x07] .reservedCommand = true
      ∧ rejects .evt8 [0x2A] .reservedEvent = true := by decide

/-- 20 R71: CON at `I2C_BASE + 0x0A4`, CLKCTRL at `CLK_BASE + 0x044`. 30 R102: the access code follows the offset. -/
theorem test_parameters :
    Reg.address std .con = 0x4819C0A4 ∧ Reg.address std .clkctrl = 0x44E00044
      ∧ Reg.address movedOptions .con = 0x480000A8 ∧ accessCode std true .con = 0x80A4
      ∧ accessCode movedOptions true .con = 0x80A8
      ∧ after (exec .rdIrqstatusRaw { ready with raw := 1, opts := movedOptions }) (fun t => t.self.result == .word 0x80)
        = true
      ∧ after (exec (.wrCon 0x80000000) { ready with con := conOff, opts := movedOptions }) (fun t => t.con.en) = true := by
  decide

/-- 10_state R31, R42 and 93 U37: CLKCTRL's two fields at other positions, MODULEMODE in bits 31:30, IDLEST in bits 3:2.
10_state R24 and 93 U38: a count of 8 bits. -/
theorem test_parameters_fields :
    after (exec .rdClkctrl { gated ready with opts := movedOptions }) (fun t => t.self.result == .word 0x80000008) = true
      ∧ after (exec (.wrClkctrl 0x3FFFFFFF) { ready with opts := movedOptions }) (fun t => t.modulemode == 0) = true
      ∧ refuses (exec (.wrClkctrl 0x40000000) { ready with opts := movedOptions }) .reservedModulemode = true
      ∧ after (exec .clkIsEnabled { ready with opts := movedOptions }) (fun t => t.self.result == .bool true) = true
      ∧ after (exec (.wrCnt 0x10E) { ready with opts := movedOptions }) (fun t => t.cnt == some 0x0E) = true
      ∧ refuses (exec (.writeBytes 0x68 (some 0) 256) { ready with opts := movedOptions }) .operandOutOfRange = true := by
  decide

/-- The host's word of an operation is decoded, and placed as the next entry of the schedule it runs. -/
theorem test_fetch_word :
    decodeTableWord 16 0x809C = some (.wrData 0) ∧ decodeTableWord 16 0x4044 = some .rdClkctrl
      ∧ decodeTableWord 8 0x26 = some .engStopDone ∧ decodeTableWord 8 0x07 = none
      ∧ after (step (ready.withFetchWord 16 0x4044)) (fun t => t.self.result == .word 2) = true := by decide

-- One step of each operation: the register block (V40)

/-- V40-2. -/
theorem test_rdIrqstatusRaw :
    after (exec .rdIrqstatusRaw { ready with raw := 0x1F, ie := 4 }) (fun t => t.self.result == .word 0x1F) = true := by
  decide

/-- V40-2. -/
theorem test_rdIrqstatus :
    after (exec .rdIrqstatus { ready with raw := 0x1F, ie := 4 }) (fun t => t.self.result == .word 4 && t.raw == 0x1F)
      = true := by decide

/-- V40-31. -/
theorem test_wrIrqstatusRaw : refuses (exec (.wrIrqstatusRaw 0x10) ready) .rawStatusWrite = true := by decide

/-- V40-5 and V40-6: one bit acknowledged; bits above 4 ignored. -/
theorem test_wrIrqstatus_clears :
    after (exec (.wrIrqstatus 2) { ready with raw := 7 }) (fun t => t.raw == 5) = true
      ∧ after (exec (.wrIrqstatus 0xFFFFFFE0) { ready with raw := 0x1F }) (fun t => t.raw == 0x1F) = true := by decide

/-- V40-7, V40-10, V40-11: a ready bit whose condition holds stays; the clear-all closes the window first. -/
theorem test_wrIrqstatus_levels :
    after (exec (.wrIrqstatus 0x10) (busy .tx 2 .txWait none 0x10)) (fun t => t.raw == 0x10 && t.eng.window) = true
      ∧ after (exec (.wrIrqstatus 0x1F) (busy .tx 2 .txWait none 0x10)) (fun t => t.raw == 0 && !t.eng.window) = true
      ∧ after (exec (.wrIrqstatus 8) (busy .rx 2 .rxWait (some 0x5A) 8)) (fun t => t.raw == 8) = true := by decide

/-- V40-19. -/
theorem test_wrIrqenableClr : after (exec (.wrIrqenableClr 0x18) ready) (fun t => t.ie == 7) = true := by decide

/-- V40-20: ARDY enabled, and `irq` rises. -/
theorem test_wrIrqenableSet :
    after (exec (.wrIrqenableSet 4) { ready with ie := 0, raw := 4 }) (fun t => t.ie == 4 && t.irq) = true := by decide

/-- V40-19: both addresses read IE. -/
theorem test_rdIrqenable :
    after (exec .rdIrqenableSet { ready with ie := 7 }) (fun t => t.self.result == .word 7) = true
      ∧ after (exec .rdIrqenableClr { ready with ie := 7 }) (fun t => t.self.result == .word 7) = true := by decide

/-- V40-21. -/
theorem test_cnt :
    after (exec (.wrCnt 0x0001000E) ready) (fun t => t.cnt == some 0xE) = true
      ∧ after (exec .rdCnt { ready with cnt := some 0xE }) (fun t => t.self.result == .word 0xE) = true := by decide

/-- V40-21. -/
theorem test_sa :
    after (exec (.wrSa 0x68) ready) (fun t => t.sa == some 0x68) = true
      ∧ after (exec .rdSa { ready with sa := some 0x68 }) (fun t => t.self.result == .word 0x68) = true := by decide

/-- V40-12: the held byte is read, the engine goes on. V40-13: after the STOP the engine stays idle. -/
theorem test_rdData :
    after (exec .rdData (busy .rx 2 .rxWait (some 0x5A) 8))
        (fun t => t.self.result == .word 0x5A && t.eng.st == .rxShift && t.eng.hold == none && t.eng.loaded == 1) = true
      ∧ after (exec .rdData (busy .rx 1 .idle (some 0x5A) 0xC))
        (fun t => t.self.result == .word 0x5A && t.eng.st == .idle && t.raw == 0xC) = true := by decide

/-- V40-14, V40-17: with the window closed, or in the wrong direction, the read changes nothing of the engine. -/
theorem test_rdData_nothing :
    after (exec .rdData { busy .rx 1 .idle (some 0x5A) 8 with eng.window := false })
        (fun t => t.eng.hold == some 0x5A && t.raw == 8) = true
      ∧ after (exec .rdData (busy .tx 2 .txWait none 0x10)) (fun t => t.eng.st == .txWait && t.eng.loaded == 0) = true := by
  decide

/-- V40-8: the byte is taken. V40-15: discarded by an idle engine. -/
theorem test_wrData :
    after (exec (.wrData 0x6B) (busy .tx 2 .txWait none 0x10))
        (fun t => t.eng.hold == some 0x6B && t.eng.st == .txShift && t.eng.loaded == 1 && t.raw == 0x10) = true
      ∧ after (exec (.wrData 0xAA) ready) (fun t => t.eng == ready.eng) = true := by decide

/-- V40-18: refused. V42-41: past the count, discarded. -/
theorem test_wrData_unexpected :
    refuses (exec (.wrData 0) (busy .rx 2 .rxWait (some 0x5A) 8)) .dataWriteUnexpected = true
      ∧ after (exec (.wrData 0) { busy .tx 1 .txShift (some 0x3B) 0x10 with eng.loaded := 1 })
        (fun t => t.eng.hold == some 0x3B && t.eng.loaded == 1) = true := by decide

/-- V40-27, as the read. -/
theorem test_rdCon :
    after (exec .rdCon (busy .tx 2 .addr none 0)) (fun t => t.self.result == .word 0x8600) = true := by decide

/-- V40-27 and V42-1: a good START. -/
theorem test_wrCon :
    after (exec (.wrCon 0x8603) { ready with cnt := some 2, sa := some 0x68 })
      (fun t => t.con == { en := true, mst := true, trx := true } && t.eng == started .tx 2) = true := by decide

/-- V40-23 to V40-26. -/
theorem test_wrCon_refused :
    refuses (exec (.wrCon 0x8603) { ready with sa := some 0x68 }) .zeroCount = true
      ∧ refuses (exec (.wrCon 0x8603) { ready with cnt := some 0, sa := some 0x68 }) .zeroCount = true
      ∧ refuses (exec (.wrCon 0x8403) { ready with cnt := some 1, sa := some 0x80 }) .addressOutOfRange = true
      ∧ refuses (exec (.wrCon 0x8203) { ready with cnt := some 1, sa := some 0x68 }) .startFormNotInSource = true := by
  decide

/-- V40-29, V40-30: refused while enabled; while disabled the low eight bits are kept. -/
theorem test_timing_writes :
    refuses (exec (.wrPsc 3) ready) .timingWriteWhileEnabled = true
      ∧ after (exec (.wrPsc 0x203) { ready with con := conOff }) (fun t => t.psc == some 3) = true
      ∧ after (exec (.wrScll 0x135) { ready with con := conOff }) (fun t => t.scll == some 0x35 && t.sclh == some 55) = true
      ∧ after (exec (.wrSclh 0xA) { ready with con := conOff }) (fun t => t.sclh == some 10 && t.scll == some 53) = true := by
  decide

/-- The profile of 45 R301 read back. -/
theorem test_timing_reads :
    after (exec .rdPsc ready) (fun t => t.self.result == .word 3) = true
      ∧ after (exec .rdScll ready) (fun t => t.self.result == .word 53) = true
      ∧ after (exec .rdSclh ready) (fun t => t.self.result == .word 55) = true := by decide

/-- V40-32, V40-33: gated, the I2C block faults and CLKCTRL reads. -/
theorem test_gated_access :
    busFaults (exec .rdIrqstatus (gated ready)) 0x028 = true
      ∧ busFaults (exec (.wrIrqstatusRaw 0x10) (gated ready)) 0x024 = true
      ∧ after (exec .rdClkctrl (gated ready)) (fun t => t.self.result == .word 0x00020002) = true := by decide

/-- V40-34, V40-35. -/
theorem test_wrClkctrl :
    refuses (exec (.wrClkctrl 1) ready) .reservedModulemode = true
      ∧ after (exec (.wrClkctrl 0x00030000) ready) (fun t => t.modulemode == 0 && t.idlest == 0) = true := by decide

/-- Before INIT every access of either block is refused as unmapped, one at an undocumented offset too (40 R130). -/
theorem test_unmapped :
    refuses (exec .rdCon State.reset) .unmapped = true ∧ refuses (exec .rdClkctrl State.reset) .unmapped = true
      ∧ refuses (exec (.wrIrqstatusRaw 0x10) State.reset) .unmapped = true
      ∧ refuses (step { State.reset with sched := [.op 0 .regacc [0x90, 0x00]] }) .unmapped = true
      ∧ refuses (step { ready with sched := [.op 0 .regacc [0x90, 0x00]] }) .undocumentedOffset = true := by
  decide

/-- V42-1, V42-11, V30-17. -/
theorem test_control_starts :
    after (exec (.conStartTx 0x8603) { ready with cnt := some 2, sa := some 0x68 })
        (fun t => t.con == { en := true, mst := true, trx := true } && t.eng == started .tx 2) = true
      ∧ after (exec (.conStartRx 0x8403) { ready with cnt := some 2, sa := some 0x68 })
        (fun t => t.con == { en := true, mst := true, trx := false } && t.eng == started .rx 2) = true := by decide

/-- V45-1 for the enable word; V40-28 for the disable word: the engine reset, the latches kept. -/
theorem test_control_enable_disable :
    after (exec (.conEnable 0x8000) { ready with con := conOff }) (fun t => t.con == { en := true, mst := false, trx := false }) = true
      ∧ after (exec (.conDisable 0) (busy .tx 2 .txWait none 0x10))
        (fun t => t.con == conOff && t.eng.st == .idle && !t.eng.window && t.raw == 0x10) = true := by decide

-- The clock (V41)

/-- V41-1; V41-2 and V41-4: not functional, so the request comes next. -/
theorem test_clkEnsureEnabled :
    after (exec .clkEnsureEnabled ready) (fun t => t.self.result == .ok && t.self.task == []) = true
      ∧ after (exec .clkEnsureEnabled { ready with modulemode := 0, idlest := 3 })
        (fun t => t.self.task == [.clkRequest 0x00030000] && t.modulemode == 0) = true
      ∧ after (exec .clkEnsureEnabled { ready with modulemode := 0 }) (fun t => t.self.task == [.clkRequest 0]) = true := by
  decide

/-- V41-2: the request. V41-5: 200 reads, then Timeout. -/
theorem test_clkEnsureEnabled_goes_on :
    after (advance (doing [.clkRequest 0x00030000] { ready with modulemode := 0, idlest := 3 }))
        (fun t => t.clkctrl == 0x00030002 && t.self.task == [.clkPoll 200]) = true
      ∧ after (advance (doing [.clkPoll 0] { ready with idlest := 3 })) (fun t => t.self.result == .err .timeout) = true := by
  decide

/-- V41-6, V41-7, V41-8. -/
theorem test_clkIsEnabled :
    after (exec .clkIsEnabled ready) (fun t => t.self.result == .bool true) = true
      ∧ after (exec .clkIsEnabled (gated ready)) (fun t => t.self.result == .bool false) = true
      ∧ after (exec .clkIsEnabled { ready with modulemode := 0 }) (fun t => t.self.result == .bool false) = true := by decide

/-- V41-9, V41-10: the read, then the write that clears MODULEMODE alone. -/
theorem test_clkDisable :
    after (exec .clkDisable ready) (fun t => t.self.task == [.clkRelease 2] && t.modulemode == 2) = true
      ∧ after (advance (doing [.clkRelease 0x00030002] { ready with idlest := 3 })) (fun t => t.clkctrl == 0x00030000)
        = true := by decide

-- The bus engine (V42)

/-- 42 R193; offered alone it changes nothing (30 R107). -/
theorem test_engStart :
    after (exec (.engStart .tx) (busy .tx 2 .idle none 0)) (fun t => t.eng == started .tx 2) = true
      ∧ after (step ((busy .tx 2 .idle none 0).withFetchWord 8 0x20)) (fun t => t == busy .tx 2 .idle none 0) = true := by
  decide

/-- V42-2, V42-12. -/
theorem test_engAddrAck :
    after (exec .engAddrAck (busy .tx 2 .addr none 0))
        (fun t => t.raw == 0x10 && t.eng.st == .txWait && t.wire == [.start, .addr 0x68 false, .ack]) = true
      ∧ after (exec .engAddrAck (busy .rx 2 .addr none 0))
        (fun t => t.raw == 0 && t.eng.st == .rxShift && t.wire == [.start, .addr 0x68 true, .ack]) = true := by decide

/-- V42-21, with the late ARDY; and the slave at 0x68 does answer its own address. -/
theorem test_engAddrNack :
    after (exec .engAddrNack
          { busy .tx 1 .addr none 0 with eng.sa := 0x69, opts.engArdyAfterErr := some true })
        (fun t => t.raw == 2 && t.eng.st == .idle && t.eng.lateArdy && t.eng.window
          && t.wire == [.start, .addr 0x69 false, .nack, .stop]) = true
      ∧ after (exec .engAddrNack (busy .tx 1 .addr none 0)) (fun t => t == busy .tx 1 .addr none 0) = true := by decide

/-- V42-5; V42-8, the last byte. -/
theorem test_engTxByteAck :
    after (exec .engTxByteAck (busy .tx 2 .txShift (some 0) 0))
        (fun t => t.raw == 0x10 && t.eng.st == .txWait && t.eng.hold == none && t.eng.rem == 1 && t.wire == [.byte 0, .ack])
      = true
      ∧ after (exec .engTxByteAck { busy .tx 2 .txShift (some 0xA7) 0 with eng.rem := 1 })
        (fun t => t.raw == 0 && t.eng.st == .stop && t.eng.rem == 0) = true := by decide

/-- V42-32. -/
theorem test_engTxByteNack :
    after (exec .engTxByteNack { busy .tx 3 .txShift (some 0xAA) 0 with env := hostile })
      (fun t => t.raw == 2 && t.eng.st == .idle && t.eng.hold == none && t.wire == [.byte 0xAA, .nack, .stop]) = true := by
  decide

/-- V42-13; V42-16, the last byte. -/
theorem test_engRxByte :
    after (exec .engRxByte (busy .rx 2 .rxShift none 0))
        (fun t => t.raw == 8 && t.eng.st == .rxWait && t.eng.hold == some 0x5A && t.wire == [.byte 0x5A, .ack]) = true
      ∧ after (exec .engRxByte { busy .rx 1 .rxShift none 0 with env := .refSlave { slave with ptr := 1 } })
        (fun t => t.raw == 8 && t.eng.st == .stop && t.eng.hold == some 0x5B && t.wire == [.byte 0x5B, .nack]) = true := by
  decide

/-- V42-9, V42-17: the STOP, ARDY, and the byte still held. -/
theorem test_engStopDone :
    after (exec .engStopDone (busy .tx 2 .stop none 0)) (fun t => t.raw == 4 && t.eng.st == .idle && t.wire == [.stop])
        = true
      ∧ after (exec .engStopDone (busy .rx 2 .stop (some 0x5B) 8)) (fun t => t.raw == 0xC && t.eng.hold == some 0x5B)
        = true := by decide

/-- V42-35: XRDY stays latched together with AL. -/
theorem test_engArbLost :
    after (exec .engArbLost { busy .tx 2 .txWait none 0x10 with env := hostile })
      (fun t => t.raw == 0x11 && t.eng.st == .idle && t.wire == [.lost]) = true := by decide

/-- V42-40; never with the bound 0. -/
theorem test_engExtraReady :
    after (exec .engExtraReady { busy .tx 1 .txShift (some 0x3B) 0 with eng.loaded := 1, opts.engExtraReady := some 1 })
        (fun t => t.raw == 0x10 && t.eng.st == .txShift) = true
      ∧ after (exec .engExtraReady { busy .tx 1 .txShift (some 0x3B) 0 with eng.loaded := 1 }) (fun t => t.raw == 0) = true := by
  decide

/-- V42-23. -/
theorem test_engLateArdy :
    after (exec .engLateArdy { busy .tx 1 .idle none 0 with eng.lateArdy := true, eng.window := false })
      (fun t => t.raw == 4 && !t.eng.lateArdy) = true := by decide

/-- Group G of 95 section 2.4: no engine step with a gated clock or a disabled module. -/
theorem test_engine_frozen :
    after (exec .engAddrAck (gated (busy .tx 2 .addr none 0))) (fun t => t.eng.st == .addr && t.raw == 0) = true
      ∧ after (exec .engAddrAck { busy .tx 2 .addr none 0 with con.en := false }) (fun t => t.eng.st == .addr) = true := by
  decide

-- The power manager (95 section 2.3) and time

/-- From 0x00010002 to 0x00000002; not enabled from 0x00020000. -/
theorem test_pmUngate :
    after (exec .pmUngate { ready with idlest := 1 }) (fun t => t.clkctrl == 2) = true
      ∧ after (exec .pmUngate { ready with modulemode := 0, idlest := 2 }) (fun t => t.clkctrl == 0x00020000) = true := by
  decide

/-- From 0x00000002, one of the six words. -/
theorem test_pmGate : ∀ t, exec .pmGate ready = .next t → t.idlest ≠ 0 ∧ (t.modulemode = 2 ∨ t.modulemode = 0) := by
  intro t h
  cases h
  refine ⟨?_, ?_⟩
  · show gatedIdlest _ ≠ 0
    unfold gatedIdlest
    split <;> simp_all
  · show (if ready.drawBool then (0 : BitVec 2) else 2) = 2 ∨ (if ready.drawBool then (0 : BitVec 2) else 2) = 0
    split <;> simp

/-- From 0x00020000 to 0x00030000; not enabled from 0x00020002. -/
theorem test_pmIdle :
    after (exec .pmIdle { ready with modulemode := 0, idlest := 2 }) (fun t => t.clkctrl == 0x00030000) = true
      ∧ after (exec .pmIdle (gated ready)) (fun t => t.clkctrl == 0x00020002) = true := by decide

/-- The waiting lock holder goes to the recovery (43 R243); with nobody waiting nothing changes. -/
theorem test_xferTimeoutFires :
    after (exec .xferTimeoutFires (doing [.wait] (inTransfer .tx 2 0 .addr none 0)))
        (fun t => t.self.task == recoverLines std)
        = true
      ∧ after (exec .xferTimeoutFires ready) (fun t => t == ready) = true := by decide

-- The sequencer (V43, and 96 section 1)

/-- Step 2 (43 R237): the byte at the index goes out. -/
theorem test_isrService_transmit :
    after (exec .isrService (inTransfer .tx 2 1 .txWait none 0x10))
      (fun t => t.raw == 0 && t.eng.hold == some 0x22 && t.eng.st == .txShift && (t.txn.map (·.index)) == some 2) = true := by
  decide

/-- Step 2 from a local buffer (44 R274); step 3 into the staging buffer (44 R276), and lost where its operation is over. -/
theorem test_isrService_local :
    after (exec .isrService (intoBuffer (.tmp 0 1) (withLocal 1 [0x6B, 0x01] [] (inTransfer .tx 2 1 .txWait none 0x10))))
        (fun t => t.eng.hold == some 0x01) = true
      ∧ after (exec .isrService (intoBuffer (.staging 0 1) (withLocal 1 [] [3, 4] (inTransfer .rx 2 1 .rxWait (some 7) 8))))
        (fun t => t.self.staging == [3, 7]) = true
      ∧ after (exec .isrService (intoBuffer (.staging 0 1) (withLocal 2 [] [3, 4] (inTransfer .rx 2 1 .rxWait (some 7) 8))))
        (fun t => t.self.staging == [3, 4]) = true := by decide

/-- Step 1 (43 R236): the error alone, the ready bit stays latched. P1 rows 79 to 84: RRDY and ARDY in one invocation. -/
theorem test_isrService_ends :
    after (exec .isrService (inTransfer .tx 2 1 .idle none 0x12))
        (fun t => t.raw == 0x10 && t.txn == some
          { phase := .idle, error := some .noAcknowledge, buffer := some (.mem 0x100), length := 2, index := 1,
            completion := true, awaited := true }) = true
      ∧ after (exec .isrService (inTransfer .rx 1 0 .idle (some 0x77) 0xC))
        (fun t => t.raw == 0 && t.mem.read 0x100 == 0x77 && !t.eng.window && t.txn == some
          { phase := .idle, error := none, buffer := some (.mem 0x100), length := 1, index := 1, completion := true,
            awaited := true })
        = true := by decide

/-- V43-A1, its first line; V43-A3. -/
theorem test_startWrite :
    after (exec (.startWrite 0x68 0x100 2) { ready with lock := some 0 })
        (fun t => t.txn == some { Txn.fresh with buffer := some (.mem 0x100), length := 2, awaited := true }
          && t.self.task == [.armCompletion, .armPhase .tx, .write .irqstatus 0x1F, .write .sa 0x68, .write .cnt 2,
            .write .con 0x8603]) = true
      ∧ refuses (exec (.startWrite 0x68 0x100 2) (inTransfer .rx 2 0 .addr none 0)) .armWhileActive = true := by decide

/-- V43-A2, its words; V43-A4. -/
theorem test_startRead :
    after (exec (.startRead 0x68 0x100 14) { ready with lock := some 0 })
        (fun t => t.self.task == [.armCompletion, .armPhase .rx, .write .irqstatus 0x1F, .write .sa 0x68, .write .cnt 14,
            .write .con 0x8403]) = true
      ∧ refuses (exec (.startRead 0x68 0x100 14) ready) .notLockHolder = true := by decide

/-- 43 R243: blocked, and returned. -/
theorem test_waitComplete :
    after (exec .waitComplete (inTransfer .tx 2 0 .addr none 0)) (fun t => t.self.task == [.wait]) = true
      ∧ after (exec .waitComplete
          { ready with lock := some 0, txn := some { Txn.fresh with completion := true, error := some .noAcknowledge } })
        (fun t => t.self.task == [] && t.self.result == .err .noAcknowledge) = true := by decide

/-- 20 R87, 93 U14: with the outcome of the last arming not observed, the holder cannot arm again; after the wait it can. -/
theorem test_rearm :
    refuses (exec (.startWrite 0x68 0x100 2) { ready with lock := some 0, txn := some (ended none) })
        .descriptorTouchedWhileArmed = true
      ∧ after (exec .waitComplete { ready with lock := some 0, txn := some (ended none) })
        (fun t => after (exec (.startWrite 0x68 0x100 2) t) (fun u => u.txn.any (·.awaited))) = true := by decide

/-- 43 R245: taken when free, blocked when held. -/
theorem test_lockAcquire :
    after (exec .lockAcquire ready) (fun t => t.lock == some 0 && t.self.task == []) = true
      ∧ after (exec .lockAcquire { ready with lock := some 5 }) (fun t => t.lock == some 5 && t.self.task == [.acquire])
        = true := by decide

/-- 43 R246. -/
theorem test_lockRelease :
    after (exec .lockRelease { ready with lock := some 0 }) (fun t => t.lock == none) = true
      ∧ refuses (exec .lockRelease { ready with lock := some 5 }) .notLockHolder = true := by decide

/-- 44 R271: the clock is functional, so arming comes next; not by another than the holder. -/
theorem test_xferLocked :
    after (exec (.xferLocked .tx 0x68 0x100 2) { ready with lock := some 0 })
        (fun t => t.self.task.head? == some (.armFields (.mem 0x100) 2)) = true
      ∧ refuses (exec (.xferLocked .tx 0x68 0x100 2) ready) .notLockHolder = true := by decide

-- The API (V44) and the lifecycle (V45)

/-- V44-1, V44-3, V44-7. -/
theorem test_writeBytes :
    after (exec (.writeBytes 0x68 (some 0) 1) State.reset) (fun t => t.self.result == .err .notInitialized) = true
      ∧ after (exec (.writeBytes 0x68 (some 0) 0) ready) (fun t => t.self.result == .err .invalidArgument) = true
      ∧ refuses (exec (.writeBytes 0x80 (some 0) 1) ready) .operandOutOfRange = true := by decide

/-- V44-4; accepted, it goes for the lock. -/
theorem test_readBytes :
    after (exec (.readBytes 0x68 none 3) ready) (fun t => t.self.result == .err .invalidArgument) = true
      ∧ after (exec (.readBytes 0x68 (some 0x100) 3) ready)
        (fun t => t.self.task.head? == some .acquire && t.self.result == .pending) = true := by decide

/-- 44 R274: the two bytes, register first. -/
theorem test_writeRegister :
    after (exec (.writeRegister 0x68 0x6B 0x01) ready)
      (fun t => t.self.tmp == [0x6B, 0x01] && t.self.task.contains (.armFields (.tmp 0 1) 2)) = true := by decide

/-- 44 R275: an index write of one byte, a read of one byte, one release. -/
theorem test_readRegister :
    after (exec (.readRegister 0x68 0x75) ready)
      (fun t => t.self.tmp == [0x75] && t.self.task.contains (.armFields (.tmp 0 1) 1)
        && t.self.task.contains (.armFields (.staging 0 1) 1) && t.self.task.count .release == 1) = true := by decide

/-- V44-2: NotInitialized comes first. -/
theorem test_readBlock :
    after (exec (.readBlock 0x68 0x3B none 0) State.reset) (fun t => t.self.result == .err .notInitialized) = true
      ∧ after (exec (.readBlock 0x68 0x3B (some 0) 0) ready) (fun t => t.self.result == .err .invalidArgument) = true := by
  decide

/-- V45-1, V45-4: the profile of the speed; V45-6: a second INIT changes nothing. -/
theorem test_init :
    after (exec (.init 400 30) { State.reset with modulemode := 2, idlest := 0 })
        (fun t => t.ctl.i2cMapped && t.ctl.clkMapped && t.self.task.contains (.write .scll 8)
          && t.self.task.contains (.write .sclh 10)) = true
      ∧ after (exec (.init 399 7) { State.reset with modulemode := 2, idlest := 0 })
        (fun t => t.self.task.contains (.write .scll 53) && t.self.task.contains (.write .sclh 55)) = true
      ∧ after (exec (.init 400 31) ready) (fun t => t.self.result == .ok && t.ctl == ready.ctl) = true := by decide

/-- V45-7, its first line; V45-9; V45-10. -/
theorem test_deinit :
    after (exec .deinit ready)
        (fun t => !t.ctl.irqRegistered && t.self.task == [.write .con 0, .clkDrop, .deinitEnd]) = true
      ∧ after (exec .deinit State.reset) (fun t => t.self.result == .unit && !t.ctl.ready) = true
      ∧ refuses (exec .deinit { ready with lock := some 5 }) .deinitWhileBusy = true := by decide

/-- 60 R340, 93 U17: another caller in the prologue of a transfer refuses INIT and DEINIT, ready or not; another caller in an
INIT refuses a transfer call. -/
theorem test_overlap :
    (∀ s ∈ [ready, State.reset], refuses (exec (.init 100 30) (beside (oneTransferLines std .tx 0x68 (.mem 0) 1) s))
          .concurrentLifecycle = true
        ∧ refuses (exec .deinit (beside (oneTransferLines std .tx 0x68 (.mem 0) 1) s)) .concurrentLifecycle = true)
      ∧ refuses (exec (.readRegister 0x68 0x75) (beside (initLines std .std100 30) State.reset)) .concurrentLifecycle = true
      ∧ refuses (exec (.writeBytes 0x68 none 0) (beside (deinitLines std) ready)) .concurrentLifecycle = true := by decide

/-- 20 R87, 93 U14: DEINIT does not drop a descriptor whose outcome has not been observed. -/
theorem test_deinit_awaited :
    refuses (exec .deinit { ready with txn := some (ended none) }) .descriptorTouchedWhileArmed = true
      ∧ refuses (advance (doing [.deinitEnd] { ready with txn := some (ended none) })) .descriptorTouchedWhileArmed = true
      ∧ after (exec .deinit { ready with txn := some observed }) (fun t => t.self.result == .pending) = true := by decide

/-- 42 R210, vectors V42-T1 and V42-T2, and 42 R211, V42-T6. -/
theorem test_timing :
    sclFrequency 48000000 ⟨3, 53, 55⟩ = (48000000, 480) ∧ sclFrequency 48000000 ⟨3, 8, 10⟩ = (48000000, 120)
      ∧ transferBits 14 = 137 := by decide

-- Witnesses: for each statement with hypotheses, a state and operands that meet them, one line for each clause

/-- The next entries of the schedule. -/
def next (l : List Slot) (s : State) : State := { s with sched := l }

theorem witness_VectorsDecode : ∃ o : Options, o = std := ⟨_, rfl⟩

theorem witness_DecodeEncode :
    (Instr.startWrite 0x7F 0xFFFFFFFF 65535).wf std = true
      ∧ (∀ o ∈ [std, movedOptions], (Instr.startWrite 0x7F 0xFFFFFFFF 255).wf o = true
      ∧ (Instr.readBlock 0xFF 0xFF none 0xFFFFFFFF).wf o = true)
      ∧ (Instr.conStartRx 0x8403).wf std = true ∧ (Instr.conStartRx 0x80000403).wf movedOptions = true := by
  decide

theorem witness_EncodeDecode :
    decode std .cmd8 [0x05, 0x68, 0x6B, 9] = .ok (.readRegister 0x68 0x6B, [9])
      ∧ decode std .conw [0x01, 0x86, 0, 0] = .ok (.wrCon 0x8601, []) := ⟨rfl, rfl⟩

/-- The last clause at a mapped block and at an unmapped one. -/
theorem witness_ReservedNumbersRefused :
    (0x07 : Byte).toNat ∉ [0x00, 0x01, 0x02, 0x03, 0x04, 0x05, 0x06, 0x08, 0x09, 0x0A, 0x0C, 0x0D, 0x0E, 0x0F, 0x10, 0x11, 0x12]
      ∧ (0x33 : Byte).toNat ∉ [0x20, 0x21, 0x22, 0x23, 0x24, 0x25, 0x26, 0x27, 0x28, 0x29, 0x30, 0x31, 0x32, 0x38]
      ∧ (0x10 : Byte).extractLsb' 4 2 ≠ 0
      ∧ (∀ s ∈ [ready, State.reset], (0x8044 : BitVec 16).extractLsb' 12 2 = 0
        ∧ ∀ r ∈ Reg.all, (0x8044 : BitVec 16).extractLsb' 0 12 = r.offset s.opts →
          (0x8044 : BitVec 16).getLsbD 14 ≠ (r.block == .clk))
      ∧ ready.ctl.i2cMapped = true ∧ State.reset.ctl.i2cMapped = false := by decide

/-- The clauses in order; the invocation in progress is at its last line. -/
theorem witness_StepRunsDecoded :
    (decode ready.opts .cmd8 [0x09] = .ok (.clkIsEnabled, []) ∧ Instr.clkIsEnabled.byCaller = true
        ∧ (ready.caller 0).task = [])
      ∧ ((doing [.wait] ready).caller 0).task = .wait :: []
      ∧ (decode ready.opts .evt8 [0x21] = .ok (.engAddrAck, []) ∧ Instr.engAddrAck.byCaller = false)
      ∧ decode ready.opts .evt8 [0x20, 0] = .ok (.engStart .tx, [])
      ∧ ({ ready with isr := [.signal] } : State).isr = .signal :: [] ∧ ready.isr = [] := by
  exact ⟨⟨rfl, by decide⟩, by decide, ⟨rfl, by decide⟩, rfl, rfl, rfl⟩

theorem witness_AccessPrologue :
    (Reg.sclh.block = .i2c ∧ State.reset.ctl.i2cMapped = false) ∧ (Reg.clkctrl.block = .clk ∧ State.reset.ctl.clkMapped = false)
      ∧ (Reg.irqstatusRaw.block = .i2c ∧ (gated ready).ctl.i2cMapped = true ∧ (gated ready).idlest ≠ 0)
      ∧ (Reg.clkctrl.block = .clk ∧ (gated ready).ctl.clkMapped = true) := by decide

theorem witness_RawStatusWriteRefused : ready.i2cOpen = true := by decide

theorem witness_StatusAndEnables : ready.i2cOpen = true := by decide

theorem witness_StatusAcknowledge :
    (busy .tx 2 .txWait none 0x10).i2cOpen = true ∧ (busy .tx 2 .txWait none 0x10).opts.bits = stdBits := by decide

theorem witness_CountAndAddress :
    ({ ready with cnt := some 0xFFFF, sa := some 0x3FF } : State).i2cOpen = true ∧ ready.eng.st = .idle ∧ ready.cnt = none
      ∧ ready.sa = none ∧ (busy .tx 2 .txWait none 0x10).i2cOpen = true ∧ (busy .tx 2 .txWait none 0x10).eng.st ≠ .idle := by
  decide

theorem witness_TimingRegisters :
    (({ ready with con := conOff } : State).i2cOpen = true ∧ conOff.en = false)
      ∧ (ready.i2cOpen = true ∧ ready.con.en = true ∧ ready.psc = some 3 ∧ ready.scll = some 53 ∧ ready.sclh = some 55)
      ∧ (({ ready with psc := none, scll := none, sclh := none } : State).i2cOpen = true) := by decide

/-- The states of V40-8, V40-15, V42-41, V40-18 (a transmit and a receive), V40-12, V40-13, V40-17, V40-14. -/
theorem witness_DataRegister :
    (∀ s ∈ [busy .tx 2 .txWait none 0x10, ready, { busy .tx 1 .txShift (some 1) 0 with eng.loaded := 1 },
        busy .tx 2 .txShift (some 1) 0, busy .rx 2 .rxWait (some 0x5A) 8, busy .rx 1 .idle (some 0x5A) 0xC,
        { busy .rx 1 .idle (some 0x5A) 0xC with eng.window := false }], s.i2cOpen = true)
      ∧ (busy .tx 2 .txWait none 0x10).eng.st = .txWait ∧ ready.eng.st = .idle ∧ ready.eng.hold = none
      ∧ (busy .tx 2 .txShift (some 1) 0).eng.loaded < (busy .tx 2 .txShift (some 1) 0).eng.cnt
      ∧ (busy .rx 2 .rxWait (some 0x5A) 8).eng.hold = some 0x5A ∧ (busy .rx 2 .rxWait (some 0x5A) 8).eng.dir = .rx
      ∧ (busy .rx 1 .idle (some 0x5A) 0xC).eng.st = .idle ∧ (busy .rx 1 .idle (some 0x5A) 0xC).eng.window = true := by
  decide

theorem witness_ControlRegister :
    ready.opts.bits = stdBits
      ∧ (ready.i2cOpen = true ∧ (0x7FFF : Word).getLsbD stdBits.en = false)
      ∧ (ready.i2cOpen = true ∧ (0x8600 : Word).getLsbD stdBits.en = true ∧ (0x8600 : Word).getLsbD stdBits.stt = false)
      ∧ (ready.i2cOpen = true ∧ (0x8601 : Word).getLsbD stdBits.en = true ∧ (0x8601 : Word).getLsbD stdBits.stt = true
        ∧ (0x8601 : Word).getLsbD stdBits.stp = false)
      ∧ (∀ s ∈ [ready, { ready with cnt := some 0 }, { ready with cnt := some 1 },
          { ready with cnt := some 1, sa := some 0x80 }, { ready with cnt := some 0xFFFF, sa := some 0x7F }],
        s.i2cOpen = true ∧ s.opts.bits = stdBits ∧ (0x8603 : Word).getLsbD stdBits.en = true ∧ (0x8603 : Word).getLsbD stdBits.stt = true
          ∧ (0x8603 : Word).getLsbD stdBits.mst = true ∧ (0x8603 : Word).getLsbD stdBits.stp = true
          ∧ (s.cnt = none ∨ s.cnt = some 0#32 ∨ (s.cnt = some 1 ∧ s.sa = none)
            ∨ (s.cnt = some 1 ∧ s.sa = some 0x80 ∧ 0x7F < (0x80 : BitVec 10).toNat)
            ∨ (s.cnt = some 0xFFFF ∧ s.sa = some 0x7F ∧ (0x7F : BitVec 10).toNat ≤ 0x7F))) := by decide

theorem witness_ControlWords :
    ({ ready with cnt := some 0xFFFF, sa := some 0x7F } : State).i2cOpen = true ∧ (0xFFFF : Word) ≠ 0#32
      ∧ (0x7F : BitVec 10).toNat ≤ 0x7F ∧ (Instr.conStartTx 0xFFFFFFFF).wf std = true ∧ (Instr.conStartRx 0x8403).wf std = true
      ∧ (Instr.conEnable 0x8000).wf std = true ∧ (Instr.conDisable 0x0603).wf std = true := by decide

theorem witness_ClockControlRegister :
    ready.ctl.clkMapped = true
      ∧ ∀ x ∈ [((0x00030000 : Word), (0 : BitVec 2)), (2, 2), (1, 1), (7, 3)],
        x.2.getLsbD 0 = x.1.getLsbD ready.opts.bits.modulemode.val
          ∧ x.2.getLsbD 1 = x.1.getLsbD (ready.opts.bits.modulemode.val + 1) :=
  ⟨rfl, fun x hx => by
    simp only [List.mem_cons, List.not_mem_nil, or_false] at hx
    obtain rfl | rfl | rfl | rfl := hx <;> decide⟩

theorem witness_RegisterAccessFrame :
    (∃ t, exec (readInstr .data) (busy .rx 2 .rxWait (some 0x5A) 8) = .next t)
      ∧ (∃ t, exec (writeInstr 0x1F .irqstatus) (busy .rx 2 .rxWait (some 0x5A) 8) = .next t)
      ∧ sparseWf Caller.fresh (busy .rx 2 .rxWait (some 0x5A) 8).callers := ⟨⟨_, rfl⟩, ⟨_, rfl⟩, by decide⟩

theorem witness_EngineFrozen :
    ({ ready with con := conOff } : State).con.en = false ∧ (gated ready).idlest ≠ 0
      ∧ (busy .tx 2 .txWait none 0x10).eng.st ≠ .addr ∧ (busy .tx 2 .txWait none 0x10).eng.st ≠ .txShift
      ∧ (busy .rx 2 .rxWait (some 1) 8).eng.st ≠ .rxShift ∧ (busy .rx 2 .rxWait (some 1) 8).eng.st ≠ .stop
      ∧ ({ busy .tx 1 .addr none 0 with eng.sa := 0x69 } : State).addrAck = false ∧ (busy .tx 1 .addr none 0).addrAck = true
      ∧ ((busy .tx 2 .txShift (some 1) 0).eng.hold = some 1 ∧ (busy .tx 2 .txShift (some 1) 0).dataAck 1 = true)
      ∧ ({ busy .tx 2 .txShift (some 1) 0 with env := hostile } : State).dataAck 1 = false
      ∧ (busy .rx 2 .rxShift (some 1) 0).eng.hold ≠ none ∧ ready.eng.st = .idle ∧ ready.arbLost = false := by decide

/-- The premises of the reference engine, with each of its steps enabled, and a step that ends well. -/
theorem witness_EngineFrozen_reference :
    (busy .tx 2 .addr none 0).refEngine ∧ (busy .tx 2 .addr none 0).engNext = some .engAddrAck
      ∧ ({ busy .tx 2 .addr none 0 with eng.sa := 0x69 } : State).engNext = some .engAddrNack
      ∧ (busy .tx 2 .txShift (some 1) 0).engNext = some .engTxByteAck
      ∧ (busy .rx 2 .rxShift none 0).engNext = some .engRxByte ∧ (busy .rx 2 .stop none 0).engNext = some .engStopDone
      ∧ (busy .tx 2 .addr none 0).engNext ≠ some .engArbLost
      ∧ ∃ t, refStep { busy .tx 2 .txWait none 0x10 with sched := [.op 0 .regacc [0x28, 0x00]] } = .next t :=
  ⟨⟨rfl, rfl, rfl, trivial⟩, by decide, by decide, by decide, by decide, by decide, by decide, _, rfl⟩

theorem witness_EngineStartAndAddress :
    (∀ d ∈ [Dir.tx, Dir.rx], (busy d 2 .idle none 0).cnt = some 2 ∧ (busy d 2 .idle none 0).sa = some 0x68
        ∧ (busy d 2 .addr none 0).engLive = true ∧ (busy d 2 .addr none 0).eng.st = .addr
        ∧ (busy d 2 .addr none 0).addrAck = true ∧ (busy d 2 .addr none 0).eng.dir = d)
      ∧ ready.cnt = none ∧ ({ ready with cnt := some 2 } : State).cnt ≠ none ∧ ready.sa = none := by decide

/-- The slave at 0x68 asked at 0x69; the environment that refuses data bytes and takes the bus. -/
theorem witness_EngineErrorEnds :
    (({ busy .tx 1 .addr none 0 with eng.sa := 0x69 } : State).engLive = true
        ∧ ({ busy .tx 1 .addr none 0 with eng.sa := 0x69 } : State).addrAck = false)
      ∧ (({ busy .tx 2 .txShift (some 0xAA) 0 with env := hostile } : State).engLive = true
        ∧ ({ busy .tx 2 .txShift (some 0xAA) 0 with env := hostile } : State).eng.hold = some 0xAA
        ∧ ({ busy .tx 2 .txShift (some 0xAA) 0 with env := hostile } : State).dataAck 0xAA = false)
      ∧ (({ busy .rx 2 .rxShift none 0 with env := hostile } : State).eng.st ≠ .idle
        ∧ ({ busy .rx 2 .rxShift none 0 with env := hostile } : State).arbLost = true) := by decide

theorem witness_EngineBytes :
    (∀ n ∈ [1, 2], (busy .tx n .txShift (some 7) 0).engLive = true ∧ (busy .tx n .txShift (some 7) 0).eng.st = .txShift
        ∧ (busy .tx n .txShift (some 7) 0).eng.hold = some 7 ∧ (busy .tx n .txShift (some 7) 0).dataAck 7 = true
        ∧ (busy .tx n .txShift (some 7) 0).eng.rem = n)
      ∧ ∀ n ∈ [1, 2], (busy .rx n .rxShift none 0).engLive = true ∧ (busy .rx n .rxShift none 0).eng.st = .rxShift
        ∧ (busy .rx n .rxShift none 0).eng.hold = none ∧ (busy .rx n .rxShift none 0).eng.rem = n
        ∧ (busy .rx n .rxShift none 0).env = .refSlave slave
        ∧ ({ busy .rx n .rxShift none 0 with env := hostile } : State).env = .oracle [⟨true, false, 0, true⟩] := by decide

theorem witness_EngineReadyAndStop :
    ((busy .tx 2 .stop none 0).engLive = true ∧ (busy .tx 2 .stop none 0).eng.st = .stop)
      ∧ (∀ k ∈ [none, some 1], ({ busy .tx 1 .txShift (some 1) 0 with eng.loaded := 1, opts.engExtraReady := k } : State).engLive
        = true)
      ∧ (busy .tx 1 .txShift (some 1) 0).eng.window = true ∧ (busy .tx 1 .txShift (some 1) 0).eng.extra < 1
      ∧ ({ busy .tx 1 .txShift (some 1) 0 with eng.extra := 1, opts.engExtraReady := some 1 } : State).opts.engExtraReady = some 1
      ∧ ready.eng.window = false ∧ (busy .tx 1 .txWait none 0).eng.loaded < (busy .tx 1 .txWait none 0).eng.cnt
      ∧ ready.opts.engExtraReady = some 0 ∧ ready.engLive = true ∧ ready.eng.lateArdy = false
      ∧ ({ ready with eng.lateArdy := true } : State).eng.lateArdy = true := by decide

theorem witness_EngineTransitions :
    ∃ t, step (next [.op 0 .evt8 [0x21]] (busy .tx 2 .addr none 0)) = .next t ∧ t.eng.st = .txWait := ⟨_, rfl, by decide⟩

theorem witness_GatedClockFreezes :
    (gated ready).idlest ≠ 0 ∧ ∃ t, step (next [.op 0 .evt8 [0x21]] (gated (busy .tx 2 .addr none 0))) = .next t :=
  ⟨by decide, _, rfl⟩

theorem witness_FaultOnlyWhenGated : ∃ f, step (next [.op 0 .regacc [0x28, 0x00]] (gated ready)) = .fault f := ⟨_, rfl⟩

theorem witness_ClockEnsureRequests :
    ready.ctl.clkMapped = true ∧ sparseWf Caller.fresh ready.callers ∧ ready.self.task = [] ∧ ready.modulemode = 2
      ∧ ready.idlest = 0 ∧ (gated ready).idlest ≠ 0 ∧ ({ ready with modulemode := 0 } : State).modulemode ≠ 2 := by decide

theorem witness_ClockPollBounded :
    (doing [.clkPoll 200, .wait] ready).ctl.clkMapped = true
      ∧ sparseWf Caller.fresh (doing [.clkPoll 200, .wait] ready).callers
      ∧ (doing [.clkPoll 200, .wait] ready).self.task = .clkPoll 200 :: [.wait]
      ∧ (doing [.clkPoll 200, .wait] ready).idlest = 0 ∧ (doing [.clkPoll 200, .wait] (gated ready)).idlest ≠ 0 := by decide

theorem witness_ClockQueryAndDisable :
    ready.ctl.clkMapped = true ∧ sparseWf Caller.fresh ready.callers ∧ ready.self.task = [] := by decide

theorem witness_PowerManager :
    (({ ready with idlest := 1 } : State).modulemode = 2 ∧ ({ ready with idlest := 1 } : State).idlest ≠ 0)
      ∧ ready.idlest = 0 ∧ State.reset.modulemode ≠ 2
      ∧ (({ State.reset with idlest := 2 } : State).modulemode = 0 ∧ ({ State.reset with idlest := 2 } : State).idlest ≠ 3)
      ∧ ready.modulemode ≠ 0 ∧ State.reset.idlest = 3 := by decide

theorem witness_IsrPseudocode :
    ready.raw &&& ready.ie = 0 ∧ State.reset.ctl.irqRegistered = false
      ∧ ((inTransfer .tx 2 1 .txWait none 0x10).isrEnabled = true
        ∧ (inTransfer .tx 2 1 .txWait none 0x10).opts.isrAtomic = true)
      ∧ (({ inTransfer .tx 2 1 .txWait none 0x10 with opts.isrAtomic := false } : State).isrEnabled = true) := by decide

theorem witness_IsrErrorStep :
    ∀ raw ∈ [(0x01 : Status), 0x12, 0x1F], (inTransfer .tx 2 1 .idle none raw).isrEnabled = true
      ∧ (inTransfer .tx 2 1 .idle none raw).opts.isrAtomic = true ∧ (inTransfer .tx 2 1 .idle none raw).i2cOpen = true
      ∧ (inTransfer .tx 2 1 .idle none raw).txn.isSome = true
      ∧ (inTransfer .tx 2 1 .idle none raw).raw &&& (inTransfer .tx 2 1 .idle none raw).ie &&& 0x03 ≠ 0 := by decide

/-- One byte to go with the engine waiting; none to go with the engine waiting, idle, and shifting the last byte. -/
theorem witness_IsrTransmitStep :
    ∀ s ∈ [inTransfer .tx 2 1 .txWait none 0x10, inTransfer .tx 2 2 .txWait none 0x10, inTransfer .tx 2 2 .idle none 0x10,
        { inTransfer .tx 2 2 .txShift (some 1) 0x10 with eng.loaded := 2 }],
      s.isrEnabled = true ∧ s.opts.isrAtomic = true ∧ s.i2cOpen = true ∧ s.raw &&& s.ie &&& 0x17 = 0x10
        ∧ (s.txn.map (·.phase)) = some .writing := by decide

/-- A byte to go from each local buffer, and one whose operation is over. -/
theorem witness_IsrTransmitStep_local :
    ∀ b ∈ [BufRef.tmp 0 1, .staging 0 1, .tmp 0 0, .staging 0 0],
      ∃ s : State, s = intoBuffer b (withLocal 1 [3, 4] [5, 6] (inTransfer .tx 2 1 .txWait none 0x10))
        ∧ s.isrEnabled = true ∧ s.opts.isrAtomic = true ∧ s.i2cOpen = true ∧ s.raw &&& s.ie &&& 0x17 = 0x10
        ∧ (s.txn.map (·.phase)) = some .writing ∧ (s.txn.map (·.buffer)) = some (some b) ∧ s.eng.st = .txWait
        ∧ (s.caller 0).serial = 1 ∧ (s.caller 0).tmp[1]? = some 4 ∧ (s.caller 0).staging[1]? = some 6 := by
  intro b hb
  exact ⟨_, rfl, by revert b; decide⟩

/-- A byte held for each local buffer, and for one whose operation is over. -/
theorem witness_IsrReceiveStep_local :
    ∀ b ∈ [BufRef.tmp 0 1, .staging 0 1, .tmp 0 0, .staging 0 0],
      ∃ s : State, s = intoBuffer b (withLocal 1 [3, 4] [5, 6] (inTransfer .rx 2 1 .rxWait (some 7) 8))
        ∧ s.isrEnabled = true ∧ s.opts.isrAtomic = true ∧ s.i2cOpen = true ∧ s.raw &&& s.ie &&& 0x0F = 0x08
        ∧ (s.txn.map (·.phase)) = some .reading ∧ (s.txn.map (·.buffer)) = some (some b) ∧ s.eng.dir = .rx
        ∧ s.eng.hold = some 7 ∧ s.eng.st ≠ .idle ∧ (s.caller 0).serial = 1 := by
  intro b hb
  exact ⟨_, rfl, by revert b; decide⟩

theorem witness_IsrReceiveStep :
    ∀ s ∈ [inTransfer .rx 2 1 .rxWait (some 7) 8, inTransfer .rx 2 2 .rxWait (some 7) 8, inTransfer .rx 2 1 .idle (some 7) 8],
      s.isrEnabled = true ∧ s.opts.isrAtomic = true ∧ s.i2cOpen = true ∧ s.raw &&& s.ie &&& 0x0F = 0x08
        ∧ (s.txn.map (·.phase)) = some .reading ∧ s.eng.dir = .rx ∧ s.eng.hold = some 7
        ∧ (s.eng.st ≠ .idle ∨ s.eng.window = true) := by decide

/-- ARDY alone; ARDY and RRDY in a write; RRDY alone in a write. -/
theorem witness_IsrArdyStepOrNone :
    ∀ raw ∈ [(0x04 : Status), 0x0C, 0x08], (inTransfer .tx 2 1 .idle none raw).isrEnabled = true
      ∧ (inTransfer .tx 2 1 .idle none raw).opts.isrAtomic = true ∧ (inTransfer .tx 2 1 .idle none raw).i2cOpen = true
      ∧ raw &&& 0x1F &&& 0x03 = 0 ∧ raw &&& 0x1F &&& 0x10 = 0 ∧ Phase.writing ≠ .reading
      ∧ ((inTransfer .tx 2 1 .idle none raw).txn.map (·.phase)) = some .writing := by decide

theorem witness_IsrDecisionTable :
    (inTransfer .tx 2 1 .txWait none 0x10).isrEnabled = true ∧ (inTransfer .tx 2 1 .txWait none 0x10).opts.isrAtomic = true
      ∧ (∃ t, exec .isrService (inTransfer .tx 2 1 .txWait none 0x10) = .next t)
      ∧ sparseWf Caller.fresh (inTransfer .tx 2 1 .txWait none 0x10).callers := ⟨by decide, by decide, ⟨_, rfl⟩, by decide⟩

theorem witness_IndexRule :
    ready.opts.isrAtomic = true ∧ ready.isr = []
      ∧ ∃ t d d', step (next [.op 0 .cmd8 [0x0E]] (inTransfer .tx 2 1 .txWait none 0x10)) = .next t
        ∧ (inTransfer .tx 2 1 .txWait none 0x10).txn = some d ∧ t.txn = some d' ∧ d'.index = d.index + 1 :=
  ⟨rfl, rfl, _, _, _, rfl, rfl, rfl, rfl⟩

/-- The index starts again: an armed turn, a START_READ, the last line of INIT. -/
theorem witness_IndexRule_resets :
    ∀ s ∈ [next [.turn 0] (doing [.armFields (.mem 0x100) 2] { ready with lock := some 0, txn := some observed }),
        next [.op 0 .cmd8 [0x0D, 0x68, 0, 1, 0, 0, 2, 0, 0, 0]] { ready with lock := some 0, txn := some observed },
        next [.turn 0] (doing [.initEnd .std100] { ready with txn := some observed })],
      s.opts.isrAtomic = true ∧ s.isr = [] ∧ s.resetsIndex = true ∧ (s.txn.map (·.index)) = some 2
        ∧ after (step s) (fun t => (t.txn.map (·.index)) == some 0) = true := by decide

theorem witness_ArmingRuns :
    ∃ s : State, sparseWf Caller.fresh s.callers ∧ s.lock = some s.actor ∧ s.self.task = [] ∧ s.txn = some Txn.fresh
      ∧ Txn.fresh.phase = .idle ∧ Txn.fresh.awaited = false ∧ s.i2cOpen = true ∧ (0x7F : Byte).toNat ≤ 0x7F ∧ 1 ≤ (65535 : Word).toNat
      ∧ (65535 : Word).toNat ≤ s.opts.maxLen := ⟨{ ready with lock := some 0 }, by decide⟩

theorem witness_NonHolderRefused :
    (sparseWf Caller.fresh ready.callers ∧ ready.self.task = [] ∧ (0x7F : Byte).toNat ≤ 0x7F ∧ 1 ≤ (1 : Word).toNat
        ∧ (1 : Word).toNat ≤ ready.opts.maxLen ∧ ready.lock ≠ some ready.actor)
      ∧ (({ ready with lock := some 5, txn := some (ended none) } : State).lock ≠ some ready.actor
        ∧ (ended none).awaited = true ∧ Txn.fresh.awaited = false)
      ∧ (∃ (s : State) (d : Txn), sparseWf Caller.fresh s.callers ∧ s.self.task = [] ∧ s.lock = some s.actor ∧ s.txn = some d
        ∧ d.phase ≠ .idle)
      ∧ ∃ s : State, sparseWf Caller.fresh s.callers ∧ s.self.task = [] ∧ s.lock = some s.actor
        ∧ s.txn = some (ended none) ∧ (ended none).phase = .idle ∧ (ended none).awaited = true := by
  refine ⟨by decide, by decide, ⟨inTransfer .tx 2 0 .addr none 0, _, by decide, by decide, by decide, rfl, by decide⟩,
    { ready with lock := some 0, txn := some (ended none) }, by decide⟩

theorem witness_WaitReturnsOrBlocks :
    (∃ (s : State) (d : Txn), sparseWf Caller.fresh s.callers ∧ s.lock = some s.actor ∧ s.txn = some d ∧ s.self.task = []
        ∧ d.completion = false)
      ∧ (∃ (s : State) (d : Txn), sparseWf Caller.fresh s.callers ∧ s.lock = some s.actor ∧ s.txn = some d
        ∧ s.self.task = .wait :: [.release] ∧ d.completion = false)
      ∧ (∃ s : State, sparseWf Caller.fresh s.callers ∧ s.lock = some s.actor ∧ s.txn = some (ended none)
        ∧ s.self.task = .wait :: [.release] ∧ (ended none).completion = true ∧ (ended none).error = none)
      ∧ ∃ s : State, sparseWf Caller.fresh s.callers ∧ s.lock = some s.actor ∧ s.txn = some (ended (some .noAcknowledge))
        ∧ s.self.task = .wait :: [.release] ∧ (ended (some .noAcknowledge)).completion = true
        ∧ (ended (some .noAcknowledge)).error ≠ none :=
  ⟨⟨inTransfer .tx 2 0 .addr none 0, _, by decide, by decide, rfl, by decide, by decide⟩,
    ⟨doing [.wait, .release] (inTransfer .tx 2 0 .addr none 0), _, by decide, by decide, rfl, by decide, by decide⟩,
    ⟨doing [.wait, .release] { ready with lock := some 0, txn := some (ended none) }, by decide⟩,
    ⟨doing [.wait, .release] { ready with lock := some 0, txn := some (ended (some .noAcknowledge)) }, by decide⟩⟩

theorem witness_TimeoutFires :
    ((doing [.wait] (inTransfer .tx 2 0 .addr none 0)).lock = some 0
        ∧ ((doing [.wait] (inTransfer .tx 2 0 .addr none 0)).caller 0).task = .wait :: []
        ∧ ((doing [.wait] (inTransfer .tx 2 0 .addr none 0)).txn.map (·.completion)) = some false)
      ∧ ready.lock = none ∧ State.reset.txn = none
      ∧ ((inTransfer .tx 2 0 .addr none 0).caller 0).task.head? ≠ some .wait := by decide

theorem witness_TimeoutRecovery :
    sparseWf Caller.fresh (doing (recoverLines std ++ [.release]) (inTransfer .tx 2 0 .addr none 0)).callers
      ∧ (doing (recoverLines std ++ [.release]) (inTransfer .tx 2 0 .addr none 0)).self.task = recoverLines ready.opts ++ [.release]
      ∧ (inTransfer .tx 2 0 .addr none 0).ctl.clkMapped = true ∧ (inTransfer .tx 2 0 .addr none 0).ctl.i2cMapped = true
      ∧ (inTransfer .tx 2 0 .addr none 0).txn.isSome = true ∧ (inTransfer .tx 2 0 .addr none 0).idlest = 0
      ∧ (gated (inTransfer .tx 2 0 .addr none 0)).idlest ≠ 0 := by decide

theorem witness_LockOperations :
    sparseWf Caller.fresh ready.callers ∧ ready.self.task = [] ∧ ready.lock = none
      ∧ ({ ready with lock := some 5 } : State).lock = some 5
      ∧ ({ ready with lock := some 0 } : State).lock = some ({ ready with lock := some 0 } : State).actor := by decide

/-- Caller 0 holds the lock and is about to release it. -/
theorem witness_LockDisciplineKept :
    sparseWf Caller.fresh (doing [.release, .finish .plain] ready).callers
      ∧ (next [.turn 0] (doing [.release, .finish .plain] { ready with lock := some 0 })).LockInv
      ∧ ∃ t, step (next [.turn 0] (doing [.release, .finish .plain] { ready with lock := some 0 })) = .next t := by
  have other : ∀ c, (next [.turn 0] (doing [.release, .finish .plain] { ready with lock := some 0 })).caller (c + 1)
      = Caller.fresh := by
    intro c
    simp [State.caller, next, doing, sparseRead]
  refine ⟨by decide, ⟨by decide, ?_, ?_⟩, _, rfl⟩
  · intro c
    cases c with
    | zero => decide
    | succ c => rw [other c]; decide
  · intro c
    cases c with
    | zero => decide
    | succ c => rw [other c]; simp [Caller.fresh, inSection, next, doing]

theorem witness_TransferChecks :
    State.reset.ctl.ready = false ∧ (ready.ctl.ready = true ∧ (0 : Word) = 0#32)
      ∧ (ready.ctl.ready = true ∧ (some 0x100 : Option Word) ≠ none ∧ (1 : Word) ≠ 0#32 ∧ 0x7F < (0x80 : Byte).toNat)
      ∧ (ready.ctl.ready = true ∧ (some 0x100 : Option Word) ≠ none ∧ (65536 : Word) ≠ 0#32
        ∧ ready.opts.maxLen < (65536 : Word).toNat)
      ∧ (∀ s ∈ [State.reset, ready], s.otherCaller inLifecycle = false)
      ∧ (∀ s ∈ [State.reset, ready], (beside (deinitLines std) s).otherCaller inLifecycle = true)
      ∧ (∃ o : Options, o.maxLen < 2 ∧ ({ ready with opts := o } : State).ctl.ready = true
        ∧ ({ ready with opts := o } : State).otherCaller inLifecycle = false)
      ∧ ∃ o : Options, o.maxLen < 1 ∧ ({ ready with opts := o } : State).ctl.ready = true
        ∧ ({ ready with opts := o } : State).otherCaller inLifecycle = false := by
  refine ⟨by decide, by decide, by decide, by decide, by decide, by decide, ?_, ?_⟩
  · exact ⟨{ std with count := { width := 1, maxLen := 1, inWord := by decide, fits := by decide } }, by decide⟩
  · exact ⟨{ std with count := { width := 1, maxLen := 0, inWord := by decide, fits := by decide } }, by decide⟩

theorem witness_TransferBegins :
    ready.ctl.ready = true ∧ (0x7F : Byte).toNat ≤ 0x7F ∧ 1 ≤ (65535 : Word).toNat ∧ (65535 : Word).toNat ≤ ready.opts.maxLen
      ∧ 2 ≤ ready.opts.maxLen ∧ 1 = ready.self.serial + 1 ∧ ready.otherCaller inLifecycle = false ∧ ready.self.task = [] := by decide

theorem witness_TransferReachesWait :
    ∃ s : State, sparseWf Caller.fresh s.callers ∧ s.lock = none ∧ s.txn = some Txn.fresh ∧ Txn.fresh.phase = .idle
      ∧ Txn.fresh.awaited = false ∧ s.ctl.clkMapped = true ∧ s.ctl.i2cMapped = true ∧ s.modulemode = 2 ∧ s.idlest = 0 ∧ (0x7F : Byte).toNat ≤ 0x7F
      ∧ 1 ≤ 65535 ∧ 65535 ≤ s.opts.maxLen
      ∧ s.self.task = .acquire :: (xferLines s.opts .tx 0x7F (.mem 0x100) 65535 ++ [.release, .finish .plain]) :=
  ⟨doing (oneTransferLines std .tx 0x7F (.mem 0x100) 65535) ready, by decide⟩

theorem witness_XferLockedBegins :
    ∀ s ∈ [{ ready with lock := some 0 }, gated { ready with lock := some 0 }], sparseWf Caller.fresh s.callers
      ∧ s.lock = some s.actor ∧ s.self.task = [] ∧ s.ctl.clkMapped = true ∧ (0x7F : Byte).toNat ≤ 0x7F
      ∧ 1 ≤ (65535 : Word).toNat ∧ (65535 : Word).toNat ≤ s.opts.maxLen
      ∧ ((s.modulemode = 2 ∧ s.idlest = 0) ∨ s.modulemode ≠ 2 ∨ s.idlest ≠ 0) := by decide

/-- A signalled wait, for each way to return and each outcome. -/
theorem witness_TransferReturns :
    ∀ how ∈ [Deliver.plain, .byte, .block 0x200 2], ∀ e ∈ [none, some XferError.noAcknowledge, some .arbitrationLost],
      ∃ s : State, sparseWf Caller.fresh s.callers ∧ s.lock = some s.actor ∧ s.txn = some (ended e)
        ∧ (ended e).completion = true ∧ s.self.task = [.wait, .release, .finish how] ∧ s.mem.wf
        ∧ s.self.staging.length = 2 := by
  intro how hh e he
  refine ⟨{ ready with
    lock := some 0, txn := some (ended e)
    callers := [(0, { task := [.wait, .release, .finish how], result := .pending, tmp := [], staging := [1, 2], serial := 1 })] }, ?_⟩
  refine ⟨⟨by simp, ?_⟩, rfl, rfl, rfl, rfl, (show Memory.wf [] by decide), rfl⟩
  intro x hx
  simp only [List.mem_singleton] at hx
  subst hx
  simp [Caller.fresh]

theorem witness_CompositePhases :
    ∀ e ∈ [none, some XferError.noAcknowledge, some .arbitrationLost],
      ∃ s : State, sparseWf Caller.fresh s.callers ∧ s.lock = some s.actor ∧ s.txn = some (ended e)
        ∧ (ended e).completion = true ∧ (ended e).error = e
        ∧ s.self.task
          = .wait :: (xferLines s.opts .rx 0x68 (.staging s.actor 0) 14 ++ [.release, .finish (.block 0x200 14)]) := by
  intro e he
  refine ⟨doing (.wait :: (xferLines std .rx 0x68 (.staging 0 0) 14
    ++ [.release, .finish (.block 0x200 14)])) { ready with lock := some 0, txn := some (ended e) }, ?_⟩
  refine ⟨?_, rfl, rfl, rfl, rfl, rfl⟩
  show sparseWf Caller.fresh
    [(0, { Caller.fresh with
      task := .wait :: (xferLines std .rx 0x68 (.staging 0 0) 14
        ++ [.release, .finish (.block 0x200 14)]) })]
  decide

/-- The premises of a run of `n + 1` bytes, direction `d`, with `n = 1`. -/
def runs (d : Dir) (s : State) : Prop :=
  s.i2cOpen = true ∧ s.con.en = true ∧ s.opts.isrAtomic = true ∧ s.ctl.irqRegistered = true ∧ s.ie = 0x1F
    ∧ s.raw = 0 ∧ s.isr = [] ∧ s.env = .refSlave slave
    ∧ s.txn = some
      { phase := .ofDir d, error := none, buffer := some (.mem 0x100), length := 2, index := 0, completion := false,
        awaited := true }
    ∧ s.eng = { st := .addr, dir := d, sa := slave.addr, cnt := 1 + 1, rem := 1 + 1, loaded := 0, hold := none,
                window := true, lateArdy := false, extra := 0 }

theorem witness_GoodWrite : runs .tx (inTransfer .tx 2 0 .addr none 0) := by unfold runs; decide

theorem witness_GoodRead : runs .rx (inTransfer .rx 2 0 .addr none 0) := by unfold runs; decide

/-- Power-on with the clock functional (INIT runs) and with it gated (INIT times out). -/
theorem witness_Init :
    ∀ s ∈ [{ State.reset with modulemode := 2, idlest := 0 }, State.reset], sparseWf Caller.fresh s.callers ∧ s.self.task = []
      ∧ s.ctl.ready = false ∧ s.otherCaller inLifecycle = false ∧ s.otherCaller inPrologue = false
      ∧ s.con.en = false := by decide

theorem witness_InitRuns :
    ({ State.reset with modulemode := 2, idlest := 0 } : State).modulemode = 2
      ∧ ({ State.reset with modulemode := 2, idlest := 0 } : State).idlest = 0 := by decide

theorem witness_InitTimesOut : State.reset.idlest ≠ 0 := by decide

theorem witness_InitTwice :
    ready.ctl.ready = true ∧ ready.otherCaller inLifecycle = false ∧ ready.otherCaller inPrologue = false
      ∧ (beside (deinitLines std) ready).otherCaller inLifecycle = true
      ∧ (beside (oneTransferLines std .tx 0x68 (.mem 0) 1) ready).otherCaller inPrologue = true := by
  decide

theorem witness_DeinitRuns :
    (∀ s ∈ [State.reset, { ready with lock := some 5 }, inTransfer .tx 2 0 .addr none 0, ready, gated ready,
          { ready with txn := some (ended none) }],
        sparseWf Caller.fresh s.callers ∧ s.self.task = [] ∧ s.otherCaller inLifecycle = false
          ∧ s.otherCaller inPrologue = false)
      ∧ State.reset.ctl.ready = false ∧ ready.ctl.ready = true ∧ ready.txn = some Txn.fresh ∧ Txn.fresh.awaited = false
      ∧ ready.lock = none ∧ (ended none).phase = .idle ∧ (ended none).awaited = true
      ∧ ready.ctl.i2cMapped = true ∧ ready.ctl.clkMapped = true ∧ ready.idlest = 0 ∧ (gated ready).idlest ≠ 0
      ∧ ((inTransfer .tx 2 0 .addr none 0).txn.map (·.phase)) ≠ some .idle := by decide

/-- A state with the invariant in the middle of a transaction, and a step from it. -/
theorem witness_InvariantKept :
    (next [.op 0 .evt8 [0x23]] { inTransfer .tx 2 1 .txShift (some 0x11) 0 with
        wire := [.start, .addr 0x68 false, .ack], eng.loaded := 1 }).Inv
      ∧ ∃ t, step (next [.op 0 .evt8 [0x23]] { inTransfer .tx 2 1 .txShift (some 0x11) 0 with
        wire := [.start, .addr 0x68 false, .ack], eng.loaded := 1 }) = .next t := by
  refine ⟨⟨by decide, ?_, by decide, by decide, ?_, ?_, ?_, ?_⟩, _, rfl⟩
  · intro r h
    cases h
    exact ⟨by decide, by decide⟩
  · intro n h
    cases h
    decide
  · intro t h
    cases h
    decide
  · show Dir.tx = .tx ∧ (some (0x11 : Byte)).isSome = true ∧ 1 + 2 = 2 + 1 ∧ 1 ≤ 2
    decide
  · show wirePlace [.start, .addr 0x68 false, .ack] = some .inside
    decide

theorem witness_MemoryFrame :
    ∃ t, step (next [.op 0 .cmd8 [0x0E]] (inTransfer .rx 2 0 .rxWait (some 7) 8)) = .next t ∧ t.mem.read 0x100 = 7 :=
  ⟨_, rfl, by decide⟩

theorem witness_MemoryFrame_elsewhere :
    (next [.op 0 .evt8 [0x21]] (busy .tx 2 .addr none 0)).isrMoves = false
      ∧ (∀ id rest base n l, (next [.op 0 .evt8 [0x21]] (busy .tx 2 .addr none 0)).sched = .turn id :: rest →
        ((next [.op 0 .evt8 [0x21]] (busy .tx 2 .addr none 0)).caller id).task ≠ .finish (.block base n) :: l)
      ∧ ∃ t, step (next [.op 0 .evt8 [0x21]] (busy .tx 2 .addr none 0)) = .next t := by
  refine ⟨by decide, ?_, _, rfl⟩
  intro id rest base n l h
  cases h

theorem witness_ParametersFixed_reference :
    (next [.op 0 .evt8 [0x21]] (busy .tx 2 .addr none 0)).refEngine
      ∧ ∃ t, step (next [.op 0 .evt8 [0x21]] (busy .tx 2 .addr none 0)) = .next t :=
  ⟨⟨rfl, rfl, rfl, trivial⟩, _, rfl⟩

theorem witness_ParametersFixed :
    ∃ t, step (next [.op 0 .evt8 [0x30]] { ready with idlest := 1 }) = .next t ∧ t.idlest ≠ 1 := ⟨_, rfl, by decide⟩

theorem witness_BusTiming : ∃ o : Options, o = std ∧ ∃ f, f = sclFrequency o.fclkHz (Speed.timing o .std100) :=
  ⟨_, rfl, _, rfl⟩

end Sys2Proof.Tests
end

section
/-!
What no step changes (00 R14, 10 R47, 41 R176, 42 R192, R207). One relation, `State.Continues`, holds between a state and every
state a step makes of it; `State.Steady` adds that IDLEST stays, which every move and every event but the power manager's
keeps.
-/
namespace Sys2Proof.Machine

-- The environment

/-- The environment after any number of answers: listed answers used up from the front, or the reference slave moved on. -/
inductive Env.Follows : Env → Env → Prop where
  | oracle {l l' : List Answer} (h : l' <:+ l) : Follows (.oracle l) (.oracle l')
  | refSlave (r r' : RefSlave) : Follows (.refSlave r) (.refSlave r')

theorem Env.Follows.refl (e : Env) : e.Follows e := by
  cases e with
  | oracle l => exact .oracle List.suffix_rfl
  | refSlave r => exact .refSlave r r

theorem Env.Follows.trans {e f g : Env} (h : e.Follows f) (k : f.Follows g) : e.Follows g := by
  cases h with
  | oracle h => cases k with | oracle k => exact .oracle (k.trans h)
  | refSlave r _ => cases k with | refSlave _ q => exact .refSlave r q

theorem Env.Follows.refSlave_iff {e f : Env} (h : e.Follows f) : (∃ r, e = .refSlave r) ↔ ∃ r, f = .refSlave r := by
  cases h <;> simp

/-- Arbitration that is never lost stays so: the answers still listed are among those listed before. -/
theorem Env.Follows.neverLost {e f : Env} (h : e.Follows f) (he : e.neverLost) : f.neverLost := by
  cases h with
  | oracle h => exact ⟨fun a ha => he.1 a (h.mem ha), he.2⟩
  | refSlave => trivial

theorem Env.follows_passed (e : Env) : e.Follows e.passed := by
  cases e with
  | oracle l => exact .oracle l.tail_suffix
  | refSlave r => exact .refSlave r _

theorem Env.follows_addressed (d : Dir) (e : Env) : e.Follows (e.addressed d) := by
  cases e with
  | oracle l => exact .oracle l.tail_suffix
  | refSlave r => exact .refSlave r _

theorem Env.follows_take (b : Byte) (e : Env) : e.Follows (e.take b) := by
  cases e with
  | oracle l => exact .oracle l.tail_suffix
  | refSlave r => exact .refSlave r _

theorem Env.follows_given (e : Env) : e.Follows e.given := by
  cases e with
  | oracle l => exact .oracle l.tail_suffix
  | refSlave r => exact .refSlave r _

-- The two relations

/-- What every step keeps: the options, the kind of environment, the wire history so far, and, where an error termination is
followed by no ARDY, that no late ARDY is to come. -/
structure State.Continues (s t : State) : Prop where
  opts : t.opts = s.opts
  env : s.env.Follows t.env
  wire : ∃ l, t.wire = s.wire ++ l
  lateArdy : s.opts.engArdyAfterErr = some false → s.eng.lateArdy = false → t.eng.lateArdy = false

/-- What every step keeps that is not the power manager's: IDLEST too (41 R176). -/
structure State.Steady (s t : State) : Prop extends s.Continues t where
  idlest : t.idlest = s.idlest

/-- The usual case: the options, the environment and the wire stay. -/
theorem State.Continues.of_eq {s t : State} (ho : t.opts = s.opts) (he : t.env = s.env) (hw : t.wire = s.wire)
    (hl : s.eng.lateArdy = false → t.eng.lateArdy = false) : s.Continues t where
  opts := ho
  env := he ▸ .refl s.env
  wire := ⟨[], by rw [hw, List.append_nil]⟩
  lateArdy := fun _ => hl

theorem State.Steady.of_eq {s t : State} (ho : t.opts = s.opts) (he : t.env = s.env) (hw : t.wire = s.wire)
    (hi : t.idlest = s.idlest) (hl : s.eng.lateArdy = false → t.eng.lateArdy = false) : s.Steady t :=
  ⟨.of_eq ho he hw hl, hi⟩

theorem State.Steady.refl (s : State) : s.Steady s := .of_eq rfl rfl rfl rfl id

theorem State.Continues.trans {s t u : State} (h : s.Continues t) (k : t.Continues u) : s.Continues u where
  opts := k.opts.trans h.opts
  env := h.env.trans k.env
  wire := by
    obtain ⟨l, hl⟩ := h.wire
    obtain ⟨m, hm⟩ := k.wire
    exact ⟨l ++ m, by rw [hm, hl, List.append_assoc]⟩
  lateArdy ho hs := k.lateArdy (h.opts ▸ ho) (h.lateArdy ho hs)

theorem State.Steady.trans {s t u : State} (h : s.Steady t) (k : t.Steady u) : s.Steady u where
  toContinues := h.toContinues.trans k.toContinues
  idlest := k.idlest.trans h.idlest

/-- The premises of the reference engine (42 R207) are kept. -/
theorem State.Continues.refEngine {s t : State} (h : s.Continues t) (hs : s.refEngine) : t.refEngine := by
  obtain ⟨hextra, hafter, hlate, hlost⟩ := hs
  exact ⟨h.opts ▸ hextra, h.opts ▸ hafter, h.lateArdy hafter hlate, h.env.neverLost hlost⟩

-- Moves

theorem steady_readRule (r : Reg) (s : State) : s.Steady (readRule r s).2 := by
  rcases readRule_cases r s with h | h | ⟨-, -, -, -, h⟩ <;> rw [h]
  · exact .refl s
  · exact .of_eq rfl rfl rfl rfl id
  · exact .of_eq rfl rfl rfl rfl id

@[simp] theorem Engine.disabled_lateArdy (e : Engine) : e.disabled.lateArdy = false := rfl

@[simp] theorem Engine.started_lateArdy (d : Dir) (n : Nat) (a : BitVec 7) : (Engine.started d n a).lateArdy = false := rfl

@[simp] theorem ackStatus_lateArdy (v : Status) (s : State) : (ackStatus v s).eng.lateArdy = s.eng.lateArdy := by
  simp only [ackStatus, ackWindow]
  split <;> rfl

/-- No register write touches more than the registers and the engine, and none makes a late ARDY to come. -/
theorem steady_writeRule {r : Reg} {v : Word} {s t : State} (h : writeRule r v s = .next t) : s.Steady t := by
  rcases writeRule_cases h with ⟨-, rfl⟩ | ⟨-, rfl⟩ | ⟨-, rfl⟩ | ⟨-, rfl⟩ | ⟨-, -, rfl⟩ | ⟨-, rfl⟩ | ⟨-, rfl⟩ | ⟨-, rfl⟩
    | ⟨-, -, -, -, -, -, rfl⟩ | ⟨-, rfl⟩ | ⟨-, rfl⟩ | ⟨-, rfl⟩ | ⟨-, rfl⟩ | ⟨-, -, rfl⟩
  all_goals exact .of_eq rfl rfl rfl rfl fun hl => by simp [hl]

theorem Move.steady {s t : State} (h : Move s t) : s.Steady t := by
  cases h with
  | read r => exact steady_readRule r s
  | write _ r v _ h => exact steady_writeRule h
  | _ => exact .of_eq rfl rfl rfl rfl id

theorem Moves.steady {s t : State} (h : Moves s t) : s.Steady t :=
  h.rel State.Steady .refl (fun _ _ _ => .trans) fun _ _ => Move.steady

-- Events

/-- The engine's end in error, with what it puts on the wire and latches (42 R196, R199, R202). -/
theorem steady_engFail (s : State) (l : List WireEvent) (m : Status) :
    s.Steady (((s.engFail.emit l).latch m).answered s.env.passed) where
  opts := rfl
  env := s.env.follows_passed
  wire := ⟨l, rfl⟩
  lateArdy ho _ := by simp [State.ardyAfterErr, ho]
  idlest := rfl

theorem steady_engAddrAck {s t : State} (h : execEngAddrAck s = .next t) : s.Steady t := by
  unfold execEngAddrAck at h
  split at h
  · dsimp only at h
    split at h <;> cases h <;> exact ⟨⟨rfl, s.env.follows_addressed _, ⟨_, rfl⟩, fun _ => id⟩, rfl⟩
  · cases h; exact .refl s

theorem steady_engAddrNack {s t : State} (h : execEngAddrNack s = .next t) : s.Steady t := by
  unfold execEngAddrNack at h
  split at h <;> cases h
  · exact steady_engFail s _ _
  · exact .refl s

theorem steady_engTxByteAck {s t : State} (h : execEngTxByteAck s = .next t) : s.Steady t := by
  unfold execEngTxByteAck at h
  split at h
  · cases h; exact .refl s
  · split at h
    · dsimp only at h
      split at h <;> cases h <;> exact ⟨⟨rfl, s.env.follows_take _, ⟨_, rfl⟩, fun _ => id⟩, rfl⟩
    · cases h; exact .refl s

theorem steady_engTxByteNack {s t : State} (h : execEngTxByteNack s = .next t) : s.Steady t := by
  unfold execEngTxByteNack at h
  split at h
  · cases h; exact .refl s
  · split at h <;> cases h
    · exact steady_engFail s _ _
    · exact .refl s

theorem steady_engRxByte {s t : State} (h : execEngRxByte s = .next t) : s.Steady t := by
  unfold execEngRxByte at h
  split at h <;> cases h
  · exact ⟨⟨rfl, s.env.follows_given, ⟨_, rfl⟩, fun _ => id⟩, rfl⟩
  · exact .refl s

theorem steady_engStopDone {s t : State} (h : execEngStopDone s = .next t) : s.Steady t := by
  unfold execEngStopDone at h
  split at h <;> cases h
  · exact ⟨⟨rfl, .refl s.env, ⟨_, rfl⟩, fun _ => id⟩, rfl⟩
  · exact .refl s

theorem steady_engArbLost {s t : State} (h : execEngArbLost s = .next t) : s.Steady t := by
  unfold execEngArbLost at h
  split at h <;> cases h
  · exact steady_engFail s _ _
  · exact .refl s

theorem steady_engExtraReady {s t : State} (h : execEngExtraReady s = .next t) : s.Steady t := by
  unfold execEngExtraReady at h
  split at h <;> cases h
  · exact .of_eq rfl rfl rfl rfl id
  · exact .refl s

theorem steady_engLateArdy {s t : State} (h : execEngLateArdy s = .next t) : s.Steady t := by
  unfold execEngLateArdy at h
  split at h <;> cases h
  · exact .of_eq rfl rfl rfl rfl fun _ => rfl
  · exact .refl s

theorem steady_xferTimeoutFires {s t : State} (h : execXferTimeoutFires s = .next t) : s.Steady t := by
  unfold execXferTimeoutFires at h
  split at h
  · split at h
    · split at h <;> cases h
      · exact .refl s
      · exact (Move.caller s _ _).steady
    · cases h; exact .refl s
  · cases h; exact .refl s

/-- An event that is not the power manager's keeps IDLEST and all the rest (41 R176). -/
theorem steady_event {i : Instr} {s t : State} (hf : i.format = .evt8) (hs : ∀ d, i ≠ .engStart d)
    (hp : ¬(i = .pmGate ∨ i = .pmUngate ∨ i = .pmIdle)) (h : exec i s = .next t) : s.Steady t := by
  cases i with
  | engStart d => exact absurd rfl (hs d)
  | engAddrAck => exact steady_engAddrAck h
  | engAddrNack => exact steady_engAddrNack h
  | engTxByteAck => exact steady_engTxByteAck h
  | engTxByteNack => exact steady_engTxByteNack h
  | engRxByte => exact steady_engRxByte h
  | engStopDone => exact steady_engStopDone h
  | engArbLost => exact steady_engArbLost h
  | engExtraReady => exact steady_engExtraReady h
  | engLateArdy => exact steady_engLateArdy h
  | xferTimeoutFires => exact steady_xferTimeoutFires h
  | pmGate | pmUngate | pmIdle => simp at hp
  | _ => cases hf

/-- All a step of the power manager can change (41 R177 to R179). -/
theorem powerManager_next {i : Instr} {s t : State} (hp : i = .pmGate ∨ i = .pmUngate ∨ i = .pmIdle)
    (h : exec i s = .next t) : ∃ m x n, t = { s with modulemode := m, idlest := x, draws := n } := by
  rcases hp with rfl | rfl | rfl
  · cases h; exact ⟨_, _, _, rfl⟩
  all_goals
    simp only [exec, execPmUngate, execPmIdle] at h
    split at h
    · split at h <;> cases h <;> exact ⟨_, _, _, rfl⟩
    · cases h; exact ⟨_, _, _, rfl⟩

-- The step

/-- Taking an entry off the schedule is steady. -/
theorem steady_sched (s : State) (l : List Slot) : s.Steady { s with sched := l } := .of_eq rfl rfl rfl rfl id

/-- Every step is steady, or performs an event of the power manager, and continues the state then too. -/
theorem step_steady_or_powerManager {s t : State} (h : step s = .next t) :
    s.Steady t ∨ s.Continues t ∧ ∃ id f bytes i rest after, s.sched = .op id f bytes :: rest
      ∧ decode s.opts f bytes = .ok (i, after) ∧ (i = .pmGate ∨ i = .pmUngate ∨ i = .pmIdle) := by
  rcases moves_step h with hm | ⟨id, f, bytes, i, after, rest, hsched, hdec, hf, hs, hi⟩
  · exact .inl ((steady_sched s _).trans hm.steady)
  · by_cases hp : i = .pmGate ∨ i = .pmUngate ∨ i = .pmIdle
    · obtain ⟨m, x, n, rfl⟩ := powerManager_next hp hi
      exact .inr ⟨.of_eq rfl rfl rfl fun hl => hl, id, f, bytes, i, rest, after, hsched, hdec, hp⟩
    · exact .inl ((steady_sched s rest).trans (steady_event hf hs hp hi))

theorem step_continues {s t : State} (h : step s = .next t) : s.Continues t := by
  rcases step_steady_or_powerManager h with hs | ⟨hc, -⟩
  · exact hs.toContinues
  · exact hc

/-- Settles O59: by cases on the step, a sequence of moves, an event of the engine or of time, or one of the power manager. -/
theorem parametersFixed : Obligations.ParametersFixed := by
  intro s t h
  have hc := step_continues h
  refine ⟨hc.opts, hc.env.refSlave_iff, hc.wire, hc.refEngine, fun hne => ?_⟩
  rcases step_steady_or_powerManager h with hs | ⟨-, hpm⟩
  · exact absurd hs.idlest hne
  · exact hpm

end Sys2Proof.Machine
end

section
/-!
Power-on (10_state R49, 70 R361): the values the table gives, the invariant and the lock discipline.
-/
namespace Sys2Proof.Machine

/-- Before the first operation no caller has issued anything. -/
@[simp] theorem State.reset_caller (c : Nat) : State.reset.caller c = Caller.fresh := rfl

/-- The fields that have no value at power-on meet their bounds because there is nothing to bound, and the idle engine stands
between transactions on the empty wire. -/
theorem State.reset_inv : State.reset.Inv where
  mem := by decide
  slave _ h := nomatch h
  callers := by decide
  modulemode := .inl rfl
  count _ h := nomatch h
  index _ h := nomatch h
  engine := trivial
  wire := .inl rfl

/-- No entry is scheduled, every caller is fresh and so in no section, and the lock is free. -/
theorem State.reset_lockInv : State.reset.LockInv where
  api _ hx := nomatch hx
  shape c := by rw [State.reset_caller]; decide
  holder c := by
    rw [State.reset_caller]
    have outside : inSection Caller.fresh.task = false := by decide
    have free : State.reset.lock = none := rfl
    simp [outside, free]

/-- Settles O55: each value is read off the power-on state. -/
theorem powerOnValues : Obligations.PowerOnValues := by
  unfold Obligations.PowerOnValues
  decide

/-- Settles O56: the two parts are `State.reset_inv` and `State.reset_lockInv`. -/
theorem invariantAtReset : Obligations.InvariantAtReset := ⟨State.reset_inv, State.reset_lockInv⟩

end Sys2Proof.Machine
end

section
/-!
What a step stores to (20 R72, 43 R238, 44 R276). Every computation of the machine keeps the callers' memory but two:
the interrupt service's data read, which stores one byte at the descriptor's index, and the return of READ_BLOCK, which
copies the staged bytes to the caller's block. `step_mem` says so once for a step; the frame follows.
-/
namespace Sys2Proof.Machine

-- Computations that keep memory

/-- Where the computation answers a next state, the callers' memory there is `m`. -/
structure KeepsMem (m : Memory) (x : Res State) : Prop where
  mem_eq : ∀ t, x = .next t → t.mem = m

@[simp] theorem keepsMem_next {m : Memory} {t : State} : KeepsMem m (.next t) ↔ t.mem = m :=
  ⟨fun h => h.mem_eq t rfl, fun h => ⟨fun _ e => by cases e; exact h⟩⟩

@[simp] theorem keepsMem_refused (m : Memory) (r : Refusal) : KeepsMem m (.refused r) := ⟨fun _ e => nomatch e⟩

theorem keepsMem_ite {m : Memory} {c : Prop} [Decidable c] {x y : Res State} (hx : KeepsMem m x) (hy : KeepsMem m y) :
    KeepsMem m (if c then x else y) := by
  split
  · exact hx
  · exact hy

theorem keepsMem_andThen {m : Memory} {x : Res State} {f : State → Res State} (hx : KeepsMem m x)
    (hf : ∀ u, u.mem = m → KeepsMem m (f u)) : KeepsMem m (andThen x f) := by
  refine ⟨fun t h => ?_⟩
  obtain ⟨u, hu, ht⟩ := andThen_next h
  exact (hf u (hx.mem_eq u hu)).mem_eq t ht

theorem readRule_mem (r : Reg) (s : State) : (readRule r s).2.mem = s.mem := by
  rcases readRule_cases r s with h | h | ⟨-, -, -, -, h⟩ <;> simp [h]

theorem keepsMem_read {r : Reg} {s : State} {f : Word × State → Res State}
    (hf : ∀ p : Word × State, p.2.mem = s.mem → KeepsMem s.mem (f p)) : KeepsMem s.mem (andThen (regRead r s) f) := by
  refine ⟨fun t h => ?_⟩
  obtain ⟨p, hp, ht⟩ := andThen_next h
  obtain ⟨rfl, -⟩ := regRead_next hp
  exact (hf _ (readRule_mem r s)).mem_eq t ht

theorem keepsMem_regWrite (r : Reg) (v : Word) (s : State) : KeepsMem s.mem (regWrite r v s) := by
  refine ⟨fun t h => ?_⟩
  rcases writeRule_cases (regWrite_next h).1 with ⟨-, rfl⟩ | ⟨-, rfl⟩ | ⟨-, rfl⟩ | ⟨-, rfl⟩ | ⟨-, -, rfl⟩ | ⟨-, rfl⟩
    | ⟨-, rfl⟩ | ⟨-, rfl⟩ | ⟨-, -, -, -, -, -, rfl⟩ | ⟨-, rfl⟩ | ⟨-, rfl⟩ | ⟨-, rfl⟩ | ⟨-, rfl⟩ | ⟨-, -, rfl⟩
  all_goals rfl

theorem keepsMem_onTxn (f : Txn → Txn) (s : State) : KeepsMem s.mem (s.onTxn f) := by
  refine ⟨fun t h => ?_⟩
  obtain ⟨d, -, rfl⟩ := onTxn_next h
  rfl

theorem bufGet_mem (s : State) (b : Option BufRef) (i : Nat) : (s.bufGet b i).2.mem = s.mem := by
  unfold State.bufGet; split <;> rfl

-- The callers' lines

theorem keepsMem_armFields (b : BufRef) (n : Nat) (s : State) : KeepsMem s.mem (armFields b n s) := by
  unfold armFields
  repeat' split
  all_goals simp

theorem keepsMem_waitLine (s : State) (rest : List Act) : KeepsMem s.mem (waitLine s rest) := by
  unfold waitLine
  split
  · exact keepsMem_refused ..
  · exact keepsMem_ite (keepsMem_next.2 rfl) (keepsMem_next.2 rfl)

/-- Only the return of READ_BLOCK stores to memory (44 R276). -/
theorem keepsMem_performLine {a : Act} (ha : ∀ base n, a ≠ .finish (.block base n)) (rest : List Act) (s : State) :
    KeepsMem s.mem (performLine a rest s) := by
  cases a with
  | acquire => rw [performLine, keepsMem_next, acquireLine]; split <;> rfl
  | release => exact keepsMem_ite (keepsMem_next.2 rfl) (keepsMem_refused ..)
  | clkEnsure => exact keepsMem_read fun p hp => by rw [keepsMem_next]; split <;> exact hp
  | clkRequest c | clkRelease c | write r v =>
    exact keepsMem_andThen (keepsMem_regWrite ..) fun u hu => keepsMem_next.2 hu
  | clkPoll left =>
    cases left with
    | zero => exact keepsMem_next.2 rfl
    | succ left => exact keepsMem_read fun p hp => by rw [keepsMem_next]; split <;> exact hp
  | armFields b n => exact keepsMem_andThen (keepsMem_armFields b n s) fun u hu => keepsMem_next.2 hu
  | armCompletion | armPhase d | forceIdle =>
    exact keepsMem_andThen (keepsMem_onTxn ..) fun u hu => keepsMem_next.2 hu
  | wait => exact keepsMem_waitLine s rest
  | clkDrop | diagnose | probe r => exact keepsMem_read fun p hp => keepsMem_next.2 hp
  | fail e | registerIsr l => exact keepsMem_next.2 rfl
  | initEnd sp => rw [performLine, keepsMem_next, initEndLine]; split <;> rfl
  | deinitEnd => exact keepsMem_ite (keepsMem_refused ..) (keepsMem_next.2 rfl)
  | finish how =>
    rw [performLine, keepsMem_next]
    cases how with
    | plain | byte => unfold finishLine; dsimp only; split <;> rfl
    | block base n => exact absurd rfl (ha base n)

/-- The return of READ_BLOCK copies at most the block's length, from its base on; on an error nothing (44 R276). -/
theorem performLine_copy {base : Word} {n : Nat} {rest : List Act} {s t : State}
    (h : performLine (.finish (.block base n)) rest s = .next t) :
    ∃ l : List Byte, l.length ≤ n ∧ t.mem = s.mem.writeBytes base.toNat l := by
  cases h
  unfold finishLine
  dsimp only
  split
  · exact ⟨[], Nat.zero_le n, rfl⟩
  · exact ⟨s.self.staging.take n, List.length_take_le .., rfl⟩

/-- A turn keeps memory, or is the return of READ_BLOCK and copies to its block. -/
theorem advance_mem {s t : State} (h : advance s = .next t) :
    t.mem = s.mem ∨ ∃ base n rest, s.self.task = .finish (.block base n) :: rest
      ∧ ∃ l : List Byte, l.length ≤ n ∧ t.mem = s.mem.writeBytes base.toNat l := by
  unfold advance at h
  split at h
  · cases h; exact .inl rfl
  · rename_i a rest hs
    by_cases ha : ∃ base n, a = .finish (.block base n)
    · obtain ⟨base, n, rfl⟩ := ha
      exact .inr ⟨base, n, rest, hs, performLine_copy h⟩
    · exact .inl ((keepsMem_performLine (fun base n e => ha ⟨base, n, e⟩) rest s).mem_eq t h)

/-- The first line of an operation, where it is no return of READ_BLOCK, keeps memory. -/
theorem keepsMem_advance_goOn {a : Act} (ha : ∀ base n, a ≠ .finish (.block base n)) (s : State) (r : Result)
    (l : List Act) : KeepsMem s.mem (advance (s.goOn r (a :: l))) := by
  rw [advance_cons (congrArg Caller.task (State.self_goOn_cons s r a l))]
  exact keepsMem_performLine ha l (s.goOn r (a :: l))

-- The callers' operations

theorem keepsMem_callerRead (r : Reg) (s : State) : KeepsMem s.mem (callerRead r s) :=
  keepsMem_read fun _ hp => keepsMem_next.2 hp

theorem keepsMem_callerWrite (r : Reg) (v : Word) (s : State) : KeepsMem s.mem (callerWrite r v s) :=
  keepsMem_andThen (keepsMem_regWrite r v s) fun _ hu => keepsMem_next.2 hu

theorem keepsMem_execInit (kHz line : Word) (s : State) : KeepsMem s.mem (execInit kHz line s) := by
  unfold execInit
  repeat' split
  all_goals simp

theorem keepsMem_execDeinit (s : State) : KeepsMem s.mem (execDeinit s) := by
  unfold execDeinit
  repeat' split
  all_goals simp

theorem keepsMem_startTransfer (a : Byte) (n : Nat) (x y : List Byte) (l : List Act) (s : State) :
    KeepsMem s.mem (startTransfer a n x y l s) :=
  keepsMem_ite (keepsMem_refused ..) (keepsMem_next.2 rfl)

theorem keepsMem_transferCall {f : State → Res State} {s : State} (hf : KeepsMem s.mem (f s)) :
    KeepsMem s.mem (transferCall f s) := by
  refine ⟨fun t h => ?_⟩
  obtain ⟨-, rfl | h⟩ := transferCall_next h
  · rfl
  · exact hf.mem_eq t h

theorem keepsMem_bufferCall {b : Option Word} {n : Word} {f : Word → Res State} {s : State}
    (hf : ∀ base, KeepsMem s.mem (f base)) : KeepsMem s.mem (bufferCall b n f s) := by
  refine ⟨fun t h => ?_⟩
  obtain rfl | ⟨base, -, -, h⟩ := bufferCall_next h
  · rfl
  · exact (hf base).mem_eq t h

theorem keepsMem_transferBytes (d : Dir) (a : Byte) (b : Option Word) (n : Word) (s : State) :
    KeepsMem s.mem (transferBytes d a b n s) :=
  keepsMem_transferCall (keepsMem_bufferCall fun _ => keepsMem_startTransfer ..)

theorem keepsMem_execReadBlock (a r : Byte) (b : Option Word) (n : Word) (s : State) :
    KeepsMem s.mem (execReadBlock a r b n s) := by
  refine keepsMem_transferCall (keepsMem_bufferCall fun base => keepsMem_ite (keepsMem_next.2 rfl) ?_)
  exact keepsMem_startTransfer _ _ _ _ _ (s.tick.ticks n.toNat)

theorem keepsMem_startArming (d : Dir) (a : Byte) (b n : Word) (s : State) :
    KeepsMem s.mem (startArming d a b n s) :=
  keepsMem_ite (keepsMem_refused ..) (keepsMem_advance_goOn (by simp) ..)

theorem keepsMem_execWaitComplete (s : State) : KeepsMem s.mem (execWaitComplete s) :=
  keepsMem_ite (keepsMem_advance_goOn (by simp) ..) (keepsMem_ite (keepsMem_refused ..) (keepsMem_refused ..))

theorem keepsMem_execXferLocked (d : Dir) (a : Byte) (b n : Word) (s : State) :
    KeepsMem s.mem (execXferLocked d a b n s) :=
  keepsMem_ite (keepsMem_refused ..) (keepsMem_ite (keepsMem_refused ..) (keepsMem_advance_goOn (by simp) ..))

/-- No operation a caller issues stores to memory before its later turns. -/
theorem keepsMem_byCaller {i : Instr} (hi : i.byCaller = true) (s : State) : KeepsMem s.mem (exec i s) := by
  cases i with
  | init kHz line => exact keepsMem_execInit kHz line s
  | deinit => exact keepsMem_execDeinit s
  | writeBytes | readBytes => exact keepsMem_transferBytes ..
  | writeRegister | readRegister => exact keepsMem_transferCall (keepsMem_startTransfer ..)
  | readBlock => exact keepsMem_execReadBlock ..
  | clkEnsureEnabled | clkDisable | lockAcquire | lockRelease => exact keepsMem_advance_goOn (by simp) ..
  | clkIsEnabled => exact keepsMem_read fun p hp => keepsMem_next.2 hp
  | startWrite | startRead => exact keepsMem_startArming ..
  | waitComplete => exact keepsMem_execWaitComplete s
  | xferLocked => exact keepsMem_execXferLocked ..
  | rdIrqstatusRaw | rdIrqstatus | rdIrqenableSet | rdIrqenableClr | rdCnt | rdData | rdCon | rdSa | rdPsc | rdScll
  | rdSclh | rdClkctrl => exact keepsMem_callerRead ..
  | wrIrqstatusRaw | wrIrqstatus | wrIrqenableSet | wrIrqenableClr | wrCnt | wrData | wrCon | wrSa | wrPsc | wrScll
  | wrSclh | wrClkctrl | conStartTx | conStartRx | conEnable | conDisable => exact keepsMem_callerWrite ..
  | _ => cases hi

-- The events

theorem keepsMem_engAddrAck (s : State) : KeepsMem s.mem (execEngAddrAck s) := by
  refine keepsMem_ite ?_ (keepsMem_next.2 rfl)
  dsimp only
  split <;> exact keepsMem_next.2 rfl

theorem keepsMem_engTxByteAck (s : State) : KeepsMem s.mem (execEngTxByteAck s) := by
  unfold execEngTxByteAck
  split
  · exact keepsMem_next.2 rfl
  · exact keepsMem_ite (keepsMem_ite (keepsMem_next.2 rfl) (keepsMem_next.2 rfl)) (keepsMem_next.2 rfl)

theorem keepsMem_engTxByteNack (s : State) : KeepsMem s.mem (execEngTxByteNack s) := by
  unfold execEngTxByteNack
  split
  · exact keepsMem_next.2 rfl
  · exact keepsMem_ite (keepsMem_next.2 rfl) (keepsMem_next.2 rfl)

theorem keepsMem_xferTimeoutFires (s : State) : KeepsMem s.mem (execXferTimeoutFires s) := by
  unfold execXferTimeoutFires
  repeat' split
  all_goals exact keepsMem_next.2 rfl

/-- The engine, the power manager and time have no access to the callers' memory. -/
theorem keepsMem_event {i : Instr} (hf : i.format = .evt8) (hs : ∀ d, i ≠ .engStart d) (s : State) :
    KeepsMem s.mem (exec i s) := by
  cases i with
  | engStart d => exact absurd rfl (hs d)
  | engAddrAck => exact keepsMem_engAddrAck s
  | engTxByteAck => exact keepsMem_engTxByteAck s
  | engTxByteNack => exact keepsMem_engTxByteNack s
  | xferTimeoutFires => exact keepsMem_xferTimeoutFires s
  | engAddrNack | engRxByte | engStopDone | engArbLost | engExtraReady | engLateArdy =>
    exact keepsMem_ite (keepsMem_next.2 rfl) (keepsMem_next.2 rfl)
  | pmGate | pmUngate | pmIdle =>
    refine ⟨fun t h => ?_⟩
    obtain ⟨_, _, _, rfl⟩ := powerManager_next (by simp) h
    rfl
  | _ => cases hf

-- The interrupt service

/-- The memory after a data read that stored its byte: the descriptor's buffer is in the callers' memory and not full,
and the byte stands at its index (43 R238). -/
def State.Receives (s : State) (m : Memory) : Prop :=
  ∃ d base b, s.txn = some d ∧ d.buffer = some (.mem base) ∧ d.index < d.length
    ∧ m = s.mem.write (bufAddr base d.index) b

theorem keepsMem_isrTxData (s : State) : KeepsMem s.mem (isrTxData s) := by
  unfold isrTxData
  split
  · exact keepsMem_refused ..
  · split
    · rw [← bufGet_mem s]
      exact keepsMem_andThen (keepsMem_regWrite ..) fun u hu => hu ▸ keepsMem_onTxn ..
    · exact keepsMem_regWrite ..

/-- The data read keeps memory, or stores its byte in the callers' memory (43 R238). -/
theorem isrRxData_mem {s t : State} (h : isrRxData s = .next t) : t.mem = s.mem ∨ s.Receives t.mem := by
  unfold isrRxData at h
  split at h
  · cases h
  · rename_i d hd
    obtain ⟨p, hp, h⟩ := andThen_next h
    obtain ⟨rfl, -⟩ := regRead_next hp
    split at h
    · rename_i hi
      have ht := (keepsMem_onTxn ..).mem_eq _ h
      rcases bufSet_cases (readRule .data s).2 d.buffer d.index (dataByte (readRule .data s).1) with
        e | ⟨base, hb, e⟩ | ⟨k, c, -, -, e⟩
      · exact .inl (by rw [ht, e, readRule_mem])
      · exact .inr ⟨d, base, _, hd, hb, hi, by rw [ht, e, readRule_mem]⟩
      · exact .inl (by rw [ht, e, State.putCaller_mem, readRule_mem])
    · cases h; exact .inl (readRule_mem ..)

theorem isrLine_mem {a : IsrAct} {s : State} {p : List IsrAct × State} (h : isrLine a s = .next p) :
    p.2.mem = s.mem ∨ s.Receives p.2.mem := by
  cases a with
  | txGuard | rxGuard => cases h; exact .inl rfl
  | recordError st =>
    obtain ⟨u, hu, h⟩ := andThen_next h; cases h
    refine .inl (((keepsMem_onTxn ..).mem_eq u hu).trans ?_)
    split <;> rfl
  | forceIdle | signal => obtain ⟨u, hu, h⟩ := andThen_next h; cases h; exact .inl ((keepsMem_onTxn ..).mem_eq u hu)
  | ack m => obtain ⟨u, hu, h⟩ := andThen_next h; cases h; exact .inl ((keepsMem_regWrite ..).mem_eq u hu)
  | txData => obtain ⟨u, hu, h⟩ := andThen_next h; cases h; exact .inl ((keepsMem_isrTxData s).mem_eq u hu)
  | rxData => obtain ⟨u, hu, h⟩ := andThen_next h; cases h; exact isrRxData_mem hu

theorem isrAdvance_mem {s t : State} (h : isrAdvance s = .next t) : t.mem = s.mem ∨ s.Receives t.mem := by
  unfold isrAdvance at h
  split at h
  · cases h; exact .inl rfl
  · obtain ⟨p, hp, h⟩ := andThen_next h; cases h
    exact isrLine_mem hp

-- A whole invocation

theorem isrTxData_inPhase {s t : State} (h : isrTxData s = .next t) (p : Phase) : inPhase p t = inPhase p s := by
  unfold isrTxData at h
  split at h
  · cases h
  · rename_i d hd
    split at h
    · obtain ⟨u, hu, h⟩ := andThen_next h
      obtain ⟨d', hd', rfl⟩ := onTxn_next h
      rw [writeRule_txn (regWrite_next hu).1, bufGet_txn, hd] at hd'
      cases hd'
      simp [inPhase, hd]
    · simp only [inPhase, writeRule_txn (regWrite_next h).1]

theorem inPhase_reading_of_writing {s : State} (h : inPhase .writing s = true) : inPhase .reading s = false := by
  unfold inPhase at *
  split at h
  · rw [beq_iff_eq.1 h]; rfl
  · cases h

/-- Step 2 does nothing, or keeps memory in a transfer that step 3 is not for (43 R237). -/
theorem isrStep2_mem {st : Status} {s t : State} (h : isrStep2 st s = .next t) :
    t = s ∨ t.mem = s.mem ∧ inPhase .reading t = false := by
  unfold isrStep2 at h
  split at h
  · rename_i hg
    obtain ⟨u, hu, ht⟩ := andThen_next h
    refine .inr ⟨(keepsMem_andThen (keepsMem_isrTxData s) fun u hu => hu ▸ keepsMem_regWrite ..).mem_eq t h, ?_⟩
    have hw := (Bool.and_eq_true_iff.1 hg).2
    have hr : inPhase .reading u = false := by rw [isrTxData_inPhase hu, inPhase_reading_of_writing hw]
    simpa only [inPhase, writeRule_txn (regWrite_next ht).1] using hr
  · cases h; exact .inl rfl

theorem isrStep3_mem {st : Status} {s t : State} (h : isrStep3 st s = .next t) : t.mem = s.mem ∨ s.Receives t.mem := by
  unfold isrStep3 at h
  split at h
  · obtain ⟨u, hu, ht⟩ := andThen_next h
    rw [(keepsMem_regWrite ..).mem_eq t ht]
    exact isrRxData_mem hu
  · cases h; exact .inl rfl

theorem isrStep3_of_not_reading {st : Status} {s : State} (h : inPhase .reading s = false) :
    isrStep3 st s = .next s := by
  simp [isrStep3, h]

theorem keepsMem_isrStep4 (st : Status) (s : State) : KeepsMem s.mem (isrStep4 st s) := by
  refine keepsMem_ite ?_ (keepsMem_next.2 rfl)
  exact keepsMem_andThen (keepsMem_regWrite ..) fun u hu => hu ▸ keepsMem_onTxn ..

/-- An invocation stores at most the byte of its step 3: a step 2 that moved the index was in a write transfer. -/
theorem isrAfterSnapshot_mem {o : ErrAck} {st : Status} {s t : State} (h : isrAfterSnapshot o st s = .next t) :
    t.mem = s.mem ∨ s.Receives t.mem := by
  unfold isrAfterSnapshot at h
  split at h
  · obtain ⟨u, hu, h⟩ := andThen_next h
    obtain ⟨v, hv, h⟩ := andThen_next h
    left
    rw [(keepsMem_onTxn ..).mem_eq t h, (keepsMem_regWrite ..).mem_eq v hv, (keepsMem_onTxn ..).mem_eq u hu]
    split <;> rfl
  · obtain ⟨u, hu, h⟩ := andThen_next h
    obtain ⟨v, hv, h⟩ := andThen_next h
    rw [(keepsMem_isrStep4 st v).mem_eq t h]
    rcases isrStep2_mem hu with rfl | ⟨hm, hr⟩
    · exact isrStep3_mem hv
    · rw [isrStep3_of_not_reading hr] at hv
      cases hv
      exact .inl hm

theorem isrService_mem {s t : State} (h : exec .isrService s = .next t) : t.mem = s.mem ∨ s.Receives t.mem := by
  cases ha : s.opts.isrAtomic with
  | true =>
    rcases isr_next ha h with ⟨-, rfl⟩ | ⟨-, -, h⟩
    · exact .inl rfl
    · exact isrAfterSnapshot_mem h
  | false =>
    left
    simp only [exec, execIsrService] at h
    split at h
    · obtain ⟨p, hp, h⟩ := andThen_next h
      obtain ⟨rfl, -⟩ := regRead_next hp
      simp only [readRule, readIrqstatus, ha, Bool.false_eq_true, if_false] at h
      cases h
      rfl
    · cases h; rfl

-- The step

/-- The next step is the return of a READ_BLOCK to a block of `n` bytes at `base` (44 R276). -/
def State.CopiesBlock (s : State) (base : Word) (n : Nat) : Prop :=
  ∃ k rest l, s.sched = .turn k :: rest ∧ (s.caller k).task = .finish (.block base n) :: l

/-- What no caller performs is the interrupt service or an event. -/
theorem format_of_not_byCaller {i : Instr} (hb : i.byCaller = false) (hi : i ≠ .isrService) : i.format = .evt8 := by
  unfold Instr.byCaller at hb
  split at hb
  · exact absurd rfl hi
  · simpa using hb

/-- All a step can do to the callers' memory: nothing, the byte of a receive, or the copy of a block. -/
theorem step_mem {s t : State} (h : step s = .next t) :
    t.mem = s.mem ∨ (s.isrMoves = true ∧ s.Receives t.mem)
      ∨ ∃ base n, s.CopiesBlock base n ∧ ∃ l : List Byte, l.length ≤ n ∧ t.mem = s.mem.writeBytes base.toNat l := by
  rcases step_cases h with ⟨-, rfl⟩ | ⟨k, rest, hs, h⟩ | ⟨rest, hs, h⟩ | ⟨k, f, bytes, i, after, rest, hs, hd, h⟩
  · exact .inl rfl
  · rcases advance_mem h with e | ⟨base, n, l, hk, hc⟩
    · exact .inl e
    · exact .inr (.inr ⟨base, n, ⟨k, rest, l, hs, hk⟩, hc⟩)
  · exact (isrAdvance_mem h).imp_right fun hr => .inl ⟨by simp [State.isrMoves, hs], hr⟩
  · rcases h with ⟨hb, -, h⟩ | ⟨-, -, rfl⟩ | ⟨hb, hn, h⟩ | ⟨-, rfl⟩
    · have e := (keepsMem_byCaller hb _).mem_eq t h
      exact .inl e
    · exact .inl rfl
    · by_cases hi : i = .isrService
      · subst hi
        exact (isrService_mem h).imp_right fun hr => .inl ⟨by simp [State.isrMoves, hs, hd], hr⟩
      · have e := (keepsMem_event (format_of_not_byCaller hb hi) hn _).mem_eq t h
        exact .inl e
    · exact .inl rfl

-- The store range

/-- Where the interrupt service moves, the range is the byte at the descriptor's index. -/
theorem State.storeRange_of_isrMoves {s : State} (h : s.isrMoves = true) {d : Txn} {base : Word} (hd : s.txn = some d)
    (hb : d.buffer = some (.mem base)) (hi : d.index < d.length) : s.storeRange = (bufAddr base d.index, 1) := by
  unfold State.isrMoves at h
  split at h
  · simp [State.storeRange, *]
  · simp [State.storeRange, *]
  · cases h

theorem State.CopiesBlock.storeRange {s : State} {base : Word} {n : Nat} (h : s.CopiesBlock base n) :
    s.storeRange = (base.toNat, n) := by
  obtain ⟨k, rest, l, hs, hk⟩ := h
  simp [State.storeRange, hs, hk]

/-- Settles O58: by the three cases of `step_mem`, each store lies inside the range, and a step that is neither the
interrupt service's nor the copy has none. -/
theorem memoryFrame : Obligations.MemoryFrame := by
  intro s t h
  rcases step_mem h with e | ⟨hm, d, base, b, hd, hb, hi, e⟩ | ⟨base, n, hc, l, hl, e⟩
  · exact ⟨fun a _ => by rw [e], fun _ _ => e⟩
  · refine ⟨fun a ha => ?_, fun hn => absurd hm (by simp [hn])⟩
    rw [State.storeRange_of_isrMoves hm hd hb hi] at ha
    rw [e, Memory.read_write_other _ (by omega)]
  · refine ⟨fun a ha => ?_, fun _ hn => ?_⟩
    · rw [hc.storeRange] at ha
      rw [e, Memory.read_writeBytes_other _ _ (by omega)]
    · obtain ⟨k, rest, l, hs, hk⟩ := hc
      exact absurd hk (hn k rest base n l hs)

end Sys2Proof.Machine
end

section
/-!
Decoding and encoding (30_encoding R100 to R117): what an encoding decodes to, what bytes that decode are, and the numbers no
table holds.
-/
namespace Sys2Proof

-- Decoding an encoding

section
open Laws.RoundTrip

/-- The round trip of every operation, each by the lemma of its constructor. -/
theorem decode_encode : ∀ i : Instr, Statement i
  | .init .. => init _ _
  | .deinit => deinit
  | .writeBytes .. => writeBytes _ _ _
  | .readBytes .. => readBytes _ _ _
  | .writeRegister .. => writeRegister _ _ _
  | .readRegister .. => readRegister _ _
  | .readBlock .. => readBlock _ _ _ _
  | .clkEnsureEnabled => clkEnsureEnabled
  | .clkIsEnabled => clkIsEnabled
  | .clkDisable => clkDisable
  | .startWrite .. => startWrite _ _ _
  | .startRead .. => startRead _ _ _
  | .isrService => isrService
  | .waitComplete => waitComplete
  | .lockAcquire => lockAcquire
  | .lockRelease => lockRelease
  | .xferLocked .. => xferLocked _ _ _ _
  | .rdIrqstatusRaw => rdIrqstatusRaw
  | .wrIrqstatusRaw _ => wrIrqstatusRaw _
  | .rdIrqstatus => rdIrqstatus
  | .wrIrqstatus _ => wrIrqstatus _
  | .rdIrqenableSet => rdIrqenableSet
  | .wrIrqenableSet _ => wrIrqenableSet _
  | .rdIrqenableClr => rdIrqenableClr
  | .wrIrqenableClr _ => wrIrqenableClr _
  | .rdCnt => rdCnt
  | .wrCnt _ => wrCnt _
  | .rdData => rdData
  | .wrData _ => wrData _
  | .rdCon => rdCon
  | .wrCon _ => wrCon _
  | .rdSa => rdSa
  | .wrSa _ => wrSa _
  | .rdPsc => rdPsc
  | .wrPsc _ => wrPsc _
  | .rdScll => rdScll
  | .wrScll _ => wrScll _
  | .rdSclh => rdSclh
  | .wrSclh _ => wrSclh _
  | .rdClkctrl => rdClkctrl
  | .wrClkctrl _ => wrClkctrl _
  | .conStartTx _ => conStartTx _
  | .conStartRx _ => conStartRx _
  | .conEnable _ => conEnable _
  | .conDisable _ => conDisable _
  | .engStart _ => engStart _
  | .engAddrAck => engAddrAck
  | .engAddrNack => engAddrNack
  | .engTxByteAck => engTxByteAck
  | .engTxByteNack => engTxByteNack
  | .engRxByte => engRxByte
  | .engStopDone => engStopDone
  | .engArbLost => engArbLost
  | .engExtraReady => engExtraReady
  | .engLateArdy => engLateArdy
  | .pmUngate => pmUngate
  | .pmGate => pmGate
  | .pmIdle => pmIdle
  | .xferTimeoutFires => xferTimeoutFires

end

/-- Settles O2: the round trip is proved constructor by constructor. -/
theorem decodeEncode : Obligations.DecodeEncode := by
  intro o i rest h
  exact decode_encode i o h rest

-- What bytes that decode are

/-- What a decoding of the bytes `bs` answers in a format, the bytes `taken` having been taken before: if an operation, then one
of that format, whose encoding is all the bytes taken. -/
def TakesEncoding (o : Options) (f : Format) (taken bs : List Byte) (d : Decoded) : Prop :=
  ∀ i rest, d = .ok (i, rest) → i.format = f ∧ encode o i ++ rest = taken ++ bs

namespace TakesEncoding

variable {o : Options} {f : Format} {taken bs : List Byte}

theorem error (e : DecodeError) : TakesEncoding o f taken bs (.error e) := nofun

theorem ok {i : Instr} (hf : i.format = f) (he : encode o i = taken) : TakesEncoding o f taken bs (.ok (i, bs)) := by
  rintro _ _ ⟨⟩
  exact ⟨hf, by rw [he]⟩

theorem byte {k : Byte → List Byte → Decoded} (hk : ∀ b r, TakesEncoding o f (taken ++ [b]) r (k b r)) :
    TakesEncoding o f taken bs (withByte bs k) := by
  intro i rest h
  obtain ⟨b, r, rfl, hr⟩ := withByte_ok h
  simpa using hk b r i rest hr

theorem word {k : Word → List Byte → Decoded} (hk : ∀ w r, TakesEncoding o f (taken ++ wordBytes w) r (k w r)) :
    TakesEncoding o f taken bs (withWord bs k) := by
  intro i rest h
  obtain ⟨w, r, rfl, hr⟩ := withWord_ok h
  simpa using hk w r i rest hr

theorem dir {k : Dir → List Byte → Decoded} (hk : ∀ d r, TakesEncoding o f (taken ++ [dirByte d]) r (k d r)) :
    TakesEncoding o f taken bs (withDir bs k) := by
  intro i rest h
  obtain ⟨d, r, rfl, hr⟩ := withDir_ok h
  simpa using hk d r i rest hr

theorem buffer {k : Option Word → List Byte → Decoded}
    (hk : ∀ b r, TakesEncoding o f (taken ++ bufferBytes b) r (k b r)) :
    TakesEncoding o f taken bs (withBuffer bs k) := by
  intro i rest h
  obtain ⟨b, r, rfl, hr⟩ := withBuffer_ok h
  simpa using hk b r i rest hr

end TakesEncoding

/-- A byte as its number, on which the tables of CMD8 and EVT8 branch. -/
theorem byte_eq_ofNat (b : Byte) : ∃ n, b.toNat = n ∧ b = BitVec.ofNat 8 n := ⟨_, rfl, by simp⟩

/-- The rows of the command table in order (30 R101): each operand read adds its bytes to those taken. -/
theorem decodeCmd8_takes (o : Options) (bs : List Byte) : TakesEncoding o .cmd8 [] bs (decodeCmd8 bs) := by
  refine .byte fun op r => ?_
  obtain ⟨n, hn, rfl⟩ := byte_eq_ofNat op
  rw [hn]
  clear hn
  split
  · exact .word fun speed r => .word fun line r => .ok rfl (by simp [encode])
  · exact .ok rfl rfl
  · exact .byte fun a r => .buffer fun b r => .word fun n r => .ok rfl (by simp [encode])
  · exact .byte fun a r => .buffer fun b r => .word fun n r => .ok rfl (by simp [encode])
  · exact .byte fun a r => .byte fun g r => .byte fun v r => .ok rfl rfl
  · exact .byte fun a r => .byte fun g r => .ok rfl rfl
  · exact .byte fun a r => .byte fun g r => .buffer fun b r => .word fun n r => .ok rfl (by simp [encode])
  · exact .ok rfl rfl
  · exact .ok rfl rfl
  · exact .ok rfl rfl
  · exact .byte fun a r => .word fun b r => .word fun n r => .ok rfl (by simp [encode])
  · exact .byte fun a r => .word fun b r => .word fun n r => .ok rfl (by simp [encode])
  · exact .ok rfl rfl
  · exact .ok rfl rfl
  · exact .ok rfl rfl
  · exact .ok rfl rfl
  · exact .dir fun d r => .byte fun a r => .word fun b r => .word fun n r => .ok rfl (by simp [encode])
  · exact .error _

/-- Every event is its number alone, but ENG_START, which has a direction after it (30 R107). -/
theorem decodeEvt8_takes (o : Options) (bs : List Byte) : TakesEncoding o .evt8 [] bs (decodeEvt8 bs) := by
  refine .byte fun ev r => ?_
  obtain ⟨n, hn, rfl⟩ := byte_eq_ofNat ev
  rw [hn]
  clear hn
  split
  case h_1 => exact .dir fun d r => .ok rfl rfl
  case h_15 => exact .error _
  all_goals exact .ok rfl rfl

@[simp] theorem format_readInstr (g : Reg) : (readInstr g).format = .regacc := by cases g <;> rfl

@[simp] theorem format_writeInstr (v : Word) (g : Reg) : (writeInstr v g).format = .regacc := by cases g <;> rfl

theorem encode_readInstr (o : Options) (g : Reg) : encode o (readInstr g) = accessBytes o false g := by cases g <;> rfl

theorem encode_writeInstr (o : Options) (v : Word) (g : Reg) :
    encode o (writeInstr v g) = accessBytes o true g ++ wordBytes v := by cases g <;> rfl

/-- A code that names a register is that register's access code (30 R102). -/
theorem decodeRegacc_takes (o : Options) (bs : List Byte) : TakesEncoding o .regacc [] bs (decodeRegacc o bs) := by
  refine .byte fun lo r => .byte fun hi r => ?_
  dsimp only
  split
  · exact .error _
  · rename_i hz
    split
    · exact .error _
    · rename_i g hg
      have hb := accessBytes_of_code o lo hi g (Decidable.not_not.1 hz) hg
      split <;> rename_i hw
      · refine .word fun v r => .ok (format_writeInstr v g) ?_
        rw [encode_writeInstr, ← hw, hb]
        rfl
      · refine .ok (format_readInstr g) ?_
        rw [encode_readInstr, ← eq_false_of_ne_true hw, hb]
        rfl

/-- A control word is of the class its bits name, or a WR_CON (30 R103; log 6). -/
theorem decodeConw_ok {o : Options} {bs rest : List Byte} {i : Instr} (h : decodeConw o bs = .ok (i, rest)) :
    ∃ v, wordBytes v ++ rest = bs ∧ ((i.format = .conw ∧ encode o i = wordBytes v) ∨ i = .wrCon v) := by
  obtain ⟨v, r, rfl, hr⟩ := withWord_ok h
  dsimp only at hr
  -- the four classes, then the word of none
  iterate 4
    split at hr
    · cases hr
      exact ⟨v, rfl, .inl ⟨rfl, rfl⟩⟩
  cases hr
  exact ⟨v, rfl, .inr rfl⟩

/-- Settles O3: format by format, each read of operand bytes undone by the bytes it read. -/
theorem encodeDecode : Obligations.EncodeDecode := by
  intro o f bytes rest i h
  cases f with
  | cmd8 => exact .inl (decodeCmd8_takes o bytes i rest h)
  | regacc => exact .inl (decodeRegacc_takes o bytes i rest h)
  | evt8 => exact .inl (decodeEvt8_takes o bytes i rest h)
  | conw =>
    obtain ⟨v, rfl, ⟨hf, he⟩ | rfl⟩ := decodeConw_ok h
    · exact .inl ⟨hf, by rw [he]⟩
    · exact .inr ⟨rfl, v, rfl, rfl⟩

/-- Settles O1: the seventeen words, decoded with the default parameters. -/
theorem vectorsDecode : Obligations.VectorsDecode := by
  rintro o rfl
  exact ⟨rfl, rfl, rfl, rfl, rfl, rfl, rfl, rfl, rfl, rfl, rfl, rfl, rfl, rfl, rfl, rfl, rfl⟩

-- Numbers in no table

theorem decode_cmd8_reserved (o : Options) {op : Byte} (rest : List Byte)
    (h : op.toNat ∉ [0x00, 0x01, 0x02, 0x03, 0x04, 0x05, 0x06, 0x08, 0x09, 0x0A, 0x0C, 0x0D, 0x0E, 0x0F, 0x10, 0x11, 0x12]) :
    decode o .cmd8 (op :: rest) = .error .reservedCommand := by
  simp only [decode, decodeCmd8, withByte_cons]
  generalize op.toNat = n at *
  split
  case h_18 => rfl
  all_goals exact absurd (by decide) h

theorem decode_evt8_reserved (o : Options) {ev : Byte} (rest : List Byte)
    (h : ev.toNat ∉ [0x20, 0x21, 0x22, 0x23, 0x24, 0x25, 0x26, 0x27, 0x28, 0x29, 0x30, 0x31, 0x32, 0x38]) :
    decode o .evt8 (ev :: rest) = .error .reservedEvent := by
  simp only [decode, decodeEvt8, withByte_cons]
  generalize ev.toNat = n at *
  split
  case h_15 => rfl
  all_goals exact absurd (by decide) h

theorem decode_regacc_reserved (o : Options) (lo : Byte) {hi : Byte} (rest : List Byte) (h : hi.extractLsb' 4 2 ≠ 0) :
    decode o .regacc (lo :: hi :: rest) = .error .reservedAccessCode := by
  have e : (hi ++ lo : BitVec 16).extractLsb' 12 2 = hi.extractLsb' 4 2 :=
    BitVec.extractLsb'_append_eq_of_le (by decide)
  exact if_pos (e ▸ h)

/-- No register of the block the code names has its offset (40 R156). -/
theorem decode_regacc_undocumented (o : Options) {acc : BitVec 16} (rest : List Byte) (hz : acc.extractLsb' 12 2 = 0)
    (h : ∀ r : Reg, acc.extractLsb' 0 12 = r.offset o → acc.getLsbD 14 ≠ (r.block == .clk)) :
    decode o .regacc (acc.extractLsb' 0 8 :: acc.extractLsb' 8 8 :: rest)
      = .error (.undocumentedOffset (if acc.getLsbD 14 then .clk else .i2c)) := by
  have hn : Reg.ofOffset o (if acc.getLsbD 14 then .clk else .i2c) (acc.extractLsb' 0 12) = none := by
    refine ofOffset_none.2 fun r hb ho => h r ho.symm ?_
    rw [hb]
    cases acc.getLsbD 14 <;> rfl
  rw [decode, decodeRegacc_code, if_neg (Decidable.not_not.2 hz), hn]

end Sys2Proof
end

section
/-!
The step on what the schedule offers (30_encoding R117; 60 R343), and the control words written to CON (30 R103).
-/
namespace Sys2Proof.Machine

-- One entry of the schedule

theorem step_nil {s : State} (h : s.sched = []) : step s = .next s := by rw [step, h]

theorem step_cons {s : State} {x : Slot} {rest : List Slot} (h : s.sched = x :: rest) :
    step s = runSlot x { s with sched := rest } := by rw [step, h]

section
variable {s : State} {id : Nat} {f : Format} {bytes after : List Byte} {rest : List Slot}

theorem step_op (hs : s.sched = .op id f bytes :: rest) : step s = issue id f bytes { s with sched := rest } :=
  step_cons hs

theorem step_op_ok {i : Instr} (hs : s.sched = .op id f bytes :: rest) (h : decode s.opts f bytes = .ok (i, after)) :
    step s = performOp id i { s with sched := rest } := by rw [step_op hs, issue, h]

theorem step_op_undocumented {blk : Block} (hs : s.sched = .op id f bytes :: rest)
    (h : decode s.opts f bytes = .error (.undocumentedOffset blk)) :
    step s = accessUndocumented blk { s with sched := rest } := by rw [step_op hs, issue, h]

theorem step_op_error {e : DecodeError} (hs : s.sched = .op id f bytes :: rest) (h : decode s.opts f bytes = .error e)
    (he : ∀ blk, e ≠ .undocumentedOffset blk) : step s = .refused (.noSuchOperation e) := by
  rw [step_op hs, issue, h]
  cases e with
  | undocumentedOffset blk => exact absurd rfl (he blk)
  | _ => rfl

end

/-- Settles O4: the bytes decode to the error their number or offset earns, and the step refuses what `issue` makes of it. -/
theorem reservedNumbersRefused : Obligations.ReservedNumbersRefused := by
  intro s id op rest slots
  refine ⟨fun h => ?_, fun h => ?_, fun hi h => ?_, fun acc hz h => ?_⟩
  · exact step_op_error rfl (decode_cmd8_reserved s.opts rest h) fun _ => nofun
  · exact step_op_error rfl (decode_evt8_reserved s.opts rest h) fun _ => nofun
  · exact step_op_error rfl (decode_regacc_reserved s.opts op rest h) fun _ => nofun
  · refine Eq.trans (step_op_undocumented rfl (decode_regacc_undocumented s.opts rest hz h)) ?_
    cases acc.getLsbD 14
    · cases hm : s.ctl.i2cMapped <;> simp [accessUndocumented, hm]
    · cases hm : s.ctl.clkMapped <;> simp [accessUndocumented, hm]

-- Who performs an operation

theorem performOp_caller {i : Instr} (hb : i.byCaller = true) {s : State} {id : Nat} (h : (s.caller id).task = []) :
    performOp id i s = exec i { s with actor := id } := by
  simp [performOp, hb, State.idleCaller, h]

theorem performOp_busy {i : Instr} (hb : i.byCaller = true) {s : State} {id : Nat} (h : (s.caller id).task ≠ []) :
    performOp id i s = .next s := by
  simp [performOp, hb, State.idleCaller, h]

theorem performOp_engStart (id : Nat) (d : Dir) (s : State) : performOp id (.engStart d) s = .next s := rfl

theorem performOp_own {i : Instr} (hb : i.byCaller = false) (hi : ∀ d, i ≠ .engStart d) (id : Nat) (s : State) :
    performOp id i s = exec i s := by
  have ho : Instr.ownStep i = true := by
    cases i with
    | engStart d => exact absurd rfl (hi d)
    | _ => rfl
  simp [performOp, hb, ho]

theorem advance_nil {s : State} (h : s.self.task = []) : advance s = .next s := by rw [advance, h]

theorem isrAdvance_nil {s : State} (h : s.isr = []) : isrAdvance s = .next s := by rw [isrAdvance, h]

theorem isrAdvance_cons {s : State} {a : IsrAct} {l : List IsrAct} (h : s.isr = a :: l) :
    isrAdvance s = andThen (isrLine a s) fun p => .next { p.2 with isr := p.1 ++ l } := by rw [isrAdvance, h]

/-- Settles O5: `step_cons` takes the entry off, and the entry's own lemma says what it performs. -/
theorem stepRunsDecoded : Obligations.StepRunsDecoded := by
  intro s rest
  refine ⟨fun id f bytes i after hs hd => ?_, fun id hs => ?_, fun a l hs h => ?_, fun hs h => ?_, step_nil⟩
  · have e : step s = performOp id i { s with sched := rest } := step_op_ok hs hd
    refine ⟨fun hb h => e.trans (performOp_caller hb h), fun hb h => e.trans (performOp_busy hb h),
      fun hb hi => e.trans (performOp_own hb hi id _), ?_⟩
    rintro d rfl
    exact e
  · exact ⟨fun h => (step_cons hs).trans (advance_nil h), fun a l h => (step_cons hs).trans (advance_cons h)⟩
  · exact (step_cons hs).trans (isrAdvance_cons h)
  · exact (step_cons hs).trans (isrAdvance_nil h)

-- The control words

/-- A START writes EN, MST and the direction, and starts the engine (40 R144, 42 R193). -/
theorem writeControl_start {s : State} {n : Word} {a : BitVec 10} (d : Dir) (hc : s.cnt = some n) (hn : n ≠ 0)
    (hs : s.sa = some a) (ha : a.toNat ≤ 0x7F) :
    writeControl (.start d) s = .next { s with
      con := { en := true, mst := true, trx := d == .tx }
      eng := .started d n.toNat (a.setWidth 7) } := by
  have hn : n ≠ 0#32 := hn
  have hd : (if d = .tx then Dir.tx else .rx) = d := by cases d <;> rfl
  simp [writeControl, ControlBits.start, startEngine, Con.stored, hc, hn, hs, hd, Nat.not_lt.2 ha]

theorem writeControl_enable (s : State) :
    writeControl .enable s = .next { s with con := { en := true, mst := false, trx := false } } := rfl

theorem writeControl_disable {c : ControlBits} (h : c.en = false) (s : State) :
    writeControl c s = .next { s with con := Con.stored c, eng := s.eng.disabled } := if_pos h

/-- A caller's write to CON in an open block does what `writeControl` does with the word's bits. -/
theorem callerWrite_con {s t : State} {v : Word} (ho : s.i2cOpen = true)
    (h : writeControl (.ofWord s.opts.bits v) s = .next t) : callerWrite .con v s = .next (t.ret .unit) := by
  rw [callerWrite_open ho rfl]
  show andThen (writeControl (.ofWord s.opts.bits v) s) _ = _
  rw [h]
  rfl

/-- Settles O14: a well-formed control word has the bits its mnemonic names, and `writeControl` of each is known. -/
theorem controlWords : Obligations.ControlWords := by
  intro s v ho
  refine ⟨fun n a hc hn hs ha => ⟨fun h => callerWrite_con ho ?_, fun h => callerWrite_con ho ?_⟩,
    fun h => callerWrite_con ho ?_, fun h => callerWrite_con ho ?_⟩
  · rw [beq_iff_eq.1 h]; exact writeControl_start .tx hc hn hs ha
  · rw [beq_iff_eq.1 h]; exact writeControl_start .rx hc hn hs ha
  · rw [beq_iff_eq.1 h]; exact writeControl_enable s
  · have he : (ControlBits.ofWord s.opts.bits v).en = false := by simpa [Instr.wf] using h
    rw [writeControl_disable he, Con.stored, he]
    rfl

end Sys2Proof.Machine
end

section
/-!
The register interface (40_register_interface R130 to R155): the prologue, what each register reads and what a write to it
does, and the frame of an access.
-/
namespace Sys2Proof.Machine

-- The prologue

theorem access_unmapped {r : Reg} {s : State} (h : s.mapped r.block = false) : access r s = .refused .unmapped := by
  simp [access, h]

theorem access_gated {r : Reg} {s : State} (hb : r.block = .i2c) (hm : s.ctl.i2cMapped = true) (hi : s.idlest ≠ 0) :
    access r s = .fault (.busFault .i2c (r.offset s.opts)) := by
  have hi : ¬s.idlest = 0#2 := hi
  simp [access, raiseBusFault, hb, hm, hi]

/-- An access that the prologue refuses is refused, whatever the register. -/
theorem access_refused {r : Reg} {s : State} {e : Refusal} (h : access r s = .refused e) (v : Word) :
    exec (readInstr r) s = .refused e ∧ exec (writeInstr v r) s = .refused e := by
  rw [exec_readInstr, exec_writeInstr, callerRead, callerWrite, regRead, regWrite_access, h]
  exact ⟨rfl, rfl⟩

/-- An access that faults in the prologue faults, whatever the register. -/
theorem access_faulted {r : Reg} {s : State} {e : Fault} (h : access r s = .fault e) (v : Word) :
    exec (readInstr r) s = .fault e ∧ exec (writeInstr v r) s = .fault e := by
  rw [exec_readInstr, exec_writeInstr, callerRead, callerWrite, regRead, regWrite_access, h]
  exact ⟨rfl, rfl⟩

/-- A write faults only in the prologue (60 R328). -/
theorem callerWrite_fault {r : Reg} {v : Word} {s : State} {f : Fault} (h : callerWrite r v s = .fault f) :
    r.block = .i2c := by
  rcases andThen_fault h with h | ⟨_, -, h⟩
  · exact (regWrite_fault h).1
  · cases h

theorem callerRead_clk {s : State} (h : s.ctl.clkMapped = true) :
    callerRead .clkctrl s = .next (s.ret (.word s.clkctrl)) := by
  rw [callerRead, regRead_clk h]
  rfl

/-- The clock block holds CLKCTRL alone (10_state R31). -/
theorem eq_clkctrl_of_block {r : Reg} (h : r.block = .clk) : r = .clkctrl := by
  cases r with
  | clkctrl => rfl
  | _ => cases h

/-- Settles O6: the first three parts are the prologue's own stops, and CLKCTRL needs no clock. -/
theorem accessPrologue : Obligations.AccessPrologue := by
  intro s r v
  refine ⟨fun hb hm => ?_, fun hb hm => ?_, fun hb hm hi => ?_, fun hb hm => ?_⟩
  · exact access_refused (access_unmapped (by rw [hb]; exact hm)) v
  · exact access_refused (access_unmapped (by rw [hb]; exact hm)) v
  · exact access_faulted (access_gated hb hm hi) v
  · obtain rfl := eq_clkctrl_of_block hb
    exact ⟨⟨_, callerRead_clk hm⟩, fun f hf => nomatch callerWrite_fault hf⟩

-- An access in an open block does what the register's rule does

section
variable {s u : State} {r : Reg} {v : Word}

theorem callerRead_of_rule {w : Word} (ho : s.i2cOpen = true) (hr : r.block = .i2c) (h : readRule r s = (w, u)) :
    callerRead r s = .next (u.ret (.word w)) := by
  rw [callerRead_open ho hr, h]

theorem callerWrite_of_rule (ho : s.i2cOpen = true) (hr : r.block = .i2c) (h : writeRule r v s = .next u) :
    callerWrite r v s = .next (u.ret .unit) := by
  rw [callerWrite_open ho hr, h]
  rfl

theorem callerWrite_of_refused {e : Refusal} (ho : s.i2cOpen = true) (hr : r.block = .i2c)
    (h : writeRule r v s = .refused e) : callerWrite r v s = .refused e := by
  rw [callerWrite_open ho hr, h]
  rfl

end

/-- Settles O7: the register's rule is a refusal. -/
theorem rawStatusWriteRefused : Obligations.RawStatusWriteRefused := fun _ _ ho => callerWrite_of_refused ho rfl rfl

-- Status and enables

/-- A status bit and the position of that bit in a STATW word. -/
theorem statw_getLsbD {m : BitMap} {v : Word} {x : Nat × Fin 32}
    (hx : x ∈ [(0, m.al), (1, m.nack), (2, m.ardy), (3, m.rrdy), (4, m.xrdy)]) :
    x.1 < 5 ∧ (statw m v).getLsbD x.1 = v.getLsbD x.2 := by
  obtain ⟨h0, h1, h2, h3, h4⟩ := statw_bits m v
  simp only [List.mem_cons, List.not_mem_nil, or_false] at hx
  rcases hx with rfl | rfl | rfl | rfl | rfl
  · exact ⟨by simp, h0⟩
  · exact ⟨by simp, h1⟩
  · exact ⟨by simp, h2⟩
  · exact ⟨by simp, h3⟩
  · exact ⟨by simp, h4⟩

/-- Settles O8: each read gives the word of its latch, and the writes combine IE with the STATW word bit by bit. -/
theorem statusAndEnables : Obligations.StatusAndEnables := by
  intro s v ho
  refine ⟨⟨_, callerRead_open ho rfl, statWord_isStatWord _ _⟩, ⟨_, callerRead_open ho rfl, statWord_isStatWord _ _⟩,
    ⟨_, callerRead_open ho rfl, callerRead_open ho rfl, statWord_isStatWord _ _⟩,
    _, _, callerWrite_of_rule ho rfl rfl, callerWrite_of_rule ho rfl rfl, fun x hx => ?_⟩
  obtain ⟨hlt, hbit⟩ := statw_getLsbD (v := v) hx
  simp only [BitVec.getLsbD_or, BitVec.getLsbD_and, BitVec.getLsbD_not, hlt, hbit, decide_true, Bool.true_and, and_self]

-- The acknowledgement

/-- The level conditions stand at the two ready bits, the other three have none (42 R205). -/
theorem levels_bits (e : Engine) :
    (levels e).getLsbD 0 = false ∧ (levels e).getLsbD 1 = false ∧ (levels e).getLsbD 2 = false
      ∧ (levels e).getLsbD 3 = condRrdy e ∧ (levels e).getLsbD 4 = condXrdy e := by
  unfold levels
  generalize condRrdy e = a, condXrdy e = b
  revert a b
  decide

/-- An acknowledgement of AL, NACK or ARDY closes the window and changes nothing else in the engine (40 R134). -/
theorem ackWindow_eq (v : Status) (e : Engine) :
    ackWindow v e
      = { e with window := e.window && !v.getLsbD 0 && !v.getLsbD 1 && !v.getLsbD 2 } := by
  have hclose : ∀ (v : Status) (w : Bool),
      (w && !v.getLsbD 0 && !v.getLsbD 1 && !v.getLsbD 2) = if v &&& 0x07 ≠ 0 then false else w := by decide
  rw [hclose, ackWindow]
  split <;> rfl

/-- A bit written as 1 takes its level condition, a bit written as 0 stays (40 R134). -/
theorem ackStatus_raw_getLsbD (v : Status) (s : State) {k : Nat} (hk : k < 5) :
    (ackStatus v s).raw.getLsbD k
      = if v.getLsbD k then (levels (ackWindow v s.eng)).getLsbD k else s.raw.getLsbD k := by
  simp only [ackStatus, BitVec.getLsbD_or, BitVec.getLsbD_and, BitVec.getLsbD_not, hk, decide_true, Bool.true_and]
  cases v.getLsbD k <;> simp

/-- Settles O9: `ackWindow_eq` gives the window, `ackStatus_raw_getLsbD` with `levels_bits` the latch bit by bit. -/
theorem statusAcknowledge : Obligations.StatusAcknowledge := by
  rintro s v b ho rfl
  have hraw := fun k hk => ackStatus_raw_getLsbD (statw s.opts.bits v) s (k := k) hk
  obtain ⟨hal, hnack, hardy, hrrdy, hxrdy⟩ := statw_bits s.opts.bits v
  obtain ⟨l0, l1, l2, l3, l4⟩ := levels_bits (ackWindow (statw s.opts.bits v) s.eng)
  have heng := ackWindow_eq (statw s.opts.bits v) s.eng
  rw [hal, hnack, hardy] at heng
  refine ⟨(ackStatus (statw s.opts.bits v) s).raw, _, callerWrite_of_rule ho rfl ?_, rfl, ?_, ?_, ?_, ?_, ?_⟩
  · rw [← heng]
    rfl
  · rw [hraw 0 (by decide), l0, hal]
    cases v.getLsbD s.opts.bits.al <;> simp
  · rw [hraw 1 (by decide), l1, hnack]
    cases v.getLsbD s.opts.bits.nack <;> simp
  · rw [hraw 2 (by decide), l2, hardy]
    cases v.getLsbD s.opts.bits.ardy <;> simp
  · rw [hraw 3 (by decide), l3, hrrdy, heng]
    rfl
  · rw [hraw 4 (by decide), l4, hxrdy, heng]
    rfl

-- Count, address and timing

theorem readCnt_idle {s : State} {n : Word} (hi : s.eng.st = .idle) (hc : s.cnt = some n) : readCnt s = (n, s) := by
  simp [readCnt, hi, hc]

theorem readCnt_draw {s : State} (h : s.eng.st ≠ .idle ∨ s.cnt = none) :
    readCnt s = ((s.draw s.opts.cntW).setWidth 32, s.tick) := by
  unfold readCnt
  split
  · rename_i hi hc
    rcases h with h | h
    · exact absurd hi h
    · exact absurd (hc.symm.trans h) nofun
  · rfl

theorem readStored_some {w : Nat} {s : State} {r : Option (BitVec w)} {x : BitVec w} (h : r = some x) :
    readStored s r = (x.setWidth 32, s) := by rw [h]; rfl

theorem readStored_none {w : Nat} {s : State} {r : Option (BitVec w)} (h : r = none) :
    readStored s r = ((s.draw w).setWidth 32, s.tick) := by rw [h]; rfl

theorem timingWrite_disabled {s : State} (h : s.con.en = false) (t : State) : timingWrite s t = .next t := by
  simp [timingWrite, h]

theorem timingWrite_enabled {s : State} (h : s.con.en = true) (t : State) :
    timingWrite s t = .refused .timingWriteWhileEnabled := by
  simp [timingWrite, h]

/-- Settles O10: the stored count is `lowBits`, and each read is its register's rule with a value or without one. -/
theorem countAndAddress : Obligations.CountAndAddress := by
  intro s v ho
  exact ⟨⟨_, callerWrite_of_rule ho rfl rfl, lowBits_toNat s.opts.count.inWord v⟩, callerWrite_of_rule ho rfl rfl,
    fun _ hi hc => callerRead_of_rule ho rfl (readCnt_idle hi hc),
    fun h => ⟨_, callerRead_of_rule ho rfl (readCnt_draw h)⟩,
    fun _ h => callerRead_of_rule ho rfl (readStored_some h),
    fun h => ⟨_, callerRead_of_rule ho rfl (readStored_none h)⟩⟩

/-- Settles O11: the three registers have one write check and one read rule. -/
theorem timingRegisters : Obligations.TimingRegisters := by
  intro s v ho
  exact ⟨fun h => ⟨callerWrite_of_rule ho rfl (timingWrite_disabled h _),
      callerWrite_of_rule ho rfl (timingWrite_disabled h _), callerWrite_of_rule ho rfl (timingWrite_disabled h _)⟩,
    fun h => ⟨callerWrite_of_refused ho rfl (timingWrite_enabled h _),
      callerWrite_of_refused ho rfl (timingWrite_enabled h _), callerWrite_of_refused ho rfl (timingWrite_enabled h _)⟩,
    fun _ h => callerRead_of_rule ho rfl (readStored_some h),
    fun _ h => callerRead_of_rule ho rfl (readStored_some h),
    fun _ h => callerRead_of_rule ho rfl (readStored_some h),
    fun h => ⟨_, callerRead_of_rule ho rfl (readStored_none h)⟩,
    fun h => ⟨_, callerRead_of_rule ho rfl (readStored_none h)⟩,
    fun h => ⟨_, callerRead_of_rule ho rfl (readStored_none h)⟩⟩

-- DATA

section
variable {s : State} (v : Word)

theorem writeData_txWait (h : s.eng.st = .txWait) :
    writeData v s = .next { s with
      eng := { s.eng with hold := some (dataByte v), loaded := s.eng.loaded + 1, st := .txShift } } := if_pos h

theorem writeData_idle (h : s.eng.st = .idle) : writeData v s = .next s := by
  simp [writeData, h]

theorem writeData_past_end (hw : s.eng.st ≠ .txWait) (hi : s.eng.st ≠ .idle) (hd : s.eng.dir = .tx)
    (hl : s.eng.cnt ≤ s.eng.loaded) : writeData v s = .next s := by
  rw [writeData, if_neg hw, if_neg hi, if_pos ⟨hd, hl⟩]

theorem writeData_unexpected (hw : s.eng.st ≠ .txWait) (hi : s.eng.st ≠ .idle)
    (h : s.eng.dir = .rx ∨ s.eng.loaded < s.eng.cnt) : writeData v s = .refused .dataWriteUnexpected := by
  have hn : ¬(s.eng.dir = .tx ∧ s.eng.cnt ≤ s.eng.loaded) := by
    rintro ⟨hd, hl⟩
    rcases h with h | h
    · exact absurd (hd.symm.trans h) nofun
    · exact absurd hl (Nat.not_le.2 h)
  rw [writeData, if_neg hw, if_neg hi, if_neg hn]

end

theorem readData_held {s : State} {b : Byte} (hb : s.eng.hold = some b) (hd : s.eng.dir = .rx)
    (h : s.eng.st ≠ .idle ∨ s.eng.window = true) :
    readData s = (dataWord b,
      { s with
        eng :=
          { s.eng with
            hold := none
            loaded := s.eng.loaded + 1
            st := if s.eng.st = .rxWait then .rxShift else s.eng.st } }) := by
  rw [readData, hb]
  exact if_pos ⟨h, hd⟩

theorem readData_draw {s : State}
    (h : s.eng.hold = none ∨ s.eng.dir = .tx ∨ (s.eng.st = .idle ∧ s.eng.window = false)) :
    readData s = (dataWord (s.draw 8), s.tick) := by
  unfold readData
  split
  · rename_i b hb
    refine if_neg ?_
    rintro ⟨hflight, hrx⟩
    rcases h with h | h | ⟨hi, hw⟩
    · exact absurd (hb.symm.trans h) nofun
    · exact absurd (hrx.symm.trans h) nofun
    · simp [hi, hw] at hflight
  · rfl

/-- Settles O12: one lemma for each arm of the two rules. -/
theorem dataRegister : Obligations.DataRegister := by
  intro s v ho
  exact ⟨fun h => callerWrite_of_rule ho rfl (writeData_txWait v h),
    fun h => callerWrite_of_rule ho rfl (writeData_idle v h),
    fun hw hi hd hl => callerWrite_of_rule ho rfl (writeData_past_end v hw hi hd hl),
    fun hw hi h => callerWrite_of_refused ho rfl (writeData_unexpected v hw hi h),
    fun _ hb hd h => callerRead_of_rule ho rfl (readData_held hb hd h),
    fun h => ⟨_, callerRead_of_rule ho rfl (readData_draw h)⟩⟩

-- CON

section
variable {s : State} {c : ControlBits}

theorem writeControl_store (he : c.en = true) (ht : c.stt = false) :
    writeControl c s = .next { s with con := Con.stored c } := by
  simp [writeControl, he, ht]

theorem writeControl_otherForm (he : c.en = true) (ht : c.stt = true) (h : c.mst = false ∨ c.stp = false) :
    writeControl c s = .refused .startFormNotInSource := by
  simp [writeControl, he, ht, h]

theorem writeControl_zeroCount (d : Dir) (h : s.cnt = none ∨ s.cnt = some 0#32) :
    writeControl (.start d) s = .refused .zeroCount := by
  rcases h with h | h <;> simp [writeControl, ControlBits.start, h]

theorem writeControl_badAddress {n : Word} (d : Dir) (hc : s.cnt = some n) (hn : n ≠ 0#32)
    (ha : ∀ a, s.sa = some a → 0x7F < a.toNat) : writeControl (.start d) s = .refused .addressOutOfRange := by
  have hsa : s.sa.all (fun a => 0x7F < a.toNat) = true := by
    cases hs : s.sa with
    | none => rfl
    | some a => exact decide_eq_true (ha a hs)
  simp [writeControl, ControlBits.start, hc, hn, hsa]

/-- Where EN, MST, STP and STT are 1 the word is a START, TRX its direction (30 R103). -/
theorem controlBits_eq_start (he : c.en = true) (hm : c.mst = true) (hp : c.stp = true) (ht : c.stt = true) :
    c = .start (if c.trx then .tx else .rx) := by
  obtain ⟨en, mst, trx, stp, stt⟩ := c
  obtain ⟨rfl, rfl, rfl, rfl⟩ : en = true ∧ mst = true ∧ stp = true ∧ stt = true := ⟨he, hm, hp, ht⟩
  cases trx <;> rfl

end

/-- A caller's write to CON in an open block is refused as `writeControl` refuses the word's bits. -/
theorem callerWrite_con_refused {s : State} {v : Word} {e : Refusal} (ho : s.i2cOpen = true)
    (h : writeControl (.ofWord s.opts.bits v) s = .refused e) : callerWrite .con v s = .refused e :=
  callerWrite_of_refused ho rfl h

/-- Settles O13: the clauses are the branches of `writeControl`; the START form is `ControlBits.start` of its TRX bit. -/
theorem controlRegister : Obligations.ControlRegister := by
  rintro s v b ho rfl
  refine ⟨⟨_, callerRead_open ho rfl, conWord_isConWord _ _⟩, fun he => callerWrite_con ho ?_,
    fun he ht => callerWrite_con ho ?_, fun he ht => ⟨fun h => ?_, fun hm hp => ?_⟩⟩
  · rw [writeControl_disable he, Con.stored, ControlBits.ofWord, he]
    rfl
  · rw [writeControl_store he ht, Con.stored, ControlBits.ofWord, he]
  · exact callerWrite_con_refused ho (writeControl_otherForm he ht h)
  · have hc : ControlBits.ofWord s.opts.bits v = .start (if v.getLsbD s.opts.bits.trx then .tx else .rx) :=
      controlBits_eq_start he hm hp ht
    refine ⟨fun h => callerWrite_con_refused ho ?_, fun n hcnt hn => ⟨fun h => callerWrite_con_refused ho ?_,
      fun a hsa => ⟨fun ha => callerWrite_con_refused ho ?_, fun ha => callerWrite_con ho ?_⟩⟩⟩
    · rw [hc, writeControl_zeroCount _ h]
    · rw [hc, writeControl_badAddress _ hcnt hn (by simp [h])]
    · rw [hc, writeControl_badAddress _ hcnt hn (by simpa [hsa] using ha)]
    · rw [hc, writeControl_start _ hcnt hn hsa ha]
      cases v.getLsbD s.opts.bits.trx <;> rfl

-- CLKCTRL

theorem writeClkctrl_store {s : State} {v : Word} {x : BitVec 2} (hv : fieldOf s.opts.bits.modulemode v = x)
    (h : x = 0 ∨ x = 2) : writeClkctrl v s = .next { s with modulemode := x } := by
  rcases h with rfl | rfl <;> simp [writeClkctrl, hv]

theorem writeClkctrl_reserved {s : State} {v : Word} {x : BitVec 2} (hv : fieldOf s.opts.bits.modulemode v = x)
    (h : x = 1 ∨ x = 3) : writeClkctrl v s = .refused .reservedModulemode := by
  rw [← hv] at h
  exact if_pos h

/-- Settles O15: `fieldOf_eq` reads the two bits of the field, on which `writeClkctrl` decides. -/
theorem clockControlRegister : Obligations.ClockControlRegister := by
  intro s v hm
  refine ⟨⟨_, callerRead_clk hm, clkctrl_isClkWord s⟩, fun x h0 h1 => ⟨fun h => ?_, fun h => ?_⟩⟩
  · refine Eq.trans (callerWrite_clk hm v) ?_
    rw [writeClkctrl_store (fieldOf_eq h0 h1) h]
    rfl
  · refine Eq.trans (callerWrite_clk hm v) ?_
    rw [writeClkctrl_reserved (fieldOf_eq h0 h1) h]
    rfl

-- The frame of an access

/-- A read that answers is the register's rule, its word the caller's result. -/
theorem callerRead_next {r : Reg} {s t : State} (h : callerRead r s = .next t) :
    t = (readRule r s).2.ret (.word (readRule r s).1) := by
  obtain ⟨p, hp, ht⟩ := andThen_next h
  obtain ⟨rfl, -⟩ := regRead_next hp
  cases ht
  rfl

/-- A write that answers is the register's rule, the caller's result no value. -/
theorem callerWrite_next {r : Reg} {v : Word} {s t : State} (h : callerWrite r v s = .next t) :
    ∃ u, writeRule r v s = .next u ∧ t = u.ret .unit := by
  obtain ⟨u, hu, ht⟩ := andThen_next h
  cases ht
  exact ⟨u, (regWrite_next hu).1, rfl⟩

/-- A read rule changes the counter of draws and, for DATA, the engine. -/
theorem readRule_frame (r : Reg) (s : State) :
    (∃ e d, (readRule r s).2 = { s with eng := e, draws := d }) ∧ (r ≠ .data → (readRule r s).2.eng = s.eng) := by
  rcases readRule_cases r s with h | h | ⟨hr, -, -, -, h⟩ <;> rw [h]
  · exact ⟨⟨_, _, rfl⟩, fun _ => rfl⟩
  · exact ⟨⟨_, _, rfl⟩, fun _ => rfl⟩
  · exact ⟨⟨_, _, rfl⟩, fun hn => absurd hr hn⟩

/-- The fields that hold the registers, and the engine, are all a write rule can change. -/
theorem writeRule_fields {r : Reg} {v : Word} {s t : State} (h : writeRule r v s = .next t) :
    ∃ w e i n o a p l h m, t = { s with
      raw := w, eng := e, ie := i, cnt := n, con := o, sa := a, psc := p, scll := l, sclh := h, modulemode := m } := by
  rcases writeRule_cases h with ⟨-, rfl⟩ | ⟨-, rfl⟩ | ⟨-, rfl⟩ | ⟨-, rfl⟩ | ⟨-, -, rfl⟩ | ⟨-, rfl⟩ | ⟨-, rfl⟩ | ⟨-, rfl⟩
    | ⟨-, ⟨_, _, _, -, -, rfl⟩⟩ | ⟨-, rfl⟩ | ⟨-, rfl⟩ | ⟨-, rfl⟩ | ⟨-, rfl⟩ | ⟨-, -, rfl⟩
  all_goals exact ⟨_, _, _, _, _, _, _, _, _, _, rfl⟩

/-- Each field that holds a register is changed only by a write to that register, the engine only by IRQSTATUS, CON and DATA. -/
theorem writeRule_other {r : Reg} {v : Word} {s t : State} (h : writeRule r v s = .next t) :
    (r ≠ .irqstatus → t.raw = s.raw)
      ∧ (r ≠ .irqstatus → r ≠ .con → r ≠ .data → t.eng = s.eng)
      ∧ (r ≠ .irqenableSet → r ≠ .irqenableClr → t.ie = s.ie)
      ∧ (r ≠ .cnt → t.cnt = s.cnt) ∧ (r ≠ .con → t.con = s.con) ∧ (r ≠ .sa → t.sa = s.sa)
      ∧ (r ≠ .psc → t.psc = s.psc) ∧ (r ≠ .scll → t.scll = s.scll) ∧ (r ≠ .sclh → t.sclh = s.sclh)
      ∧ (r ≠ .clkctrl → t.modulemode = s.modulemode) := by
  rcases writeRule_cases h with ⟨rfl, rfl⟩ | ⟨rfl, rfl⟩ | ⟨rfl, rfl⟩ | ⟨rfl, rfl⟩ | ⟨rfl, -, rfl⟩ | ⟨rfl, rfl⟩
    | ⟨rfl, rfl⟩ | ⟨rfl, rfl⟩ | ⟨rfl, ⟨_, _, _, -, -, rfl⟩⟩ | ⟨rfl, rfl⟩ | ⟨rfl, rfl⟩ | ⟨rfl, rfl⟩ | ⟨rfl, rfl⟩
    | ⟨rfl, -, rfl⟩
  all_goals simp

/-- Returning a result, after an access that left the callers and memory alone, changes this caller's result only. -/
theorem ret_frame {s u : State} (hc : u.callers = s.callers) (ha : u.actor = s.actor) (hm : u.mem = s.mem) (x : Result) :
    (∀ k, k ≠ s.actor → (u.ret x).caller k = s.caller k)
      ∧ (sparseWf Caller.fresh s.callers → ∃ y, (u.ret x).self = { s.self with result := y })
      ∧ ∀ a, (u.ret x).mem.read a = s.mem.read a := by
  have hcaller : ∀ k, u.caller k = s.caller k := fun k => by rw [State.caller, hc, State.caller]
  refine ⟨fun k hk => ?_, fun hw => ⟨x, ?_⟩, fun a => by rw [State.ret_mem, hm]⟩
  · rw [State.caller_ret_other u (ha ▸ hk), hcaller]
  · have hwu : u.CallersWf := by rwa [State.CallersWf, hc]
    rw [State.self_ret hwu, State.self, State.self, hcaller, ha]

/-- Settles O16: the register's rule changes what `readRule_frame` or `writeRule_fields` and `writeRule_other` say, and the
return of the result what `ret_frame` says. -/
theorem registerAccessFrame : Obligations.RegisterAccessFrame := by
  intro s t r v
  rw [exec_readInstr, exec_writeInstr]
  refine ⟨fun h => ?_, fun h => ?_⟩
  · obtain rfl := callerRead_next h
    obtain ⟨⟨e, d, hu⟩, heng⟩ := readRule_frame r s
    refine ⟨?_, heng, ret_frame (by rw [hu]) (by rw [hu]) (by rw [hu]) _⟩
    rw [hu]
    exact ⟨e, d, _, rfl⟩
  · obtain ⟨u, hu, rfl⟩ := callerWrite_next h
    obtain ⟨hraw, heng, hie, hcnt, hcon, hsa, hpsc, hscll, hsclh, hmode⟩ := writeRule_other hu
    obtain ⟨raw, eng, ie, cnt, con, sa, psc, scll, sclh, mode, rfl⟩ := writeRule_fields hu
    exact ⟨⟨raw, eng, ie, cnt, con, sa, psc, scll, sclh, mode, _, rfl⟩, hraw, heng, hie, hcnt, hcon, hsa, hpsc, hscll,
      hsclh, hmode, ret_frame rfl rfl rfl _⟩

end Sys2Proof.Machine
end

section
/-!
The clock domain (41_clock_domain R170 to R180): a gated clock freezes the I2C block, the lines of the clock operations, and
the power manager.
-/
namespace Sys2Proof.Machine

-- A gated clock (R180)

/-- The I2C block with its engine and its wire: what only a live clock lets move (41 R180, 42 R191). -/
structure ClockedPart where
  eng : Engine
  wire : List WireEvent
  raw : Status
  ie : Status
  con : Con
  cnt : Option Word
  sa : Option (BitVec 10)
  psc : Option Byte
  scll : Option Byte
  sclh : Option Byte

/-- The part of the state that needs the clock. -/
def State.clocked (s : State) : ClockedPart where
  eng := s.eng
  wire := s.wire
  raw := s.raw
  ie := s.ie
  con := s.con
  cnt := s.cnt
  sa := s.sa
  psc := s.psc
  scll := s.scll
  sclh := s.sclh

theorem State.engLive_of_gated {s : State} (h : s.idlest ≠ 0) : s.engLive = false := by
  have h : ¬s.idlest = 0#2 := h
  simp [State.engLive, h]

/-- With the clock gated, the one register whose prologue passes is CLKCTRL (40 R130). -/
theorem eq_clkctrl_of_gated {s : State} {r : Reg} (hg : s.idlest ≠ 0) (hi : r.block = .i2c → s.i2cOpen = true) :
    r = .clkctrl := by
  refine eq_clkctrl_of_block ?_
  cases hb : r.block with
  | i2c => exact absurd (s.i2cOpen_iff.1 (hi hb)).2 hg
  | clk => rfl

theorem writeClkctrl_next {v : Word} {s t : State} (h : writeClkctrl v s = .next t) :
    t = { s with modulemode := fieldOf s.opts.bits.modulemode v } := by
  simp only [writeClkctrl] at h
  split at h <;> cases h
  rfl

/-- A move that is no register access touches nothing clocked; an access that passes is one of CLKCTRL. -/
theorem Move.clocked_eq {s t : State} (hg : s.idlest ≠ 0) (h : Move s t) : t.clocked = s.clocked := by
  cases h with
  | read r hi =>
    obtain rfl := eq_clkctrl_of_gated hg hi
    rfl
  | write _ r v hi h =>
    obtain rfl := eq_clkctrl_of_gated hg hi
    obtain rfl := writeClkctrl_next h
    rfl
  | _ => rfl

/-- No move ungates the clock, so the next one is frozen too. -/
theorem Moves.clocked_eq {s t : State} (hg : s.idlest ≠ 0) (h : Moves s t) : t.clocked = s.clocked := by
  induction h with
  | refl => rfl
  | cons m _ ih => exact (ih (m.steady.idlest ▸ hg)).trans (m.clocked_eq hg)

/-- No event of the engine is enabled while it is not live (42 R191). -/
theorem exec_engineEvent_of_not_live {i : Instr} {s : State} (hf : i.format = .evt8) (hs : ∀ d, i ≠ .engStart d)
    (hp : ¬(i = .pmGate ∨ i = .pmUngate ∨ i = .pmIdle)) (ht : i ≠ .xferTimeoutFires) (hl : s.engLive = false) :
    exec i s = .next s := by
  cases i with
  | engStart d => exact absurd rfl (hs d)
  | engAddrAck => simp [exec, execEngAddrAck, hl]
  | engAddrNack => simp [exec, execEngAddrNack, hl]
  | engTxByteAck => cases hh : s.eng.hold <;> simp [exec, execEngTxByteAck, hl, hh]
  | engTxByteNack => cases hh : s.eng.hold <;> simp [exec, execEngTxByteNack, hl, hh]
  | engRxByte => simp [exec, execEngRxByte, hl]
  | engStopDone => simp [exec, execEngStopDone, hl]
  | engArbLost => simp [exec, execEngArbLost, hl]
  | engExtraReady => simp [exec, execEngExtraReady, hl]
  | engLateArdy => simp [exec, execEngLateArdy, hl]
  | xferTimeoutFires => exact absurd rfl ht
  | pmGate | pmUngate | pmIdle => simp at hp
  | _ => cases hf

/-- The timeout gives the lock holder its recovery to perform, or changes nothing (43 R243). -/
theorem execXferTimeoutFires_next {s t : State} (h : execXferTimeoutFires s = .next t) :
    t = s ∨ ∃ k c, t = s.putCaller k c := by
  unfold execXferTimeoutFires at h
  split at h
  · split at h
    · split at h <;> cases h
      · exact .inl rfl
      · exact .inr ⟨_, _, rfl⟩
    · cases h; exact .inl rfl
  · cases h; exact .inl rfl

/-- The power manager's events change CLKCTRL, the timeout a caller, and the engine's are not enabled. -/
theorem event_clocked_eq {i : Instr} {s t : State} (hg : s.idlest ≠ 0) (hf : i.format = .evt8)
    (hs : ∀ d, i ≠ .engStart d) (h : exec i s = .next t) : t.clocked = s.clocked := by
  by_cases hp : i = .pmGate ∨ i = .pmUngate ∨ i = .pmIdle
  · obtain ⟨_, _, _, rfl⟩ := powerManager_next hp h
    rfl
  · by_cases ht : i = .xferTimeoutFires
    · subst ht
      obtain rfl | ⟨_, _, rfl⟩ := execXferTimeoutFires_next h <;> rfl
    · rw [exec_engineEvent_of_not_live hf hs hp ht (State.engLive_of_gated hg)] at h
      cases h
      rfl

theorem step_clocked_eq {s t : State} (hg : s.idlest ≠ 0) (h : step s = .next t) : t.clocked = s.clocked := by
  rcases moves_step h with hm | ⟨_, _, _, i, _, rest, -, -, hf, hs, hi⟩
  · exact Moves.clocked_eq (s := { s with sched := s.sched.tail }) hg hm
  · exact event_clocked_eq (s := { s with sched := rest }) hg hf hs hi

/-- Settles O23: a step is a sequence of moves or one event, and neither touches the clocked part; `irq` is read off it. -/
theorem gatedClockFreezes : Obligations.GatedClockFreezes := by
  intro s t hg h
  obtain ⟨heng, hwire, hraw, hie, hcon, hcnt, hsa, hpsc, hscll, hsclh⟩ :=
    ClockedPart.mk.inj (step_clocked_eq hg h)
  have hirq : t.irq = s.irq := by rw [State.irq, hraw, hie, State.irq]
  exact ⟨heng, hwire, hraw, hie, hirq, hcon, hcnt, hsa, hpsc, hscll, hsclh⟩

-- The lines of the clock operations (R171, R173), where CLKCTRL can be accessed

section
variable {s : State} (rest : List Act) (hm : s.ctl.clkMapped = true)
include hm

theorem performLine_clkEnsure_functional (h2 : s.modulemode = 2) (h0 : s.idlest = 0) :
    performLine .clkEnsure rest s = .next (s.goOn .ok rest) := by
  simp [performLine, regRead_clk hm, h2, h0]

theorem performLine_clkEnsure_request (h : s.modulemode ≠ 2 ∨ s.idlest ≠ 0) :
    performLine .clkEnsure rest s = .next (s.setTask (.clkRequest s.clkctrl :: rest)) := by
  have hf : ¬functional s.opts.bits s.clkctrl = true := by
    rw [functional_clkctrl, Bool.and_eq_true, beq_iff_eq, beq_iff_eq]
    exact fun g => h.elim (absurd g.1) (absurd g.2)
  simp only [performLine, regRead_clk hm, andThen_of_next, if_neg hf]

theorem performLine_clkRequest (c : Word) :
    performLine (.clkRequest c) rest s
      = .next (State.setTask { s with modulemode := 2 } (.clkPoll s.opts.nClkPoll :: rest)) := by
  simp only [performLine, regWrite_clk hm, writeClkctrl_request rfl, andThen_of_next]

theorem performLine_clkPoll_live (h : s.idlest = 0) (left : Nat) :
    performLine (.clkPoll (left + 1)) rest s = .next (s.goOn .ok rest) := by
  simp [performLine, regRead_clk hm, h]

theorem performLine_clkPoll_gated (h : s.idlest ≠ 0) (left : Nat) :
    performLine (.clkPoll (left + 1)) rest s = .next (s.setTask (.clkPoll left :: rest)) := by
  have h : ¬s.idlest = 0#2 := h
  simp [performLine, regRead_clk hm, h]

theorem performLine_clkDrop :
    performLine .clkDrop rest s = .next (s.setTask (.clkRelease s.clkctrl :: rest)) := by
  simp only [performLine, regRead_clk hm, andThen_of_next]

theorem performLine_clkRelease (c : Word) :
    performLine (.clkRelease c) rest s = .next (State.goOn { s with modulemode := 0 } .unit rest) := by
  simp only [performLine, regWrite_clk hm, writeClkctrl_release rfl, andThen_of_next]

end

-- The poll (R171, R175)

/-- One read of the poll with the clock gated: one fewer is left. -/
theorem Goes.clkPoll_gated {n left : Nat} {s u : State} {l : List Act} {r : Result} (hm : u.ctl.clkMapped = true)
    (hg : u.idlest ≠ 0) (h : Goes n s u (.clkPoll (left + 1) :: l) r) : Goes (n + 1) s u (.clkPoll left :: l) r :=
  h.line rfl fun c hc => by
    rw [performLine_clkPoll_gated (s := { u with callers := c }) l hm hg]
    simp only [State.setTask, hc]

/-- A poll with no read left is a Timeout. -/
theorem Goes.clkPoll_zero {n : Nat} {s u : State} {l : List Act} {r : Result} (h : Goes n s u (.clkPoll 0 :: l) r) :
    Goes (n + 1) s u (unwind l) (.err .timeout) :=
  h.line rfl fun c hc => by
    simp only [performLine, State.deliver, Result.isErr, if_true, State.goOn, hc]

/-- With the clock gated, `k` turns are `k` reads of the poll. -/
theorem goes_clkPoll_gated {s : State} {left : Nat} {rest : List Act} (hm : s.ctl.clkMapped = true)
    (hw : s.CallersWf) (ht : s.self.task = .clkPoll left :: rest) (hg : s.idlest ≠ 0) (k : Nat) (hk : k ≤ left) :
    Goes k s s (.clkPoll (left - k) :: rest) s.self.result := by
  induction k with
  | zero => exact ht ▸ goes_zero hw
  | succ k ih =>
    have h := ih (by omega)
    rw [show left - k = left - (k + 1) + 1 by omega] at h
    exact h.clkPoll_gated hm hg

/-- Settles O26: `goes_clkPoll_gated` gives the state after `k` reads, and the turn after the last of them the Timeout. -/
theorem clockPollBounded : Obligations.ClockPollBounded := by
  intro s left rest hm hw ht
  refine ⟨fun h0 hpos => ?_, fun hg => ⟨fun k hk => ?_, ?_⟩⟩
  · obtain ⟨n, rfl⟩ := Nat.exists_eq_add_of_lt hpos
    rw [Nat.zero_add] at ht
    rw [advance_cons ht, performLine_clkPoll_live rest hm h0]
  · obtain ⟨_, hturns, -, -, hself, -⟩ := goes_clkPoll_gated hm hw ht hg k hk
    exact ⟨_, hturns, by rw [hself], rfl, rfl⟩
  · have hlast := goes_clkPoll_gated hm hw ht hg left (Nat.le_refl left)
    rw [Nat.sub_self] at hlast
    obtain ⟨_, hturns, -, -, hself, -⟩ := hlast.clkPoll_zero
    exact ⟨_, hturns, by rw [hself], by rw [hself]⟩

-- The operations

/-- A caller in no operation begins one with its first line. -/
theorem State.self_begin_task {s : State} (hw : s.CallersWf) (ht : s.self.task = []) (l : List Act) :
    (s.begin l).self.task = l := by
  rw [State.self_begin hw, ht, List.append_nil]

theorem State.self_setTask_task {s : State} (hw : s.CallersWf) (l : List Act) : (s.setTask l).self.task = l := by
  rw [State.self_setTask hw]

/-- Settles O25: the first line with a functional clock; else the first line and the request. -/
theorem clockEnsureRequests : Obligations.ClockEnsureRequests := by
  intro s hm hw ht
  have hexec : exec .clkEnsureEnabled s = performLine .clkEnsure [] (s.begin clkEnsureLines) :=
    advance_cons (State.self_begin_task hw ht _)
  have hwb : (s.begin clkEnsureLines).CallersWf := State.CallersWf.begin hw _
  refine ⟨fun h2 h0 => ?_, fun h => ⟨_, ?_, rfl, ?_⟩⟩
  · exact hexec.trans (performLine_clkEnsure_functional [] (by exact hm) h2 h0)
  · exact hexec.trans (performLine_clkEnsure_request [] (by exact hm) h)
  · exact (advance_cons (State.self_setTask_task hwb _)).trans (performLine_clkRequest [] (by exact hm) _)

theorem exec_clkIsEnabled {s : State} (hm : s.ctl.clkMapped = true) :
    exec .clkIsEnabled s = .next (s.ret (.bool (s.modulemode == 2 && s.idlest == 0))) := by
  simp only [exec, execClkIsEnabled, regRead_clk hm, andThen_of_next, functional_clkctrl]

/-- Settles O27: CLK_IS_ENABLED is one read; CLK_DISABLE is its read line and its write line. -/
theorem clockQueryAndDisable : Obligations.ClockQueryAndDisable := by
  intro s hm
  refine ⟨?_, fun hw ht => ?_⟩
  · rw [exec_clkIsEnabled hm, Bool.decide_and]
    rfl
  · have hwb : (s.begin clkDisableLines).CallersWf := State.CallersWf.begin hw _
    have hread : exec .clkDisable s = .next ((s.begin clkDisableLines).setTask [.clkRelease s.clkctrl]) :=
      (advance_cons (State.self_begin_task hw ht _)).trans (performLine_clkDrop [] (by exact hm))
    have hwrite := (advance_cons (State.self_setTask_task hwb [.clkRelease s.clkctrl])).trans
      (performLine_clkRelease [] (by exact hm) _)
    have hself := State.self_goOn
      (s := { (s.begin clkDisableLines).setTask [.clkRelease s.clkctrl] with modulemode := 0 }) (hwb.setTask _) .unit []
    exact ⟨_, _, hread, hwrite, by rw [hself], by rw [hself], ⟨_, rfl⟩, _, rfl⟩

-- The power manager (R177 to R179)

theorem gatedIdlest_ne_zero : ∀ w : BitVec 2, gatedIdlest w ≠ 0 := by decide

theorem execPmUngate_enabled {s : State} (h2 : s.modulemode = 2) (hi : s.idlest ≠ 0) :
    ∃ i d, (i = 0 ∨ i = 1) ∧ (s.idlest = 1 → i = 0) ∧ execPmUngate s = .next { s with idlest := i, draws := d } := by
  rw [execPmUngate, if_pos ⟨h2, hi⟩]
  by_cases h1 : s.idlest = 1
  · exact ⟨0, s.draws, .inl rfl, fun _ => rfl, if_pos h1⟩
  · refine ⟨_, s.draws + 1, ?_, fun h => absurd h h1, if_neg h1⟩
    cases s.drawBool
    · exact .inl rfl
    · exact .inr rfl

theorem execPmIdle_enabled {s : State} (h0 : s.modulemode = 0) (hi : s.idlest ≠ 3) :
    ∃ i d, (i = 2 ∨ i = 3) ∧ (s.idlest = 2 → i = 3) ∧ execPmIdle s = .next { s with idlest := i, draws := d } := by
  rw [execPmIdle, if_pos ⟨h0, hi⟩]
  by_cases h2 : s.idlest = 2
  · exact ⟨3, s.draws, .inr rfl, fun _ => rfl, if_pos h2⟩
  · refine ⟨_, s.draws + 1, ?_, fun h => absurd h h2, if_neg h2⟩
    cases s.drawBool
    · exact .inr rfl
    · exact .inl rfl

/-- Settles O28: each event by its own guard; a step that is not enabled takes the other branch of it. -/
theorem powerManager : Obligations.PowerManager := by
  intro s
  refine ⟨⟨_, _, ?_, gatedIdlest_ne_zero _, rfl⟩, execPmUngate_enabled, fun h => if_neg fun g => ?_,
    execPmIdle_enabled, fun h => if_neg fun g => ?_⟩
  · cases s.drawBool
    · exact .inl rfl
    · exact .inr rfl
  · exact h.elim (absurd g.1) g.2
  · exact h.elim (absurd g.1) g.2

end Sys2Proof.Machine
end

section
/-!
The bus engine (42_bus_engine R190 to R210): when each of its events is enabled and what it does then, the transitions of
the engine in the whole machine, the reference engine, and bus timing.
-/
namespace Sys2Proof.Machine

-- When an event does nothing (R191, R195 to R204)

/-- The events the engine makes on its own: all of its EVT8 operations but ENG_START (30_encoding R107). -/
def engineEvent : Instr → Bool
  | .engAddrAck | .engAddrNack | .engTxByteAck | .engTxByteNack | .engRxByte | .engStopDone | .engArbLost | .engExtraReady
  | .engLateArdy => true
  | _ => false

/-- The conditions of an event of the live engine (42 R195 to R204). -/
def State.eventCond (s : State) : Instr → Prop
  | .engAddrAck => s.eng.st = .addr ∧ s.addrAck = true
  | .engAddrNack => s.eng.st = .addr ∧ s.addrAck = false
  | .engTxByteAck => s.eng.st = .txShift ∧ ∃ b, s.eng.hold = some b ∧ s.dataAck b = true
  | .engTxByteNack => s.eng.st = .txShift ∧ ∃ b, s.eng.hold = some b ∧ s.dataAck b = false
  | .engRxByte => s.eng.st = .rxShift ∧ s.eng.hold = none
  | .engStopDone => s.eng.st = .stop
  | .engArbLost => s.eng.st ≠ .idle ∧ s.arbLost = true
  | .engExtraReady => s.eng.window = true ∧ s.eng.cnt ≤ s.eng.loaded ∧ s.extraAllowed = true
  | .engLateArdy => s.eng.lateArdy = true
  | _ => False

/-- An event outside its conditions changes nothing. -/
theorem exec_of_not_eventCond {s : State} {i : Instr} (hi : engineEvent i = true)
    (h : s.engLive = true → ¬s.eventCond i) : exec i s = .next s := by
  cases i with
  | engAddrAck | engAddrNack | engRxByte | engStopDone | engArbLost | engExtraReady | engLateArdy =>
    exact if_neg fun ⟨hl, hc⟩ => h hl hc
  | engTxByteAck =>
    simp only [exec, execEngTxByteAck]
    split
    · rfl
    · rename_i b hb
      exact if_neg fun ⟨hl, hs, ha⟩ => h hl ⟨hs, b, hb, ha⟩
  | engTxByteNack =>
    simp only [exec, execEngTxByteNack]
    split
    · rfl
    · rename_i b hb
      exact if_neg fun ⟨hl, hs, ha⟩ => h hl ⟨hs, b, hb, ha⟩
  | _ => cases hi

theorem State.engLive_eq_false {s : State} (h : s.con.en = false ∨ s.idlest ≠ 0) : s.engLive = false := by
  rcases h with h | h
  · simp [State.engLive, h]
  · exact State.engLive_of_gated h

-- What an enabled event does

theorem exec_engStart {s : State} {n : Word} {a : BitVec 10} (hn : s.cnt = some n) (ha : s.sa = some a) (d : Dir) :
    exec (.engStart d) s = .next { s with eng := .started d n.toNat (a.setWidth 7) } := by
  simp [exec, execEngStart, startEngine, hn, ha]

theorem exec_engStart_no_count {s : State} (hn : s.cnt = none) (d : Dir) :
    exec (.engStart d) s = .refused .zeroCount := by
  simp [exec, execEngStart, startEngine, hn]

theorem exec_engStart_no_address {s : State} (hn : s.cnt ≠ none) (ha : s.sa = none) (d : Dir) :
    exec (.engStart d) s = .refused .addressOutOfRange := by
  obtain ⟨n, hn⟩ := Option.ne_none_iff_exists'.1 hn
  simp [exec, execEngStart, startEngine, hn, ha]

theorem dirRw_eq (d : Dir) : dirRw d = (d == .rx) := by cases d <;> rfl

/-- The engine's end in error, written out (42 R196, R199, R202). -/
def State.failed (s : State) (l : List WireEvent) (m : Status) : State :=
  { s with
    wire := s.wire ++ l
    eng := { s.eng with st := .idle, hold := none, lateArdy := s.ardyAfterErr }
    raw := s.raw ||| m
    env := s.env.passed
    draws := s.draws + 1 }

section
variable {s : State} (hl : s.engLive = true)
include hl

theorem exec_engAddrAck_tx (hs : s.eng.st = .addr) (ha : s.addrAck = true) (hd : s.eng.dir = .tx) :
    exec .engAddrAck s = .next
      { s with
        wire := s.wire ++ [.start, .addr s.eng.sa false, .ack]
        eng := { s.eng with st := .txWait }
        raw := s.raw ||| statXrdy
        env := s.env.addressed .tx
        draws := s.draws + 1 } := by
  simp only [exec, execEngAddrAck, hl, hs, ha, hd, and_self, if_true]
  rfl

theorem exec_engAddrAck_rx (hs : s.eng.st = .addr) (ha : s.addrAck = true) (hd : s.eng.dir = .rx) :
    exec .engAddrAck s = .next
      { s with
        wire := s.wire ++ [.start, .addr s.eng.sa true, .ack]
        eng := { s.eng with st := .rxShift }
        env := s.env.addressed .rx
        draws := s.draws + 1 } := by
  simp only [exec, execEngAddrAck, hl, hs, ha, hd, and_self, if_true]
  rfl

theorem exec_engAddrNack (hs : s.eng.st = .addr) (ha : s.addrAck = false) :
    exec .engAddrNack s
      = .next (s.failed [.start, .addr s.eng.sa (s.eng.dir == .rx), .nack, .stop] statNack) := by
  rw [← dirRw_eq]
  exact if_pos ⟨hl, hs, ha⟩

theorem exec_engTxByteNack {b : Byte} (hs : s.eng.st = .txShift) (hb : s.eng.hold = some b) (ha : s.dataAck b = false) :
    exec .engTxByteNack s = .next (s.failed [.byte b, .nack, .stop] statNack) := by
  simp only [exec, execEngTxByteNack, hb]
  exact if_pos ⟨hl, hs, ha⟩

theorem exec_engArbLost (hs : s.eng.st ≠ .idle) (ha : s.arbLost = true) :
    exec .engArbLost s = .next (s.failed [.lost] statAl) :=
  if_pos ⟨hl, hs, ha⟩

theorem exec_engTxByteAck_more {b : Byte} (hs : s.eng.st = .txShift) (hb : s.eng.hold = some b)
    (ha : s.dataAck b = true) (hr : 0 < s.eng.rem - 1) :
    exec .engTxByteAck s = .next
      { s with
        wire := s.wire ++ [.byte b, .ack]
        eng := { s.eng with hold := none, rem := s.eng.rem - 1, st := .txWait }
        raw := s.raw ||| statXrdy
        env := s.env.take b
        draws := s.draws + 1 } := by
  simp only [exec, execEngTxByteAck, hb, hl, hs, ha, hr, and_self, if_true]
  rfl

theorem exec_engTxByteAck_last {b : Byte} (hs : s.eng.st = .txShift) (hb : s.eng.hold = some b)
    (ha : s.dataAck b = true) (hr : s.eng.rem - 1 = 0) :
    exec .engTxByteAck s = .next
      { s with
        wire := s.wire ++ [.byte b, .ack]
        eng := { s.eng with hold := none, rem := 0, st := .stop }
        env := s.env.take b
        draws := s.draws + 1 } := by
  simp only [exec, execEngTxByteAck, hb, hl, hs, ha, hr, and_self, if_true, Nat.lt_irrefl, if_false]
  rfl

theorem exec_engRxByte_more (hs : s.eng.st = .rxShift) (hh : s.eng.hold = none) (hr : 0 < s.eng.rem - 1) :
    exec .engRxByte s = .next
      { s with
        wire := s.wire ++ [.byte s.readByte, .ack]
        eng := { s.eng with hold := some s.readByte, rem := s.eng.rem - 1, st := .rxWait }
        raw := s.raw ||| statRrdy
        env := s.env.given
        draws := s.draws + 1 } := by
  simp only [exec, execEngRxByte, hl, hs, hh, hr, and_self, if_true]
  rfl

theorem exec_engRxByte_last (hs : s.eng.st = .rxShift) (hh : s.eng.hold = none) (hr : s.eng.rem - 1 = 0) :
    exec .engRxByte s = .next
      { s with
        wire := s.wire ++ [.byte s.readByte, .nack]
        eng := { s.eng with hold := some s.readByte, rem := 0, st := .stop }
        raw := s.raw ||| statRrdy
        env := s.env.given
        draws := s.draws + 1 } := by
  simp only [exec, execEngRxByte, hl, hs, hh, hr, and_self, if_true, Nat.lt_irrefl, if_false]
  rfl

theorem exec_engStopDone (hs : s.eng.st = .stop) :
    exec .engStopDone s = .next
      { s with wire := s.wire ++ [.stop], eng := { s.eng with st := .idle }, raw := s.raw ||| statArdy } :=
  if_pos ⟨hl, hs⟩

theorem exec_engExtraReady (hw : s.eng.window = true) (hc : s.eng.cnt ≤ s.eng.loaded) (ha : s.extraAllowed = true) :
    exec .engExtraReady s = .next
      { s with
        eng := { s.eng with extra := s.eng.extra + 1 }
        raw := s.raw ||| (if s.eng.dir = .tx then statXrdy else statRrdy) } := by
  refine (if_pos ⟨hl, hw, hc, ha⟩).trans ?_
  cases s.eng.dir <;> rfl

theorem exec_engLateArdy (h : s.eng.lateArdy = true) :
    exec .engLateArdy s = .next { s with eng := { s.eng with lateArdy := false }, raw := s.raw ||| statArdy } :=
  if_pos ⟨hl, h⟩

end

/-- Settles O18: ENG_START by whether CNT and SA have values, the acknowledged address by its direction. -/
theorem engineStartAndAddress : Obligations.EngineStartAndAddress := by
  intro s
  exact ⟨fun d => ⟨fun _ _ hn ha => exec_engStart hn ha d, fun hn => exec_engStart_no_count hn d,
    fun hn ha => exec_engStart_no_address hn ha d⟩, exec_engAddrAck_tx, exec_engAddrAck_rx⟩

/-- The option decides whether a late ARDY is to come, where it is no draw (42 R204). -/
theorem State.ardyAfterErr_of_some {s : State} {b : Bool} (h : s.opts.engArdyAfterErr = some b) : s.ardyAfterErr = b := by
  simp [State.ardyAfterErr, h]

/-- Settles O19: the three terminations end in `State.failed`, whose late ARDY is the option's. -/
theorem engineErrorEnds : Obligations.EngineErrorEnds := fun s hl =>
  ⟨s.ardyAfterErr, fun _ => State.ardyAfterErr_of_some, exec_engAddrNack hl, fun _ => exec_engTxByteNack hl,
    exec_engArbLost hl⟩

/-- Settles O20: by whether a byte is left after this one; the byte received is `State.readByte`. -/
theorem engineBytes : Obligations.EngineBytes := by
  intro s hl
  refine ⟨fun b hs hb ha => ⟨fun hr => exec_engTxByteAck_more hl hs hb ha (Nat.sub_pos_of_lt hr),
      fun hr => exec_engTxByteAck_last hl hs hb ha (by rw [hr])⟩,
    fun hs hh => ⟨s.readByte, fun r he => ?_, fun a l he => ?_,
      fun hr => exec_engRxByte_more hl hs hh (Nat.sub_pos_of_lt hr),
      fun hr => exec_engRxByte_last hl hs hh (by rw [hr])⟩⟩
  · rw [State.readByte, he]
  · rw [State.readByte, he]

/-- The bound of extra ready events (42 R203): none, or not reached. -/
theorem State.extraAllowed_iff (s : State) :
    s.extraAllowed = true ↔ ∀ k, s.opts.engExtraReady = some k → s.eng.extra < k := by
  unfold State.extraAllowed
  split <;> simp_all

/-- Settles O21: each of the three events by its conditions; outside them `exec_of_not_eventCond`. -/
theorem engineReadyAndStop : Obligations.EngineReadyAndStop := by
  intro s hl
  refine ⟨exec_engStopDone hl, fun hw hc hk => exec_engExtraReady hl hw hc (s.extraAllowed_iff.2 fun k hs => ?_),
    fun h => exec_of_not_eventCond rfl fun _ ⟨hw, hc, ha⟩ => ?_, exec_engLateArdy hl,
    fun h => exec_of_not_eventCond rfl fun _ hc => absurd (h.symm.trans hc) Bool.false_ne_true⟩
  · rcases hk with hn | ⟨j, hj, hlt⟩
    · exact absurd (hn.symm.trans hs) nofun
    · obtain rfl := Option.some.inj (hj.symm.trans hs)
      exact hlt
  · rcases h with h | h | ⟨k, hk, hle⟩
    · exact absurd (h.symm.trans hw) Bool.false_ne_true
    · exact Nat.not_le.2 h hc
    · exact Nat.not_lt.2 hle (s.extraAllowed_iff.1 ha k hk)

-- The transitions of the engine (R208)

/-- The rows a register access moves the engine along: START, EN = 0, and the data access it waits for. -/
inductive AccessRow : EngSt → EngSt → Prop where
  | stay (p : EngSt) : AccessRow p p
  | start (p : EngSt) : AccessRow p .addr
  | disable (p : EngSt) : AccessRow p .idle
  | dataWritten : AccessRow .txWait .txShift
  | dataRead : AccessRow .rxWait .rxShift

/-- Several accesses in one step, as an atomic interrupt service makes them, move the engine along one row at most: no
data access leads on from where another ended. -/
theorem AccessRow.trans {p q r : EngSt} (h : AccessRow p q) (k : AccessRow q r) : AccessRow p r := by
  cases k with
  | stay => exact h
  | start => exact .start p
  | disable => exact .disable p
  | dataWritten => cases h; exact .dataWritten
  | dataRead => cases h; exact .dataRead

theorem accessRow_readRule (r : Reg) (s : State) : AccessRow s.eng.st (readRule r s).2.eng.st := by
  rcases readRule_cases r s with h | h | ⟨-, -, -, -, h⟩ <;> rw [h]
  · exact .stay _
  · exact .stay _
  · dsimp only
    split
    · rename_i hw
      rw [hw]
      exact .dataRead
    · exact .stay _

@[simp] theorem ackStatus_eng_st (v : Status) (s : State) : (ackStatus v s).eng.st = s.eng.st := by
  simp only [ackStatus, ackWindow_eq]

theorem accessRow_writeRule {r : Reg} {v : Word} {s t : State} (h : writeRule r v s = .next t) :
    AccessRow s.eng.st t.eng.st := by
  rcases writeRule_cases h with ⟨-, rfl⟩ | ⟨-, rfl⟩ | ⟨-, rfl⟩ | ⟨-, rfl⟩ | ⟨-, hw, rfl⟩ | ⟨-, rfl⟩ | ⟨-, rfl⟩ | ⟨-, rfl⟩
    | ⟨-, _, _, _, -, -, rfl⟩ | ⟨-, rfl⟩ | ⟨-, rfl⟩ | ⟨-, rfl⟩ | ⟨-, rfl⟩ | ⟨-, -, rfl⟩
  · rw [ackStatus_eng_st]
    exact .stay _
  · exact .stay _
  · exact .stay _
  · exact .stay _
  · rw [hw]
    exact .dataWritten
  · exact .stay _
  · exact .disable _
  · exact .stay _
  · exact .start _
  · exact .stay _
  · exact .stay _
  · exact .stay _
  · exact .stay _
  · exact .stay _

theorem Move.accessRow {s t : State} (h : Move s t) : AccessRow s.eng.st t.eng.st := by
  cases h with
  | read r => exact accessRow_readRule r s
  | write _ r v _ h => exact accessRow_writeRule h
  | _ => exact .stay _

theorem Moves.accessRow {s t : State} (h : Moves s t) : AccessRow s.eng.st t.eng.st :=
  h.rel (fun s t => AccessRow s.eng.st t.eng.st) (fun _ => .stay _) (fun _ _ _ => .trans) fun _ _ => Move.accessRow

/-- The engine stays, or moves along a row of its table with the status the row raises latched (42 R208). -/
def State.OnRow (s t : State) : Prop :=
  t.eng.st = s.eng.st ∨ ∃ raised : Status, EngMove s.eng.st raised t.eng.st ∧ raised &&& ~~~t.raw = 0

theorem State.OnRow.stay {s t : State} (h : t.eng.st = s.eng.st) : s.OnRow t := .inl h

theorem State.OnRow.silent {s t : State} {p q : EngSt} (h : EngMove p 0 q) (hp : s.eng.st = p) (hq : t.eng.st = q) :
    s.OnRow t :=
  .inr ⟨0, hp ▸ hq ▸ h, BitVec.zero_and⟩

theorem State.OnRow.raises {s t : State} {p q : EngSt} {m : Status} (h : EngMove p m q) (hp : s.eng.st = p)
    (hq : t.eng.st = q) (hr : t.raw = s.raw ||| m) : s.OnRow t := by
  refine .inr ⟨m, hp ▸ hq ▸ h, ?_⟩
  have latched : ∀ x m : Status, m &&& ~~~(x ||| m) = 0 := by decide
  rw [hr, latched]

/-- No row of a register access raises a status bit. -/
theorem AccessRow.onRow {s t : State} (h : AccessRow s.eng.st t.eng.st) : s.OnRow t := by
  generalize hp : s.eng.st = p, hq : t.eng.st = q at h
  cases h with
  | stay => exact .stay (hq.trans hp.symm)
  | start => exact .silent (.start _) hp hq
  | disable => exact .silent (.disable _) hp hq
  | dataWritten => exact .silent .dataWritten hp hq
  | dataRead => exact .silent .dataRead hp hq

/-- An enabled event moves the engine along its own row; the extra ready event and a late ARDY leave its state. -/
theorem eventCond_onRow {s : State} {i : Instr} (hl : s.engLive = true) (h : s.eventCond i) :
    ∃ t, exec i s = .next t ∧ s.OnRow t := by
  cases i with
  | engAddrAck =>
    obtain ⟨hs, ha⟩ := h
    cases hd : s.eng.dir with
    | tx => exact ⟨_, exec_engAddrAck_tx hl hs ha hd, .raises .addrAckTx hs rfl rfl⟩
    | rx => exact ⟨_, exec_engAddrAck_rx hl hs ha hd, .silent .addrAckRx hs rfl⟩
  | engAddrNack =>
    obtain ⟨hs, ha⟩ := h
    exact ⟨_, exec_engAddrNack hl hs ha, .raises .addrNack hs rfl rfl⟩
  | engTxByteAck =>
    obtain ⟨hs, b, hb, ha⟩ := h
    rcases Nat.eq_zero_or_pos (s.eng.rem - 1) with hr | hr
    · exact ⟨_, exec_engTxByteAck_last hl hs hb ha hr, .silent .txLastAck hs rfl⟩
    · exact ⟨_, exec_engTxByteAck_more hl hs hb ha hr, .raises .txByteAck hs rfl rfl⟩
  | engTxByteNack =>
    obtain ⟨hs, b, hb, ha⟩ := h
    exact ⟨_, exec_engTxByteNack hl hs hb ha, .raises .txByteNack hs rfl rfl⟩
  | engRxByte =>
    obtain ⟨hs, hh⟩ := h
    rcases Nat.eq_zero_or_pos (s.eng.rem - 1) with hr | hr
    · exact ⟨_, exec_engRxByte_last hl hs hh hr, .raises .rxLast hs rfl rfl⟩
    · exact ⟨_, exec_engRxByte_more hl hs hh hr, .raises .rxByte hs rfl rfl⟩
  | engStopDone => exact ⟨_, exec_engStopDone hl h, .raises .stopDone h rfl rfl⟩
  | engArbLost =>
    obtain ⟨hs, ha⟩ := h
    exact ⟨_, exec_engArbLost hl hs ha, .raises (.arbLost _ hs) rfl rfl rfl⟩
  | engExtraReady =>
    obtain ⟨hw, hc, ha⟩ := h
    exact ⟨_, exec_engExtraReady hl hw hc ha, .stay rfl⟩
  | engLateArdy => exact ⟨_, exec_engLateArdy hl h, .stay rfl⟩
  | _ => cases h

theorem engineEvent_onRow {s t : State} {i : Instr} (hi : engineEvent i = true) (h : exec i s = .next t) : s.OnRow t := by
  by_cases he : s.engLive = true ∧ s.eventCond i
  · obtain ⟨u, hu, hrow⟩ := eventCond_onRow he.1 he.2
    cases hu.symm.trans h
    exact hrow
  · cases (exec_of_not_eventCond hi fun hl hc => he ⟨hl, hc⟩).symm.trans h
    exact .stay rfl

/-- The events: the engine's, the power manager's and the timeout (30_encoding R107). -/
theorem event_kinds {i : Instr} (hf : i.format = .evt8) (hs : ∀ d, i ≠ .engStart d) :
    engineEvent i = true ∨ (i = .pmGate ∨ i = .pmUngate ∨ i = .pmIdle) ∨ i = .xferTimeoutFires := by
  cases i with
  | engStart d => exact absurd rfl (hs d)
  | engAddrAck | engAddrNack | engTxByteAck | engTxByteNack | engRxByte | engStopDone | engArbLost | engExtraReady
  | engLateArdy => exact .inl rfl
  | pmGate | pmUngate | pmIdle | xferTimeoutFires => simp
  | _ => cases hf

/-- Only the engine's own events move it: the power manager and the timeout have no access to it. -/
theorem event_onRow {s t : State} {i : Instr} (hf : i.format = .evt8) (hs : ∀ d, i ≠ .engStart d)
    (h : exec i s = .next t) : s.OnRow t := by
  rcases event_kinds hf hs with hi | hp | rfl
  · exact engineEvent_onRow hi h
  · obtain ⟨_, _, _, rfl⟩ := powerManager_next hp h
    exact .stay rfl
  · obtain rfl | ⟨_, _, rfl⟩ := execXferTimeoutFires_next h <;> exact .stay rfl

/-- Settles O22: a step is a sequence of moves, which is one row of an access at most, or one event. -/
theorem engineTransitions : Obligations.EngineTransitions := by
  intro s t h
  rcases moves_step h with hm | ⟨_, _, _, i, _, rest, -, -, hf, hs, hi⟩
  · exact AccessRow.onRow (s := s) hm.accessRow
  · exact event_onRow (s := { s with sched := rest }) hf hs hi

-- The reference engine (R207)

theorem State.arbLost_of_neverLost {s : State} (h : s.env.neverLost) : s.arbLost = false := by
  unfold State.arbLost
  split <;> simp_all [Env.neverLost]

/-- Under the premises of the reference engine an enabled event is its next step. -/
theorem engNext_of_eventCond {s : State} {i : Instr} (hr : s.refEngine) (hl : s.engLive = true) (h : s.eventCond i) :
    s.engNext = some i := by
  obtain ⟨hextra, -, hlate, hlost⟩ := hr
  cases i with
  | engAddrAck | engAddrNack | engRxByte =>
    obtain ⟨hs, hc⟩ := h
    simp [State.engNext, hl, hs, hc]
  | engTxByteAck | engTxByteNack =>
    obtain ⟨hs, b, hb, ha⟩ := h
    simp [State.engNext, hl, hs, hb, ha]
  | engStopDone =>
    have hs : s.eng.st = .stop := h
    simp [State.engNext, hl, hs]
  | engArbLost => exact absurd ((State.arbLost_of_neverLost hlost).symm.trans h.2) Bool.false_ne_true
  | engExtraReady => exact absurd (s.extraAllowed_iff.1 h.2.2 0 hextra) (Nat.not_lt_zero _)
  | engLateArdy => exact absurd (hlate.symm.trans h) Bool.false_ne_true
  | _ => cases h

theorem EngSt.stepsLeft_le (p : EngSt) : p.stepsLeft ≤ 3 := by cases p <;> decide

theorem settle_ends (s : State) : ∃ t, settle s = .next t ∧ t.engNext = none := engSteps_ends s.eng.st.stepsLeft_le

/-- After a step with the engine's steps none of those is enabled. -/
theorem refStep_eager {s t : State} (h : refStep s = .next t) : t.eager := by
  obtain ⟨u, -, hu⟩ := andThen_next h
  obtain ⟨v, hv, hn⟩ := settle_ends u
  cases hv.symm.trans hu
  exact fun _ => hn

/-- A held byte is acknowledged or refused, not both. -/
theorem State.dataAck_ne_not {s : State} {b : Byte} {v : Bool} (hb : s.eng.hold = some b) (hv : s.dataAck b = v)
    (h : s.eng.hold = none ∨ ∃ c, s.eng.hold = some c ∧ s.dataAck c = !v) : False := by
  rcases h with hn | ⟨c, hc, hn⟩
  · exact absurd (hn.symm.trans hb) nofun
  · obtain rfl := Option.some.inj (hb.symm.trans hc)
    cases v <;> simp [hv] at hn

/-- Settles O17: outside its conditions an event changes nothing; the premises of the reference engine leave the next step
alone enabled, which brings the engine nearer to waiting. -/
theorem engineFrozen : Obligations.EngineFrozen := by
  intro s
  have outside : ∀ {i}, engineEvent i = true → (s.engLive = true → ¬s.eventCond i) → exec i s = .next s :=
    exec_of_not_eventCond
  refine ⟨fun h => ?_, fun h => outside rfl fun _ ⟨hs, ha⟩ => ?_, fun h => outside rfl fun _ ⟨hs, ha⟩ => ?_,
    fun h => outside rfl fun _ ⟨hs, b, hb, ha⟩ => ?_, fun h => outside rfl fun _ ⟨hs, b, hb, ha⟩ => ?_,
    fun h => outside rfl fun _ ⟨hs, hh⟩ => ?_, fun h => outside rfl fun _ hs => h hs,
    fun h => outside rfl fun _ ⟨hs, ha⟩ => ?_, fun hr i hi => ⟨fun hn => ?_, fun hn => ?_⟩, settle_ends s,
    fun _ => refStep_eager⟩
  · have frozen : ∀ {i}, engineEvent i = true → exec i s = .next s := fun hi =>
      outside hi fun hl => absurd ((State.engLive_eq_false h).symm.trans hl) Bool.false_ne_true
    exact ⟨frozen rfl, frozen rfl, frozen rfl, frozen rfl, frozen rfl, frozen rfl, frozen rfl, frozen rfl, frozen rfl⟩
  · exact h.elim (absurd hs) (by simp [ha])
  · exact h.elim (absurd hs) (by simp [ha])
  · exact h.elim (absurd hs) (State.dataAck_ne_not hb ha)
  · exact h.elim (absurd hs) (State.dataAck_ne_not hb ha)
  · exact h.elim (absurd hs) (absurd hh)
  · exact h.elim hs (by simp [ha])
  · have events : ∀ i ∈ [Instr.engAddrAck, .engAddrNack, .engTxByteAck, .engTxByteNack, .engRxByte, .engStopDone,
        .engArbLost, .engExtraReady, .engLateArdy], engineEvent i = true := by decide
    exact outside (events i hi) fun hl hc => hn (engNext_of_eventCond hr hl hc)
  · obtain ⟨t, ht, hlt⟩ := exec_engNext hn
    exact ⟨t, ht, fun he => Nat.lt_irrefl _ (he ▸ hlt)⟩

-- Bus timing (R210)

theorem sclFrequency_eq (fclkHz : Nat) (p : Profile) :
    sclFrequency fclkHz p = (fclkHz, (p.psc.toNat + 1) * (p.scll.toNat + p.sclh.toNat + 12)) := by
  have periods : lowPeriods p.scll + highPeriods p.sclh = p.scll.toNat + p.sclh.toNat + 12 := by
    unfold lowPeriods highPeriods
    omega
  rw [sclFrequency, periods]
  rfl

/-- Settles O60: the formula, and its value for each of the default profiles. -/
theorem busTiming : Obligations.BusTiming := by
  refine ⟨sclFrequency_eq, ?_⟩
  rintro o rfl
  constructor <;> (rintro f rfl; rw [sclFrequency_eq]; rfl)

end Sys2Proof.Machine
end

section
/-!
Frames the lock and the transaction rest on: a step takes one entry off the schedule, an event of the engine leaves the
callers and the descriptor alone, and the interrupt service gives no caller anything to do (10_state R26).
-/
namespace Sys2Proof.Machine

-- The schedule under a step

theorem Move.sched_eq {s t : State} (h : Move s t) : t.sched = s.sched := by
  cases h with
  | read r => obtain ⟨⟨_, _, e⟩, -⟩ := readRule_frame r s; rw [e]
  | write _ r v _ h => obtain ⟨_, _, _, _, _, _, _, _, _, _, rfl⟩ := writeRule_fields h; rfl
  | _ => rfl

theorem Moves.sched_eq {s t : State} (h : Moves s t) : t.sched = s.sched :=
  h.rel (fun s t => t.sched = s.sched) (fun _ => rfl) (fun _ _ _ h k => k.trans h) fun _ _ => Move.sched_eq

/-- What an event of the engine leaves alone: all but the engine, its wire, the latches, the environment and the counter of
draws. -/
def State.EngFrame (s t : State) : Prop :=
  ∃ e w r v n, t = { s with eng := e, wire := w, raw := r, env := v, draws := n }

theorem engFrame_of_eventCond {s : State} {i : Instr} (hl : s.engLive = true) (h : s.eventCond i) :
    ∃ t, exec i s = .next t ∧ s.EngFrame t := by
  cases i with
  | engAddrAck =>
    obtain ⟨hs, ha⟩ := h
    cases hd : s.eng.dir with
    | tx => exact ⟨_, exec_engAddrAck_tx hl hs ha hd, _, _, _, _, _, rfl⟩
    | rx => exact ⟨_, exec_engAddrAck_rx hl hs ha hd, _, _, _, _, _, rfl⟩
  | engAddrNack => exact ⟨_, exec_engAddrNack hl h.1 h.2, _, _, _, _, _, rfl⟩
  | engTxByteAck =>
    obtain ⟨hs, b, hb, ha⟩ := h
    rcases Nat.eq_zero_or_pos (s.eng.rem - 1) with hr | hr
    · exact ⟨_, exec_engTxByteAck_last hl hs hb ha hr, _, _, _, _, _, rfl⟩
    · exact ⟨_, exec_engTxByteAck_more hl hs hb ha hr, _, _, _, _, _, rfl⟩
  | engTxByteNack =>
    obtain ⟨hs, b, hb, ha⟩ := h
    exact ⟨_, exec_engTxByteNack hl hs hb ha, _, _, _, _, _, rfl⟩
  | engRxByte =>
    obtain ⟨hs, hh⟩ := h
    rcases Nat.eq_zero_or_pos (s.eng.rem - 1) with hr | hr
    · exact ⟨_, exec_engRxByte_last hl hs hh hr, _, _, _, _, _, rfl⟩
    · exact ⟨_, exec_engRxByte_more hl hs hh hr, _, _, _, _, _, rfl⟩
  | engStopDone => exact ⟨_, exec_engStopDone hl h, _, _, _, _, _, rfl⟩
  | engArbLost => exact ⟨_, exec_engArbLost hl h.1 h.2, _, _, _, _, _, rfl⟩
  | engExtraReady => exact ⟨_, exec_engExtraReady hl h.1 h.2.1 h.2.2, _, _, _, _, _, rfl⟩
  | engLateArdy => exact ⟨_, exec_engLateArdy hl h, _, _, _, _, _, rfl⟩
  | _ => cases h

theorem engFrame_of_engineEvent {s t : State} {i : Instr} (hi : engineEvent i = true) (h : exec i s = .next t) :
    s.EngFrame t := by
  by_cases he : s.engLive = true ∧ s.eventCond i
  · obtain ⟨u, hu, hf⟩ := engFrame_of_eventCond he.1 he.2
    cases hu.symm.trans h
    exact hf
  · cases (exec_of_not_eventCond hi fun hl hc => he ⟨hl, hc⟩).symm.trans h
    exact ⟨_, _, _, _, _, rfl⟩

theorem event_sched_eq {i : Instr} {s t : State} (hf : i.format = .evt8) (hs : ∀ d, i ≠ .engStart d)
    (h : exec i s = .next t) : t.sched = s.sched := by
  rcases event_kinds hf hs with hi | hp | rfl
  · obtain ⟨_, _, _, _, _, rfl⟩ := engFrame_of_engineEvent hi h
    rfl
  · obtain ⟨_, _, _, rfl⟩ := powerManager_next hp h
    rfl
  · obtain rfl | ⟨_, _, rfl⟩ := execXferTimeoutFires_next h <;> rfl

/-- A step takes the first entry off the schedule. -/
theorem step_sched {s t : State} (h : step s = .next t) : t.sched = s.sched.tail := by
  rcases moves_step h with hm | ⟨_, _, _, i, _, rest, hs, -, hf, hn, hi⟩
  · exact hm.sched_eq
  · rw [hs]; exact event_sched_eq hf hn hi

-- The callers under the interrupt service

/-- No caller has more or less to do, and no result has changed. -/
structure State.SameTasks (s t : State) : Prop where
  wf : t.CallersWf
  task : ∀ k, (t.caller k).task = (s.caller k).task
  result : ∀ k, (t.caller k).result = (s.caller k).result

theorem State.SameTasks.of_callers {s t : State} (hw : s.CallersWf) (h : t.callers = s.callers) : s.SameTasks t := by
  have hk : ∀ k, t.caller k = s.caller k := fun k => by rw [State.caller, h, State.caller]
  exact ⟨by rwa [State.CallersWf, h], fun k => by rw [hk], fun k => by rw [hk]⟩

theorem State.SameTasks.trans {s t u : State} (h : s.SameTasks t) (k : t.SameTasks u) : s.SameTasks u :=
  ⟨k.wf, fun c => (k.task c).trans (h.task c), fun c => (k.result c).trans (h.result c)⟩

/-- A caller's entry with its task and its result kept. -/
theorem State.SameTasks.putCaller {s : State} (hw : s.CallersWf) {k : Nat} {c : Caller} (ht : c.task = (s.caller k).task)
    (hr : c.result = (s.caller k).result) : s.SameTasks (s.putCaller k c) := by
  have hk : ∀ j, j = k ∧ (s.putCaller k c).caller j = c ∨ (s.putCaller k c).caller j = s.caller j := fun j => by
    by_cases h : j = k
    · exact .inl ⟨h, h ▸ State.caller_putCaller_self hw k c⟩
    · exact .inr (State.caller_putCaller_other s c h)
  refine ⟨hw.putCaller k c, fun j => ?_, fun j => ?_⟩
  · rcases hk j with ⟨rfl, e⟩ | e
    · rw [e, ht]
    · rw [e]
  · rcases hk j with ⟨rfl, e⟩ | e
    · rw [e, hr]
    · rw [e]

theorem sameTasks_read {r : Reg} {s : State} {p : Word × State} (hw : s.CallersWf) (h : regRead r s = .next p) :
    s.SameTasks p.2 := .of_callers hw (sameCallers_read h).1

theorem sameTasks_write {r : Reg} {v : Word} {s t : State} (hw : s.CallersWf) (h : regWrite r v s = .next t) :
    s.SameTasks t := .of_callers hw (sameCallers_write h).1

theorem sameTasks_onTxn {s t : State} {f : Txn → Txn} (hw : s.CallersWf) (h : s.onTxn f = .next t) : s.SameTasks t :=
  .of_callers hw (sameCallers_onTxn h).1

theorem sameTasks_bufSet {s : State} (hw : s.CallersWf) (b : Option BufRef) (i : Nat) (x : Byte) :
    s.SameTasks (s.bufSet b i x) := by
  rcases bufSet_cases s b i x with e | ⟨_, -, e⟩ | ⟨_, _, ht, hr, e⟩ <;> rw [e]
  · exact .of_callers hw rfl
  · exact .of_callers hw rfl
  · exact .putCaller hw ht hr

theorem sameTasks_isrTxData {s t : State} (hw : s.CallersWf) (h : isrTxData s = .next t) : s.SameTasks t := by
  unfold isrTxData at h
  split at h
  · cases h
  · rename_i d hd
    split at h
    · obtain ⟨u, hu, h⟩ := andThen_next h
      have hb : s.SameTasks (s.bufGet d.buffer d.index).2 := .of_callers hw (by unfold State.bufGet; split <;> rfl)
      have hu := hb.trans (sameTasks_write hb.wf hu)
      exact hu.trans (sameTasks_onTxn hu.wf h)
    · exact sameTasks_write hw h

theorem sameTasks_isrRxData {s t : State} (hw : s.CallersWf) (h : isrRxData s = .next t) : s.SameTasks t := by
  unfold isrRxData at h
  split at h
  · cases h
  · rename_i d hd
    obtain ⟨p, hp, h⟩ := andThen_next h
    have hp := sameTasks_read hw hp
    split at h
    · have hb := hp.trans (sameTasks_bufSet hp.wf d.buffer d.index (dataByte p.1))
      exact hb.trans (sameTasks_onTxn hb.wf h)
    · cases h; exact hp

theorem sameTasks_isrLine {a : IsrAct} {s : State} {p : List IsrAct × State} (hw : s.CallersWf)
    (h : isrLine a s = .next p) : s.SameTasks p.2 := by
  cases a
  case txGuard | rxGuard => cases h; exact .of_callers hw rfl
  case recordError st =>
    obtain ⟨u, hu, h⟩ := andThen_next h; cases h
    have ht : s.SameTasks (if (recordedError s st).2 = true then s.tick else s) := .of_callers hw (by split <;> rfl)
    exact ht.trans (sameTasks_onTxn ht.wf hu)
  case forceIdle | signal => obtain ⟨u, hu, h⟩ := andThen_next h; cases h; exact sameTasks_onTxn hw hu
  case ack m => obtain ⟨u, hu, h⟩ := andThen_next h; cases h; exact sameTasks_write hw hu
  case txData => obtain ⟨u, hu, h⟩ := andThen_next h; cases h; exact sameTasks_isrTxData hw hu
  case rxData => obtain ⟨u, hu, h⟩ := andThen_next h; cases h; exact sameTasks_isrRxData hw hu

theorem sameTasks_isrAdvance {s t : State} (hw : s.CallersWf) (h : isrAdvance s = .next t) : s.SameTasks t := by
  unfold isrAdvance at h
  split at h
  · cases h; exact .of_callers hw rfl
  · obtain ⟨p, hp, h⟩ := andThen_next h; cases h
    have hp := sameTasks_isrLine hw hp
    exact hp.trans (.of_callers hp.wf rfl)

theorem sameTasks_isrRun (n : Nat) {s t : State} (hw : s.CallersWf) (h : isrRun n s = .next t) : s.SameTasks t := by
  induction n generalizing s with
  | zero => cases h; exact .of_callers hw rfl
  | succ n ih =>
    unfold isrRun at h
    split at h
    · cases h; exact .of_callers hw rfl
    · obtain ⟨u, hu, h⟩ := andThen_next h
      have hu := sameTasks_isrAdvance hw hu
      exact hu.trans (ih hu.wf h)

/-- The interrupt service gives no caller anything to do and no result (10_state R26). -/
theorem sameTasks_isrService {s t : State} (hw : s.CallersWf) (h : exec .isrService s = .next t) : s.SameTasks t := by
  simp only [exec, execIsrService] at h
  split at h
  · obtain ⟨p, hp, h⟩ := andThen_next h
    have hp := sameTasks_read hw hp
    have hu : s.SameTasks { p.2 with isr := isrPlan p.2.opts.isrErrAck (statw p.2.opts.bits p.1) } :=
      hp.trans (.of_callers hp.wf rfl)
    split at h
    · exact hu.trans (sameTasks_isrRun _ hu.wf h)
    · cases h; exact hu
  · cases h; exact .of_callers hw rfl

end Sys2Proof.Machine
end

section
/-!
The lock discipline (43 R245, R246, 44 R280): what a caller has left to do is placed rightly beside the lock, and every line,
every operation of the consumer API and every event keeps it so.
-/
namespace Sys2Proof.Machine

-- Lines left and the lock

/-- These lines are left of an operation of the consumer API, inside its section exactly where the lock is held. -/
structure Placed (l : List Act) (held : Prop) : Prop where
  shape : sectionShape l = true
  holder : inSection l = true ↔ held

/-- The terms of the discipline by membership. -/
theorem placed_iff (l : List Act) (held : Prop) : Placed l held ↔
    (.acquire ∉ l.tail ∧ l.count .release ≤ 1 ∧ (.acquire ∈ l → .release ∈ l))
      ∧ (.release ∈ l ∧ .acquire ∉ l ↔ held) := by
  have hshape : sectionShape l = true ↔
      .acquire ∉ l.tail ∧ l.count .release ≤ 1 ∧ (.acquire ∈ l → .release ∈ l) := by
    simp [sectionShape, and_assoc, Decidable.imp_iff_not_or]
  have hsection : inSection l = true ↔ .release ∈ l ∧ .acquire ∉ l := by simp [inSection]
  rw [← hshape, ← hsection]
  exact ⟨fun h => ⟨h.shape, h.holder⟩, fun h => ⟨h.1, h.2⟩⟩

/-- The lock taken: what follows is a section (43 R245). -/
theorem Placed.acquired {l : List Act} {held : Prop} (h : Placed (.acquire :: l) held) : Placed l True := by
  rw [placed_iff] at h ⊢
  obtain ⟨⟨hacq, hcount, hrel⟩, -⟩ := h
  have hrel : .release ∈ l := by simpa using hrel
  refine ⟨⟨fun h => hacq (List.mem_of_mem_tail h), by simpa using hcount, fun _ => hrel⟩, by simpa [hrel] using hacq⟩

/-- The lock given back: the one section is over (43 R246). -/
theorem Placed.released {l : List Act} {held : Prop} (h : Placed (.release :: l) held) : Placed l False := by
  rw [placed_iff] at h ⊢
  obtain ⟨⟨hacq, hcount, -⟩, -⟩ := h
  have hacq : .acquire ∉ l := hacq
  have hrel : .release ∉ l := by simpa [List.count_eq_zero] using hcount
  exact ⟨⟨fun h => hacq (List.mem_of_mem_tail h), by simp [List.count_eq_zero.2 hrel], fun h => absurd h hacq⟩, by simp [hrel]⟩

/-- An error result goes on with a part of the lines after it, in which no LOCK_RELEASE is lost. -/
theorem unwind_suffix (l : List Act) : unwind l <:+ l ∧ (.release ∈ l → .release ∈ unwind l) := by
  fun_induction unwind l with
  | case1 | case2 | case3 => exact ⟨List.suffix_rfl, id⟩
  | case4 a l hr _ ih =>
    refine ⟨ih.1.trans (List.suffix_cons a l), fun h => ih.2 ?_⟩
    rcases List.mem_cons.1 h with h | h
    · exact absurd h.symm hr
    · exact h

/-- Past a line that is not the lock's, a caller is in the section as before. -/
theorem Placed.goesOn {a : Act} {rest l : List Act} {held : Prop} (h : Placed (a :: rest) held) (ha : a ≠ .acquire)
    (hr : a ≠ .release) (hg : goesOn rest l) : Placed l held := by
  rw [placed_iff] at h ⊢
  simp only [List.tail_cons, List.mem_cons, Ne.symm ha, Ne.symm hr, false_or, List.count_cons_of_ne hr] at h
  obtain ⟨⟨hacq, hcount, -⟩, hheld⟩ := h
  have hheld : .release ∈ rest ↔ held := by simpa [hacq] using hheld
  rcases hg with rfl | rfl | ⟨m, rfl, hm⟩
  · exact ⟨⟨fun h => hacq (List.mem_of_mem_tail h), hcount, fun h => absurd h hacq⟩, by simp [hacq, hheld]⟩
  · obtain ⟨hsuf, hrel⟩ := unwind_suffix rest
    have hacq' : .acquire ∉ unwind rest := fun h => hacq (hsuf.mem h)
    have hmem : .release ∈ unwind rest ↔ .release ∈ rest := ⟨fun h => hsuf.mem h, hrel⟩
    exact ⟨⟨fun h => hacq' (List.mem_of_mem_tail h), Nat.le_trans (hsuf.sublist.count_le _) hcount, fun h => absurd h hacq'⟩,
      by simp [hacq', hmem, hheld]⟩
  · have hma : .acquire ∉ m := fun h => (hm _ h).1 rfl
    have hmr : .release ∉ m := fun h => (hm _ h).2 rfl
    have hacq' : .acquire ∉ m ++ rest := by simp [hma, hacq]
    exact ⟨⟨fun h => hacq' (List.mem_of_mem_tail h), by simpa [List.count_eq_zero.2 hmr] using hcount,
      fun h => absurd h hacq'⟩, by simp [hma, hmr, hacq, hheld]⟩

/-- Every caller is placed rightly beside the lock. -/
def State.LockPlaced (s : State) : Prop := ∀ c, Placed (s.caller c).task (s.lock = some c)

theorem State.LockInv.placed {s : State} (h : s.LockInv) : s.LockPlaced := fun c => ⟨h.shape c, h.holder c⟩

theorem State.LockPlaced.of_eq {s t : State} (h : s.LockPlaced) (ht : ∀ k, (t.caller k).task = (s.caller k).task)
    (hl : t.lock = s.lock) : t.LockPlaced := fun c => by rw [ht, hl]; exact h c

theorem lockPlaced_lineEffect {a : Act} {rest : List Act} {s t : State} (hs : s.LockPlaced)
    (ht : s.self.task = a :: rest) (h : lineEffect a rest s t) : t.LockPlaced := by
  obtain ⟨hactor, -, hother, -, hcases⟩ := h
  have hself : Placed (a :: rest) (s.lock = some s.actor) := ht ▸ hs s.actor
  intro k
  by_cases hk : k = s.actor
  · subst hk
    rw [show (t.caller s.actor).task = t.self.task by rw [State.self, hactor]]
    rcases hcases with ⟨rfl, -, hl, e⟩ | ⟨rfl, -, hl, e⟩ | ⟨rfl, -, hl, e⟩ | ⟨ha, hr, hl, hg⟩
    · simpa [e, hl] using hself.acquired
    · rw [e, hl]; exact hself
    · simpa [e, hl] using hself.released
    · rw [hl]; exact hself.goesOn ha hr hg
  · have hlock : t.lock = some k ↔ s.lock = some k := by
      rcases hcases with ⟨-, h0, hl, -⟩ | ⟨-, -, hl, -⟩ | ⟨-, h0, hl, -⟩ | ⟨-, -, hl, -⟩
      · simp [h0, hl, Ne.symm hk]
      · rw [hl]
      · simp [h0, hl, Ne.symm hk]
      · rw [hl]
    rw [hother k hk, hlock]
    exact hs k

theorem lockPlaced_advance {s t : State} (hw : s.CallersWf) (hs : s.LockPlaced) (h : advance s = .next t) :
    t.LockPlaced := by
  unfold advance at h
  split at h
  · cases h; exact hs
  · rename_i a rest ht
    exact lockPlaced_lineEffect hs ht (performLine_effect hw h)

-- The operations of an idle caller

/-- The lines of an operation that does not use the lock, or that begins by taking it. -/
def outside (l : List Act) : Prop :=
  (.acquire ∉ l ∧ .release ∉ l) ∨ ∃ m, l = .acquire :: m ∧ .acquire ∉ m ∧ m.count .release = 1

theorem placed_of_outside {l : List Act} (h : outside l) : Placed l False := by
  rw [placed_iff]
  rcases h with ⟨ha, hr⟩ | ⟨m, rfl, ha, hr⟩
  · exact ⟨⟨fun h => ha (List.mem_of_mem_tail h), by simp [List.count_eq_zero.2 hr], fun h => absurd h ha⟩, by simp [hr]⟩
  · have hmem : .release ∈ m := List.count_pos_iff.1 (by omega)
    exact ⟨⟨ha, by simp [hr], fun _ => List.mem_cons_of_mem _ hmem⟩, by simp⟩

/-- An idle caller does not hold the lock. -/
theorem State.LockPlaced.not_held {s : State} (hs : s.LockPlaced) (ht : s.self.task = []) : s.lock ≠ some s.actor := by
  have h := (hs s.actor).holder
  rw [show (s.caller s.actor).task = [] from ht] at h
  exact fun hl => absurd (h.2 hl) (by decide)

/-- An idle caller is given an operation. -/
theorem lockPlaced_putSelf {s : State} (hw : s.CallersWf) (hs : s.LockPlaced) (ht : s.self.task = []) {c : Caller}
    (hc : outside c.task) : (s.putSelf c).LockPlaced := by
  intro k
  by_cases hk : k = s.actor
  · subst hk
    rw [show (s.putSelf c).caller s.actor = c from State.self_putSelf hw c]
    simpa [hs.not_held ht] using placed_of_outside hc
  · rw [State.caller_putSelf_other s hk]
    exact hs k

theorem lockPlaced_ret {s : State} (hw : s.CallersWf) (hs : s.LockPlaced) (ht : s.self.task = []) (r : Result) :
    (s.ret r).LockPlaced :=
  lockPlaced_putSelf hw hs ht (by rw [show (Caller.task { s.self with result := r }) = [] from ht]; exact .inl (by simp))

theorem lockPlaced_goOn {s : State} (hw : s.CallersWf) (hs : s.LockPlaced) (ht : s.self.task = []) (r : Result)
    {l : List Act} (hl : outside l) : (s.goOn r (l ++ s.self.task)).LockPlaced :=
  lockPlaced_putSelf hw hs ht (by rw [ht, List.append_nil]; exact hl)

/-- An operation that performs its first line at once. -/
theorem lockPlaced_begun {s t : State} (hw : s.CallersWf) (hs : s.LockPlaced) (ht : s.self.task = []) (r : Result)
    {l : List Act} (hl : outside l) (h : advance (s.goOn r (l ++ s.self.task)) = .next t) : t.LockPlaced :=
  lockPlaced_advance (hw.goOn _ _) (lockPlaced_goOn hw hs ht r hl) h

theorem lockPlaced_startTransfer {a : Byte} {n : Nat} {x y : List Byte} {l : List Act} {s t : State} (hw : s.CallersWf)
    (hs : s.LockPlaced) (ht : s.self.task = []) (hl : outside l) (h : startTransfer a n x y l s = .next t) :
    t.LockPlaced := by
  unfold startTransfer at h
  split at h <;> cases h
  exact lockPlaced_putSelf hw hs ht (by rw [ht, List.append_nil]; exact hl)

theorem outside_armLines (o : Options) (d : Dir) (a : Byte) (b : BufRef) (n : Nat) : outside (armLines o d a b n) :=
  .inl (by simp [armLines])

theorem outside_xferLines (o : Options) (d : Dir) (a : Byte) (b : BufRef) (n : Nat) : outside (xferLines o d a b n) :=
  .inl (by simp [xferLines, clkEnsureLines, armLines])

theorem outside_initLines (o : Options) (sp : Speed) (line : Word) : outside (initLines o sp line) :=
  .inl (by simp [initLines, clkEnsureLines])

theorem outside_deinitLines (o : Options) : outside (deinitLines o) := .inl (by simp [deinitLines, clkDisableLines])

theorem outside_oneTransferLines (o : Options) (d : Dir) (a : Byte) (b : BufRef) (n : Nat) :
    outside (oneTransferLines o d a b n) :=
  .inr ⟨_, rfl, by simp [xferLines, clkEnsureLines, armLines], by simp [xferLines, clkEnsureLines, armLines]⟩

theorem outside_indexedReadLines (o : Options) (me serial : Nat) (a : Byte) (n : Nat) (how : Deliver) :
    outside (indexedReadLines o me serial a n how) :=
  .inr ⟨_, rfl, by simp [xferLines, clkEnsureLines, armLines], by simp [xferLines, clkEnsureLines, armLines]⟩

/-- A result returned after a register access. -/
theorem lockPlaced_ret_of_sameCallers {s u : State} (hw : s.CallersWf) (hs : s.LockPlaced) (ht : s.self.task = [])
    (h : sameCallers s u) (r : Result) : (u.ret r).LockPlaced := by
  obtain ⟨hc, ha, -, hl⟩ := h
  have hk : ∀ k, u.caller k = s.caller k := fun k => by rw [State.caller, hc, State.caller]
  refine lockPlaced_ret (by rwa [State.CallersWf, hc]) (hs.of_eq (fun k => by rw [hk]) hl) ?_ r
  rw [State.self, hk, ha]
  exact ht

theorem lockPlaced_callerRead {r : Reg} {s t : State} (hw : s.CallersWf) (hs : s.LockPlaced) (ht : s.self.task = [])
    (h : callerRead r s = .next t) : t.LockPlaced := by
  obtain ⟨p, hp, h⟩ := andThen_next h; cases h
  exact lockPlaced_ret_of_sameCallers hw hs ht (sameCallers_read hp) _

theorem lockPlaced_callerWrite {r : Reg} {v : Word} {s t : State} (hw : s.CallersWf) (hs : s.LockPlaced)
    (ht : s.self.task = []) (h : callerWrite r v s = .next t) : t.LockPlaced := by
  obtain ⟨p, hp, h⟩ := andThen_next h; cases h
  exact lockPlaced_ret_of_sameCallers hw hs ht (sameCallers_write hp) _

theorem lockPlaced_execInit {khz line : Word} {s t : State} (hw : s.CallersWf) (hs : s.LockPlaced) (ht : s.self.task = [])
    (h : execInit khz line s = .next t) : t.LockPlaced := by
  unfold execInit at h
  split at h
  · cases h
  · split at h <;> cases h
    · exact lockPlaced_ret hw hs ht _
    · exact lockPlaced_goOn (s := { s with ctl := _ }) hw hs ht _ (outside_initLines ..)

theorem lockPlaced_execDeinit {s t : State} (hw : s.CallersWf) (hs : s.LockPlaced) (ht : s.self.task = [])
    (h : execDeinit s = .next t) : t.LockPlaced := by
  unfold execDeinit at h
  split at h
  · cases h
  · split at h
    · cases h; exact lockPlaced_ret hw hs ht _
    · split at h
      · cases h
      · split at h <;> cases h
        exact lockPlaced_goOn (s := { s with ctl := _ }) hw hs ht _ (outside_deinitLines ..)

theorem lockPlaced_transferBytes {d : Dir} {a : Byte} {b : Option Word} {n : Word} {s t : State} (hw : s.CallersWf)
    (hs : s.LockPlaced) (ht : s.self.task = []) (h : transferBytes d a b n s = .next t) : t.LockPlaced := by
  obtain ⟨-, rfl | h⟩ := transferCall_next h
  · exact lockPlaced_ret hw hs ht _
  · obtain rfl | ⟨base, -, -, h⟩ := bufferCall_next h
    · exact lockPlaced_ret hw hs ht _
    · exact lockPlaced_startTransfer hw hs ht (outside_oneTransferLines ..) h

theorem lockPlaced_execReadBlock {a g : Byte} {b : Option Word} {n : Word} {s t : State} (hw : s.CallersWf)
    (hs : s.LockPlaced) (ht : s.self.task = []) (h : execReadBlock a g b n s = .next t) : t.LockPlaced := by
  obtain ⟨-, rfl | h⟩ := transferCall_next h
  · exact lockPlaced_ret hw hs ht _
  · obtain rfl | ⟨base, -, -, h⟩ := bufferCall_next h
    · exact lockPlaced_ret hw hs ht _
    · unfold startReadBlock at h
      split at h
      · cases h; exact lockPlaced_ret (s := s.tick) hw hs ht _
      · exact lockPlaced_startTransfer (s := s.tick.ticks n.toNat) hw hs ht (outside_indexedReadLines ..) h

theorem lockPlaced_startArming {d : Dir} {a : Byte} {b n : Word} {s t : State} (hw : s.CallersWf) (hs : s.LockPlaced)
    (ht : s.self.task = []) (h : startArming d a b n s = .next t) : t.LockPlaced := by
  unfold startArming at h
  split at h
  · cases h
  · exact lockPlaced_begun hw hs ht _ (outside_armLines ..) h

theorem lockPlaced_execXferLocked {d : Dir} {a : Byte} {b n : Word} {s t : State} (hw : s.CallersWf) (hs : s.LockPlaced)
    (ht : s.self.task = []) (h : execXferLocked d a b n s = .next t) : t.LockPlaced := by
  unfold execXferLocked at h
  split at h
  · cases h
  · split at h
    · cases h
    · exact lockPlaced_begun hw hs ht _ (outside_xferLines ..) h

theorem lockPlaced_execWaitComplete {s t : State} (hw : s.CallersWf) (hs : s.LockPlaced) (ht : s.self.task = [])
    (h : execWaitComplete s = .next t) : t.LockPlaced := by
  unfold execWaitComplete at h
  split at h
  · exact lockPlaced_begun (l := [.wait]) hw hs ht _ (.inl (by simp)) h
  · split at h <;> cases h

/-- An operation of the consumer API, by an idle caller. -/
theorem lockPlaced_byCaller {i : Instr} {s t : State} (hb : i.byCaller = true) (ha : i ≠ .lockAcquire)
    (hr : i ≠ .lockRelease) (hw : s.CallersWf) (hs : s.LockPlaced) (ht : s.self.task = []) (h : exec i s = .next t) :
    t.LockPlaced := by
  cases i with
  | init khz line => exact lockPlaced_execInit hw hs ht h
  | deinit => exact lockPlaced_execDeinit hw hs ht h
  | writeBytes | readBytes => exact lockPlaced_transferBytes hw hs ht h
  | writeRegister =>
    obtain ⟨-, rfl | h⟩ := transferCall_next h
    · exact lockPlaced_ret hw hs ht _
    · exact lockPlaced_startTransfer hw hs ht (outside_oneTransferLines ..) h
  | readRegister =>
    obtain ⟨-, rfl | h⟩ := transferCall_next h
    · exact lockPlaced_ret hw hs ht _
    · exact lockPlaced_startTransfer hw hs ht (outside_indexedReadLines ..) h
  | readBlock => exact lockPlaced_execReadBlock hw hs ht h
  | clkEnsureEnabled | clkDisable => exact lockPlaced_begun (l := [_]) hw hs ht _ (.inl (by simp)) h
  | clkIsEnabled =>
    obtain ⟨p, hp, h⟩ := andThen_next h; cases h
    exact lockPlaced_ret_of_sameCallers hw hs ht (sameCallers_read hp) _
  | startWrite | startRead => exact lockPlaced_startArming hw hs ht h
  | waitComplete => exact lockPlaced_execWaitComplete hw hs ht h
  | lockAcquire => exact absurd rfl ha
  | lockRelease => exact absurd rfl hr
  | xferLocked => exact lockPlaced_execXferLocked hw hs ht h
  | rdIrqstatusRaw | rdIrqstatus | rdIrqenableSet | rdIrqenableClr | rdCnt | rdData | rdCon | rdSa | rdPsc | rdScll
  | rdSclh | rdClkctrl => exact lockPlaced_callerRead hw hs ht h
  | wrIrqstatusRaw | wrIrqstatus | wrIrqenableSet | wrIrqenableClr | wrCnt | wrData | wrCon | wrSa | wrPsc | wrScll
  | wrSclh | wrClkctrl | conStartTx | conStartRx | conEnable | conDisable => exact lockPlaced_callerWrite hw hs ht h
  | _ => cases hb

-- Events and the interrupt service

/-- The timeout sends a caller that waits to the recovery, whose lines are not the lock's. -/
theorem lockPlaced_xferTimeoutFires {s t : State} (hw : s.CallersWf) (hs : s.LockPlaced)
    (h : execXferTimeoutFires s = .next t) : t.LockPlaced := by
  unfold execXferTimeoutFires at h
  split at h
  · rename_i k d hl hd
    split at h
    · rename_i rest ht
      split at h <;> cases h
      · exact hs
      · intro j
        by_cases hj : j = k
        · subst hj
          rw [State.caller_putCaller_self hw]
          have hp := hs j
          rw [ht] at hp
          exact hp.goesOn (by simp) (by simp) (.inr (.inr ⟨recoverLines s.opts, rfl, by simp [recoverLines]⟩))
        · rw [State.caller_putCaller_other _ _ hj]
          exact hs j
    · cases h; exact hs
  · cases h; exact hs

theorem lockPlaced_event {i : Instr} {s t : State} (hf : i.format = .evt8) (hn : ∀ d, i ≠ .engStart d)
    (hw : s.CallersWf) (hs : s.LockPlaced) (h : exec i s = .next t) : t.LockPlaced := by
  rcases event_kinds hf hn with hi | hp | rfl
  · obtain ⟨_, _, _, _, _, rfl⟩ := engFrame_of_engineEvent hi h
    exact hs
  · obtain ⟨_, _, _, rfl⟩ := powerManager_next hp h
    exact hs
  · exact lockPlaced_xferTimeoutFires hw hs h

/-- The interrupt service has no access to the lock and gives no caller anything to do. -/
theorem lockPlaced_isr {s t : State} (hs : s.LockPlaced) (hf : s.IsrFrame t) (ht : s.SameTasks t) : t.LockPlaced :=
  hs.of_eq ht.task (by obtain ⟨_, _, _, _, _, _, _, rfl⟩ := hf; rfl)

-- The step

/-- What the schedule offers through the consumer API is neither lock operation. -/
theorem not_lock_of_usesApi {o : Options} {k : Nat} {f : Format} {bytes after : List Byte} {i : Instr}
    (hd : decode o f bytes = .ok (i, after)) (h : (Slot.op k f bytes).usesApi o = true) :
    i ≠ .lockAcquire ∧ i ≠ .lockRelease := by
  refine ⟨?_, ?_⟩ <;> (rintro rfl; simp [Slot.usesApi, hd] at h)

theorem step_lockPlaced {s t : State} (hw : s.CallersWf) (hi : s.LockInv) (h : step s = .next t) : t.LockPlaced := by
  have hs := hi.placed
  rcases step_cases h with ⟨-, rfl⟩ | ⟨k, rest, -, h⟩ | ⟨rest, -, h⟩ | ⟨k, f, bytes, i, after, rest, hsched, hd, h⟩
  · exact hs
  · exact lockPlaced_advance (s := { s with sched := rest, actor := k }) hw hs h
  · exact lockPlaced_isr (s := { s with sched := rest }) hs (frame_isrAdvance h) (sameTasks_isrAdvance hw h)
  · rcases h with ⟨hb, ht, h⟩ | ⟨-, -, rfl⟩ | ⟨hb, hn, h⟩ | ⟨-, rfl⟩
    · obtain ⟨ha, hr⟩ := not_lock_of_usesApi hd (hi.api _ (hsched ▸ List.mem_cons_self))
      exact lockPlaced_byCaller (s := { s with sched := rest, actor := k }) hb ha hr hw hs ht h
    · exact hs
    · by_cases hsvc : i = .isrService
      · subst hsvc
        exact lockPlaced_isr (s := { s with sched := rest }) hs (frame_isrService h) (sameTasks_isrService hw h)
      · exact lockPlaced_event (s := { s with sched := rest }) (format_of_not_byCaller hb hsvc) hn hw hs h
    · exact hs

/-- Settles O42: a step shortens the schedule and keeps every caller placed rightly beside the lock. -/
theorem lockDisciplineKept : Obligations.LockDisciplineKept := by
  intro s t hw hi h
  have hp := step_lockPlaced hw hi h
  refine ⟨fun x hx => ?_, fun c => (hp c).shape, fun c => (hp c).holder⟩
  rw [(step_continues h).opts]
  exact hi.api x (List.mem_of_mem_tail (step_sched h ▸ hx))

end Sys2Proof.Machine
end

section
/-!
The invariant of every state (43 R247 I1, 42 R194, 40 R155, 10_state R35): each elementary move and each event keeps it.
-/
namespace Sys2Proof.Machine

-- The wire

theorem wireFrom_append (p : WireSt) (w l : List WireEvent) : wireFrom p (w ++ l) = (wireFrom p w).bind (wireFrom · l) := by
  induction w generalizing p with
  | nil => rfl
  | cons e w ih =>
    rw [List.cons_append, wireFrom, wireFrom]
    cases wireStep p e with
    | none => rfl
    | some q => exact ih q

/-- A history that goes on stands where its new events lead from where it stood. -/
theorem wirePlace_append {w : List WireEvent} {p : WireSt} (h : wirePlace w = some p) (l : List WireEvent) :
    wirePlace (w ++ l) = wireFrom p l := by
  rw [wirePlace, wireFrom_append, show wireFrom .gap w = some p from h]
  rfl

/-- The history stands between transactions, or inside one where a START or a lost arbitration may follow. -/
def openWire (w : List WireEvent) : Prop :=
  wirePlace w = some .gap ∨ wirePlace w = some .inside ∨ wirePlace w = some .lastByte

theorem Engine.onWire_of_idle {e : Engine} {w : List WireEvent} (h : e.st = .idle ∨ e.st = .addr) :
    e.onWire w ↔ openWire w := by
  rcases h with h | h <;> simp [Engine.onWire, openWire, h]

theorem Engine.onWire_of_inside {e : Engine} {w : List WireEvent}
    (h : e.st = .txWait ∨ e.st = .txShift ∨ e.st = .rxShift ∨ e.st = .rxWait) :
    e.onWire w ↔ wirePlace w = some .inside := by
  rcases h with h | h | h | h <;> simp [Engine.onWire, h]

theorem Engine.onWire_of_stop {e : Engine} {w : List WireEvent} (h : e.st = .stop) :
    e.onWire w ↔ wirePlace w = some (if e.dir = .tx then .inside else .lastByte) := by
  cases hd : e.dir <;> simp [Engine.onWire, h, hd]

theorem Engine.onWire.openWire {e : Engine} {w : List WireEvent} (h : e.onWire w) : openWire w := by
  unfold Engine.onWire at h
  split at h
  · exact h
  · exact h
  · exact .inr (.inl h)
  · exact .inr (.inl h)
  · exact .inr (.inl h)
  · exact .inr (.inl h)
  · split at h
    · exact .inr (.inl h)
    · exact .inr (.inr h)

/-- The wire looks at the engine's state and direction alone. -/
theorem Engine.onWire_congr {e f : Engine} {w : List WireEvent} (hs : f.st = e.st) (hd : f.dir = e.dir) :
    f.onWire w ↔ e.onWire w := by
  simp only [Engine.onWire, hs, hd]

-- The engine

/-- The engine accounts for its bytes and stands where its wire does. -/
structure Engine.Sound (e : Engine) (w : List WireEvent) : Prop where
  accounted : e.accounted
  onWire : e.onWire w

/-- Neither part looks at the window, at a late ARDY or at the extra ready events. -/
theorem Engine.Sound.flags {e : Engine} {w : List WireEvent} (h : e.Sound w) (x y : Bool) (k : Nat) :
    Engine.Sound { e with window := x, lateArdy := y, extra := k } w := ⟨h.accounted, h.onWire⟩

theorem Engine.sound_idle {e : Engine} {w : List WireEvent} (hs : e.st = .idle) (hw : openWire w) : e.Sound w :=
  ⟨by simp [Engine.accounted, hs], (Engine.onWire_of_idle (.inl hs)).2 hw⟩

/-- A START latches a count that is not 0 (42 R193). -/
theorem Engine.sound_started (d : Dir) {n : Nat} (hn : 1 ≤ n) (a : BitVec 7) {w : List WireEvent} (hw : openWire w) :
    (Engine.started d n a).Sound w :=
  ⟨⟨rfl, rfl, rfl, hn⟩, (Engine.onWire_of_idle (.inr rfl)).2 hw⟩

/-- The byte handed over is the next one the engine shifts out (40 R141). -/
theorem Engine.Sound.dataWritten {e : Engine} {w : List WireEvent} (h : e.Sound w) (hs : e.st = .txWait) (b : Byte) :
    Engine.Sound { e with hold := some b, loaded := e.loaded + 1, st := .txShift } w := by
  obtain ⟨ha, hw⟩ := h
  simp only [Engine.accounted, hs] at ha
  obtain ⟨hd, -, hsum, hrem⟩ := ha
  exact ⟨⟨hd, rfl, by dsimp only; omega, hrem⟩,
    (Engine.onWire_of_inside (.inr (.inl rfl))).2 ((Engine.onWire_of_inside (.inl hs)).1 hw)⟩

/-- A held byte of a receive is handed over (40 R142). -/
theorem Engine.Sound.dataRead {e : Engine} {w : List WireEvent} (h : e.Sound w) {b : Byte} (hb : e.hold = some b)
    (hd : e.dir = .rx) :
    Engine.Sound
      { e with hold := none, loaded := e.loaded + 1, st := if e.st = .rxWait then .rxShift else e.st } w := by
  obtain ⟨ha, hw⟩ := h
  cases hs : e.st with
  | idle => exact Engine.sound_idle (by simp) hw.openWire
  | addr | txWait | txShift | rxShift => simp [Engine.accounted, hs, hb, hd] at ha
  | rxWait =>
    simp only [Engine.accounted, hs] at ha
    obtain ⟨-, -, hsum, hrem⟩ := ha
    exact ⟨⟨hd, rfl, hsum, hrem⟩,
      (Engine.onWire_of_inside (.inr (.inr (.inl rfl)))).2 ((Engine.onWire_of_inside (by simp [hs])).1 hw)⟩
  | stop =>
    simp only [Engine.accounted, hs, hb, heldCount] at ha
    obtain ⟨hrem, hsum, -⟩ := ha
    exact ⟨⟨hrem, hsum, fun _ => rfl⟩, (Engine.onWire_congr (e := e) (by simp [hs]) (by rfl)).2 hw⟩

-- The moves

theorem State.Inv.sound {s : State} (h : s.Inv) : s.eng.Sound s.wire := ⟨h.engine, h.wire⟩

/-- A change of the engine, the wire, the latches and the counter of draws alone. -/
theorem State.Inv.withEngine {s : State} (h : s.Inv) {e : Engine} {w : List WireEvent} (he : e.Sound w) (r : Status) (n : Nat) :
    State.Inv { s with eng := e, wire := w, raw := r, draws := n } :=
  { h with engine := he.accounted, wire := he.onWire }

theorem inv_readRule (r : Reg) {s : State} (h : s.Inv) : (readRule r s).2.Inv := by
  rcases readRule_cases r s with e | e | ⟨-, ⟨b, hb⟩, hd, -, e⟩ <;> rw [e]
  · exact h
  · exact { h with }
  · exact h.withEngine (h.sound.dataRead hb hd) _ _

theorem inv_writeRule {r : Reg} {v : Word} {s t : State} (h : s.Inv) (hw : writeRule r v s = .next t) : t.Inv := by
  rcases writeRule_cases hw with ⟨-, rfl⟩ | ⟨-, rfl⟩ | ⟨-, rfl⟩ | ⟨-, rfl⟩ | ⟨-, hs, rfl⟩ | ⟨-, rfl⟩ | ⟨-, rfl⟩ | ⟨-, rfl⟩
    | ⟨-, n, d, a, -, hn, rfl⟩ | ⟨-, rfl⟩ | ⟨-, rfl⟩ | ⟨-, rfl⟩ | ⟨-, rfl⟩ | ⟨-, hm, rfl⟩
  · exact h.withEngine (by rw [ackWindow_eq]; exact h.sound.flags ..) _ _
  · exact { h with }
  · exact { h with }
  · refine { h with count := fun n hn => ?_ }
    cases hn
    rw [lowBits_toNat s.opts.count.inWord]
    exact Nat.mod_lt _ (Nat.two_pow_pos _)
  · exact h.withEngine (h.sound.dataWritten hs _) _ _
  · exact h
  · have he : s.eng.disabled.Sound s.wire := Engine.sound_idle rfl h.wire.openWire
    exact { h with engine := he.accounted, wire := he.onWire }
  · exact { h with }
  · have hpos : 1 ≤ n.toNat := Nat.one_le_iff_ne_zero.2 fun e => hn (BitVec.eq_of_toNat_eq e)
    have he := Engine.sound_started d hpos a h.wire.openWire
    exact { h with engine := he.accounted, wire := he.onWire }
  · exact { h with }
  · exact { h with }
  · exact { h with }
  · exact { h with }
  · exact { h with modulemode := hm }

theorem Move.inv {s t : State} (hm : Move s t) (h : s.Inv) : t.Inv := by
  cases hm with
  | caller k c => exact { h with callers := sparseWrite_wf h.callers k c }
  | noTxn => exact { h with index := fun _ ht => nomatch ht }
  | freshTxn => exact { h with index := fun t ht => by cases ht; exact Nat.le_refl 0 }
  | arm d b n => exact { h with index := fun t ht => by cases ht; exact Nat.zero_le n }
  | mark d e p c w hd => exact { h with index := fun t ht => by cases ht; exact h.index d hd }
  | index d hd hi => exact { h with index := fun t ht => by cases ht; exact hi }
  | store a b => exact { h with mem := Memory.write_wf h.mem a b }
  | read r => exact inv_readRule r h
  | write _ r v _ hw => exact inv_writeRule h hw
  | _ => exact { h with }

-- The reference slave

/-- A slave's register file is canonical and has 256 bytes (42 R212). -/
def Env.slaveWf (e : Env) : Prop := ∀ r, e = .refSlave r → r.mem.wf ∧ ∀ x ∈ r.mem, x.1 < 256

theorem Env.slaveWf.passed {e : Env} (h : e.slaveWf) : e.passed.slaveWf := fun r hr => h r ((e.passed_eq_refSlave r).1 hr)

theorem Env.slaveWf.addressed {e : Env} (h : e.slaveWf) (d : Dir) : (e.addressed d).slaveWf := by
  cases e with
  | oracle l => exact fun _ hr => nomatch hr
  | refSlave q =>
    intro r hr
    cases hr
    have hq := h q rfl
    split <;> exact hq

theorem Env.slaveWf.given {e : Env} (h : e.slaveWf) : e.given.slaveWf := by
  cases e with
  | oracle l => exact fun _ hr => nomatch hr
  | refSlave q => intro r hr; cases hr; exact h q rfl

theorem Env.slaveWf.take {e : Env} (h : e.slaveWf) (b : Byte) : (e.take b).slaveWf := by
  cases e with
  | oracle l => exact fun _ hr => nomatch hr
  | refSlave q =>
    intro r hr
    cases hr
    obtain ⟨hwf, hlt⟩ := h q rfl
    split
    · exact ⟨hwf, hlt⟩
    · refine ⟨Memory.write_wf hwf _ _, fun x hx => ?_⟩
      rcases sparseWrite_mem hx with hx | ⟨rfl, -⟩
      · exact hlt x hx
      · exact q.ptr.isLt

-- The events

/-- The end in error, where the wire goes on to a gap (42 R196, R199, R202). -/
theorem Engine.sound_failed {w : List WireEvent} {p : WireSt} {l : List WireEvent} (hp : wirePlace w = some p)
    (hl : wireFrom p l = some .gap) (e : Engine) (y : Bool) :
    Engine.Sound { e with st := .idle, hold := none, lateArdy := y } (w ++ l) :=
  Engine.sound_idle rfl (.inl (by rw [wirePlace_append hp, hl]))

section
variable {e : Engine} {w : List WireEvent} (h : e.Sound w)
include h

/-- The address goes out after a gap, or after a transaction the engine abandoned (42 R193). -/
theorem Engine.Sound.address (a : BitVec 7) (x : Bool) (l : List WireEvent) :
    wirePlace (w ++ .start :: .addr a x :: l) = wireFrom .sawAddr l := by
  rcases h.onWire.openWire with h | h | h <;> exact wirePlace_append h _

theorem Engine.Sound.addr_accounted (hs : e.st = .addr) : e.hold = none ∧ e.loaded + e.rem = e.cnt ∧ 1 ≤ e.rem := by
  have ha := h.accounted
  simp only [Engine.accounted, hs] at ha
  obtain ⟨hhold, hloaded, hrem, hpos⟩ := ha
  exact ⟨hhold, by omega, hpos⟩

theorem Engine.Sound.addrAck_tx (hs : e.st = .addr) (hd : e.dir = .tx) (a : BitVec 7) (x : Bool) :
    Engine.Sound { e with st := .txWait } (w ++ [.start, .addr a x, .ack]) :=
  ⟨⟨hd, h.addr_accounted hs⟩, (Engine.onWire_of_inside (.inl rfl)).2 (h.address a x [.ack])⟩

theorem Engine.Sound.addrAck_rx (hs : e.st = .addr) (hd : e.dir = .rx) (a : BitVec 7) (x : Bool) :
    Engine.Sound { e with st := .rxShift } (w ++ [.start, .addr a x, .ack]) :=
  ⟨⟨hd, h.addr_accounted hs⟩, (Engine.onWire_of_inside (.inr (.inr (.inl rfl)))).2 (h.address a x [.ack])⟩

theorem Engine.Sound.inside (hs : e.st = .txWait ∨ e.st = .txShift ∨ e.st = .rxShift ∨ e.st = .rxWait) :
    wirePlace w = some .inside := (Engine.onWire_of_inside hs).1 h.onWire

theorem Engine.Sound.txShift_accounted (hs : e.st = .txShift) :
    e.dir = .tx ∧ e.loaded + e.rem = e.cnt + 1 ∧ 1 ≤ e.rem := by
  have ha := h.accounted
  simp only [Engine.accounted, hs] at ha
  exact ⟨ha.1, ha.2.2⟩

theorem Engine.Sound.txByteAck_more (hs : e.st = .txShift) (hr : 0 < e.rem - 1) (b : Byte) :
    Engine.Sound { e with hold := none, rem := e.rem - 1, st := .txWait } (w ++ [.byte b, .ack]) := by
  obtain ⟨hd, hsum, hpos⟩ := h.txShift_accounted hs
  exact ⟨⟨hd, rfl, by dsimp only; omega, hr⟩,
    (Engine.onWire_of_inside (.inl rfl)).2 (wirePlace_append (h.inside (.inr (.inl hs))) _)⟩

theorem Engine.Sound.txByteAck_last (hs : e.st = .txShift) (hr : e.rem - 1 = 0) (b : Byte) :
    Engine.Sound { e with hold := none, rem := 0, st := .stop } (w ++ [.byte b, .ack]) := by
  obtain ⟨hd, hsum, hpos⟩ := h.txShift_accounted hs
  refine ⟨⟨rfl, by dsimp only [heldCount]; omega, fun _ => rfl⟩, (Engine.onWire_of_stop rfl).2 ?_⟩
  rw [wirePlace_append (h.inside (.inr (.inl hs))), if_pos hd]
  rfl

theorem Engine.Sound.rxShift_accounted (hs : e.st = .rxShift) :
    e.dir = .rx ∧ e.loaded + e.rem = e.cnt ∧ 1 ≤ e.rem := by
  have ha := h.accounted
  simp only [Engine.accounted, hs] at ha
  exact ⟨ha.1, ha.2.2⟩

theorem Engine.Sound.rxByte_more (hs : e.st = .rxShift) (hr : 0 < e.rem - 1) (b : Byte) :
    Engine.Sound { e with hold := some b, rem := e.rem - 1, st := .rxWait } (w ++ [.byte b, .ack]) := by
  obtain ⟨hd, hsum, hpos⟩ := h.rxShift_accounted hs
  exact ⟨⟨hd, rfl, by dsimp only; omega, hr⟩,
    (Engine.onWire_of_inside (.inr (.inr (.inr rfl)))).2 (wirePlace_append (h.inside (.inr (.inr (.inl hs)))) _)⟩

theorem Engine.Sound.rxByte_last (hs : e.st = .rxShift) (hr : e.rem - 1 = 0) (b : Byte) :
    Engine.Sound { e with hold := some b, rem := 0, st := .stop } (w ++ [.byte b, .nack]) := by
  obtain ⟨hd, hsum, hpos⟩ := h.rxShift_accounted hs
  refine ⟨⟨rfl, by dsimp only [heldCount]; omega, fun ht => ?_⟩, (Engine.onWire_of_stop rfl).2 ?_⟩
  · exact absurd (hd.symm.trans ht) nofun
  · rw [wirePlace_append (h.inside (.inr (.inr (.inl hs)))), hd]
    rfl

theorem Engine.Sound.stopDone (hs : e.st = .stop) : Engine.Sound { e with st := .idle } (w ++ [.stop]) := by
  have hw := (Engine.onWire_of_stop hs).1 h.onWire
  exact Engine.sound_idle rfl (.inl (by rw [wirePlace_append hw]; cases e.dir <;> rfl))

theorem Engine.Sound.arbLost (y : Bool) :
    Engine.Sound { e with st := .idle, hold := none, lateArdy := y } (w ++ [.lost]) := by
  rcases h.onWire.openWire with hw | hw | hw <;> exact Engine.sound_failed hw rfl e y

end

/-- An event of the engine changes the engine with its wire, and the environment that answered. -/
theorem State.Inv.event {s : State} (h : s.Inv) {e : Engine} {w : List WireEvent} {v : Env} (he : e.Sound w) (hv : v.slaveWf)
    (r : Status) (n : Nat) : State.Inv { s with eng := e, wire := w, raw := r, env := v, draws := n } :=
  { h with engine := he.accounted, wire := he.onWire, slave := hv }

/-- Every enabled event of the engine keeps the invariant. -/
theorem inv_eventCond {s : State} {i : Instr} (hi : s.Inv) (hl : s.engLive = true) (hc : s.eventCond i) :
    ∃ t, exec i s = .next t ∧ t.Inv := by
  have he := hi.sound
  have hv : s.env.slaveWf := hi.slave
  cases i with
  | engAddrAck =>
    obtain ⟨hs, ha⟩ := hc
    cases hd : s.eng.dir with
    | tx => exact ⟨_, exec_engAddrAck_tx hl hs ha hd, hi.event (he.addrAck_tx hs hd _ _) (hv.addressed _) _ _⟩
    | rx => exact ⟨_, exec_engAddrAck_rx hl hs ha hd, hi.event (he.addrAck_rx hs hd _ _) (hv.addressed _) s.raw _⟩
  | engAddrNack =>
    obtain ⟨hs, ha⟩ := hc
    refine ⟨_, exec_engAddrNack hl hs ha, hi.event (Engine.sound_idle rfl ?_) hv.passed _ _⟩
    exact .inl (he.address ..)
  | engTxByteAck =>
    obtain ⟨hs, b, hb, ha⟩ := hc
    rcases Nat.eq_zero_or_pos (s.eng.rem - 1) with hr | hr
    · exact ⟨_, exec_engTxByteAck_last hl hs hb ha hr, hi.event (he.txByteAck_last hs hr b) (hv.take b) s.raw _⟩
    · exact ⟨_, exec_engTxByteAck_more hl hs hb ha hr, hi.event (he.txByteAck_more hs hr b) (hv.take b) _ _⟩
  | engTxByteNack =>
    obtain ⟨hs, b, hb, ha⟩ := hc
    exact ⟨_, exec_engTxByteNack hl hs hb ha,
      hi.event (Engine.sound_failed (he.inside (.inr (.inl hs))) rfl _ _) hv.passed _ _⟩
  | engRxByte =>
    obtain ⟨hs, hh⟩ := hc
    rcases Nat.eq_zero_or_pos (s.eng.rem - 1) with hr | hr
    · exact ⟨_, exec_engRxByte_last hl hs hh hr, hi.event (he.rxByte_last hs hr _) hv.given _ _⟩
    · exact ⟨_, exec_engRxByte_more hl hs hh hr, hi.event (he.rxByte_more hs hr _) hv.given _ _⟩
  | engStopDone => exact ⟨_, exec_engStopDone hl hc, hi.event (he.stopDone hc) hv _ s.draws⟩
  | engArbLost => exact ⟨_, exec_engArbLost hl hc.1 hc.2, hi.event (he.arbLost _) hv.passed _ _⟩
  | engExtraReady =>
    obtain ⟨hw, hcnt, ha⟩ := hc
    exact ⟨_, exec_engExtraReady hl hw hcnt ha, hi.withEngine (he.flags ..) _ s.draws⟩
  | engLateArdy => exact ⟨_, exec_engLateArdy hl hc, hi.withEngine (he.flags ..) _ s.draws⟩
  | _ => cases hc

/-- The power manager clears MODULEMODE or leaves it (41 R177 to R179). -/
theorem powerManager_modulemode {i : Instr} {s t : State} (hp : i = .pmGate ∨ i = .pmUngate ∨ i = .pmIdle)
    (h : exec i s = .next t) : t.modulemode = 0 ∨ t.modulemode = s.modulemode := by
  rcases hp with rfl | rfl | rfl
  · cases h
    dsimp only
    split
    · exact .inl rfl
    · exact .inr rfl
  all_goals
    simp only [exec, execPmUngate, execPmIdle] at h
    repeat' split at h
    all_goals cases h; exact .inr rfl

theorem inv_event {s t : State} {i : Instr} (hf : i.format = .evt8) (hn : ∀ d, i ≠ .engStart d)
    (h : exec i s = .next t) (hi : s.Inv) : t.Inv := by
  rcases event_kinds hf hn with he | hp | rfl
  · by_cases hc : s.engLive = true ∧ s.eventCond i
    · obtain ⟨u, hu, hui⟩ := inv_eventCond hi hc.1 hc.2
      cases hu.symm.trans h
      exact hui
    · cases (exec_of_not_eventCond he fun hl hc' => hc ⟨hl, hc'⟩).symm.trans h
      exact hi
  · have hm := powerManager_modulemode hp h
    obtain ⟨m, x, n, rfl⟩ := powerManager_next hp h
    refine { hi with modulemode := ?_ }
    rcases hm with hm | hm
    · exact .inl hm
    · exact hm ▸ hi.modulemode
  · obtain rfl | ⟨k, c, rfl⟩ := execXferTimeoutFires_next h
    · exact hi
    · exact (Move.caller s k c).inv hi

/-- Settles O57: by the elementary moves and the events a step is made of. -/
theorem invariantKept : Obligations.InvariantKept := fun _ _ hi h =>
  step_keep State.Inv (fun _ _ hs => { hs with }) (fun _ _ => Move.inv) (fun _ _ _ => inv_event) h hi

end Sys2Proof.Machine
end

section
/-!
The interrupt service (43_transaction_fsm_isr R233 to R242, R251): when it runs and that its lines are the pseudocode, what each
of its four steps does, and the decision table of one invocation.
-/
namespace Sys2Proof.Machine

-- When it runs (R233), and the pseudocode (R240)

theorem State.isrEnabled_iff (s : State) :
    s.isrEnabled = true ↔ s.ctl.irqRegistered = true ∧ s.raw &&& s.ie ≠ 0 ∧ s.isr = [] := by
  simp [State.isrEnabled, State.irq, and_assoc]

theorem exec_isrService_disabled {s : State} (h : s.isrEnabled = false) : exec .isrService s = .next s := by
  simp [exec, execIsrService, h]

/-- The pseudocode is the read of the snapshot and what follows it. -/
theorem isrPseudocode_eq (s : State) :
    isrPseudocode s = andThen (regRead .irqstatus s) fun p =>
      isrAfterSnapshot p.2.opts.isrErrAck (statw p.2.opts.bits p.1) p.2 := by
  refine andThen_congr fun p _ => ?_
  dsimp only [isrAfterSnapshot]
  by_cases hb : hasBits (statw p.2.opts.bits p.1) statErr = true
  · rw [if_pos hb, if_pos hb]
    refine andThen_congr fun u hu => ?_
    obtain ⟨d, -, rfl⟩ := onTxn_next hu
    have ho : ∀ c : Bool, (if c then p.2.tick else p.2).opts = p.2.opts := fun c => by cases c <;> rfl
    simp only [ho]
  · rw [if_neg hb, if_neg hb]

/-- An enabled invocation, its lines run at once or later, is the pseudocode. -/
theorem isrRun_eq_pseudocode {s : State} (h : s.isr = []) :
    (andThen (regRead .irqstatus s) fun p =>
      isrRun isrMaxLines (p.2.withIsr (isrPlan p.2.opts.isrErrAck (statw p.2.opts.bits p.1)))) = isrPseudocode s := by
  rw [isrPseudocode_eq]
  refine andThen_congr fun p hp => ?_
  obtain ⟨rfl, -⟩ := regRead_next hp
  rw [isrRun_plan, ← isrAfterSnapshot_withIsr, State.withIsr_nil (s := (readRule .irqstatus s).2) h]

end Sys2Proof.Machine

namespace Sys2Proof
open Machine

/-- Settles O29: the lines of the plan, run one after another, are the pseudocode (`isrRun_plan`). -/
theorem isrPseudocode : Obligations.IsrPseudocode := by
  intro s
  refine ⟨fun h => exec_isrService_disabled ?_, fun he ha => ?_, fun he ha => ?_⟩
  · rw [Bool.eq_false_iff, ne_eq, s.isrEnabled_iff]
    rintro ⟨h1, h2, h3⟩
    rcases h with h | h | h
    · exact absurd (h.symm.trans h1) Bool.false_ne_true
    · exact h2 h
    · exact h h3
  · rw [← isrRun_eq_pseudocode (s.isrEnabled_iff.1 he).2.2]
    simp only [exec, execIsrService, he, if_true]
    refine andThen_congr fun p hp => ?_
    obtain ⟨rfl, -⟩ := regRead_next hp
    exact if_pos ha
  · rw [← isrRun_eq_pseudocode (s.isrEnabled_iff.1 he).2.2]
    simp only [exec, execIsrService, he, if_true, andThen_andThen]
    refine andThen_congr fun p hp => ?_
    obtain ⟨rfl, -⟩ := regRead_next hp
    rw [if_neg (by rw [show (readRule .irqstatus s).2 = s from rfl, ha]; exact Bool.false_ne_true)]
    rfl

end Sys2Proof
end

section
/-!
The four steps of an atomic invocation (43_transaction_fsm_isr R236 to R239, R251), each in a snapshot that makes it the only
one to do anything.
-/
namespace Sys2Proof.Machine

-- Acknowledgements

/-- Ready bits whose level condition does not hold are cleared, and the window is left (40 R134). -/
theorem ackStatus_ready {s : State} {m : Status} (hm : m &&& 7 = 0) (hl : levels s.eng &&& m = 0) :
    ackStatus m s = { s with raw := s.raw &&& ~~~m } := by
  have hw : ackWindow m s.eng = s.eng := if_neg (not_not_intro hm)
  rw [ackStatus, hw, BitVec.and_comm m, hl]
  exact congrArg (fun r => { s with raw := r }) BitVec.or_zero

theorem ackStatus_xrdy {s : State} (h : s.eng.st ≠ .txWait) :
    ackStatus statXrdy s = { s with raw := s.raw &&& ~~~0x10 } := by
  have hx : condXrdy s.eng = false := by simp [condXrdy, h]
  refine ackStatus_ready (by decide) ?_
  rw [levels, hx]
  cases condRrdy s.eng <;> decide

theorem ackStatus_rrdy {s : State} (h : s.eng.hold = none) :
    ackStatus statRrdy s = { s with raw := s.raw &&& ~~~0x08 } := by
  have hr : condRrdy s.eng = false := by simp [condRrdy, h]
  refine ackStatus_ready (by decide) ?_
  rw [levels, hr]
  cases condXrdy s.eng <;> decide

-- The steps in an open block

theorem onTxn_some {s : State} {d : Txn} (h : s.txn = some d) (f : Txn → Txn) :
    s.onTxn f = .next { s with txn := some (f d) } := by rw [State.onTxn, h]

theorem inPhase_eq {s : State} {d : Txn} (h : s.txn = some d) (p : Phase) : inPhase p s = (d.phase == p) := by
  rw [inPhase, h]

/-- The error step 1 records is NACK's where AL is not there, and AL's where NACK is not; with both ERR_TIE decides (R236). -/
theorem recordedError_spec (s : State) (st : Status) :
    (st &&& 0x03 = 0x02 → (recordedError s st).1 = .noAcknowledge)
      ∧ (st &&& 0x03 = 0x01 → (recordedError s st).1 = .arbitrationLost)
      ∧ (st &&& 0x03 = 0x03 → ∀ x, s.opts.errTie = some x → (recordedError s st).1 = x) := by
  have bits : ∀ st : Status, (st &&& 0x03 = 0x02 → hasBits st statNack = true ∧ hasBits st statAl = false)
      ∧ (st &&& 0x03 = 0x01 → hasBits st statNack = false)
      ∧ (st &&& 0x03 = 0x03 → hasBits st statNack = true ∧ hasBits st statAl = true) := by decide
  obtain ⟨hn, ha, hb⟩ := bits st
  refine ⟨fun h => ?_, fun h => ?_, fun h x hx => ?_⟩
  · obtain ⟨h1, h2⟩ := hn h
    simp [recordedError, h1, h2]
  · simp [recordedError, ha h]
  · obtain ⟨h1, h2⟩ := hb h
    simp [recordedError, h1, h2, hx]

/-- Step 1 whole (R236). -/
theorem isrAfterSnapshot_error {s : State} {d : Txn} {st : Status} (o : ErrAck) (ho : s.i2cOpen = true)
    (hd : s.txn = some d) (he : st &&& 0x03 ≠ 0) :
    isrAfterSnapshot o st s = .next
      { s with
        txn := some { d with error := some (recordedError s st).1, phase := .idle, completion := true }
        raw := s.raw &&& ~~~(errAckMask o st)
        eng := { s.eng with window := false }
        draws := if (recordedError s st).2 then s.draws + 1 else s.draws } := by
  have hmask : errAckMask o st &&& 7 ≠ 0 := by
    have bits : ∀ st : Status, st &&& 0x03 ≠ 0 → st &&& statErr &&& 7 ≠ 0 ∧ st &&& 7 ≠ 0 := by decide
    cases o
    · exact (bits st he).1
    · exact (bits st he).2
  have hs : ∀ c : Bool, (if c then s.tick else s) = { s with draws := if c then s.draws + 1 else s.draws } :=
    fun c => by cases c <;> rfl
  rw [isrAfterSnapshot, if_pos ((hasBits_iff st).1.2 he)]
  dsimp only
  rw [hs, onTxn_some (by exact hd), andThen_of_next, ack_open (by exact ho), andThen_of_next, ack_closes _ _ hmask]
  exact onTxn_some (d := { d with error := some (recordedError s st).1, phase := .idle }) rfl _

theorem isrStep2_skip {st : Status} {s : State} (h : st &&& 0x10 = 0 ∨ inPhase .writing s = false) :
    isrStep2 st s = .next s := by
  refine if_neg fun hc => ?_
  rw [Bool.and_eq_true, (hasBits_iff st).2.2.2.1] at hc
  rcases h with h | h
  · exact hc.1 h
  · exact absurd (h.symm.trans hc.2) Bool.false_ne_true

theorem isrStep3_skip {st : Status} {s : State} (h : st &&& 0x08 = 0 ∨ inPhase .reading s = false) :
    isrStep3 st s = .next s := by
  refine if_neg fun hc => ?_
  rw [Bool.and_eq_true, (hasBits_iff st).2.2.2.2.1] at hc
  rcases h with h | h
  · exact hc.1 h
  · exact absurd (h.symm.trans hc.2) Bool.false_ne_true

theorem isrStep4_skip {st : Status} {s : State} (h : st &&& 0x04 = 0) : isrStep4 st s = .next s :=
  if_neg fun hc => (hasBits_iff st).2.2.2.2.2.1 hc h

/-- Step 4 whole (R239). -/
theorem isrStep4_ardy {st : Status} {s : State} {d : Txn} (ho : s.i2cOpen = true) (hd : s.txn = some d)
    (h : st &&& 0x04 ≠ 0) : isrStep4 st s = .next
      { s with
        txn := some { d with phase := .idle, completion := true }
        raw := s.raw &&& ~~~0x04
        eng := { s.eng with window := false } } := by
  rw [isrStep4, if_pos ((hasBits_iff st).2.2.2.2.2.2 h), ack_open ho, andThen_of_next, ack_closes _ _ (by decide)]
  exact onTxn_some (by exact hd) _

/-- Without an error the three steps follow one another (R235, R241). -/
theorem isrAfterSnapshot_steps {st : Status} {s : State} (o : ErrAck) (h : st &&& 0x03 = 0) :
    isrAfterSnapshot o st s = andThen (isrStep2 st s) fun s => andThen (isrStep3 st s) (isrStep4 st) :=
  if_neg fun hc => (hasBits_iff st).1.1 hc h

/-- Settles O30: step 1 whole, its error and its mask read off the snapshot. -/
theorem isrErrorStep : Obligations.IsrErrorStep := by
  intro s d he ha ho hd hst
  obtain ⟨hn, hal, hb⟩ := recordedError_spec s (s.raw &&& s.ie)
  refine ⟨_, if (recordedError s (s.raw &&& s.ie)).2 then s.draws + 1 else s.draws, hn, hal, hb, ?_⟩
  rw [isr_open he ha ho, isrAfterSnapshot_error _ ho hd hst]
  cases s.opts.isrErrAck <;> rfl

/-- Settles O33: steps 2 and 3 are skipped, and step 4 is performed or skipped. -/
theorem isrArdyStepOrNone : Obligations.IsrArdyStepOrNone := by
  intro s d he ha ho hd hst hx hr
  have hrun : exec .isrService s = isrStep4 (s.raw &&& s.ie) s := by
    rw [isr_open he ha ho, isrAfterSnapshot_steps _ hst, isrStep2_skip, andThen_of_next, isrStep3_skip, andThen_of_next]
    · exact hr.imp id fun h => by simpa [inPhase_eq hd] using h
    · exact hx.imp id fun h => by simpa [inPhase_eq hd] using h
  rw [hrun]
  exact ⟨isrStep4_ardy ho hd, isrStep4_skip⟩

-- Step 2 (R237)

theorem State.IsrFrame.i2cOpen {s t : State} (h : s.IsrFrame t) (ho : s.i2cOpen = true) : t.i2cOpen = true := by
  obtain ⟨_, _, _, _, _, _, _, rfl⟩ := h
  exact ho

/-- The mask of a snapshot that O31 names, bit by bit. -/
theorem transmit_snapshot {st : Status} (h : st &&& 0x17 = 0x10) : st &&& 0x03 = 0 ∧ st &&& 0x10 ≠ 0 ∧ st &&& 0x04 = 0 := by
  revert st; decide

/-- Step 2 whole: the data write, then the acknowledgement of XRDY (R237). -/
theorem isrStep2_transmit {st : Status} {s t : State} (ho : s.i2cOpen = true) (hx : st &&& 0x10 ≠ 0)
    (hw : inPhase .writing s = true) (h : isrTxData s = .next t) (ht : t.eng.st ≠ .txWait) :
    isrStep2 st s = .next { t with raw := t.raw &&& ~~~0x10 } := by
  rw [isrStep2, if_pos (Bool.and_eq_true_iff.2 ⟨(hasBits_iff _).2.2.2.1.2 hx, hw⟩), h, andThen_of_next,
    ack_open ((frame_isrTxData h).i2cOpen ho), ackStatus_xrdy ht]

/-- Step 3 whole: the data read, then the acknowledgement of RRDY (R238). -/
theorem isrStep3_receive {st : Status} {s t : State} (ho : s.i2cOpen = true) (hr : st &&& 0x08 ≠ 0)
    (hp : inPhase .reading s = true) (h : isrRxData s = .next t) (ht : t.eng.hold = none) :
    isrStep3 st s = .next { t with raw := t.raw &&& ~~~0x08 } := by
  rw [isrStep3, if_pos (Bool.and_eq_true_iff.2 ⟨(hasBits_iff _).2.2.2.2.1.2 hr, hp⟩), h, andThen_of_next,
    ack_open ((frame_isrRxData h).i2cOpen ho), ackStatus_rrdy ht]

section
variable {s t : State} {d : Txn} (he : s.isrEnabled = true) (ha : s.opts.isrAtomic = true) (ho : s.i2cOpen = true)
  (hd : s.txn = some d)
include he ha ho hd

/-- An invocation that performs step 2 alone. -/
theorem isr_transmit (hst : s.raw &&& s.ie &&& 0x17 = 0x10) (hp : d.phase = .writing) (h : isrTxData s = .next t)
    (ht : t.eng.st ≠ .txWait) : exec .isrService s = .next { t with raw := t.raw &&& ~~~0x10 } := by
  obtain ⟨herr, hx, hardy⟩ := transmit_snapshot hst
  have hw : inPhase .writing s = true := by simp [inPhase_eq hd, hp]
  have hr : inPhase .reading { t with raw := t.raw &&& ~~~0x10 } = false :=
    (isrTxData_inPhase h .reading).trans (inPhase_reading_of_writing hw)
  rw [isr_open he ha ho, isrAfterSnapshot_steps _ herr, isrStep2_transmit ho hx hw h ht, andThen_of_next,
    isrStep3_skip (.inr hr), andThen_of_next, isrStep4_skip hardy]

/-- An invocation that performs step 3, and step 4 where ARDY is in the snapshot. -/
theorem isr_receive_then (hst : s.raw &&& s.ie &&& 0x0B = 0x08) (hp : d.phase = .reading) (h : isrRxData s = .next t)
    (ht : t.eng.hold = none) :
    exec .isrService s = isrStep4 (s.raw &&& s.ie) { t with raw := t.raw &&& ~~~0x08 } := by
  have bits : ∀ st : Status, st &&& 0x0B = 0x08 → st &&& 0x03 = 0 ∧ st &&& 0x08 ≠ 0 := by decide
  obtain ⟨herr, hr⟩ := bits _ hst
  have hw : inPhase .writing s = false := by simp [inPhase_eq hd, hp]
  have hread : inPhase .reading s = true := by simp [inPhase_eq hd, hp]
  rw [isr_open he ha ho, isrAfterSnapshot_steps _ herr, isrStep2_skip (.inr hw), andThen_of_next,
    isrStep3_receive ho hr hread h ht, andThen_of_next]

/-- An invocation that performs step 3 alone. -/
theorem isr_receive (hst : s.raw &&& s.ie &&& 0x0F = 0x08) (hp : d.phase = .reading) (h : isrRxData s = .next t)
    (ht : t.eng.hold = none) : exec .isrService s = .next { t with raw := t.raw &&& ~~~0x08 } := by
  have bits : ∀ st : Status, st &&& 0x0F = 0x08 → st &&& 0x0B = 0x08 ∧ st &&& 0x04 = 0 := by decide
  obtain ⟨hst, hardy⟩ := bits _ hst
  rw [isr_receive_then he ha ho hd hst hp h ht, isrStep4_skip hardy]

end

/-- The data write to a waiting engine, of a byte read from the buffer or drawn. -/
theorem isrTxData_waiting {s u : State} {d : Txn} {b : Byte} (ho : u.i2cOpen = true) (hd : s.txn = some d)
    (hi : d.index < d.length) (hb : s.bufGet d.buffer d.index = (b, u)) (hs : u.eng.st = .txWait) :
    isrTxData s = .next
      { u with
        txn := some { d with index := d.index + 1 }
        eng := { u.eng with hold := some b, loaded := u.eng.loaded + 1, st := .txShift } } := by
  have hu : u.txn = some d := by rw [← hd, ← bufGet_txn s d.buffer d.index, hb]
  have hw : regWrite .data (dataWord b) u = .next
      { u with eng := { u.eng with hold := some b, loaded := u.eng.loaded + 1, st := .txShift } } := by
    rw [regWrite_open ho rfl, writeRule, writeData_txWait _ hs, dataByte_dataWord]
  simp only [isrTxData, hd, if_pos hi, hb, hw, andThen_of_next]
  exact onTxn_some (by exact hu) _

/-- Past the logical end the data write is of the dummy zero byte (R237). -/
theorem isrTxData_past_end {s : State} {d : Txn} (ho : s.i2cOpen = true) (hd : s.txn = some d) (hi : d.length ≤ d.index) :
    isrTxData s = writeData 0 s := by
  simp only [isrTxData, hd, if_neg (Nat.not_lt.2 hi), regWrite_open ho (r := .data) rfl, writeRule]

theorem bufGet_of_some {s : State} {buf : Option BufRef} {i : Nat} {b : Byte} (h : s.bufByte buf i = some b) :
    s.bufGet buf i = (b, s) := by rw [State.bufGet, h]

theorem bufGet_of_none {s : State} {buf : Option BufRef} {i : Nat} (h : s.bufByte buf i = none) :
    s.bufGet buf i = (s.draw 8, s.tick) := by rw [State.bufGet, h]

theorem State.inOperation_self (s : State) (c : Nat) : s.inOperation c (s.caller c).serial = true := by
  simp [State.inOperation]

theorem State.inOperation_stale {s : State} {c n : Nat} (h : (s.caller c).serial ≠ n) : ¬s.inOperation c n = true := by
  simp [State.inOperation, h]

/-- Settles O31: the byte of the buffer, a draw for a stale one, or zero past the end, to an engine that waits or discards. -/
theorem isrTransmitStep : Obligations.IsrTransmitStep := by
  intro s d he ha ho hd hst hp
  refine ⟨fun b hi hs hbuf => ?_, fun hi hs hstale => ⟨s.draw 8, ?_⟩, fun hi hs => ?_, fun hi hs => ?_⟩
  · have hb : s.bufByte d.buffer d.index = some b := by
      rcases hbuf with ⟨base, hbuf, hm⟩ | ⟨c, hbuf, hm⟩ | ⟨c, hbuf, hm⟩ <;> rw [hbuf]
      · exact congrArg some hm
      · exact (if_pos (s.inOperation_self c)).trans hm
      · exact (if_pos (s.inOperation_self c)).trans hm
    exact isr_transmit he ha ho hd hst hp (isrTxData_waiting ho hd hi (bufGet_of_some hb) hs) nofun
  · have hb : s.bufByte d.buffer d.index = none := by
      obtain ⟨c, n, hbuf | hbuf, hc⟩ := hstale <;> rw [hbuf]
      · exact if_neg (State.inOperation_stale hc)
      · exact if_neg (State.inOperation_stale hc)
    exact isr_transmit he ha ho hd hst hp (isrTxData_waiting (u := s.tick) ho hd hi (bufGet_of_none hb) hs) nofun
  · exact isr_transmit he ha ho hd hst hp ((isrTxData_past_end ho hd hi).trans (writeData_txWait 0 hs)) nofun
  · rcases hs with hs | ⟨hw, hdir, hl⟩
    · exact isr_transmit he ha ho hd hst hp ((isrTxData_past_end ho hd hi).trans (writeData_idle 0 hs)) (by rw [hs]; nofun)
    · by_cases hidle : s.eng.st = .idle
      · exact isr_transmit he ha ho hd hst hp ((isrTxData_past_end ho hd hi).trans (writeData_idle 0 hidle)) hw
      · exact isr_transmit he ha ho hd hst hp
          ((isrTxData_past_end ho hd hi).trans (writeData_past_end 0 hw hidle hdir hl)) hw

-- Step 3 (R238)

/-- The engine after a held byte was read (40 R142). -/
def Engine.handedOver (e : Engine) : Engine :=
  { e with hold := none, loaded := e.loaded + 1, st := if e.st = .rxWait then .rxShift else e.st }

theorem regRead_held {s : State} {b : Byte} (ho : s.i2cOpen = true) (hb : s.eng.hold = some b) (hdir : s.eng.dir = .rx)
    (hw : s.eng.st ≠ .idle ∨ s.eng.window = true) :
    regRead .data s = .next (dataWord b, { s with eng := s.eng.handedOver }) :=
  (regRead_open ho rfl).trans (congrArg _ (readData_held hb hdir hw))

/-- The data read of a held byte, with the buffer's store given. -/
theorem isrRxData_held {s t : State} {d : Txn} {b : Byte} (hd : s.txn = some d)
    (hr : regRead .data s = .next (dataWord b, { s with eng := s.eng.handedOver })) (hi : d.index < d.length)
    (ht : State.bufSet { s with eng := s.eng.handedOver } d.buffer d.index b = t) :
    isrRxData s = .next { t with txn := some { d with index := d.index + 1 } } := by
  have htxn : t.txn = some d := by rw [← ht, bufSet_txn, hd]
  rw [isrRxData, hd]
  dsimp only
  rw [hr, andThen_of_next]
  dsimp only
  rw [if_pos hi, dataByte_dataWord, ht]
  exact onTxn_some htxn _

/-- Past the logical end the byte is read and discarded. -/
theorem isrRxData_past_end {s : State} {d : Txn} {b : Byte} (hd : s.txn = some d)
    (hr : regRead .data s = .next (dataWord b, { s with eng := s.eng.handedOver })) (hi : d.length ≤ d.index) :
    isrRxData s = .next { s with eng := s.eng.handedOver } := by
  simp only [isrRxData, hd, hr, andThen_of_next, if_neg (Nat.not_lt.2 hi)]

/-- Settles O32: the store by the kind of buffer, or no store past the end. -/
theorem isrReceiveStep : Obligations.IsrReceiveStep := by
  intro s d b he ha ho hd hst hp hdir hb hw
  have hr := regRead_held ho hb hdir hw
  refine ⟨fun t hi hbuf => ?_, fun hi => isr_receive he ha ho hd hst hp (isrRxData_past_end hd hr hi) rfl⟩
  obtain ⟨hstore, hraw⟩ : State.bufSet { s with eng := s.eng.handedOver } d.buffer d.index b
      = { t with eng := s.eng.handedOver } ∧ t.raw = s.raw := by
    rcases hbuf with ⟨base, hbuf, rfl⟩ | ⟨c, hbuf, rfl⟩ | ⟨c, hbuf, rfl⟩ | ⟨c, n, hbuf | hbuf, hc, rfl⟩ <;> rw [hbuf]
    · exact ⟨rfl, rfl⟩
    · exact ⟨if_pos (s.inOperation_self c), rfl⟩
    · exact ⟨if_pos (s.inOperation_self c), rfl⟩
    · exact ⟨if_neg (State.inOperation_stale (s := t) hc), rfl⟩
    · exact ⟨if_neg (State.inOperation_stale (s := t) hc), rfl⟩
  rw [← hraw]
  exact isr_receive he ha ho hd hst hp (isrRxData_held hd hr hi hstore) rfl

end Sys2Proof.Machine
end

section
/-!
The decision table of an atomic invocation (43_transaction_fsm_isr R242) and the index rule of the whole machine (R247 I1, I3).
-/
namespace Sys2Proof.Machine

-- What each step does to the descriptor

/-- The data write advances the index where bytes remain (R237). -/
theorem isrTxData_txn {s t : State} {d : Txn} (hd : s.txn = some d) (h : isrTxData s = .next t) :
    t.txn = some { d with index := if d.index < d.length then d.index + 1 else d.index } := by
  rw [isrTxData, hd] at h
  dsimp only at h
  split at h
  · obtain ⟨u, hu, h⟩ := andThen_next h
    obtain ⟨d', hd', rfl⟩ := onTxn_next h
    rw [writeRule_txn (regWrite_next hu).1, bufGet_txn, hd] at hd'
    cases hd'
    rw [if_pos ‹_›]
  · rw [writeRule_txn (regWrite_next h).1, hd, if_neg ‹_›]

/-- The data read advances the index where bytes remain (R238). -/
theorem isrRxData_txn {s t : State} {d : Txn} (hd : s.txn = some d) (h : isrRxData s = .next t) :
    t.txn = some { d with index := if d.index < d.length then d.index + 1 else d.index } := by
  rw [isrRxData, hd] at h
  dsimp only at h
  obtain ⟨p, hp, h⟩ := andThen_next h
  obtain ⟨rfl, -⟩ := regRead_next hp
  split at h
  · obtain ⟨d', hd', rfl⟩ := onTxn_next h
    rw [bufSet_txn, readRule_txn, hd] at hd'
    cases hd'
    rw [if_pos ‹_›]
  · cases h
    rw [readRule_txn, hd, if_neg ‹_›]

/-- The descriptor after step 2 or 3: in its phase, with its ready bit in the snapshot, the index moves where bytes remain. -/
def Txn.stepped (d : Txn) (ready : Bool) (p : Phase) : Txn :=
  { d with index := if ready = true ∧ d.phase = p ∧ d.index < d.length then d.index + 1 else d.index }

theorem Txn.stepped_in {d : Txn} {ready : Bool} {p : Phase} (h : (ready && d.phase == p) = true) :
    d.stepped ready p = { d with index := if d.index < d.length then d.index + 1 else d.index } := by
  rw [Bool.and_eq_true, beq_iff_eq] at h
  simp only [Txn.stepped, h.1, h.2, true_and]

theorem Txn.stepped_out {d : Txn} {ready : Bool} {p : Phase} (h : ¬(ready && d.phase == p) = true) :
    d.stepped ready p = d := by
  rw [Txn.stepped, if_neg fun hc => h (by rw [hc.1, hc.2.1, beq_self_eq_true, Bool.and_self])]

theorem isrStep2_txn {st : Status} {s t : State} {d : Txn} (hd : s.txn = some d) (h : isrStep2 st s = .next t) :
    t.txn = some (d.stepped (hasBits st statXrdy) .writing) := by
  rw [isrStep2, inPhase_eq hd] at h
  split at h
  · rename_i hc
    obtain ⟨u, hu, h⟩ := andThen_next h
    rw [writeRule_txn (regWrite_next h).1, isrTxData_txn hd hu, Txn.stepped_in hc]
  · rename_i hc
    cases h
    rw [hd, Txn.stepped_out hc]

theorem isrStep3_txn {st : Status} {s t : State} {d : Txn} (hd : s.txn = some d) (h : isrStep3 st s = .next t) :
    t.txn = some (d.stepped (hasBits st statRrdy) .reading) := by
  rw [isrStep3, inPhase_eq hd] at h
  split at h
  · rename_i hc
    obtain ⟨u, hu, h⟩ := andThen_next h
    rw [writeRule_txn (regWrite_next h).1, isrRxData_txn hd hu, Txn.stepped_in hc]
  · rename_i hc
    cases h
    rw [hd, Txn.stepped_out hc]

/-- The descriptor after step 4 (R239). -/
def Txn.ended (d : Txn) (ardy : Bool) : Txn :=
  { d with phase := if ardy then .idle else d.phase, completion := ardy || d.completion }

theorem isrStep4_txn {st : Status} {s t : State} {d : Txn} (hd : s.txn = some d) (h : isrStep4 st s = .next t) :
    t.txn = some (d.ended (hasBits st statArdy)) := by
  rw [isrStep4] at h
  split at h
  · rename_i hc
    obtain ⟨u, hu, h⟩ := andThen_next h
    obtain ⟨d', hd', rfl⟩ := onTxn_next h
    rw [writeRule_txn (regWrite_next hu).1, hd] at hd'
    cases hd'
    rw [hc]
    rfl
  · rename_i hc
    cases h
    rw [hd, Bool.eq_false_iff.2 hc]
    rfl

/-- The descriptor after an invocation without an error in the snapshot (R242): the index moves for the ready bit of the
phase, which one of steps 2 and 3 at most is for. -/
theorem isrAfterSnapshot_txn {o : ErrAck} {st : Status} {s t : State} {d : Txn} (hd : s.txn = some d)
    (hst : st &&& 0x03 = 0) (h : isrAfterSnapshot o st s = .next t) :
    t.txn = some (Txn.ended
      { d with
        index := if d.index < d.length
            ∧ ((hasBits st statXrdy = true ∧ d.phase = .writing) ∨ (hasBits st statRrdy = true ∧ d.phase = .reading))
          then d.index + 1 else d.index } (hasBits st statArdy)) := by
  rw [isrAfterSnapshot_steps o hst] at h
  obtain ⟨u, hu, h⟩ := andThen_next h
  obtain ⟨v, hv, h⟩ := andThen_next h
  rw [isrStep4_txn (isrStep3_txn (isrStep2_txn hd hu) hv) h]
  cases hp : d.phase <;> simp [Txn.stepped, hp, and_comm]

/-- The descriptor after an invocation with an error in the snapshot (R236). -/
theorem isrAfterSnapshot_txn_error {o : ErrAck} {st : Status} {s t : State} {d : Txn} (ho : s.i2cOpen = true)
    (hd : s.txn = some d) (hst : st &&& 0x03 ≠ 0) (h : isrAfterSnapshot o st s = .next t) :
    t.txn = some { d with error := some (recordedError s st).1, phase := .idle, completion := true } := by
  cases (isrAfterSnapshot_error o ho hd hst).symm.trans h
  rfl

/-- What an invocation never touches (10_state R26). -/
theorem isrService_frame {s t : State} (h : exec .isrService s = .next t) :
    t.lock = s.lock ∧ t.ctl = s.ctl ∧ t.ie = s.ie ∧ t.con = s.con ∧ t.cnt = s.cnt ∧ t.sa = s.sa
      ∧ t.psc = s.psc ∧ t.scll = s.scll ∧ t.sclh = s.sclh ∧ t.modulemode = s.modulemode ∧ t.idlest = s.idlest
      ∧ t.wire = s.wire ∧ t.env = s.env ∧ t.actor = s.actor
      ∧ (sparseWf Caller.fresh s.callers →
        ∀ k, (t.caller k).task = (s.caller k).task ∧ (t.caller k).result = (s.caller k).result) := by
  have htasks : s.CallersWf → ∀ k, (t.caller k).task = (s.caller k).task ∧ (t.caller k).result = (s.caller k).result :=
    fun hw k => ⟨(sameTasks_isrService hw h).task k, (sameTasks_isrService hw h).result k⟩
  obtain ⟨_, _, _, _, _, _, _, rfl⟩ := frame_isrService h
  exact ⟨rfl, rfl, rfl, rfl, rfl, rfl, rfl, rfl, rfl, rfl, rfl, rfl, rfl, rfl, htasks⟩

/-- Settles O34: the descriptor by whether the snapshot has an error, everything else by the frame of the service. -/
theorem isrDecisionTable : Obligations.IsrDecisionTable := by
  intro s t d he ha hd h
  have hframe := isrService_frame h
  rcases isr_next ha h with ⟨hn, -⟩ | ⟨-, ho, hrun⟩
  · exact absurd (hn.symm.trans he) Bool.false_ne_true
  generalize s.raw &&& s.ie = st at hrun ⊢
  have bits : ∀ st : Status, st &&& 0x03 = 0 →
      (st &&& 0x07 ≠ 0 → hasBits st statArdy = true) ∧ (st &&& 0x07 = 0 → hasBits st statArdy = false) := by decide
  have errs : ∀ st : Status, st &&& 0x03 ≠ 0 → st &&& 0x07 ≠ 0 := by decide
  obtain ⟨-, -, -, hx, hr, -⟩ := hasBits_iff st
  by_cases hst : st &&& 0x03 = 0
  · obtain ⟨hardy, hnone⟩ := bits st hst
    refine ⟨_, isrAfterSnapshot_txn hd hst hrun, rfl, rfl, fun h7 => ?_, fun h7 => ?_, rfl, fun _ => rfl,
      fun h3 => absurd hst h3, ?_, hframe⟩
    · rw [hardy h7]
      exact ⟨rfl, rfl⟩
    · rw [hnone h7]
      exact ⟨rfl, rfl⟩
    · simp only [Txn.ended, hx, hr, hst, true_and]
  · refine ⟨_, isrAfterSnapshot_txn_error ho hd hst hrun, rfl, rfl, fun _ => ⟨rfl, rfl⟩, fun h7 => absurd h7 (errs st hst),
      rfl, fun h3 => absurd h3 hst, fun _ => nofun, ?_, hframe⟩
    rw [if_neg fun hc => hst hc.1]

-- The index rule (R247 I1, I3)

/-- A descriptor that is there afterwards was there before, with the same index. -/
def State.KeepsIndex (s t : State) : Prop := ∀ d', t.txn = some d' → ∃ d, s.txn = some d ∧ d'.index = d.index

theorem State.KeepsIndex.of_txn {s t : State} (h : t.txn = s.txn) : s.KeepsIndex t := fun d' hd => ⟨d', h ▸ hd, rfl⟩

theorem keepsIndex_read {r : Reg} {s : State} {p : Word × State} (h : regRead r s = .next p) : s.KeepsIndex p.2 := by
  obtain ⟨rfl, -⟩ := regRead_next h
  exact .of_txn (readRule_txn r s)

theorem keepsIndex_write {r : Reg} {v : Word} {s t : State} (h : regWrite r v s = .next t) : s.KeepsIndex t :=
  .of_txn (writeRule_txn (regWrite_next h).1)

theorem keepsIndex_onTxn {s t : State} {f : Txn → Txn} (h : s.onTxn f = .next t) (hf : ∀ d, (f d).index = d.index) :
    s.KeepsIndex t := by
  obtain ⟨d, hd, rfl⟩ := onTxn_next h
  intro d' hd'
  cases hd'
  exact ⟨d, hd, hf d⟩

theorem keepsIndex_waitLine {s t : State} {rest : List Act} (h : waitLine s rest = .next t) : s.KeepsIndex t := by
  unfold waitLine at h
  split at h
  · cases h
  · rename_i d hd
    split at h <;> cases h
    · intro d' hd'
      cases hd'
      exact ⟨d, hd, rfl⟩
    · exact .of_txn rfl

/-- No line but the first of an arming and the last of INIT moves the index. -/
theorem keepsIndex_performLine {a : Act} {rest : List Act} {s t : State} (ha : ∀ b n, a ≠ .armFields b n)
    (hi : ∀ sp, a ≠ .initEnd sp) (h : performLine a rest s = .next t) : s.KeepsIndex t := by
  cases a with
  | acquire => cases h; unfold acquireLine; split <;> exact .of_txn rfl
  | release => simp only [performLine, releaseLine] at h; split at h <;> cases h; exact .of_txn rfl
  | clkEnsure =>
    obtain ⟨p, hp, h⟩ := andThen_next h; cases h
    split <;> exact keepsIndex_read hp
  | clkPoll n =>
    cases n with
    | zero => cases h; exact .of_txn rfl
    | succ n =>
      obtain ⟨p, hp, h⟩ := andThen_next h; cases h
      split <;> exact keepsIndex_read hp
  | clkDrop | diagnose | probe => obtain ⟨p, hp, h⟩ := andThen_next h; cases h; exact keepsIndex_read hp
  | clkRequest | clkRelease | write => 
    obtain ⟨u, hu, h⟩ := andThen_next h; cases h
    have hk := keepsIndex_write hu
    exact hk
  | armFields b n => exact absurd rfl (ha b n)
  | armCompletion | armPhase | forceIdle =>
    obtain ⟨u, hu, h⟩ := andThen_next h; cases h
    have hk := keepsIndex_onTxn hu fun _ => rfl
    exact hk
  | wait => exact keepsIndex_waitLine h
  | fail | registerIsr => cases h; exact .of_txn rfl
  | initEnd sp => exact absurd rfl (hi sp)
  | deinitEnd =>
    simp only [performLine, deinitEndLine] at h
    split at h <;> cases h
    exact fun _ hd => nomatch hd
  | finish how =>
    cases h
    unfold finishLine
    dsimp only
    split
    · exact .of_txn rfl
    · cases how <;> exact .of_txn rfl

/-- The first line of an arming resets the index (R231). -/
theorem performLine_armFields_index {b : BufRef} {n : Nat} {rest : List Act} {s t : State} {d' : Txn}
    (h : performLine (.armFields b n) rest s = .next t) (hd : t.txn = some d') : d'.index = 0 := by
  obtain ⟨u, hu, h⟩ := andThen_next h; cases h
  unfold armFields at hu
  repeat' split at hu
  all_goals cases hu
  cases hd
  rfl

/-- The end of INIT makes a fresh descriptor, or leaves the one there is after an error (45 R300). -/
theorem performLine_initEnd_index {sp : Speed} {rest : List Act} {s t : State}
    (h : performLine (.initEnd sp) rest s = .next t) : s.KeepsIndex t ∨ ∀ d', t.txn = some d' → d'.index = 0 := by
  cases h
  unfold initEndLine
  split
  · exact .inl (.of_txn rfl)
  · refine .inr fun d' hd => ?_
    cases hd
    rfl

theorem keepsIndex_begun {a : Act} (ha : ∀ b n, a ≠ .armFields b n) (hi : ∀ sp, a ≠ .initEnd sp) {s t : State} {r : Result}
    {l : List Act} (h : advance (s.goOn r (a :: l)) = .next t) : s.KeepsIndex t := by
  rw [advance_cons (congrArg Caller.task (State.self_goOn_cons s r a l))] at h
  exact keepsIndex_performLine (s := s.goOn r (a :: l)) ha hi h

theorem keepsIndex_startTransfer {a : Byte} {n : Nat} {x y : List Byte} {l : List Act} {s t : State}
    (h : startTransfer a n x y l s = .next t) : s.KeepsIndex t := by
  unfold startTransfer at h
  split at h <;> cases h
  exact .of_txn rfl

/-- No operation but START_WRITE and START_READ moves the index in the step that issues it. -/
theorem keepsIndex_byCaller {i : Instr} (hb : i.byCaller = true) (hw : ∀ a b n, i ≠ .startWrite a b n)
    (hr : ∀ a b n, i ≠ .startRead a b n) {s t : State} (h : exec i s = .next t) : s.KeepsIndex t := by
  cases i with
  | init khz line =>
    simp only [exec, execInit] at h
    split at h
    · cases h
    · split at h <;> cases h <;> exact .of_txn rfl
  | deinit =>
    simp only [exec, execDeinit] at h
    split at h
    · cases h
    · split at h
      · cases h; exact .of_txn rfl
      · split at h
        · cases h
        · split at h <;> cases h
          exact .of_txn rfl
  | writeBytes | readBytes =>
    obtain ⟨-, rfl | h⟩ := transferCall_next h
    · exact .of_txn rfl
    · obtain rfl | ⟨base, -, -, h⟩ := bufferCall_next h
      · exact .of_txn rfl
      · exact keepsIndex_startTransfer h
  | writeRegister | readRegister =>
    obtain ⟨-, rfl | h⟩ := transferCall_next h
    · exact .of_txn rfl
    · exact keepsIndex_startTransfer h
  | readBlock =>
    obtain ⟨-, rfl | h⟩ := transferCall_next h
    · exact .of_txn rfl
    · obtain rfl | ⟨base, -, -, h⟩ := bufferCall_next h
      · exact .of_txn rfl
      · unfold startReadBlock at h
        split at h
        · cases h; exact .of_txn rfl
        · have hk := keepsIndex_startTransfer h
          exact hk
  | clkEnsureEnabled | clkDisable | lockAcquire | lockRelease => exact keepsIndex_begun (by simp) (by simp) h
  | clkIsEnabled => obtain ⟨p, hp, h⟩ := andThen_next h; cases h; exact keepsIndex_read hp
  | startWrite a b n => exact absurd rfl (hw a b n)
  | startRead a b n => exact absurd rfl (hr a b n)
  | waitComplete =>
    simp only [exec, execWaitComplete] at h
    split at h
    · exact keepsIndex_begun (by simp) (by simp) h
    · split at h <;> cases h
  | xferLocked =>
    simp only [exec, execXferLocked] at h
    split at h
    · cases h
    · split at h
      · cases h
      · exact keepsIndex_begun (by simp) (by simp) h
  | rdIrqstatusRaw | rdIrqstatus | rdIrqenableSet | rdIrqenableClr | rdCnt | rdData | rdCon | rdSa | rdPsc | rdScll
  | rdSclh | rdClkctrl => obtain ⟨p, hp, h⟩ := andThen_next h; cases h; exact keepsIndex_read hp
  | wrIrqstatusRaw | wrIrqstatus | wrIrqenableSet | wrIrqenableClr | wrCnt | wrData | wrCon | wrSa | wrPsc | wrScll
  | wrSclh | wrClkctrl | conStartTx | conStartRx | conEnable | conDisable =>
    obtain ⟨u, hu, h⟩ := andThen_next h; cases h
    have hk := keepsIndex_write hu
    exact hk
  | _ => cases hb

theorem keepsIndex_event {i : Instr} {s t : State} (hf : i.format = .evt8) (hn : ∀ d, i ≠ .engStart d)
    (h : exec i s = .next t) : s.KeepsIndex t := by
  rcases event_kinds hf hn with hi | hp | rfl
  · obtain ⟨_, _, _, _, _, rfl⟩ := engFrame_of_engineEvent hi h
    exact .of_txn rfl
  · obtain ⟨_, _, _, rfl⟩ := powerManager_next hp h
    exact .of_txn rfl
  · obtain rfl | ⟨_, _, rfl⟩ := execXferTimeoutFires_next h <;> exact .of_txn rfl

/-- An atomic invocation keeps the index, or advances it in an active phase with bytes remaining (R242). -/
theorem isrService_index {s t : State} {d d' : Txn} (ha : s.opts.isrAtomic = true) (hd : s.txn = some d)
    (h : exec .isrService s = .next t) (hd' : t.txn = some d') :
    d'.index = d.index ∨ d'.index = d.index + 1 ∧ d.index < d.length ∧ d.phase ≠ .idle ∧ d'.length = d.length := by
  rcases isr_next ha h with ⟨-, rfl⟩ | ⟨he, -, -⟩
  · cases hd.symm.trans hd'
    exact .inl rfl
  · obtain ⟨_, hd'', -, hlen, -, -, -, -, -, hidx, -⟩ := isrDecisionTable s t d he ha hd h
    cases hd'.symm.trans hd''
    split at hidx
    · rename_i hc
      refine .inr ⟨hidx, hc.2.1, ?_, hlen⟩
      rcases hc.2.2 with ⟨-, hp⟩ | ⟨-, hp⟩ <;> rw [hp] <;> nofun
    · exact .inl hidx

/-- A turn keeps the index but where it performs a line that resets it. -/
theorem advance_index {s t : State} (h : advance s = .next t) :
    s.KeepsIndex t ∨ (∃ a rest, s.self.task = a :: rest ∧ ((∃ b n, a = .armFields b n) ∨ ∃ sp, a = .initEnd sp))
      ∧ ∀ d', t.txn = some d' → d'.index = 0 := by
  unfold advance at h
  split at h
  · cases h; exact .inl (.of_txn rfl)
  · rename_i a rest ht
    by_cases ha : ∃ b n, a = .armFields b n
    · obtain ⟨b, n, rfl⟩ := ha
      exact .inr ⟨⟨_, _, ht, .inl ⟨b, n, rfl⟩⟩, fun _ => performLine_armFields_index h⟩
    · by_cases hi : ∃ sp, a = .initEnd sp
      · obtain ⟨sp, rfl⟩ := hi
        exact (performLine_initEnd_index h).imp id fun h0 => ⟨⟨_, _, ht, .inr ⟨sp, rfl⟩⟩, h0⟩
      · exact .inl (keepsIndex_performLine (fun b n e => ha ⟨b, n, e⟩) (fun sp e => hi ⟨sp, e⟩) h)

/-- An accepted START_WRITE or START_READ has performed the first line of its arming. -/
theorem startArming_index {dir : Dir} {a : Byte} {b n : Word} {s t : State} {d' : Txn}
    (h : startArming dir a b n s = .next t) (hd : t.txn = some d') : d'.index = 0 := by
  unfold startArming at h
  split at h
  · cases h
  · rw [armLines, List.cons_append, advance_cons (congrArg Caller.task (State.self_goOn_cons s ..))] at h
    exact performLine_armFields_index h hd

/-- Settles O35: by the cases of the step. -/
theorem indexRule : Obligations.IndexRule := by
  intro s t d d' ha hisr h hd hd'
  have keeps : ∀ u : State, u.txn = s.txn → u.KeepsIndex t → d'.index = d.index := fun u hu hk => by
    obtain ⟨e, he, hidx⟩ := hk d' hd'
    cases (hu.trans hd).symm.trans he
    exact hidx
  rcases step_cases h with ⟨-, rfl⟩ | ⟨k, rest, hs, h⟩ | ⟨rest, -, h⟩ | ⟨k, f, bytes, i, after, rest, hs, hdec, h⟩
  · exact .inl (keeps t rfl (.of_txn rfl))
  · rcases advance_index h with hk | ⟨⟨a, l, ht, hreset⟩, h0⟩
    · exact .inl (keeps _ rfl hk)
    · have ht : (s.caller k).task = a :: l := ht
      refine .inr (.inl ⟨?_, h0 d' hd'⟩)
      rcases hreset with ⟨b, n, rfl⟩ | ⟨sp, rfl⟩ <;> simp [State.resetsIndex, hs, ht]
  · rw [isrAdvance_nil (s := { s with sched := rest }) hisr] at h
    cases h
    exact .inl (keeps { s with sched := rest } rfl (.of_txn rfl))
  · rcases h with ⟨hb, -, h⟩ | ⟨-, -, rfl⟩ | ⟨hb, hn, h⟩ | ⟨-, rfl⟩
    · by_cases hw : ∃ a b n, i = .startWrite a b n
      · obtain ⟨a, b, n, rfl⟩ := hw
        exact .inr (.inl ⟨by simp [State.resetsIndex, hs, hdec], startArming_index h hd'⟩)
      · by_cases hr : ∃ a b n, i = .startRead a b n
        · obtain ⟨a, b, n, rfl⟩ := hr
          exact .inr (.inl ⟨by simp [State.resetsIndex, hs, hdec], startArming_index h hd'⟩)
        · have hk := keepsIndex_byCaller hb (fun a b n e => hw ⟨a, b, n, e⟩) (fun a b n e => hr ⟨a, b, n, e⟩) h
          exact .inl (keeps { s with sched := rest, actor := k } rfl hk)
    · exact .inl (keeps { s with sched := rest } rfl (.of_txn rfl))
    · by_cases hsvc : i = .isrService
      · subst hsvc
        exact (isrService_index (s := { s with sched := rest }) ha hd h hd').imp id .inr
      · have hk := keepsIndex_event (format_of_not_byCaller hb hsvc) hn h
        exact .inl (keeps { s with sched := rest } rfl hk)
    · exact .inl (keeps { s with sched := rest } rfl (.of_txn rfl))

end Sys2Proof.Machine
end

section
/-!
The sequencer's operations (43_transaction_fsm_isr R231, R232, R243 to R248; 44 R271): the lock, the wait and its timeout, and
who may not.
-/
namespace Sys2Proof.Machine

-- The lock (R245, R246)

theorem State.holdsLock_iff (s : State) : s.holdsLock = true ↔ s.lock = some s.actor := by simp [State.holdsLock]

theorem acquireLine_free {s : State} (h : s.lock = none) (rest : List Act) :
    acquireLine s rest = State.setTask { s with lock := some s.actor } rest := by rw [acquireLine, h]

theorem acquireLine_held {s : State} {k : Nat} (h : s.lock = some k) (rest : List Act) :
    acquireLine s rest = s.setTask (.acquire :: rest) := by rw [acquireLine, h]

theorem releaseLine_holder {s : State} (h : s.lock = some s.actor) (rest : List Act) :
    releaseLine s rest = .next (State.setTask { s with lock := none } rest) := if_pos (s.holdsLock_iff.2 h)

theorem releaseLine_other {s : State} (h : s.lock ≠ some s.actor) (rest : List Act) :
    releaseLine s rest = .refused .notLockHolder := if_neg fun hh => h (s.holdsLock_iff.1 hh)

/-- An operation that begins at once performs its first line. -/
theorem advance_goOn (s : State) (r : Result) (a : Act) (l : List Act) :
    advance (s.goOn r (a :: l)) = performLine a l (s.goOn r (a :: l)) :=
  advance_cons (congrArg Caller.task (State.self_goOn_cons s r a l))

/-- Settles O41: each operation is its one line. -/
theorem lockOperations : Obligations.LockOperations := by
  intro s hw ht
  have hacq : exec .lockAcquire s = .next (acquireLine (s.goOn .unit [.acquire]) []) := by
    rw [← ht]; exact advance_goOn ..
  have hrel : exec .lockRelease s = releaseLine (s.goOn .unit [.release]) [] := by rw [← ht]; exact advance_goOn ..
  have hwa : (s.goOn .unit [.acquire]).CallersWf := State.CallersWf.goOn hw _ _
  have hwr : (s.goOn .unit [.release]).CallersWf := State.CallersWf.goOn hw _ _
  refine ⟨fun hl => ?_, fun k hl => ?_, fun hl => ?_, fun hl => ?_⟩
  · rw [acquireLine_free (s := s.goOn .unit [.acquire]) hl] at hacq
    exact ⟨_, _, hacq, rfl, State.self_setTask_task (s := { s.goOn .unit [.acquire] with lock := some s.actor }) hwa []⟩
  · rw [acquireLine_held (s := s.goOn .unit [.acquire]) hl] at hacq
    have htask := State.self_setTask_task hwa [.acquire]
    have hagain := advance_cons htask
    rw [performLine, acquireLine_held (s := (s.goOn .unit [.acquire]).setTask [.acquire]) hl] at hagain
    exact ⟨_, _, hacq, rfl, htask, _, _, hagain, rfl, State.self_setTask_task (State.CallersWf.setTask hwa _) _⟩
  · rw [releaseLine_holder (s := s.goOn .unit [.release]) hl] at hrel
    exact ⟨_, _, hrel, rfl, State.self_setTask_task (s := { s.goOn .unit [.release] with lock := none }) hwr []⟩
  · rw [hrel, releaseLine_other (s := s.goOn .unit [.release]) hl]

-- The wait (R243)

theorem Txn.outcome_ok {d : Txn} (h : d.error = none) : d.outcome = .ok := by rw [Txn.outcome, h]

/-- The error result of an error recorded in the descriptor (60 R320). -/
def errorResult : XferError → Error
  | .noAcknowledge => .noAcknowledge
  | .arbitrationLost => .arbitrationLost

theorem Txn.outcome_err {d : Txn} {e : XferError} (h : d.error = some e) : d.outcome = .err (errorResult e) := by
  rw [Txn.outcome, h]
  cases e <;> rfl

theorem Txn.outcome_isErr (d : Txn) : d.outcome.isErr = d.error.isSome := by
  cases h : d.error with
  | none => rw [Txn.outcome_ok h]; rfl
  | some e => rw [Txn.outcome_err h]; rfl

/-- A signalled wait hands the outcome on (R243). -/
theorem performLine_wait_signalled {s : State} {d : Txn} (hd : s.txn = some d) (hc : d.completion = true) (rest : List Act) :
    performLine .wait rest s = .next (State.deliver { s with txn := some { d with awaited := false } } d.outcome rest) := by
  rw [performLine_wait hd, if_pos hc]

theorem performLine_wait_blocked {s : State} {d : Txn} (hd : s.txn = some d) (hc : d.completion = false) (rest : List Act) :
    performLine .wait rest s = .next (s.setTask (.wait :: rest)) := by
  rw [performLine_wait hd, if_neg (by rw [hc]; exact Bool.false_ne_true)]

theorem exec_waitComplete_holder {s : State} (h : s.lock = some s.actor) :
    exec .waitComplete s = performLine .wait s.self.task (s.begin [.wait]) :=
  (if_pos (s.holdsLock_iff.2 h)).trans (advance_goOn ..)

/-- Settles O38: the operation and each later turn are the wait's line, signalled or not. -/
theorem waitReturnsOrBlocks : Obligations.WaitReturnsOrBlocks := by
  intro s d hw hl hd
  refine ⟨fun ht => ?_, fun rest ht => ⟨fun hc => ?_, fun hc he => ?_, fun hc he => ?_⟩⟩
  · have hexec := exec_waitComplete_holder hl
    rw [ht] at hexec
    have hwb : (s.begin [.wait]).CallersWf := State.CallersWf.begin hw _
    by_cases hc : d.completion = true
    · rw [performLine_wait_signalled (s := s.begin [.wait]) hd hc] at hexec
      have hself := State.self_deliver (s := { s.begin [.wait] with txn := some { d with awaited := false } }) hwb d.outcome []
      refine ⟨_, _, hexec, fun k hk => ?_, fun _ => ⟨rfl, ?_, fun he => ?_, fun he => ?_, fun he => ?_⟩,
        fun hn => absurd (hn.symm.trans hc) Bool.false_ne_true⟩
      · exact Eq.trans (State.caller_goOn_other { s.begin [.wait] with txn := some { d with awaited := false } }
          (by exact hk) _ _) (State.caller_goOn_other s hk .pending _)
      · rw [hself]; exact ite_self _
      · rw [hself, Txn.outcome_ok he]
      · rw [hself, Txn.outcome_err he]; rfl
      · rw [hself, Txn.outcome_err he]; rfl
    · rw [performLine_wait_blocked (s := s.begin [.wait]) hd (Bool.eq_false_iff.2 hc)] at hexec
      refine ⟨_, _, hexec, fun k hk => ?_, fun h => absurd h hc, fun _ => ⟨rfl, State.self_setTask_task hwb _⟩⟩
      exact Eq.trans (State.caller_setTask_other (s.begin [.wait]) (by exact hk) _) (State.caller_goOn_other s hk .pending _)
  · refine ⟨_, _, (advance_cons ht).trans (performLine_wait_blocked hd hc rest), rfl, ?_⟩
    rw [State.self_setTask hw, ← ht]
  · have hself := State.self_deliver (s := { s with txn := some { d with awaited := false } }) hw d.outcome rest
    refine ⟨_, _, (advance_cons ht).trans (performLine_wait_signalled hd hc rest), rfl, ?_, ?_⟩
    · rw [hself, Txn.outcome_ok he]; rfl
    · rw [hself, Txn.outcome_ok he]
  · have hself := State.self_deliver (s := { s with txn := some { d with awaited := false } }) hw d.outcome rest
    have herr : d.outcome.isErr = true := by rw [Txn.outcome_isErr, Option.isSome_iff_ne_none]; exact he
    refine ⟨_, _, (advance_cons ht).trans (performLine_wait_signalled hd hc rest), rfl, ?_, ?_⟩
    · rw [hself]; exact if_pos herr
    · rw [hself]; exact herr

-- The timeout (R243)

/-- What the timeout needs: a descriptor whose completion is not signalled, and a lock holder about to perform the wait. -/
theorem execXferTimeoutFires_waiting {s : State} {h : Nat} {d : Txn} {rest : List Act} (hl : s.lock = some h)
    (hd : s.txn = some d) (ht : (s.caller h).task = .wait :: rest) :
    execXferTimeoutFires s = if d.completion then .next s
      else .next (s.putCaller h { s.caller h with task := recoverLines s.opts ++ rest }) := by
  simp only [execXferTimeoutFires, hl, hd, ht]

theorem execXferTimeoutFires_not_waiting {s : State} {h : Nat} (hl : s.lock = some h)
    (ht : (s.caller h).task.head? ≠ some .wait) : execXferTimeoutFires s = .next s := by
  unfold execXferTimeoutFires
  split
  · rename_i k d hk hd
    cases hl.symm.trans hk
    split
    · rename_i rest hrest
      exact absurd (by rw [hrest]; rfl) ht
    · rfl
  · rfl

/-- Settles O39: the event by the lock, the descriptor and the holder's next line. -/
theorem timeoutFires : Obligations.TimeoutFires := by
  intro s
  refine ⟨fun h d rest hl hd ht => ⟨fun hc => ?_, fun hc => ?_⟩, fun hn => ?_⟩
  · exact (execXferTimeoutFires_waiting hl hd ht).trans (if_neg (by rw [hc]; exact Bool.false_ne_true))
  · exact (execXferTimeoutFires_waiting hl hd ht).trans (if_pos hc)
  · rcases hn with hl | hd | ⟨h, hl, ht⟩
    · simp only [exec, execXferTimeoutFires, hl]
    · cases hl : s.lock <;> simp only [exec, execXferTimeoutFires, hl, hd]
    · exact execXferTimeoutFires_not_waiting hl ht

-- Who may not (R231, R246, R248, 44 R271)

section
variable {s : State} {d : Txn} (b : BufRef) (n : Nat)

theorem armFields_not_holder (h : s.lock ≠ some s.actor) : armFields b n s = .refused .notLockHolder := by
  have hh : s.holdsLock = false := Bool.eq_false_iff.2 fun hh => h (s.holdsLock_iff.1 hh)
  simp [armFields, hh]

theorem armFields_active (hl : s.lock = some s.actor) (hd : s.txn = some d) (hp : d.phase ≠ .idle) :
    armFields b n s = .refused .armWhileActive := by
  simp [armFields, s.holdsLock_iff.2 hl, hd, hp]

theorem armFields_awaited (hl : s.lock = some s.actor) (hd : s.txn = some d) (hp : d.phase = .idle)
    (hw : d.awaited = true) : armFields b n s = .refused .descriptorTouchedWhileArmed := by
  simp [armFields, s.holdsLock_iff.2 hl, hd, hp, hw]

end

/-- A refused first line refuses the arming, that of a composite too. -/
theorem performLine_armFields_refused {s : State} {b : BufRef} {n : Nat} {e : Refusal} (h : armFields b n s = .refused e)
    (rest : List Act) : performLine (.armFields b n) rest s = .refused e := by
  rw [performLine, h]
  rfl

theorem transferOperandsOk_iff (o : Options) (a : Byte) (n : Word) :
    transferOperandsOk o a n = true ↔ a.toNat ≤ 0x7F ∧ 1 ≤ n.toNat ∧ n.toNat ≤ o.maxLen := by
  simp [transferOperandsOk, and_assoc]

/-- An arming with good operands performs its lines, the first at once (R231, R232). -/
theorem startArming_ok {s : State} {a : Byte} {n : Word} (h : transferOperandsOk s.opts a n = true) (dir : Dir) (buf : Word) :
    startArming dir a buf n s
      = advance (s.goOn .unit (armLines s.opts dir a (.mem buf) n.toNat ++ s.self.task)) :=
  if_neg (by simp [h])

theorem startArming_refused {s : State} {a : Byte} {buf n : Word} {e : Refusal} (h : transferOperandsOk s.opts a n = true)
    (dir : Dir) (he : ∀ u : State, u.lock = s.lock → u.actor = s.actor → u.txn = s.txn →
      armFields (.mem buf) n.toNat u = .refused e) : startArming dir a buf n s = .refused e := by
  rw [startArming_ok h, armLines, List.cons_append, advance_goOn, performLine_armFields_refused]
  exact he _ rfl rfl rfl

/-- Settles O37: each operation by the first of its requirements that fails. -/
theorem nonHolderRefused : Obligations.NonHolderRefused := by
  intro s dir a buf n hw ht ha h1 h2
  have hok := (transferOperandsOk_iff s.opts a n).2 ⟨ha, h1, h2⟩
  refine ⟨fun hl => ?_, fun d hl hd hp => ?_, fun d hl hd hp haw => ?_⟩
  · have harm := fun dir => startArming_refused (buf := buf) hok dir fun u h1 h2 _ => armFields_not_holder _ _ (by rwa [h1, h2])
    have hh : ¬s.holdsLock = true := fun hh => hl (s.holdsLock_iff.1 hh)
    have hwait : exec .waitComplete s
        = if s.outcomeAwaited then .refused .descriptorTouchedWhileArmed else .refused .notLockHolder := if_neg hh
    refine ⟨harm .tx, harm .rx, ?_, ?_, ?_, ?_⟩
    · simp [exec, execXferLocked, hh]
    · exact (advance_goOn ..).trans (releaseLine_other (s := s.goOn .unit (.release :: s.self.task)) hl _)
    · rintro ⟨d, hd, haw⟩
      rw [hwait, if_pos (by simp [State.outcomeAwaited, hd, haw])]
    · intro hnone
      rw [hwait, if_neg]
      cases hd : s.txn with
      | none => simp [State.outcomeAwaited, hd]
      | some d => simp [State.outcomeAwaited, hd, hnone d hd]
  · have harm := fun dir => startArming_refused (buf := buf) hok dir fun u h1 h2 h3 =>
      armFields_active _ _ (by rw [h1, h2, hl]) (h3.trans hd) hp
    exact ⟨harm .tx, harm .rx⟩
  · have harm := fun dir => startArming_refused (buf := buf) hok dir fun u h1 h2 h3 =>
      armFields_awaited _ _ (by rw [h1, h2, hl]) (h3.trans hd) hp haw
    exact ⟨harm .tx, harm .rx, fun b m rest => performLine_armFields_refused (armFields_awaited b m hl hd hp haw) rest⟩

end Sys2Proof.Machine
end

section
/-!
Arming run whole (43_transaction_fsm_isr R231, R232).
-/
namespace Sys2Proof.Machine

/-- The state that an arming leaves, but for the caller table (43 R231, R232). -/
def State.armed (s : State) (dir : Dir) (a : Byte) (b : BufRef) (n : Word) : State :=
  { s with
    txn := some
      { phase := .ofDir dir, error := none, buffer := some b, length := n.toNat, index := 0, completion := false,
        awaited := true }
    raw := 0
    sa := some (a.setWidth 10)
    cnt := some n
    con := { en := true, mst := true, trx := dir == .tx }
    eng := Engine.started dir n.toNat (a.setWidth 7) }

/-- The seven lines of arming, one turn each (43 R231, R232). -/
theorem goes_armLines {s : State} {dir : Dir} {a : Byte} {b : BufRef} {n : Word} {d : Txn} (hw : s.CallersWf)
    (hl : s.lock = some s.actor) (hd : s.txn = some d) (hp : d.phase = .idle) (haw : d.awaited = false)
    (ho : s.i2cOpen = true) (ha : a.toNat ≤ 0x7F) (h1 : 1 ≤ n.toNat) (h2 : n.toNat ≤ s.opts.maxLen) {l : List Act}
    (ht : s.self.task = armLines s.opts dir a b n.toNat ++ l) :
    Goes 7 s (s.armed dir a b n) l s.self.result := by
  have hstart := goes_zero hw
  rw [ht] at hstart
  have hfirst := hstart.armFirst hl hd hp haw
  have hrest := Goes.armRest (by exact ho) rfl ha h1 (by exact h2) hfirst
  rwa [BitVec.ofNat_toNat, BitVec.setWidth_eq] at hrest

/-- START_WRITE and START_READ: the first line at once, the other six in six turns. -/
theorem startArming_runs {s : State} {dir : Dir} {a : Byte} {buf n : Word} {d : Txn} (hw : s.CallersWf)
    (hl : s.lock = some s.actor) (ht : s.self.task = []) (hd : s.txn = some d) (hp : d.phase = .idle)
    (haw : d.awaited = false) (ho : s.i2cOpen = true) (ha : a.toNat ≤ 0x7F) (h1 : 1 ≤ n.toNat)
    (h2 : n.toNat ≤ s.opts.maxLen) :
    ∃ t u c, startArming dir a buf n s = .next t ∧ turns 6 t = .next u
      ∧ u = { s.armed dir a (.mem buf) n with callers := c } ∧ u.self.task = []
      ∧ ∀ k, k ≠ s.actor → u.caller k = s.caller k := by
  have hstart := startArming_ok ((transferOperandsOk_iff s.opts a n).2 ⟨ha, h1, h2⟩) dir buf
  rw [ht, List.append_nil] at hstart
  have htask : (s.goOn .unit (armLines s.opts dir a (.mem buf) n.toNat)).self.task
      = armLines s.opts dir a (.mem buf) n.toNat ++ [] := by rw [State.self_goOn hw, List.append_nil]
  obtain ⟨c, hturns, -, -, hself, hother⟩ :=
    goes_armLines (State.CallersWf.goOn hw _ _) hl hd hp haw ho ha h1 h2 htask
  obtain ⟨t, hfirst, hrest⟩ := andThen_next hturns
  exact ⟨t, _, c, hstart.trans hfirst, hrest, rfl, congrArg Caller.task hself,
    fun k hk => (hother k hk).trans (State.caller_goOn_other s hk _ _)⟩

/-- Settles O36: `startArming_runs` for either direction. -/
theorem armingRuns : Obligations.ArmingRuns := by
  intro s dir a buf n d hw hl ht hd hp haw ho ha h1 h2
  obtain ⟨t, u, c, hexec, hturns, hu, htask, hother⟩ := startArming_runs (dir := dir) (buf := buf) hw hl ht hd hp haw ho ha h1 h2
  refine ⟨t, u, c, ?_, hturns, hu.trans ?_, htask, hother⟩
  · cases dir <;> exact hexec
  · cases dir <;> rfl

end Sys2Proof.Machine
end

section
/-!
The timeout recovery (43_transaction_fsm_isr R244).
-/
namespace Sys2Proof.Machine

/-- What a read answers, and what it does, does not depend on the caller table. -/
theorem readRule_callers {g : Reg} (hg : g ≠ .data) (u : State) (c : List (Nat × Caller)) :
    (readRule g { u with callers := c }).2 = { (readRule g u).2 with callers := c } := by
  have hs : ∀ {w : Nat} (x : Option (BitVec w)),
      (readStored { u with callers := c } x).2 = { (readStored u x).2 with callers := c } := by
    intro w x; cases x <;> rfl
  cases g
  case irqstatusRaw | irqstatus | irqenableSet | irqenableClr | con | clkctrl => rfl
  case sa => exact hs u.sa
  case psc => exact hs u.psc
  case scll => exact hs u.scll
  case sclh => exact hs u.sclh
  case cnt =>
    simp only [readRule, readCnt]
    split <;> rfl
  case data => exact absurd rfl hg

/-- A read of any register but DATA changes the counter of draws at most. -/
theorem readRule_draws {g : Reg} (hg : g ≠ .data) (u : State) : ∃ k, (readRule g u).2 = { u with draws := k } := by
  rcases readRule_cases g u with h | h | ⟨h, -⟩
  · exact ⟨u.draws, h⟩
  · exact ⟨u.draws + 1, h⟩
  · exact absurd h hg

section
variable {n : Nat} {s u : State} {l : List Act} {r : Result}

/-- A diagnostic read. -/
theorem Goes.probe {g : Reg} (ho : u.i2cOpen = true) (hb : g.block = .i2c) (hg : g ≠ .data)
    (h : Goes n s u (.probe g :: l) r) : ∃ k, Goes (n + 1) s { u with draws := k } l r := by
  obtain ⟨k, hk⟩ := readRule_draws hg u
  refine ⟨k, h.line rfl fun c hc => ?_⟩
  have hs : State.self { u with callers := c, draws := k } = State.self { u with callers := c } := rfl
  rw [performLine, regRead_open (by exact ho) hb, andThen_of_next, readRule_callers hg, hk, State.setTask, hs, hc]

/-- Diagnostic reads, one turn each. -/
theorem Goes.probes (gs : List Reg) (hgs : ∀ g ∈ gs, g.block = .i2c ∧ g ≠ .data) (ho : u.i2cOpen = true)
    (h : Goes n s u (gs.map .probe ++ l) r) : ∃ k, Goes (n + gs.length) s { u with draws := k } l r := by
  induction gs generalizing n u with
  | nil => exact ⟨u.draws, h⟩
  | cons g gs ih =>
    obtain ⟨hb, hg⟩ := hgs g List.mem_cons_self
    obtain ⟨k, hk⟩ := Goes.probe ho hb hg h
    obtain ⟨k', hk'⟩ := ih (fun g hm => hgs g (List.mem_cons_of_mem _ hm)) (u := { u with draws := k }) ho hk
    rw [Nat.add_right_comm] at hk'
    exact ⟨k', hk'⟩

/-- The first line of the recovery: the diagnostic reads where the clock is functional. -/
theorem Goes.diagnose (hm : u.ctl.clkMapped = true) (h : Goes n s u (.diagnose :: l) r) :
    Goes (n + 1) s u (if u.modulemode = 2 ∧ u.idlest = 0 then probeLines ++ l else l) r :=
  h.line rfl fun c hc => by
    have hf : functional u.opts.bits (State.clkctrl { u with callers := c })
        = decide (u.modulemode = 2 ∧ u.idlest = 0) :=
      (functional_clkctrl { u with callers := c }).trans (Bool.decide_and _ _).symm
    rw [performLine, regRead_clk (by exact hm), andThen_of_next, hf, State.setTask, hc]
    simp only [decide_eq_true_eq]

/-- A line that fails hands its error on. -/
theorem Goes.fail {e : Error} (h : Goes n s u (.fail e :: l) r) : Goes (n + 1) s u (unwind l) (.err e) :=
  h.line rfl fun c hc => by
    simp only [performLine, State.deliver, Result.isErr, if_true, State.goOn, hc]

/-- The lines after the diagnostics (43 R244). -/
theorem Goes.recover {d : Txn} (ho : u.i2cOpen = true) (hd : u.txn = some d)
    (h : Goes n s u (.forceIdle :: .write .irqstatus (statWord u.opts.bits statAll) :: .fail .timeout :: l) r) :
    Goes (n + 3) s
      { u with txn := some { d with phase := .idle, awaited := false }, raw := 0, eng := { u.eng with window := false } }
      (unwind l) (.err .timeout) := by
  have hidle := h.onTxn (fun t => { t with phase := .idle, awaited := false }) hd fun s => rfl
  exact (Goes.ackAll (u := { u with txn := some { d with phase := .idle, awaited := false } }) ho hidle).fail

end

/-- Settles O40: the diagnostics, then the lines after them; with the clock gated the clear-all write faults. -/
theorem timeoutRecovery : Obligations.TimeoutRecovery := by
  intro s d rest hw hm hi hd ht
  have hstart := goes_zero hw
  rw [ht] at hstart
  have hdiag := Goes.diagnose hm hstart
  refine ⟨fun h0 => ?_, fun h0 => ?_⟩
  · have ho : s.i2cOpen = true := s.i2cOpen_iff.2 ⟨hi, h0⟩
    by_cases h2 : s.modulemode = 2
    · rw [if_pos ⟨h2, h0⟩] at hdiag
      obtain ⟨k, hprobed⟩ := Goes.probes [.irqstatusRaw, .irqstatus, .irqenableSet, .con, .cnt, .sa] (by decide) ho hdiag
      obtain ⟨c, hturns, -, -, hself, hother⟩ := Goes.recover (u := { s with draws := k }) ho hd hprobed
      rw [if_pos h2]
      exact ⟨_, c, k, hturns, rfl, congrArg Caller.result hself, congrArg Caller.task hself, hother⟩
    · rw [if_neg fun h => h2 h.1] at hdiag
      obtain ⟨c, hturns, -, -, hself, hother⟩ := Goes.recover ho hd hdiag
      rw [if_neg h2]
      exact ⟨_, c, s.draws, hturns, rfl, congrArg Caller.result hself, congrArg Caller.task hself, hother⟩
  · rw [if_neg fun h => h0 h.2] at hdiag
    obtain ⟨c, hturns, -, -, hself, -⟩ := hdiag.onTxn (fun t => { t with phase := .idle, awaited := false }) hd fun s => rfl
    have hfault : access .irqstatus { s with txn := some { d with phase := .idle, awaited := false }, callers := c }
        = .fault (.busFault .i2c (Reg.irqstatus.offset s.opts)) := access_gated rfl hi h0
    rw [turns_add 2 1, hturns, andThen_of_next, turns_succ, advance_cons (congrArg Caller.task hself), performLine,
      regWrite_access, hfault]
    rfl

end Sys2Proof.Machine
end

section
/-!
The return of a transfer (43_transaction_fsm_isr R246; 44_blocking_transfer_api R272 to R276).
-/
namespace Sys2Proof.Machine

/-- The result a successful return hands over (44 R272 to R276). -/
def Deliver.result (how : Deliver) (me : Caller) : Result :=
  match how with
  | .byte => .okByte (me.staging.headD 0)
  | _ => me.result

/-- The memory a successful return leaves: READ_BLOCK copies the staged block (44 R276). -/
def Deliver.memory (how : Deliver) (me : Caller) (m : Memory) : Memory :=
  match how with
  | .block base length => m.writeBytes base.toNat (me.staging.take length)
  | _ => m

/-- The caller after a return with the result `r`: the local buffers are given back (44 R279). -/
def Caller.returned (me : Caller) (r : Result) : Caller := { me with task := [], result := r, tmp := [], staging := [] }

/-- A return with an error hands the error on and leaves the memory. -/
theorem finishLine_err {s : State} (h : s.self.result.isErr = true) (how : Deliver) :
    finishLine how s [] = s.putSelf (s.self.returned s.self.result) := if_pos h

theorem finishLine_ok {s : State} (h : s.self.result.isErr = false) (how : Deliver) :
    finishLine how s []
      = State.putSelf { s with mem := how.memory s.self s.mem } (s.self.returned (how.result s.self)) :=
  (if_neg (by rw [h]; exact Bool.false_ne_true)).trans (by cases how <;> rfl)

/-- A signalled wait and the release, whatever the outcome: an error too goes on at the release. -/
theorem goes_wait_release {s : State} {d : Txn} {how : Deliver} (hw : s.CallersWf) (hl : s.lock = some s.actor)
    (hd : s.txn = some d) (hc : d.completion = true) (ht : s.self.task = [.wait, .release, .finish how]) :
    Goes 2 s { s with lock := none, txn := some { d with awaited := false } } [.finish how] d.outcome := by
  have hstart := goes_zero hw
  rw [ht] at hstart
  have hwait := hstart.wait hd hc
  rw [show (if d.outcome.isErr then unwind [.release, .finish how] else [.release, .finish how])
    = [.release, .finish how] from ite_self _] at hwait
  exact Goes.release (u := { s with txn := some { d with awaited := false } }) hl hwait

/-- The block copied by a return reads back as the staged bytes, and no other byte changes (44 R276). -/
theorem Deliver.memory_block (me : Caller) (m : Memory) (base : Word) (length : Nat) :
    (m.wf → me.staging.length = length → ∀ i (h : i < me.staging.length),
        ((Deliver.block base length).memory me m).read (base.toNat + i) = me.staging[i])
      ∧ ∀ x, x < base.toNat ∨ base.toNat + length ≤ x → ((Deliver.block base length).memory me m).read x = m.read x := by
  refine ⟨fun hm hlen i hi => ?_, fun x hx => ?_⟩
  · rw [Deliver.memory, List.take_of_length_le (by omega)]
    exact Memory.read_writeBytes hm _ _ i hi
  · refine Memory.read_writeBytes_other m _ (hx.imp_right fun h => ?_)
    have := List.length_take_le length me.staging
    omega

/-- Settles O47: the wait and the release, then the return by the outcome. -/
theorem transferReturns : Obligations.TransferReturns := by
  intro s d how hw hl hd hc ht
  obtain ⟨c, hturns, hwc, -, hself, -⟩ := goes_wait_release hw hl hd hc ht
  have hlast : turns 3 s = .next (finishLine how
      { s with lock := none, txn := some { d with awaited := false }, callers := c } []) := by
    rw [turns_add 2 1, hturns, andThen_of_next, turns_succ, advance_cons (congrArg Caller.task hself)]
    rfl
  have hresult := congrArg Caller.result hself
  obtain he | ⟨e, he⟩ := Option.eq_none_or_eq_some d.error
  · rw [Txn.outcome_ok he] at hself hresult
    rw [finishLine_ok (by rw [hresult]; rfl), hself] at hlast
    have hput := State.self_putSelf hwc (s.self.returned (how.result { s.self with result := .ok }))
    refine ⟨_, _, _, hlast, rfl, congrArg Caller.task hput, congrArg Caller.tmp hput, congrArg Caller.staging hput,
      fun e h => (nomatch he.symm.trans h), fun _ => ?_⟩
    have hres := congrArg Caller.result hput
    cases how with
    | plain => exact ⟨rfl, hres⟩
    | byte => exact ⟨rfl, fun b l hs => hres.trans (by rw [Deliver.result, hs]; rfl)⟩
    | block base length => exact ⟨hres, Deliver.memory_block s.self s.mem base length⟩
  · rw [Txn.outcome_err he] at hself hresult
    rw [finishLine_err (by rw [hresult]; rfl), hself] at hlast
    have hput := State.self_putSelf hwc (s.self.returned (.err (errorResult e)))
    refine ⟨_, _, s.mem, hlast, rfl, congrArg Caller.task hput, congrArg Caller.tmp hput, congrArg Caller.staging hput,
      fun e' h => ?_, fun h => nomatch he.symm.trans h⟩
    cases he.symm.trans h
    exact ⟨rfl, (congrArg Caller.result hput).trans (by cases e <;> rfl)⟩

end Sys2Proof.Machine
end

section
/-!
A good write and a good read, whole (43_transaction_fsm_isr R247 I6; 42_bus_engine R207, R209): what the two share.
-/
namespace Sys2Proof.Machine

-- Runs of operations

theorem execAll_append (l m : List Instr) (s : State) : execAll (l ++ m) s = andThen (execAll l s) (execAll m) := by
  induction l generalizing s with
  | nil => rfl
  | cons i l ih =>
    rw [List.cons_append, execAll, execAll, andThen_andThen]
    exact andThen_congr fun t _ => ih t

theorem execAll_cons {i : Instr} {s t : State} (h : exec i s = .next t) (l : List Instr) :
    execAll (i :: l) s = execAll l t := by rw [execAll, h, andThen_of_next]

theorem repeated_succ (n : Nat) (l : List Instr) : repeated (n + 1) l = repeated n l ++ l := by
  induction n with
  | zero => exact List.append_nil l
  | succ n ih => rw [repeated, ih, ← List.append_assoc, ← repeated, ih]

/-- Operations that lead from each state of a sequence to the next lead through it. -/
theorem execAll_repeated {f : Nat → State} {l : List Instr} {n : Nat}
    (h : ∀ k < n, execAll l (f k) = .next (f (k + 1))) : execAll (repeated n l) (f 0) = .next (f n) := by
  induction n with
  | zero => rfl
  | succ n ih =>
    rw [repeated_succ, execAll_append, ih fun k hk => h k (by omega), andThen_of_next]
    exact h n (Nat.lt_succ_self n)

theorem refService_add (m n : Nat) (s : State) : refService (m + n) s = andThen (refService m s) (refService n) := by
  induction m generalizing s with
  | zero => rw [Nat.zero_add]; rfl
  | succ m ih =>
    have ih : refService (m + n) = fun s => andThen (refService m s) (refService n) := funext ih
    rw [Nat.succ_add, refService, ih, refService, andThen_andThen (andThen _ _)]

/-- An invocation and the engine's steps after it. -/
theorem refService_one {s t u : State} (hs : exec .isrService s = .next t) (ht : settle t = .next u) :
    refService 1 s = .next u := by
  rw [refService, hs, andThen_of_next, ht]
  rfl

/-- Invocations that lead from each state of a sequence to the next lead through it. -/
theorem refService_through {f : Nat → State} {n : Nat} (h : ∀ k < n, refService 1 (f k) = .next (f (k + 1))) :
    refService n (f 0) = .next (f n) := by
  induction n with
  | zero => rfl
  | succ n ih =>
    rw [refService_add, ih fun k hk => h k (by omega), andThen_of_next]
    exact h n (Nat.lt_succ_self n)

/-- One step of the reference engine. -/
theorem engSteps_succ {s t : State} {i : Instr} (hi : s.engNext = some i) (ht : exec i s = .next t) (n : Nat) :
    engSteps (n + 1) s = engSteps n t := by rw [engSteps, hi]; exact congrArg (andThen · _) ht

/-- The reference engine has come to rest. -/
theorem engSteps_of_engNext {s : State} (h : s.engNext = none) (n : Nat) : engSteps n s = .next s := by
  cases n with
  | zero => rfl
  | succ n => rw [engSteps, h]

-- The bytes of a transaction, one more at the end

theorem Memory.bytes_succ (m : Memory) (a n : Nat) : m.bytes a (n + 1) = m.bytes a n ++ [m.read (a + n)] := by
  simp [Memory.bytes, List.range_succ]

/-- The byte the reference slave sends as number `k` of a read (42 R212). -/
def RefSlave.byte (r : RefSlave) (k : Nat) : Byte := r.mem.read (r.ptr + BitVec.ofNat 8 k).toNat

theorem RefSlave.sends_succ (r : RefSlave) (n : Nat) : r.sends (n + 1) = r.sends n ++ [r.byte n] := by
  simp [RefSlave.sends, RefSlave.byte, List.range_succ]

theorem RefSlave.length_sends (r : RefSlave) (n : Nat) : (r.sends n).length = n := by simp [RefSlave.sends]

theorem RefSlave.takeAll_concat (r : RefSlave) (l : List Byte) (b : Byte) :
    r.takeAll (l ++ [b]) = (r.takeAll l).take b := by simp [RefSlave.takeAll]

theorem Memory.writeBytes_concat (m : Memory) (a : Nat) (l : List Byte) (b : Byte) :
    m.writeBytes a (l ++ [b]) = (m.writeBytes a l).write (a + l.length) b := by
  induction l generalizing m a with
  | nil => rfl
  | cons c l ih => rw [List.cons_append, Memory.writeBytes, ih, Memory.writeBytes, List.length_cons, Nat.add_right_comm a]; rfl

/-- Bytes on the wire, each acknowledged (42 R194). -/
def ackedBytes (l : List Byte) : List WireEvent := l.flatMap fun b => [.byte b, .ack]

theorem ackedBytes_concat (l : List Byte) (b : Byte) : ackedBytes (l ++ [b]) = ackedBytes l ++ [.byte b, .ack] := by
  simp [ackedBytes]

theorem readFrame_concat (l : List Byte) (b : Byte) : readFrame (l ++ [b]) = ackedBytes l ++ [.byte b, .nack] := by
  induction l with
  | nil => rfl
  | cons c l ih =>
    have hc : readFrame (c :: (l ++ [b])) = .byte c :: .ack :: readFrame (l ++ [b]) := by cases l <;> rfl
    rw [List.cons_append, hc, ih]
    rfl

-- The interrupt service of a good transaction

/-- The premises of a good transaction that no step of it touches: the block open and enabled, an atomic service that is
registered and between two invocations, every source enabled. -/
structure State.Served (s : State) : Prop where
  isOpen : s.i2cOpen = true
  enabled : s.con.en = true
  atomic : s.opts.isrAtomic = true
  registered : s.ctl.irqRegistered = true
  sources : s.ie = 0x1F
  between : s.isr = []

namespace State.Served
variable {s : State} (h : s.Served)
include h

theorem engLive : s.engLive = true := by simp [State.engLive, h.enabled, (s.i2cOpen_iff.1 h.isOpen).2]

/-- The step of the reference engine that is enabled, by the engine's state (42 R207). -/
theorem engNext_addr (hs : s.eng.st = .addr) (ha : s.addrAck = true) : s.engNext = some .engAddrAck := by
  simp [State.engNext, h.engLive, hs, ha]

theorem engNext_txShift {b : Byte} (hs : s.eng.st = .txShift) (hb : s.eng.hold = some b) (ha : s.dataAck b = true) :
    s.engNext = some .engTxByteAck := by simp [State.engNext, h.engLive, hs, hb, ha]

theorem engNext_rxShift (hs : s.eng.st = .rxShift) (hb : s.eng.hold = none) : s.engNext = some .engRxByte := by
  simp [State.engNext, h.engLive, hs, hb]

theorem engNext_stop (hs : s.eng.st = .stop) : s.engNext = some .engStopDone := by simp [State.engNext, h.engLive, hs]

/-- The snapshot is the latches. -/
theorem snapshot : s.raw &&& s.ie = s.raw := by
  have bits : ∀ r : Status, r &&& 0x1F = r := by decide
  rw [h.sources, bits]

theorem isrEnabled (hr : s.raw ≠ 0) : s.isrEnabled = true :=
  s.isrEnabled_iff.2 ⟨h.registered, by rwa [h.snapshot], h.between⟩

variable {d : Txn} (hd : s.txn = some d)
include hd

/-- The next byte of the buffer to a waiting engine (43 R237). -/
theorem service_xrdy {base : Word} (hr : s.raw = statXrdy) (hp : d.phase = .writing) (hb : d.buffer = some (.mem base))
    (hi : d.index < d.length) (hs : s.eng.st = .txWait) : exec .isrService s = .next
      { s with
        txn := some { d with index := d.index + 1 }
        raw := 0
        eng := { s.eng with hold := some (s.mem.read (base.toNat + d.index)), loaded := s.eng.loaded + 1, st := .txShift } } := by
  have hbyte := bufGet_of_some (s := s) (buf := d.buffer) (i := d.index) (by rw [hb]; rfl)
  have hrun := isr_transmit (h.isrEnabled (by rw [hr]; decide)) h.atomic h.isOpen hd (by rw [h.snapshot, hr]; decide) hp
    (isrTxData_waiting h.isOpen hd hi hbyte hs) nofun
  rwa [hr] at hrun

/-- ARDY alone ends the transaction (43 R239). -/
theorem service_ardy (hr : s.raw = statArdy) : exec .isrService s = .next
    { s with txn := some { d with phase := .idle, completion := true }, raw := 0, eng := { s.eng with window := false } } := by
  have hsnap := h.snapshot.trans hr
  have hrun := (isrArdyStepOrNone s d (h.isrEnabled (by rw [hr]; decide)) h.atomic h.isOpen hd (by rw [hsnap]; decide)
    (.inl (by rw [hsnap]; decide)) (.inl (by rw [hsnap]; decide))).1 (by rw [hsnap]; decide)
  rwa [hr] at hrun

variable {base : Word} {b : Byte} (hbuf : d.buffer = some (.mem base)) (hi : d.index < d.length)
  (hdir : s.eng.dir = .rx) (hb : s.eng.hold = some b) (hw : s.eng.window = true)
include hbuf hi hdir hb hw

/-- The data read of step 3 stores the held byte in the caller's memory (43 R238). -/
theorem isrRxData : isrRxData s = .next
    { s with
      txn := some { d with index := d.index + 1 }
      mem := s.mem.write (base.toNat + d.index) b
      eng := s.eng.handedOver } :=
  isrRxData_held (t := { s with mem := s.mem.write (base.toNat + d.index) b, eng := s.eng.handedOver }) hd
    (regRead_held h.isOpen hb hdir (.inr hw)) hi (by rw [hbuf]; rfl)

/-- A held byte goes to the buffer (43 R238). -/
theorem service_rrdy (hp : d.phase = .reading) (hr : s.raw = statRrdy) : exec .isrService s = .next
    { s with
      txn := some { d with index := d.index + 1 }
      mem := s.mem.write (base.toNat + d.index) b
      raw := 0
      eng := s.eng.handedOver } := by
  have hrun := isr_receive (h.isrEnabled (by rw [hr]; decide)) h.atomic h.isOpen hd (by rw [h.snapshot, hr]; decide) hp
    (h.isrRxData hd hbuf hi hdir hb hw) rfl
  rwa [hr] at hrun

/-- A held byte goes to the buffer and ARDY ends the transaction, in one invocation (42 R209). -/
theorem service_rrdy_ardy (hp : d.phase = .reading) (hr : s.raw = statRrdy ||| statArdy) : exec .isrService s = .next
    { s with
      txn := some { d with index := d.index + 1, phase := .idle, completion := true }
      mem := s.mem.write (base.toNat + d.index) b
      raw := 0
      eng := { s.eng.handedOver with window := false } } := by
  have hrun := isr_receive_then (h.isrEnabled (by rw [hr]; decide)) h.atomic h.isOpen hd (by rw [h.snapshot, hr]; decide) hp
    (h.isrRxData hd hbuf hi hdir hb hw) rfl
  have hmask : (statRrdy ||| statArdy) &&& ~~~0x08 &&& ~~~0x04 = (0 : Status) := by decide
  rw [h.snapshot, hr, isrStep4_ardy (by exact h.isOpen) rfl (by decide)] at hrun
  dsimp only at hrun
  rwa [hmask] at hrun

end State.Served

end Sys2Proof.Machine
end

section
/-!
A good write (43_transaction_fsm_isr R247 I6; 42_bus_engine R207, R209).
-/
namespace Sys2Proof.Machine

section
variable (s : State) (r : RefSlave) (d : Txn) (base : Word) (n : Nat)

/-- A good write of `n + 1` bytes from `s`, with `k` bytes on the wire and `i` handed to the engine. -/
def State.goodWrite (k i : Nat) (st : EngSt) (hold : Option Byte) (raw : Status) : State :=
  { s with
    txn := some { d with index := i }
    raw := raw
    wire := s.wire ++ [.start, .addr r.addr false, .ack] ++ ackedBytes (s.mem.bytes base.toNat k)
    env := .refSlave (RefSlave.takeAll { r with first := true } (s.mem.bytes base.toNat k))
    draws := s.draws + (k + 1)
    eng :=
      { st := st, dir := .tx, sa := r.addr, cnt := n + 1, rem := n + 1 - k, loaded := i, hold := hold, window := true,
        lateArdy := false, extra := 0 } }

/-- The engine asks for byte `k`. -/
def State.writeAsks (k : Nat) : State := s.goodWrite r d base n k k .txWait none statXrdy

/-- The engine has byte `k`. -/
def State.writeHas (k : Nat) : State :=
  s.goodWrite r d base n k (k + 1) .txShift (some (s.mem.read (base.toNat + k))) 0

/-- The bus is free and ARDY latched. -/
def State.writeStopped : State :=
  let t := s.goodWrite r d base n (n + 1) (n + 1) .idle none statArdy
  { t with wire := t.wire ++ [.stop] }

/-- The write is complete. -/
def State.writeComplete : State :=
  let t := s.writeStopped r d base n
  { t with
    txn := some { d with phase := .idle, index := n + 1, completion := true }, raw := 0, eng := { t.eng with window := false } }

end

section
variable {s : State} {r : RefSlave} {d : Txn} {base : Word} {n : Nat} (hs : s.Served)
include hs

theorem State.Served.goodWrite (k i : Nat) (st : EngSt) (hold : Option Byte) (raw : Status) :
    (s.goodWrite r d base n k i st hold raw).Served :=
  ⟨hs.isOpen, hs.enabled, hs.atomic, hs.registered, hs.sources, hs.between⟩

theorem State.Served.writeStopped : (s.writeStopped r d base n).Served :=
  ⟨hs.isOpen, hs.enabled, hs.atomic, hs.registered, hs.sources, hs.between⟩

/-- The address is acknowledged. -/
theorem goodWrite_begins (henv : s.env = .refSlave r) (hraw : s.raw = 0) (hd : s.txn = some d) (h0 : d.index = 0)
    (he : s.eng = .started .tx (n + 1) r.addr) :
    s.engNext = some .engAddrAck ∧ exec .engAddrAck s = .next (s.writeAsks r d base n 0) := by
  have hst : s.eng.st = .addr := by rw [he]; rfl
  have hack : s.addrAck = true := by rw [State.addrAck, henv, he]; exact beq_self_eq_true _
  have htxn : s.txn = some { d with index := 0 } := by rw [hd, ← h0]
  refine ⟨hs.engNext_addr hst hack, (exec_engAddrAck_tx hs.engLive hst hack (by rw [he]; rfl)).trans ?_⟩
  rw [State.writeAsks, State.goodWrite, henv, hraw, he, htxn, show ackedBytes (s.mem.bytes base.toNat 0) = [] from rfl,
    List.append_nil]
  rfl

/-- The service hands the byte over. -/
theorem writeAsks_service (hp : d.phase = .writing) (hb : d.buffer = some (.mem base)) (hl : d.length = n + 1) {k : Nat}
    (hk : k ≤ n) : exec .isrService (s.writeAsks r d base n k) = .next (s.writeHas r d base n k) :=
  (hs.goodWrite k k .txWait none statXrdy).service_xrdy rfl rfl hp hb (by simp only [hl]; omega) rfl

/-- A byte that is not the last is acknowledged. -/
theorem writeHas_ack {k : Nat} (hk : k < n) :
    (s.writeHas r d base n k).engNext = some .engTxByteAck
      ∧ exec .engTxByteAck (s.writeHas r d base n k) = .next (s.writeAsks r d base n (k + 1)) := by
  have hserved : (s.writeHas r d base n k).Served := hs.goodWrite ..
  refine ⟨hserved.engNext_txShift rfl rfl rfl,
    (exec_engTxByteAck_more hserved.engLive rfl rfl rfl (show 0 < n + 1 - k - 1 by omega)).trans ?_⟩
  simp only [State.writeHas, State.writeAsks, State.goodWrite, Memory.bytes_succ, RefSlave.takeAll_concat,
    ackedBytes_concat, List.append_assoc]
  rfl

/-- The last byte is acknowledged. -/
theorem writeHas_ack_last :
    (s.writeHas r d base n n).engNext = some .engTxByteAck
      ∧ exec .engTxByteAck (s.writeHas r d base n n) = .next (s.goodWrite r d base n (n + 1) (n + 1) .stop none 0) := by
  have hserved : (s.writeHas r d base n n).Served := hs.goodWrite ..
  refine ⟨hserved.engNext_txShift rfl rfl rfl,
    (exec_engTxByteAck_last hserved.engLive rfl rfl rfl (show n + 1 - n - 1 = 0 by omega)).trans ?_⟩
  simp only [State.writeHas, State.goodWrite, Memory.bytes_succ, RefSlave.takeAll_concat,
    ackedBytes_concat, List.append_assoc, Nat.sub_self]
  rfl

/-- The STOP. -/
theorem goodWrite_stop :
    (s.goodWrite r d base n (n + 1) (n + 1) .stop none 0).engNext = some .engStopDone
      ∧ exec .engStopDone (s.goodWrite r d base n (n + 1) (n + 1) .stop none 0) = .next (s.writeStopped r d base n) := by
  have hserved : (s.goodWrite r d base n (n + 1) (n + 1) .stop none 0).Served := hs.goodWrite ..
  refine ⟨hserved.engNext_stop rfl, (exec_engStopDone hserved.engLive rfl).trans ?_⟩
  simp only [State.writeStopped, State.goodWrite]
  rfl

/-- The last service. -/
theorem writeStopped_service : exec .isrService (s.writeStopped r d base n) = .next (s.writeComplete r d base n) :=
  hs.writeStopped.service_ardy rfl rfl

end

/-- Settles O49: the two schedules meet the same states, and end in `State.writeComplete`. -/
theorem goodWrite : Obligations.GoodWrite := by
  intro s r d base n ho hen ha hreg hie hraw hisr henv hd hp herr hb hl h0 hc he
  have hs : s.Served := ⟨ho, hen, ha, hreg, hie, hisr⟩
  obtain ⟨hnext, haddr⟩ := goodWrite_begins (base := base) hs henv hraw hd h0 he
  have hservice := fun k (hk : k ≤ n) => writeAsks_service (r := r) hs hp hb hl hk
  obtain ⟨hlast, hack⟩ := writeHas_ack_last (r := r) (d := d) (base := base) (n := n) hs
  obtain ⟨hstop, hstopped⟩ := goodWrite_stop (r := r) (d := d) (base := base) (n := n) hs
  have hend := writeStopped_service (r := r) (d := d) (base := base) (n := n) hs
  refine ⟨s.writeComplete r d base n, ?_, ?_, rfl, rfl, rfl, rfl, rfl, rfl⟩
  · have hbytes : execAll (repeated n [.engTxByteAck, .isrService]) (s.writeHas r d base n 0)
        = .next (s.writeHas r d base n n) := execAll_repeated fun k hk => by
      rw [execAll_cons (writeHas_ack hs hk).2]
      exact execAll_cons (hservice (k + 1) hk) []
    rw [writeEvents, List.append_assoc, execAll_append, execAll_cons haddr, execAll_cons (hservice 0 (Nat.zero_le n)),
      execAll, andThen_of_next, execAll_append, hbytes, andThen_of_next, execAll_cons hack, execAll_cons hstopped]
    exact execAll_cons hend []
  · have hbyte : ∀ k < n, refService 1 (s.writeAsks r d base n k) = .next (s.writeAsks r d base n (k + 1)) := fun k hk => by
      refine refService_one (hservice k (Nat.le_of_lt hk)) ?_
      rw [settle, engSteps_succ (writeHas_ack hs hk).1 (writeHas_ack hs hk).2]
      exact engSteps_of_engNext (engNext_of_stepsLeft rfl) 2
    have hlastByte : refService 1 (s.writeAsks r d base n n) = .next (s.writeStopped r d base n) := by
      refine refService_one (hservice n (Nat.le_refl n)) ?_
      rw [settle, engSteps_succ hlast hack, engSteps_succ hstop hstopped]
      exact engSteps_of_engNext (engNext_of_stepsLeft rfl) 1
    rw [settle, engSteps_succ hnext haddr, engSteps_of_engNext (engNext_of_stepsLeft rfl), andThen_of_next, refService_add n 2,
      refService_through hbyte, andThen_of_next, refService_add 1 1, hlastByte, andThen_of_next]
    exact refService_one hend (settle_of_engNext (engNext_of_stepsLeft rfl))

end Sys2Proof.Machine
end

section
/-!
A good read (43_transaction_fsm_isr R247 I6; 42_bus_engine R207, R209).
-/
namespace Sys2Proof.Machine

/-- The reference slave after it has sent one more byte. -/
theorem RefSlave.ptr_succ (r : RefSlave) (k : Nat) : r.ptr + BitVec.ofNat 8 (k + 1) = r.ptr + BitVec.ofNat 8 k + 1 := by
  rw [BitVec.ofNat_add, ← BitVec.add_assoc]
  rfl

section
variable (s : State) (r : RefSlave) (d : Txn) (base : Word) (n : Nat)

/-- A good read of `n + 1` bytes from `s`: the wire after the address, with `k` bytes sent by the slave and `i` in the
buffer. -/
def State.goodRead (frame : List WireEvent) (k i : Nat) (st : EngSt) (hold : Option Byte) (raw : Status) : State :=
  { s with
    txn := some { d with index := i }
    raw := raw
    wire := s.wire ++ [.start, .addr r.addr true, .ack] ++ frame
    env := .refSlave { r with ptr := r.ptr + BitVec.ofNat 8 k }
    mem := s.mem.writeBytes base.toNat (r.sends i)
    draws := s.draws + (k + 1)
    eng :=
      { st := st, dir := .rx, sa := r.addr, cnt := n + 1, rem := n + 1 - k, loaded := i, hold := hold, window := true,
        lateArdy := false, extra := 0 } }

/-- The engine receives byte `k`. -/
def State.readAwaits (k : Nat) : State := s.goodRead r d base n (ackedBytes (r.sends k)) k k .rxShift none 0

/-- The engine holds byte `k`, which is not the last. -/
def State.readHolds (k : Nat) : State :=
  s.goodRead r d base n (ackedBytes (r.sends (k + 1))) (k + 1) k .rxWait (some (r.byte k)) statRrdy

/-- The engine holds the last byte, before the STOP. -/
def State.readHoldsLast : State :=
  s.goodRead r d base n (readFrame (r.sends (n + 1))) (n + 1) n .stop (some (r.byte n)) statRrdy

/-- The bus is free with the last byte still held: RRDY and ARDY are latched together. -/
def State.readStoppedHolding : State :=
  s.goodRead r d base n (readFrame (r.sends (n + 1)) ++ [.stop]) (n + 1) n .idle (some (r.byte n)) (statRrdy ||| statArdy)

/-- Where the reference engine comes to rest once it receives byte `k`. -/
def State.readRests (k : Nat) : State := if k < n then s.readHolds r d base n k else s.readStoppedHolding r d base n

/-- The read is complete. -/
def State.readComplete : State :=
  let t := s.goodRead r d base n (readFrame (r.sends (n + 1)) ++ [.stop]) (n + 1) (n + 1) .idle none 0
  { t with
    txn := some { d with phase := .idle, index := n + 1, completion := true }, eng := { t.eng with window := false } }

end

section
variable {s : State} {r : RefSlave} {d : Txn} {base : Word} {n : Nat} (hs : s.Served)
include hs

theorem State.Served.goodRead (frame : List WireEvent) (k i : Nat) (st : EngSt) (hold : Option Byte) (raw : Status) :
    (s.goodRead r d base n frame k i st hold raw).Served :=
  ⟨hs.isOpen, hs.enabled, hs.atomic, hs.registered, hs.sources, hs.between⟩

/-- The address is acknowledged. -/
theorem goodRead_begins (henv : s.env = .refSlave r) (hraw : s.raw = 0) (hd : s.txn = some d) (h0 : d.index = 0)
    (he : s.eng = .started .rx (n + 1) r.addr) :
    s.engNext = some .engAddrAck ∧ exec .engAddrAck s = .next (s.readAwaits r d base n 0) := by
  have hst : s.eng.st = .addr := by rw [he]; rfl
  have hack : s.addrAck = true := by rw [State.addrAck, henv, he]; exact beq_self_eq_true _
  have htxn : s.txn = some { d with index := 0 } := by rw [hd, ← h0]
  refine ⟨hs.engNext_addr hst hack, (exec_engAddrAck_rx hs.engLive hst hack (by rw [he]; rfl)).trans ?_⟩
  rw [State.readAwaits, State.goodRead, henv, hraw, he, htxn, show ackedBytes (r.sends 0) = [] from rfl, List.append_nil,
    show r.ptr + BitVec.ofNat 8 0 = r.ptr from BitVec.add_zero _]
  rfl

/-- A byte that is not the last is received. -/
theorem readAwaits_byte {k : Nat} (hk : k < n) :
    (s.readAwaits r d base n k).engNext = some .engRxByte
      ∧ exec .engRxByte (s.readAwaits r d base n k) = .next (s.readHolds r d base n k) := by
  have hserved : (s.readAwaits r d base n k).Served := hs.goodRead ..
  refine ⟨hserved.engNext_rxShift rfl rfl,
    (exec_engRxByte_more hserved.engLive rfl rfl (show 0 < n + 1 - k - 1 by omega)).trans ?_⟩
  simp only [State.readHolds, State.readAwaits, State.goodRead, RefSlave.sends_succ r k, RefSlave.ptr_succ,
    ackedBytes_concat, List.append_assoc]
  rfl

/-- The last byte is received, and not acknowledged. -/
theorem readAwaits_byte_last :
    (s.readAwaits r d base n n).engNext = some .engRxByte
      ∧ exec .engRxByte (s.readAwaits r d base n n) = .next (s.readHoldsLast r d base n) := by
  have hserved : (s.readAwaits r d base n n).Served := hs.goodRead ..
  refine ⟨hserved.engNext_rxShift rfl rfl,
    (exec_engRxByte_last hserved.engLive rfl rfl (show n + 1 - n - 1 = 0 by omega)).trans ?_⟩
  simp only [State.readHoldsLast, State.readAwaits, State.goodRead, RefSlave.sends_succ r n, RefSlave.ptr_succ,
    readFrame_concat, List.append_assoc, Nat.sub_self]
  rfl

/-- The STOP, with the last byte held or handed over. -/
theorem goodRead_stop (frame : List WireEvent) (i : Nat) (hold : Option Byte) (raw : Status) :
    (s.goodRead r d base n frame (n + 1) i .stop hold raw).engNext = some .engStopDone
      ∧ exec .engStopDone (s.goodRead r d base n frame (n + 1) i .stop hold raw)
        = .next (s.goodRead r d base n (frame ++ [.stop]) (n + 1) i .idle hold (raw ||| statArdy)) := by
  have hserved : (s.goodRead r d base n frame (n + 1) i .stop hold raw).Served := hs.goodRead ..
  refine ⟨hserved.engNext_stop rfl, (exec_engStopDone hserved.engLive rfl).trans ?_⟩
  simp only [State.goodRead, List.append_assoc]

theorem readHoldsLast_stop :
    (s.readHoldsLast r d base n).engNext = some .engStopDone
      ∧ exec .engStopDone (s.readHoldsLast r d base n) = .next (s.readStoppedHolding r d base n) :=
  goodRead_stop hs _ n (some (r.byte n)) statRrdy

section
variable (hp : d.phase = .reading) (hb : d.buffer = some (.mem base)) (hl : d.length = n + 1)
include hp hb hl

/-- The service stores the byte held. -/
theorem goodRead_service (frame : List WireEvent) (k : Nat) {i : Nat} (hi : i ≤ n) (st : EngSt) :
    exec .isrService (s.goodRead r d base n frame k i st (some (r.byte i)) statRrdy)
      = .next (s.goodRead r d base n frame k (i + 1) (if st = .rxWait then .rxShift else st) none 0) := by
  refine ((hs.goodRead frame k i st (some (r.byte i)) statRrdy).service_rrdy rfl hb (by simp only [hl]; omega) rfl rfl rfl hp
    rfl).trans ?_
  simp only [State.goodRead, RefSlave.sends_succ r i, Memory.writeBytes_concat, RefSlave.length_sends]
  rfl

theorem readHolds_service {k : Nat} (hk : k < n) :
    exec .isrService (s.readHolds r d base n k) = .next (s.readAwaits r d base n (k + 1)) :=
  goodRead_service hs hp hb hl _ (k + 1) (Nat.le_of_lt hk) .rxWait

theorem readHoldsLast_service :
    exec .isrService (s.readHoldsLast r d base n)
      = .next (s.goodRead r d base n (readFrame (r.sends (n + 1))) (n + 1) (n + 1) .stop none 0) :=
  goodRead_service hs hp hb hl _ (n + 1) (Nat.le_refl n) .stop

/-- The service stores the last byte and ends the transaction. -/
theorem readStoppedHolding_service :
    exec .isrService (s.readStoppedHolding r d base n) = .next (s.readComplete r d base n) := by
  have hserved : (s.readStoppedHolding r d base n).Served := hs.goodRead ..
  refine (hserved.service_rrdy_ardy rfl hb (by simp only [hl]; omega) rfl rfl rfl hp rfl).trans ?_
  simp only [State.readStoppedHolding, State.readComplete, State.goodRead, RefSlave.sends_succ r n,
    Memory.writeBytes_concat, RefSlave.length_sends]
  rfl

end

/-- The service after the last byte was handed over. -/
theorem goodRead_service_ardy :
    exec .isrService (s.goodRead r d base n (readFrame (r.sends (n + 1)) ++ [.stop]) (n + 1) (n + 1) .idle none statArdy)
      = .next (s.readComplete r d base n) :=
  (hs.goodRead ..).service_ardy rfl rfl

/-- Where the reference engine comes to rest. -/
theorem engSteps_readAwaits {k : Nat} (hk : k ≤ n) (m : Nat) :
    engSteps (m + 2) (s.readAwaits r d base n k) = .next (s.readRests r d base n k) := by
  rw [State.readRests]
  split
  · rename_i hlt
    rw [engSteps_succ (readAwaits_byte hs hlt).1 (readAwaits_byte hs hlt).2]
    exact engSteps_of_engNext (engNext_of_stepsLeft rfl) _
  · obtain rfl : k = n := by omega
    obtain ⟨hnext, hbyte⟩ := readAwaits_byte_last (r := r) (d := d) (base := base) (n := k) hs
    obtain ⟨hstop, hstopped⟩ := readHoldsLast_stop (r := r) (d := d) (base := base) (n := k) hs
    rw [engSteps_succ hnext hbyte, engSteps_succ hstop hstopped]
    exact engSteps_of_engNext (engNext_of_stepsLeft rfl) _

end

/-- Settles O50: the two schedules end in `State.readComplete`, by two invocations after the last byte or by one. -/
theorem goodRead : Obligations.GoodRead := by
  intro s r d base n ho hen ha hreg hie hraw hisr henv hd hp herr hb hl h0 hc he
  have hs : s.Served := ⟨ho, hen, ha, hreg, hie, hisr⟩
  obtain ⟨hnext, haddr⟩ := goodRead_begins (base := base) hs henv hraw hd h0 he
  have hservice : ∀ k < n, exec .isrService (s.readHolds r d base n k) = .next (s.readAwaits r d base n (k + 1)) :=
    fun k hk => readHolds_service hs hp hb hl hk
  refine ⟨s.readComplete r d base n, ?_, ?_, rfl, rfl, rfl, rfl, (List.append_assoc ..).symm, rfl⟩
  · have hbytes : execAll (repeated n [.engRxByte, .isrService]) (s.readAwaits r d base n 0)
        = .next (s.readAwaits r d base n n) := execAll_repeated fun k hk => by
      rw [execAll_cons (readAwaits_byte hs hk).2]
      exact execAll_cons (hservice k hk) []
    rw [readEvents, List.append_assoc, execAll_append, execAll_cons haddr, execAll, andThen_of_next, execAll_append, hbytes,
      andThen_of_next, execAll_cons (readAwaits_byte_last hs).2,
      execAll_cons (readHoldsLast_service hs hp hb hl), execAll_cons (goodRead_stop hs _ (n + 1) none 0).2]
    exact execAll_cons (goodRead_service_ardy hs) []
  · have hrest : ∀ k ≤ n, settle (s.readAwaits r d base n k) = .next (s.readRests r d base n k) :=
      fun k hk => engSteps_readAwaits hs hk 1
    have hbyte : ∀ k < n, refService 1 (s.readRests r d base n k) = .next (s.readRests r d base n (k + 1)) := fun k hk => by
      rw [State.readRests, if_pos hk]
      exact refService_one (hservice k hk) (hrest (k + 1) hk)
    have hlast : s.readRests r d base n n = s.readStoppedHolding r d base n := if_neg (Nat.lt_irrefl n)
    rw [settle, engSteps_succ hnext haddr, engSteps_readAwaits hs (Nat.zero_le n) 0, andThen_of_next, refService_add n 1,
      refService_through hbyte, andThen_of_next, hlast]
    exact refService_one (readStoppedHolding_service hs hp hb hl) (settle_of_engNext (engNext_of_stepsLeft rfl))

end Sys2Proof.Machine
end

section
/-!
The transfer operations of the consumer API (44_blocking_transfer_api R270 to R278): their checks, their beginnings, the way to
the wait, and the two phases of a composite.
-/
namespace Sys2Proof.Machine

-- XFER_LOCKED's lines (R271)

/-- The clock check and the arming of XFER_LOCKED with a functional clock: the wait is next. -/
theorem Goes.xferLines {m n : Nat} {s u : State} {dir : Dir} {a : Byte} {b : BufRef} {d : Txn} {l : List Act} {r : Result}
    (hl : u.lock = some u.actor) (hd : u.txn = some d) (hp : d.phase = .idle) (haw : d.awaited = false)
    (hm : u.ctl.clkMapped = true) (hi : u.ctl.i2cMapped = true) (h2 : u.modulemode = 2) (h0 : u.idlest = 0)
    (ha : a.toNat ≤ 0x7F) (h1 : 1 ≤ n) (hn : n ≤ u.opts.maxLen) (h : Goes m s u (xferLines u.opts dir a b n ++ l) r) :
    Goes (m + 8) s
      { u with
        txn := some
          { phase := .ofDir dir, error := none, buffer := some b, length := n, index := 0, completion := false,
            awaited := true }
        raw := 0
        sa := some (a.setWidth 10)
        cnt := some (BitVec.ofNat 32 n)
        con := { en := true, mst := true, trx := dir == .tx }
        eng := Engine.started dir n (a.setWidth 7) } (.wait :: l) .ok := by
  have hclock : Goes (m + 1) s u (armLines u.opts dir a b n ++ .wait :: l) .ok := Goes.clkEnsure hm h2 h0 h
  have hfields := Goes.armFirst hl hd hp haw hclock
  exact Goes.armRest (by exact u.i2cOpen_iff.2 ⟨hi, h0⟩) rfl ha h1 (by exact hn) hfields

/-- Settles O45: the lock taken, then `Goes.xferLines`. -/
theorem transferReachesWait : Obligations.TransferReachesWait := by
  intro s dir a buf n d rest hw hl hd hp haw hm hi h2 h0 ha h1 hn ht
  have hstart := goes_zero hw
  rw [ht] at hstart
  obtain ⟨c, hturns, -, -, hself, -⟩ :=
    Goes.xferLines (u := { s with lock := some s.actor }) rfl hd hp haw hm hi h2 h0 ha h1 hn (hstart.acquire hl)
  exact ⟨_, c, hturns, congrArg Caller.task hself, by rw [hself], by rw [hself], rfl⟩

/-- XFER_LOCKED by the lock holder with good operands performs the clock check at once. -/
theorem exec_xferLocked_holder {s : State} {a : Byte} {n : Word} (hl : s.lock = some s.actor)
    (h : transferOperandsOk s.opts a n = true) (dir : Dir) (buf : Word) :
    exec (.xferLocked dir a buf n) s
      = performLine .clkEnsure (armLines s.opts dir a (.mem buf) n.toNat ++ [.wait] ++ s.self.task)
          (s.begin (xferLines s.opts dir a (.mem buf) n.toNat)) := by
  have hstart : exec (.xferLocked dir a buf n) s = advance (s.begin (xferLines s.opts dir a (.mem buf) n.toNat)) := by
    simp [exec, execXferLocked, s.holdsLock_iff.2 hl, h]
  exact hstart.trans (advance_goOn ..)

/-- Settles O46: the clock check's line, in its two cases. -/
theorem xferLockedBegins : Obligations.XferLockedBegins := by
  intro s dir a buf n hw hl ht hm ha h1 h2
  have hexec := exec_xferLocked_holder hl ((transferOperandsOk_iff s.opts a n).2 ⟨ha, h1, h2⟩) dir buf
  rw [ht, List.append_nil] at hexec
  have hwb : (s.begin (xferLines s.opts dir a (.mem buf) n.toNat)).CallersWf := State.CallersWf.begin hw _
  by_cases hf : s.modulemode = 2 ∧ s.idlest = 0
  · have hcheck := performLine_clkEnsure_functional (s := s.begin (xferLines s.opts dir a (.mem buf) n.toNat))
      (armLines s.opts dir a (.mem buf) n.toNat ++ [.wait]) hm hf.1 hf.2
    exact ⟨_, _, hexec.trans hcheck, rfl, fun _ => congrArg Caller.task (State.self_goOn hwb _ _),
      fun h => absurd hf (Classical.not_and_iff_not_or_not.2 h)⟩
  · have hg : s.modulemode ≠ 2 ∨ s.idlest ≠ 0 := Classical.not_and_iff_not_or_not.1 hf
    have hcheck := performLine_clkEnsure_request (s := s.begin (xferLines s.opts dir a (.mem buf) n.toNat))
      (armLines s.opts dir a (.mem buf) n.toNat ++ [.wait]) hm hg
    exact ⟨_, _, hexec.trans hcheck, rfl, fun h => absurd h hf, fun _ => State.self_setTask_task hwb _⟩

-- The two phases of a composite (R275, R276, R278)

/-- An error skips every line of a locked transfer. -/
theorem unwind_xferLines (o : Options) (dir : Dir) (a : Byte) (b : BufRef) (n : Nat) (l : List Act) :
    unwind (xferLines o dir a b n ++ l) = unwind l := rfl

section
variable {n : Nat} {s u : State} {d : Txn} {l : List Act} {r : Result}

/-- A signalled wait with no error recorded goes on. -/
theorem Goes.wait_ok (hd : u.txn = some d) (hc : d.completion = true) (he : d.error = none) (h : Goes n s u (.wait :: l) r) :
    Goes (n + 1) s { u with txn := some { d with awaited := false } } l .ok := by
  have hwait := h.wait hd hc
  rw [Txn.outcome_ok he] at hwait
  exact hwait

/-- A signalled wait with an error recorded goes on where the error is handed to. -/
theorem Goes.wait_err {e : XferError} (hd : u.txn = some d) (hc : d.completion = true) (he : d.error = some e)
    (h : Goes n s u (.wait :: l) r) :
    Goes (n + 1) s { u with txn := some { d with awaited := false } } (unwind l) (.err (errorResult e)) := by
  have hwait := h.wait hd hc
  rw [Txn.outcome_err he] at hwait
  exact hwait

/-- The return of an operation with an error: the error is the result, and the caller is in no operation. -/
theorem Goes.finish_err {how : Deliver} {e : Error} (h : Goes n s u [.finish how] (.err e)) :
    ∃ c, turns (n + 1) s = .next { u with callers := c } ∧ (State.self { u with callers := c }).task = []
      ∧ (State.self { u with callers := c }).result = .err e := by
  obtain ⟨c, hturns, hwc, -, hself, -⟩ := h
  have hresult := congrArg Caller.result hself
  have hput := State.self_putSelf hwc ((State.self { u with callers := c }).returned (.err e))
  have hlast : turns (n + 1) s
      = .next (State.putSelf { u with callers := c } ((State.self { u with callers := c }).returned (.err e))) := by
    rw [turns_add n 1, hturns, andThen_of_next, turns_succ, advance_cons (congrArg Caller.task hself), performLine,
      finishLine_err (by rw [hresult]; rfl), hresult]
    rfl
  exact ⟨_, hlast, congrArg Caller.task hput, congrArg Caller.result hput⟩

end

/-- Settles O48: the wait's line hands on the write phase's outcome; an error goes to the release and the return. -/
theorem compositePhases : Obligations.CompositePhases := by
  intro s d a n k how hw hl hd hc ht
  have hstart := goes_zero hw
  rw [ht] at hstart
  refine ⟨fun e he => ?_, fun he => ?_⟩
  · have hwait := hstart.wait_err hd hc he
    rw [unwind_xferLines] at hwait
    have hreleased := Goes.release (u := { s with txn := some { d with awaited := false } }) hl hwait
    obtain ⟨c, hturns, htask, hresult⟩ := hreleased.finish_err
    exact ⟨_, c, hturns, rfl, htask, hresult.trans (by cases e <;> rfl)⟩
  · obtain ⟨c, hturns, -, -, hself, -⟩ := hstart.wait_ok hd hc he
    exact ⟨_, c, advance_of_turn hturns, rfl, congrArg Caller.task hself⟩

-- The checks (R270)

section
variable {s : State}

theorem transferCall_concurrent (h : s.otherCaller inLifecycle = true) (f : State → Res State) :
    transferCall f s = .refused .concurrentLifecycle := if_pos h

theorem transferCall_not_ready (h : s.otherCaller inLifecycle = false) (hr : s.ctl.ready = false) (f : State → Res State) :
    transferCall f s = .next (s.ret (.err .notInitialized)) := by
  simp [transferCall, failsWith, h, hr]

theorem transferCall_ready (h : s.otherCaller inLifecycle = false) (hr : s.ctl.ready = true) (f : State → Res State) :
    transferCall f s = f s := by
  simp [transferCall, h, hr]

theorem bufferCall_invalid {b : Option Word} {n : Word} (h : b = none ∨ n = 0#32) (f : Word → Res State) :
    bufferCall b n f s = .next (s.ret (.err .invalidArgument)) := by
  cases b with
  | none => rfl
  | some base => exact if_pos (h.resolve_left (Option.some_ne_none base))

theorem bufferCall_some {n : Word} (h : n ≠ 0#32) (base : Word) (f : Word → Res State) :
    bufferCall (some base) n f s = f base := if_neg h

theorem startTransfer_refused {a : Byte} {n : Nat} (h : 0x7F < a.toNat ∨ s.opts.maxLen < n) (tmp staging : List Byte)
    (lines : List Act) : startTransfer a n tmp staging lines s = .refused .operandOutOfRange :=
  if_pos (by simpa [operandsOutOfRange] using h)

theorem startTransfer_ok {a : Byte} {n : Nat} (ht : s.self.task = []) (ha : a.toNat ≤ 0x7F) (hn : n ≤ s.opts.maxLen)
    (tmp staging : List Byte) (lines : List Act) :
    startTransfer a n tmp staging lines s
      = .next (s.putSelf
          { task := lines, result := .pending, tmp := tmp, staging := staging, serial := s.self.serial + 1 }) := by
  have hin : ¬operandsOutOfRange s.opts a n = true := by simp [operandsOutOfRange]; omega
  rw [startTransfer, if_neg hin, ht, List.append_nil, State.nextSerial]

/-- READ_BLOCK's allocation fails, or the transfer starts with a staging buffer of the length. -/
theorem startReadBlock_cases (a g : Byte) (base n : Word) (s : State) :
    startReadBlock a g base n s = .next (s.tick.ret (.err .allocationFailure))
      ∨ startReadBlock a g base n s = startTransfer a n.toNat [g] (s.tick.drawBytes n.toNat)
          (indexedReadLines s.opts s.actor s.nextSerial a n.toNat (.block base n.toNat)) (s.tick.ticks n.toNat) := by
  cases hd : s.drawBool with
  | true => exact .inl (if_pos hd)
  | false => exact .inr (if_neg (by rw [hd]; exact Bool.false_ne_true))

end

/-- Settles O43: each operation by the first of its checks that fails. -/
theorem transferChecks : Obligations.TransferChecks := by
  intro s a g v b n
  refine ⟨fun h => ?_, fun h => ⟨fun hr => ?_, fun hr hbad => ?_, fun hr hb hn hout => ?_, fun hr hout => ?_,
    fun hr hout => ?_⟩⟩
  · have hcall := transferCall_concurrent h
    exact ⟨hcall _, hcall _, hcall _, hcall _, hcall _⟩
  · have hcall := transferCall_not_ready h hr
    exact ⟨hcall _, hcall _, hcall _, hcall _, hcall _⟩
  · have hcall := fun f => (transferCall_ready h hr _).trans (bufferCall_invalid hbad f)
    exact ⟨hcall _, hcall _, hcall _⟩
  · obtain ⟨base, rfl⟩ := Option.ne_none_iff_exists'.1 hb
    have hcall := fun f => (transferCall_ready h hr _).trans (bufferCall_some hn base f)
    refine ⟨(hcall _).trans (startTransfer_refused hout _ _ _), (hcall _).trans (startTransfer_refused hout _ _ _), ?_⟩
    exact (startReadBlock_cases a g base n s).imp (hcall _).trans fun hstart =>
      ((hcall _).trans hstart).trans (startTransfer_refused (s := s.tick.ticks n.toNat) hout _ _ _)
  · exact (transferCall_ready h hr _).trans (startTransfer_refused hout _ _ _)
  · exact (transferCall_ready h hr _).trans (startTransfer_refused hout _ _ _)

-- The operations accepted (R272 to R276)

/-- Settles O44: past its checks each operation starts with its own lines and local buffers. -/
theorem transferBegins : Obligations.TransferBegins := by
  intro s a g v b n k hr ha h1 hn h ht hk
  subst hk
  have hn0 : n ≠ 0#32 := fun h0 => by rw [h0] at h1; exact absurd h1 (by decide)
  have hready := transferCall_ready h hr
  have hbuffer := fun f => (hready _).trans (bufferCall_some hn0 b f)
  refine ⟨(hbuffer _).trans (startTransfer_ok ht ha hn _ _ _), (hbuffer _).trans (startTransfer_ok ht ha hn _ _ _),
    fun h2 => (hready _).trans (startTransfer_ok ht ha h2 _ _ _),
    (hready _).trans (startTransfer_ok ht ha (Nat.le_trans h1 hn) _ _ _), ?_⟩
  refine (startReadBlock_cases a g b n s).imp (hbuffer _).trans fun hstart => ⟨_, s.tick.drawBytes_length n.toNat, ?_⟩
  exact ((hbuffer _).trans hstart).trans (startTransfer_ok (s := s.tick.ticks n.toNat) ht ha hn _ _ _)

end Sys2Proof.Machine
end

section
/-!
The lifecycle (45_lifecycle R300 to R306): when INIT and DEINIT begin or are refused, and their lines run one after
another.
-/
namespace Sys2Proof.Machine

-- INIT and DEINIT where they do not begin

section
variable {s : State}

theorem exec_init_concurrent (h : s.otherCaller inLifecycle = true ∨ s.otherCaller inPrologue = true)
    (khz line : Word) : exec (.init khz line) s = .refused .concurrentLifecycle :=
  if_pos (Bool.or_eq_true_iff.2 h)

theorem exec_deinit_concurrent (h : s.otherCaller inLifecycle = true ∨ s.otherCaller inPrologue = true) :
    exec .deinit s = .refused .concurrentLifecycle :=
  if_pos (Bool.or_eq_true_iff.2 h)

end

section
variable {s : State} (hl : s.otherCaller inLifecycle = false) (hp : s.otherCaller inPrologue = false)
include hl hp

theorem exec_init_ready (hr : s.ctl.ready = true) (khz line : Word) : exec (.init khz line) s = .next (s.ret .ok) := by
  simp [exec, execInit, hl, hp, hr]

theorem exec_init_begin (hr : s.ctl.ready = false) (khz line : Word) :
    exec (.init khz line) s
      = .next (State.begin { s with ctl := { s.ctl with i2cMapped := true, clkMapped := true } }
          (initLines s.opts (profile khz) line)) := by
  simp [exec, execInit, hl, hp, hr]

theorem exec_deinit_not_ready (hr : s.ctl.ready = false) : exec .deinit s = .next (s.ret .unit) := by
  simp [exec, execDeinit, hl, hp, hr]

theorem exec_deinit_busy {d : Txn} (hr : s.ctl.ready = true) (hd : s.txn = some d)
    (h : s.lock ≠ none ∨ d.phase ≠ .idle) : exec .deinit s = .refused .deinitWhileBusy := by
  have hbusy : (s.lock.isSome || inPhase .writing s || inPhase .reading s) = true := by
    rcases h with h | h
    · simp [Option.isSome_iff_ne_none.2 h]
    · cases hph : d.phase with
      | idle => exact absurd hph h
      | writing | reading => simp [inPhase, hd, hph]
  simp [exec, execDeinit, hl, hp, hr, hbusy]

/-- Past its check for a busy controller, DEINIT asks whether the outcome has been observed. -/
theorem exec_deinit_idle {d : Txn} (hr : s.ctl.ready = true) (hd : s.txn = some d) (hk : s.lock = none)
    (hi : d.phase = .idle) :
    exec .deinit s = if d.awaited then .refused .descriptorTouchedWhileArmed
      else .next (State.begin { s with ctl := { s.ctl with irqRegistered := false } } (deinitLines s.opts)) := by
  simp [exec, execDeinit, State.outcomeAwaited, inPhase, hl, hp, hr, hd, hk, hi]

end

/-- Settles O53: the check for overlapping calls stands first, then the one for a ready controller. -/
theorem initTwice : Obligations.InitTwice := fun _ khz line =>
  ⟨fun hr hl hp => exec_init_ready hl hp hr khz line,
    fun h => ⟨exec_init_concurrent h khz line, exec_deinit_concurrent h⟩⟩

-- The lines of the two operations

/-- An operation begun by a caller in none has all its lines left. -/
theorem goes_begin {u : State} (hw : u.CallersWf) (ht : u.self.task = []) (l : List Act) :
    Goes 0 (u.begin l) u l .pending := by
  refine ⟨(u.begin l).callers, rfl, State.CallersWf.begin hw l, rfl, ?_, fun _ _ => rfl⟩
  show (u.begin l).self = _
  rw [State.self_begin hw, ht, List.append_nil]

section
variable {n : Nat} {s u v : State} {l : List Act} {r : Result}

/-- A turn whose line keeps this caller's result. -/
theorem Goes.lineSetTask {a : Act} {l' : List Act} (h : Goes n s u (a :: l) r) (hv : v.actor = u.actor)
    (hl : ∀ c, (State.self { u with callers := c }).result = r →
      performLine a l { u with callers := c } = .next (State.setTask { v with callers := c } l')) :
    Goes (n + 1) s v l' r :=
  h.line hv fun c hc => by
    have hs : State.self { v with callers := c } = State.self { u with callers := c } := congrArg (sparseRead _ c) hv
    rw [hl c (congrArg Caller.result hc), State.setTask, hs, hc]

/-- A turn whose line gives this caller a result. -/
theorem Goes.lineGoOn {a : Act} {l' : List Act} {r' : Result} (h : Goes n s u (a :: l) r) (hv : v.actor = u.actor)
    (hl : ∀ c, (State.self { u with callers := c }).result = r →
      performLine a l { u with callers := c } = .next (State.goOn { v with callers := c } r' l')) :
    Goes (n + 1) s v l' r' :=
  h.line hv fun c hc => by
    have hs : State.self { v with callers := c } = State.self { u with callers := c } := congrArg (sparseRead _ c) hv
    rw [hl c (congrArg Caller.result hc), State.goOn, hs, hc]

/-- A write line in an open block does what the register's rule does. -/
theorem Goes.writeOpen {g : Reg} {w : Word} (h : Goes n s u (.write g w :: l) r) (ho : u.i2cOpen = true)
    (hb : g.block = .i2c) (ha : v.actor = u.actor)
    (hv : ∀ c, writeRule g w { u with callers := c } = .next { v with callers := c }) : Goes (n + 1) s v l r :=
  h.write ha fun c => (regWrite_open (s := { u with callers := c }) ho hb w).trans (hv c)

/-- The clock check with the clock gated: the request is next (41 R171). -/
theorem Goes.clkEnsure_gated (h : Goes n s u (.clkEnsure :: l) r) (hm : u.ctl.clkMapped = true) (hg : u.idlest ≠ 0) :
    Goes (n + 1) s u (.clkRequest u.clkctrl :: l) r :=
  h.lineSetTask rfl fun c _ => performLine_clkEnsure_request (s := { u with callers := c }) l hm (.inr hg)

/-- The request is written, and the poll is next (41 R171). -/
theorem Goes.clkRequest {c : Word} (h : Goes n s u (.clkRequest c :: l) r) (hm : u.ctl.clkMapped = true) :
    Goes (n + 1) s { u with modulemode := 2 } (.clkPoll u.opts.nClkPoll :: l) r :=
  h.lineSetTask rfl fun cs _ => performLine_clkRequest (s := { u with callers := cs }) l hm c

/-- With the clock gated the poll makes all its reads (41 R171). -/
theorem Goes.clkPolls_gated {left : Nat} (h : Goes n s u (.clkPoll left :: l) r) (hm : u.ctl.clkMapped = true)
    (hg : u.idlest ≠ 0) : Goes (n + left) s u (.clkPoll 0 :: l) r := by
  induction left generalizing n with
  | zero => exact h
  | succ left ih =>
    rw [Nat.add_succ, ← Nat.succ_add]
    exact ih (h.clkPoll_gated hm hg)

/-- The clock given up, its read and its write (41 R173). -/
theorem Goes.clkDisable (h : Goes n s u (.clkDrop :: l) r) (hm : u.ctl.clkMapped = true) :
    Goes (n + 2) s { u with modulemode := 0 } l .unit :=
  have hread : Goes (n + 1) s u (.clkRelease u.clkctrl :: l) r :=
    h.lineSetTask rfl fun c _ => performLine_clkDrop (s := { u with callers := c }) l hm
  hread.lineGoOn rfl fun c _ => performLine_clkRelease (s := { u with callers := c }) l hm _

/-- The registration of the interrupt service (45 R300). -/
theorem Goes.registerIsr {line : Word} (h : Goes n s u (.registerIsr line :: l) r) :
    Goes (n + 1) s { u with ctl := { u.ctl with irqLine := some line, irqRegistered := true } } l r :=
  h.lineSetTask rfl fun _ _ => rfl

/-- The end of an INIT without an error (45 R300). -/
theorem Goes.initEnd_ok {sp : Speed} (h : Goes n s u (.initEnd sp :: l) r) (hr : r.isErr = false) :
    Goes (n + 1) s { u with txn := some Txn.fresh, ctl := { u.ctl with speed := some sp, ready := true } } l .ok :=
  h.lineGoOn rfl fun c hc => by
    rw [performLine, initEndLine, if_neg (by rw [hc, hr]; exact Bool.false_ne_true)]

/-- The end of an INIT after an error, which stays its result (45 R300). -/
theorem Goes.initEnd_err {sp : Speed} (h : Goes n s u (.initEnd sp :: l) r) (hr : r.isErr = true) :
    Goes (n + 1) s { u with ctl := { u.ctl with i2cMapped := false, clkMapped := false } } l r :=
  h.lineSetTask rfl fun c hc => by rw [performLine, initEndLine, if_pos (by rw [hc, hr])]

theorem performLine_deinitEnd_awaited {d : Txn} (hd : s.txn = some d) (ha : d.awaited = true) (rest : List Act) :
    performLine .deinitEnd rest s = .refused .descriptorTouchedWhileArmed :=
  if_pos (by simp [State.outcomeAwaited, hd, ha])

/-- The end of DEINIT with the outcome observed (45 R304). -/
theorem Goes.deinitEnd {d : Txn} (h : Goes n s u (.deinitEnd :: l) r) (hd : u.txn = some d) (ha : d.awaited = false) :
    Goes (n + 1) s
      { u with txn := none, ctl := { u.ctl with i2cMapped := false, clkMapped := false, ready := false } } l .unit :=
  h.lineGoOn rfl fun c _ => if_neg (by simp [State.outcomeAwaited, hd, ha])

end

-- The register writes of INIT and DEINIT

/-- A timing constant is stored whole. -/
theorem extractLsb'_setWidth_byte : ∀ b : Byte, (b.setWidth 32 : Word).extractLsb' 0 8 = b := by decide

section
variable {s : State} (he : s.con.en = false) (b : Byte)
include he

theorem writeRule_psc_byte : writeRule .psc (b.setWidth 32) s = .next { s with psc := some b } := by
  rw [writeRule, writePsc, timingWrite_disabled he, extractLsb'_setWidth_byte]

theorem writeRule_scll_byte : writeRule .scll (b.setWidth 32) s = .next { s with scll := some b } := by
  rw [writeRule, writeScll, timingWrite_disabled he, extractLsb'_setWidth_byte]

theorem writeRule_sclh_byte : writeRule .sclh (b.setWidth 32) s = .next { s with sclh := some b } := by
  rw [writeRule, writeSclh, timingWrite_disabled he, extractLsb'_setWidth_byte]

end

/-- Setting all five enables leaves all five set, whatever was enabled before. -/
theorem writeRule_irqenableSet_all (s : State) :
    writeRule .irqenableSet (statWord s.opts.bits statAll) s = .next { s with ie := statAll } := by
  have hall : ∀ x : Status, x ||| statAll = statAll := by decide
  rw [writeRule, writeIrqenableSet, statw_statWord, hall]

section
variable {n : Nat} {s u : State} {l : List Act} {r : Result}

/-- The timing registers take a profile while the module is disabled (45 R301). -/
theorem Goes.writeTiming {p : Profile} (h : Goes n s u (.write .psc (p.psc.setWidth 32)
      :: .write .scll (p.scll.setWidth 32) :: .write .sclh (p.sclh.setWidth 32) :: l) r)
    (ho : u.i2cOpen = true) (he : u.con.en = false) :
    Goes (n + 3) s { u with psc := some p.psc, scll := some p.scll, sclh := some p.sclh } l r := by
  have hpsc := h.writeOpen (v := { u with psc := some p.psc }) ho rfl rfl fun _ => writeRule_psc_byte (by exact he) _
  have hscll := hpsc.writeOpen (v := { u with psc := some p.psc, scll := some p.scll }) ho rfl rfl
    fun _ => writeRule_scll_byte (by exact he) _
  exact hscll.writeOpen ho rfl rfl fun _ => writeRule_sclh_byte (by exact he) _

/-- All five sources enabled (45 R303). -/
theorem Goes.enableAll (h : Goes n s u (.write .irqenableSet (statWord u.opts.bits statAll) :: l) r)
    (ho : u.i2cOpen = true) : Goes (n + 1) s { u with ie := statAll } l r :=
  h.writeOpen ho rfl rfl fun c => writeRule_irqenableSet_all { u with callers := c }

/-- The module enabled. -/
theorem Goes.enableModule (h : Goes n s u (.write .con (conEnableWord u.opts.bits) :: l) r) (ho : u.i2cOpen = true) :
    Goes (n + 1) s { u with con := { en := true, mst := false, trx := false } } l r :=
  h.writeOpen ho rfl rfl fun c => writeCon_word (s := { u with callers := c }) rfl .enable

/-- The module disabled and the engine reset (40 R144(a)). -/
theorem Goes.disableModule (h : Goes n s u (.write .con (conDisableWord u.opts.bits) :: l) r) (ho : u.i2cOpen = true) :
    Goes (n + 1) s { u with con := { en := false, mst := false, trx := false }, eng := u.eng.disabled } l r :=
  h.writeOpen ho rfl rfl fun c => writeCon_word (s := { u with callers := c }) rfl .disable

-- INIT runs (R300, R301, R303)

/-- The lines of INIT with both blocks mapped, a functional clock and the module disabled. -/
theorem Goes.init {sp : Speed} {line : Word} (h : Goes n s u (initLines u.opts sp line) r)
    (hi : u.ctl.i2cMapped = true) (hm : u.ctl.clkMapped = true) (h2 : u.modulemode = 2) (h0 : u.idlest = 0)
    (he : u.con.en = false) :
    Goes (n + 9) s
      { u with
        ctl := { u.ctl with irqLine := some line, irqRegistered := true, speed := some sp, ready := true }
        txn := some Txn.fresh
        psc := some (sp.timing u.opts).psc
        scll := some (sp.timing u.opts).scll
        sclh := some (sp.timing u.opts).sclh
        raw := 0
        ie := statAll
        con := { en := true, mst := false, trx := false }
        eng := { u.eng with window := false } } [] .ok := by
  have ho : u.i2cOpen = true := u.i2cOpen_iff.2 ⟨hi, h0⟩
  have htimed := (Goes.clkEnsure hm h2 h0 h).writeTiming ho he
  have hcleared := Goes.ackAll (by exact ho) htimed
  have henabled := (hcleared.enableAll ho).enableModule ho
  exact henabled.registerIsr.initEnd_ok rfl

/-- The lines of INIT with the clock block mapped and the clock gated: the request, all reads of the poll, the Timeout. -/
theorem Goes.init_gated {sp : Speed} {line : Word} (h : Goes n s u (initLines u.opts sp line) r)
    (hm : u.ctl.clkMapped = true) (hg : u.idlest ≠ 0) :
    Goes (n + (u.opts.nClkPoll + 4)) s
      { u with modulemode := 2, ctl := { u.ctl with i2cMapped := false, clkMapped := false } } [] (.err .timeout) := by
  have hpolled := ((h.clkEnsure_gated hm hg).clkRequest hm).clkPolls_gated hm hg
  have hend := hpolled.clkPoll_zero.initEnd_err rfl
  rwa [show n + (u.opts.nClkPoll + 4) = n + 1 + 1 + u.opts.nClkPoll + 1 + 1 by omega]

/-- The lines of DEINIT with both blocks mapped, the clock live and the outcome observed. -/
theorem Goes.deinit {d : Txn} (h : Goes n s u (deinitLines u.opts) r) (hi : u.ctl.i2cMapped = true)
    (hm : u.ctl.clkMapped = true) (h0 : u.idlest = 0) (hd : u.txn = some d) (ha : d.awaited = false) :
    Goes (n + 4) s
      { u with
        ctl := { u.ctl with i2cMapped := false, clkMapped := false, ready := false }
        txn := none
        con := { en := false, mst := false, trx := false }
        modulemode := 0
        eng := u.eng.disabled } [] .unit := by
  have hoff := h.disableModule (u.i2cOpen_iff.2 ⟨hi, h0⟩)
  exact (hoff.clkDisable hm).deinitEnd hd ha

end

/-- Settles O51: INIT begins with both blocks mapped, then `Goes.init`. -/
theorem initRuns : Obligations.InitRuns := by
  intro s khz line hw ht hr hl hp h2 h0 he
  have hstart := goes_begin (u := { s with ctl := { s.ctl with i2cMapped := true, clkMapped := true } }) hw ht
    (initLines s.opts (profile khz) line)
  obtain ⟨c, hturns, -, -, hself, hother⟩ := hstart.init rfl rfl h2 h0 he
  refine ⟨_, _, c, exec_init_begin hl hp hr khz line, rfl, rfl, hturns, ?_, congrArg Caller.task hself,
    congrArg Caller.result hself, fun k hk => (hother k hk).trans (State.caller_goOn_other _ hk _ _)⟩
  by_cases hk : khz = 400
  · simp only [profile, if_pos hk]
    rfl
  · simp only [profile, if_neg hk]
    rfl

/-- Settles O52: INIT begins with both blocks mapped, then `Goes.init_gated`. -/
theorem initTimesOut : Obligations.InitTimesOut := by
  intro s khz line hw ht hr hl hp hg
  have hstart := goes_begin (u := { s with ctl := { s.ctl with i2cMapped := true, clkMapped := true } }) hw ht
    (initLines s.opts (profile khz) line)
  obtain ⟨c, hturns, -, -, hself, -⟩ := hstart.init_gated rfl hg
  rw [Nat.zero_add] at hturns
  exact ⟨_, _, c, exec_init_begin hl hp hr khz line, hturns, rfl, congrArg Caller.task hself,
    congrArg Caller.result hself⟩

-- DEINIT (R304, R305)

/-- With the clock gated a write line of the I2C block is a BusFault (40 R130). -/
theorem performLine_write_gated {s : State} {g : Reg} (hb : g.block = .i2c) (hi : s.ctl.i2cMapped = true)
    (hg : s.idlest ≠ 0) (w : Word) (rest : List Act) :
    performLine (.write g w) rest s = .fault (.busFault .i2c (g.offset s.opts)) := by
  rw [performLine, regWrite_access, access_gated hb hi hg]
  rfl

/-- The first line of DEINIT is its CON write. -/
theorem advance_begin_deinit_gated {s : State} (hw : s.CallersWf) (ht : s.self.task = []) (hi : s.ctl.i2cMapped = true)
    (hg : s.idlest ≠ 0) :
    advance (s.begin (deinitLines s.opts)) = .fault (.busFault .i2c (Reg.con.offset s.opts)) :=
  (advance_cons (State.self_begin_task hw ht _)).trans (performLine_write_gated rfl (by exact hi) (by exact hg) _ _)

/-- Settles O54: the checks in their order, then `Goes.deinit`; with the clock gated the first line faults. -/
theorem deinitRuns : Obligations.DeinitRuns := by
  intro s hw ht hl hp
  refine ⟨exec_deinit_not_ready hl hp, fun d hr hd h => exec_deinit_busy hl hp hr hd h, fun d hr hd hk hi ha => ?_,
    fun d rest hd ha => performLine_deinitEnd_awaited hd ha rest, fun d hr hd hk hi ha hi2c hclk => ?_⟩
  · rw [exec_deinit_idle hl hp hr hd hk hi, if_pos ha]
  · have hexec := exec_deinit_idle hl hp hr hd hk hi
    rw [ha] at hexec
    have hstart := goes_begin (u := { s with ctl := { s.ctl with irqRegistered := false } }) hw ht (deinitLines s.opts)
    refine ⟨_, _, hexec, rfl, fun h0 => ?_, fun hg => ?_⟩
    · obtain ⟨e, hturns, -, -, hself, -⟩ := hstart.deinit hi2c hclk h0 hd ha
      exact ⟨_, e, hturns, rfl, congrArg Caller.task hself, congrArg Caller.result hself⟩
    · exact advance_begin_deinit_gated (s := { s with ctl := { s.ctl with irqRegistered := false } }) hw ht hi2c hg

end Sys2Proof.Machine
end

section
/-!
The one fault (60_exceptions R328). The lines of the callers and of the interrupt service fault only where an access does
(`gated_performLine`, `gated_isrRun`); what an operation does before its first line never faults, and no event of the
engine, of the power manager or of time makes an access.
-/
namespace Sys2Proof.Machine

-- Computations whose faults are this state's

/-- Where the computation faults, an access made in `s` answers that BusFault. -/
structure FaultsGated (s : State) (x : Res State) : Prop where
  gated : ∀ f, x = .fault f → s.Gated f

theorem faultsGated_next (s t : State) : FaultsGated s (.next t) := ⟨fun _ h => nomatch h⟩

theorem faultsGated_refused (s : State) (e : Refusal) : FaultsGated s (.refused e) := ⟨fun _ h => nomatch h⟩

theorem faultsGated_ite {s : State} {c : Prop} [Decidable c] {x y : Res State} (hx : FaultsGated s x)
    (hy : FaultsGated s y) : FaultsGated s (if c then x else y) := by
  split
  · exact hx
  · exact hy

theorem faultsGated_read {s : State} {r : Reg} {g : Word × State → Res State}
    (hg : ∀ p, regRead r s = .next p → FaultsGated s (g p)) : FaultsGated s (andThen (regRead r s) g) := by
  refine ⟨fun f h => ?_⟩
  rcases andThen_fault h with h | ⟨p, hp, h⟩
  · exact gated_read h
  · exact (hg p hp).gated f h

theorem faultsGated_write {s : State} {r : Reg} {v : Word} {g : State → Res State}
    (hg : ∀ t, FaultsGated s (g t)) : FaultsGated s (andThen (regWrite r v s) g) := by
  refine ⟨fun f h => ?_⟩
  rcases andThen_fault h with h | ⟨t, -, h⟩
  · exact gated_write h
  · exact (hg t).gated f h

-- The callers' operations

theorem faultsGated_advance (s : State) : FaultsGated s (advance s) := by
  unfold advance
  split
  · exact faultsGated_next ..
  · exact ⟨fun _ h => gated_performLine h⟩

/-- Laying an operation out as lines leaves the mapping and the clock as they are. -/
theorem faultsGated_advance_goOn (s : State) (r : Result) (l : List Act) : FaultsGated s (advance (s.goOn r l)) :=
  ⟨(faultsGated_advance (s.goOn r l)).gated⟩

theorem faultsGated_callerRead (r : Reg) (s : State) : FaultsGated s (callerRead r s) :=
  faultsGated_read fun _ _ => faultsGated_next ..

theorem faultsGated_callerWrite (r : Reg) (v : Word) (s : State) : FaultsGated s (callerWrite r v s) :=
  faultsGated_write fun _ => faultsGated_next ..

theorem faultsGated_execInit (kHz line : Word) (s : State) : FaultsGated s (execInit kHz line s) :=
  faultsGated_ite (faultsGated_refused ..) (faultsGated_ite (faultsGated_next ..) (faultsGated_next ..))

theorem faultsGated_execDeinit (s : State) : FaultsGated s (execDeinit s) :=
  faultsGated_ite (faultsGated_refused ..) (faultsGated_ite (faultsGated_next ..) (faultsGated_ite
    (faultsGated_refused ..) (faultsGated_ite (faultsGated_refused ..) (faultsGated_next ..))))

theorem faultsGated_startTransfer (a : Byte) (n : Nat) (x y : List Byte) (l : List Act) (s t : State) :
    FaultsGated s (startTransfer a n x y l t) :=
  faultsGated_ite (faultsGated_refused ..) (faultsGated_next ..)

theorem faultsGated_transferCall {s : State} {g : State → Res State} (hg : FaultsGated s (g s)) :
    FaultsGated s (transferCall g s) :=
  faultsGated_ite (faultsGated_refused ..) (faultsGated_ite (faultsGated_next ..) hg)

theorem faultsGated_bufferCall {s : State} {b : Option Word} {n : Word} {g : Word → Res State}
    (hg : ∀ base, FaultsGated s (g base)) : FaultsGated s (bufferCall b n g s) := by
  cases b with
  | none => exact faultsGated_next ..
  | some base => exact faultsGated_ite (faultsGated_next ..) (hg base)

theorem faultsGated_transferBytes (d : Dir) (a : Byte) (b : Option Word) (n : Word) (s : State) :
    FaultsGated s (transferBytes d a b n s) :=
  faultsGated_transferCall (faultsGated_bufferCall fun _ => faultsGated_startTransfer ..)

theorem faultsGated_execReadBlock (a r : Byte) (b : Option Word) (n : Word) (s : State) :
    FaultsGated s (execReadBlock a r b n s) :=
  faultsGated_transferCall (faultsGated_bufferCall fun _ =>
    faultsGated_ite (faultsGated_next ..) (faultsGated_startTransfer ..))

theorem faultsGated_startArming (d : Dir) (a : Byte) (b n : Word) (s : State) :
    FaultsGated s (startArming d a b n s) :=
  faultsGated_ite (faultsGated_refused ..) (faultsGated_advance_goOn ..)

theorem faultsGated_execWaitComplete (s : State) : FaultsGated s (execWaitComplete s) :=
  faultsGated_ite (faultsGated_advance_goOn ..) (faultsGated_ite (faultsGated_refused ..) (faultsGated_refused ..))

theorem faultsGated_execXferLocked (d : Dir) (a : Byte) (b n : Word) (s : State) :
    FaultsGated s (execXferLocked d a b n s) :=
  faultsGated_ite (faultsGated_refused ..) (faultsGated_ite (faultsGated_refused ..) (faultsGated_advance_goOn ..))

theorem faultsGated_byCaller {i : Instr} (hi : i.byCaller = true) (s : State) : FaultsGated s (exec i s) := by
  cases i with
  | init kHz line => exact faultsGated_execInit kHz line s
  | deinit => exact faultsGated_execDeinit s
  | writeBytes | readBytes => exact faultsGated_transferBytes ..
  | writeRegister | readRegister => exact faultsGated_transferCall (faultsGated_startTransfer ..)
  | readBlock => exact faultsGated_execReadBlock ..
  | clkEnsureEnabled | clkDisable | lockAcquire | lockRelease => exact faultsGated_advance_goOn ..
  | clkIsEnabled => exact faultsGated_read fun _ _ => faultsGated_next ..
  | startWrite | startRead => exact faultsGated_startArming ..
  | waitComplete => exact faultsGated_execWaitComplete s
  | xferLocked => exact faultsGated_execXferLocked ..
  | rdIrqstatusRaw | rdIrqstatus | rdIrqenableSet | rdIrqenableClr | rdCnt | rdData | rdCon | rdSa | rdPsc | rdScll
  | rdSclh | rdClkctrl => exact faultsGated_callerRead ..
  | wrIrqstatusRaw | wrIrqstatus | wrIrqenableSet | wrIrqenableClr | wrCnt | wrData | wrCon | wrSa | wrPsc | wrScll
  | wrSclh | wrClkctrl | conStartTx | conStartRx | conEnable | conDisable => exact faultsGated_callerWrite ..
  | _ => cases hi

-- The interrupt service

/-- The snapshot is an access of this state; the lines after it run in one that differs by what the service can change. -/
theorem faultsGated_execIsrService (s : State) : FaultsGated s (execIsrService s) := by
  refine faultsGated_ite (faultsGated_read fun p hp => faultsGated_ite ⟨fun f h => ?_⟩ (faultsGated_next ..))
    (faultsGated_next ..)
  obtain ⟨rfl, -⟩ := regRead_next hp
  have hrun : ({ s with isr := _ } : State).Gated f := gated_isrRun _ h
  exact hrun

-- The events

theorem exec_engineEvent_answers {i : Instr} (hi : engineEvent i = true) (s : State) : ∃ t, exec i s = .next t := by
  by_cases he : s.engLive = true ∧ s.eventCond i
  · obtain ⟨t, ht, -⟩ := engFrame_of_eventCond he.1 he.2
    exact ⟨t, ht⟩
  · exact ⟨s, exec_of_not_eventCond hi fun hl hc => he ⟨hl, hc⟩⟩

theorem faultsGated_execXferTimeoutFires (s : State) : FaultsGated s (execXferTimeoutFires s) := by
  unfold execXferTimeoutFires
  split
  · split
    · exact faultsGated_ite (faultsGated_next ..) (faultsGated_next ..)
    · exact faultsGated_next ..
  · exact faultsGated_next ..

theorem faultsGated_event {i : Instr} (hf : i.format = .evt8) (hs : ∀ d, i ≠ .engStart d) (s : State) :
    FaultsGated s (exec i s) := by
  rcases event_kinds hf hs with hi | (rfl | rfl | rfl) | rfl
  · obtain ⟨t, ht⟩ := exec_engineEvent_answers hi s
    exact ht ▸ faultsGated_next s t
  · exact faultsGated_next ..
  · exact faultsGated_ite (faultsGated_ite (faultsGated_next ..) (faultsGated_next ..)) (faultsGated_next ..)
  · exact faultsGated_ite (faultsGated_ite (faultsGated_next ..) (faultsGated_next ..)) (faultsGated_next ..)
  · exact faultsGated_execXferTimeoutFires s

-- The step

theorem faultsGated_performOp (id : Nat) (i : Instr) (s : State) : FaultsGated s (performOp id i s) := by
  unfold performOp
  split
  · rename_i hb
    exact faultsGated_ite ⟨(faultsGated_byCaller hb { s with actor := id }).gated⟩ (faultsGated_next ..)
  · rename_i hb
    split
    · rename_i ho
      by_cases hi : i = .isrService
      · exact hi ▸ faultsGated_execIsrService s
      · have hs : ∀ d, i ≠ .engStart d := fun d e => by rw [e] at ho; cases ho
        exact faultsGated_event (format_of_not_byCaller (Bool.eq_false_iff.2 hb) hi) hs s
    · exact faultsGated_next ..

theorem faultsGated_issue (id : Nat) (fmt : Format) (bytes : List Byte) (s : State) :
    FaultsGated s (issue id fmt bytes s) := by
  unfold issue
  split
  · exact faultsGated_performOp ..
  · exact faultsGated_ite (faultsGated_refused ..) (faultsGated_refused ..)
  · exact faultsGated_refused ..

theorem faultsGated_runSlot (x : Slot) (s : State) : FaultsGated s (runSlot x s) := by
  cases x with
  | op id fmt bytes => exact faultsGated_issue id fmt bytes s
  | turn id => exact ⟨(faultsGated_advance { s with actor := id }).gated⟩
  | isrTurn => exact ⟨fun _ h => gated_isrAdvance h⟩

/-- Taking the entry off the schedule leaves the mapping and the clock as they are. -/
theorem faultsGated_step (s : State) : FaultsGated s (step s) := by
  cases hs : s.sched with
  | nil => exact step_nil hs ▸ faultsGated_next s s
  | cons x rest => exact step_cons hs ▸ ⟨(faultsGated_runSlot x { s with sched := rest }).gated⟩

/-- Settles O24: by the entry of the schedule the step takes, each fault is that of an access made in this state. -/
theorem faultOnlyWhenGated : Obligations.FaultOnlyWhenGated := fun s => (faultsGated_step s).gated

end Sys2Proof.Machine
end
